-- ==== Sys2Proof/Word.lean ====
section
/-!
DEFINITION. The word types of the PX940 and their plainest readings.
-/
namespace Sys2Proof

/-- A lane word: one architectural register of one lane (R42). -/
abbrev Word := BitVec 32
/-- A byte of memory. -/
abbrev Byte := BitVec 8
/-- A 64-bit value: a pair of registers, an address or a table entry (R43). -/
abbrev DWord := BitVec 64
/-- A vector register operand, v0 to v127, read through the window (R36). -/
abbrev Reg := BitVec 7
/-- A predicate operand, p0 to p7 (R36). -/
abbrev Pred := BitVec 3
/-- The guard field g (R39). -/
abbrev Guard := BitVec 4

/-- The lane numbers of a warp, ascending. -/
def lanes32 : List Nat := List.range 32

/-- One word for each lane, computed lane by lane. -/
def lanesOf {α : Type} (f : Nat → α) : List α := lanes32.map f

end Sys2Proof
end

