-- ==== Sys2Proof/Syntax.lean ====
section
/-!
DEFINITION. The steps of the machine as syntax: one constructor for each row of spec/opcode_table.json, the 205
encoded instructions (R44, R45) and the 77 operations and events that have no encoding, with their operands.
-/
namespace Sys2Proof

/-- A read or a write that arrives on a bus from outside the device (R358, R360). -/
inductive BusOp where
  | read (n : Nat)
  | write (bytes : List Byte)
  deriving DecidableEq, Repr

/-- One contribution to a fabric reduction, as it arrives at its home (R254, R318). -/
structure Contribution where
  src : Nat
  jobno : Nat
  part : Nat
  number : Nat
  dst : Nat
  mask : BitVec 16
  payload : Nat
  dkind : Nat
  rnd : Nat
  sat : Bool
  /-- bytes of one row, and the rows' payload, row after row -/
  rowBytes : Nat
  dstride : Nat
  bytes : List Byte
  /-- a line that its source was read from is poisoned (R404) -/
  bad : Bool
  deriving DecidableEq, Repr

/-- What a message from a peer asks for (R348, R354). A load says whether it may set a reuse-read mark (R165, R167), a
plain RED is acknowledged and answers no word, and the answer to a contribution says with which status, class, detail and
auxiliary word the reduction ended (R255, R319). Link control tells which chips the sender has live links to (R353). -/
inductive MsgBody where
  | load (addr width : Nat) (reuse : Bool)
  | store (addr : Nat) (bytes : List Byte)
  | atom (op addr : Nat) (operand : Word)
  | atomc (addr : Nat) (expect new : Word)
  | red (op addr : Nat) (operand : Word)
  | elemLoad (jobno handle : Nat) (coord : List Nat)
  | elemStore (jobno handle : Nat) (coord : List Nat) (value : Word)
  | slabFetch (jobno handle : Nat) (tile : List Nat)
  | contribute (c : Contribution)
  | memoRemoval
  | shardClose (jobno entry : Nat)
  | shardOpen (jobno entry : Nat) (bytes : List Byte)
  | failNotice (peer : Nat)
  | reduceAck (copy status cls detail aux : Nat)
  | lostNotice (warp peer : Nat)
  | linkControl (reach : List Nat)
  deriving DecidableEq, Repr

/-- A message from a peer device, with its sender and partition number (R346). -/
structure PeerMsg where
  src : Nat
  part : Nat
  body : MsgBody
  deriving DecidableEq, Repr

/-- The channel of a message (R348). -/
def MsgBody.channel : MsgBody → Nat
  | .load _ _ _ | .atom _ _ _ | .atomc _ _ _ | .elemLoad _ _ _ | .elemStore _ _ _ _ | .slabFetch _ _ _ => 0
  | .reduceAck _ _ _ _ _ => 1
  | .store _ _ | .red _ _ _ => 2
  | .contribute _ => 3
  | .memoRemoval | .shardClose _ _ | .shardOpen _ _ _ | .failNotice _ | .lostNotice _ _ => 5
  | .linkControl _ => 6

/-- A flit as it is received: its header fields, whether FEC and CRC found it whole, the messages it completes, each with
its message number (R347), and on channel 4 the chip they are forwarded to, where it is not the receiver (R353). -/
structure Flit where
  ch : BitVec 3
  nak : Bool
  seq : BitVec 12
  ack : BitVec 12
  fcch : BitVec 4
  freed : Word
  intact : Bool
  msgs : List (BitVec 16 × PeerMsg)
  fwd : Option Nat := none
  deriving DecidableEq, Repr

/-- The node configuration NODECFG: node size, own chip number, and for each of 16 ports the peer chip and the peer's
port, if the port is assigned (R344, R399). -/
structure NodeCfg where
  size : Nat
  chip : Nat
  ports : List (Option (Nat × Nat))
  deriving DecidableEq, Repr

/-- A firmware image (R395). -/
structure FwImage where
  magic : Word
  svn : Word
  bodyLen : DWord
  rsaSig : List Byte
  slhSig : List Byte
  modulus : List Byte
  exponent : Word
  slhKey : List Byte
  zeros : List Byte
  body : List Byte
  deriving DecidableEq, Repr

/-- One step of the machine: an encoded instruction, whose operands are the fields of its word, or an operation or
event of the part, whose operands name what it happens to. Warps, groups, jobs, graphs, copies and teams are named by
the number the model gave them when they came to be; cores, partitions, dies, ports and peers by their own numbers. -/
inductive Instr where
  | nop
  | iadd (d a b : Reg) (g : Guard)
  | isub (d a b : Reg) (g : Guard)
  | imul (d a b : Reg) (g : Guard)
  | imulhS (d a b : Reg) (g : Guard)
  | imulhN (d a b : Reg) (g : Guard)
  | imad (d a b : Reg) (g : Guard)
  | imadwS (d a b : Reg) (g : Guard)
  | imadwN (d a b : Reg) (g : Guard)
  | iadd64 (d a b : Reg) (g : Guard)
  | isub64 (d a b : Reg) (g : Guard)
  | iminS (d a b : Reg) (g : Guard)
  | iminN (d a b : Reg) (g : Guard)
  | imaxS (d a b : Reg) (g : Guard)
  | imaxN (d a b : Reg) (g : Guard)
  | ishl (d a b : Reg) (g : Guard)
  | ishr (d a b : Reg) (g : Guard)
  | isar (d a b : Reg) (g : Guard)
  | irot (d a b : Reg) (g : Guard)
  | and (d a b : Reg) (g : Guard)
  | or (d a b : Reg) (g : Guard)
  | xor (d a b : Reg) (g : Guard)
  | andn (d a b : Reg) (g : Guard)
  | bfxS (d a b : Reg) (g : Guard)
  | bfxN (d a b : Reg) (g : Guard)
  | bfi (d a b : Reg) (g : Guard)
  | bperm (d a b : Reg) (g : Guard)
  | isel (d a b : Reg) (g : Guard)
  | icmp (c : BitVec 4) (p : Pred) (a b : Reg) (g : Guard)
  | mov (d a : Reg) (g : Guard)
  | not (d a : Reg) (g : Guard)
  | ineg (d a : Reg) (g : Guard)
  | iabs (d a : Reg) (g : Guard)
  | popc (d a : Reg) (g : Guard)
  | clz (d a : Reg) (g : Guard)
  | brev (d a : Reg) (g : Guard)
  | sext8 (d a : Reg) (g : Guard)
  | sext16 (d a : Reg) (g : Guard)
  | zext8 (d a : Reg) (g : Guard)
  | zext16 (d a : Reg) (g : Guard)
  | pand (d b a : Pred) (g : Guard)
  | por (d b a : Pred) (g : Guard)
  | pxor (d b a : Pred) (g : Guard)
  | pnot (d a : Pred) (g : Guard)
  | p2v (d : Reg) (g : Guard)
  | v2p (a : Reg) (g : Guard)
  | pset (d : Pred) (a : Reg) (g : Guard)
  | iaddi (d a : Reg) (i : BitVec 11)
  | imuli (d a : Reg) (i : BitVec 11)
  | andi (d a : Reg) (i : BitVec 11)
  | ori (d a : Reg) (i : BitVec 11)
  | xori (d a : Reg) (i : BitVec 11)
  | shli (d a : Reg) (n : BitVec 5)
  | shri (d a : Reg) (n : BitVec 5)
  | sari (d a : Reg) (n : BitVec 5)
  | icmpi (c : BitVec 4) (p : Pred) (a : Reg) (i : BitVec 11)
  | movl (d : Reg) (i : BitVec 18)
  | movh (d : Reg) (i : BitVec 18)
  | bra (g : Guard) (i : BitVec 21)
  | call (g : Guard) (i : BitVec 21)
  | brx (a : Reg) (g : Guard)
  | callx (a : Reg) (g : Guard)
  | ret (g : Guard)
  | exit (g : Guard)
  | join (i : BitVec 21)
  | winb (i : BitVec 11)
  | trap (i : BitVec 11)
  | bpt (i : BitVec 11)
  | xt (h c : BitVec 3) (s : BitVec 7)
  | fadd (d a b : Reg) (g : Guard)
  | fsub (d a b : Reg) (g : Guard)
  | fmul (d a b : Reg) (g : Guard)
  | ffma (d a b : Reg) (g : Guard)
  | ffms (d a b : Reg) (g : Guard)
  | fmin (d a b : Reg) (g : Guard)
  | fmax (d a b : Reg) (g : Guard)
  | fcmp (c : BitVec 4) (p : Pred) (a b : Reg) (g : Guard)
  | fdiv (d a b : Reg) (g : Guard)
  | fscale (d a b : Reg) (g : Guard)
  | hadd2 (d a b : Reg) (g : Guard)
  | hmul2 (d a b : Reg) (g : Guard)
  | hfma2 (d a b : Reg) (g : Guard)
  | badd2 (d a b : Reg) (g : Guard)
  | bmul2 (d a b : Reg) (g : Guard)
  | bfma2 (d a b : Reg) (g : Guard)
  | fdot4 (d a b : Reg) (g : Guard)
  | fdot4E5 (d a b : Reg) (g : Guard)
  | fabs (d a : Reg) (g : Guard)
  | fneg (d a : Reg) (g : Guard)
  | frcp (d a : Reg) (g : Guard)
  | fsqrt (d a : Reg) (g : Guard)
  | frsq (d a : Reg) (g : Guard)
  | fexp2 (d a : Reg) (g : Guard)
  | flog2 (d a : Reg) (g : Guard)
  | fsin (d a : Reg) (g : Guard)
  | fcos (d a : Reg) (g : Guard)
  | ftanh (d a : Reg) (g : Guard)
  | fsigm (d a : Reg) (g : Guard)
  | fclass (d a : Reg) (g : Guard)
  | frndRn (d a : Reg) (g : Guard)
  | frndRz (d a : Reg) (g : Guard)
  | frndRd (d a : Reg) (g : Guard)
  | frndRu (d a : Reg) (g : Guard)
  | fcvt (d a b : Reg) (g : Guard)
  | shflIdx (d a b : Reg) (g : Guard)
  | shflUp (d a b : Reg) (g : Guard)
  | shflDn (d a b : Reg) (g : Guard)
  | shflXor (d a b : Reg) (g : Guard)
  | voteAny (d a : Pred) (g : Guard)
  | voteAll (d a : Pred) (g : Guard)
  | voteBallot (d : Reg) (a : Pred) (g : Guard)
  | voteCount (d : Reg) (a : Pred) (g : Guard)
  | redwAddS32 (d a : Reg) (g : Guard)
  | redwAddF32 (d a : Reg) (g : Guard)
  | redwMinS (d a : Reg) (g : Guard)
  | redwMinN (d a : Reg) (g : Guard)
  | redwMaxS (d a : Reg) (g : Guard)
  | redwMaxN (d a : Reg) (g : Guard)
  | redwMinF (d a : Reg) (g : Guard)
  | redwMaxF (d a : Reg) (g : Guard)
  | redwAnd (d a : Reg) (g : Guard)
  | redwOr (d a : Reg) (g : Guard)
  | redwXor (d a : Reg) (g : Guard)
  | scanwInclS32 (d a : Reg) (g : Guard)
  | scanwExclS32 (d a : Reg) (g : Guard)
  | scanwInclF32 (d a : Reg) (g : Guard)
  | scanwExclF32 (d a : Reg) (g : Guard)
  | matchL (d a : Reg) (g : Guard)
  | fencew (g : Guard)
  | ldN8 (d a b : Reg) (g : Guard)
  | ldS8 (d a b : Reg) (g : Guard)
  | ldN16 (d a b : Reg) (g : Guard)
  | ldS16 (d a b : Reg) (g : Guard)
  | ld32 (d a b : Reg) (g : Guard)
  | ld64 (d a b : Reg) (g : Guard)
  | ld128 (d a b : Reg) (g : Guard)
  | st8 (d a b : Reg) (g : Guard)
  | st16 (d a b : Reg) (g : Guard)
  | st32 (d a b : Reg) (g : Guard)
  | st64 (d a b : Reg) (g : Guard)
  | st128 (d a b : Reg) (g : Guard)
  | ldc (d a b : Reg) (g : Guard)
  | tld (d a b : Reg) (g : Guard)
  | tst (d a b : Reg) (g : Guard)
  | pftL1 (a b : Reg) (g : Guard)
  | pftLlc (a b : Reg) (g : Guard)
  | cflushWb (a : Reg) (g : Guard)
  | cflushInv (a : Reg) (g : Guard)
  | cflushWbinv (a : Reg) (g : Guard)
  | atom (d a b : Reg) (g : Guard)
  | atomc (d a b : Reg) (g : Guard)
  | red (d a b : Reg) (g : Guard)
  | agginc (d a b : Reg) (g : Guard)
  | fence (d : Reg) (s k : BitVec 3)
  | txb (i : BitVec 21)
  | txe
  | orelse (i : BitVec 21)
  | retry (g : Guard)
  | txa (a : Reg) (g : Guard)
  | txq (d : Reg) (g : Guard)
  | phreg (d a : Reg) (g : Guard)
  | phdrop (d a : Reg) (g : Guard)
  | pharr (d a : Reg) (g : Guard)
  | phrd (d a : Reg) (g : Guard)
  | tagany (p : Pred) (a : Reg) (g : Guard)
  | tagall (p : Pred) (a : Reg) (g : Guard)
  | tagff (d a : Reg) (g : Guard)
  | tagclr (a : Reg) (g : Guard)
  | xkick (d a : Reg) (g : Guard)
  | xcancel (d a : Reg) (g : Guard)
  | xstat (d a : Reg) (g : Guard)
  | publish (d a : Reg) (g : Guard)
  | mlds (a b : Reg)
  | mswp (a b : Reg)
  | mstr (a b : Reg)
  | mdrn (a b : Reg)
  | mzero (a b : Reg)
  | mrd (d a : Reg) (g : Guard)
  | mwr (d a : Reg) (g : Guard)
  | zld (d a b : Reg) (g : Guard)
  | zst (d a b : Reg) (g : Guard)
  | zqry (d a : Reg) (g : Guard)
  | zver (d a : Reg) (g : Guard)
  | tqry (d a : Reg) (g : Guard)
  | ctinv (d a : Reg) (g : Guard)
  | ctloadCt (s : BitVec 3) (a b : Reg) (g : Guard)
  | ctloadCb (s : BitVec 3) (a b : Reg) (g : Guard)
  | recfence (a : Reg) (g : Guard)
  | shfence (a : Reg) (g : Guard)
  | launch (d a b : Reg) (g : Guard)
  | cntrd (d a : Reg) (g : Guard)
  | cancel (d a : Reg) (g : Guard)
  | qput (p : Pred) (a : Reg) (q : BitVec 6) (g : Guard)
  | qtake (d : Reg) (p : Pred) (q : BitVec 6) (g : Guard)
  | srd (d : Reg) (i : BitVec 11)
  | swr (a : Reg) (i : BitVec 11)
  | segld (a : Reg) (s : BitVec 3)
  | grprd (d a : Reg) (g : Guard)
  | grpwr (d a : Reg) (g : Guard)
  | grpres (d a : Reg) (g : Guard)
  | tret (g : Guard)
  | tlbinv (a : Reg) (g : Guard)
  | tlbinv2 (a : Reg) (g : Guard)
  | xlate (d a : Reg) (g : Guard)
  | phstart (d a : Reg) (g : Guard)
  | asyncFaultTake (warp : Nat)
  | loadArrival (warp reg : Nat)
  | joinTimeout (warp : Nat)
  | urgencyCompare (team : Nat)
  | poolPressure (core : Nat)
  | pipelineSample (graph : Nat)
  | groupPlace (part : Nat)
  | heldStart (job : Nat)
  | launchStart (graph node : Nat)
  | groupComplete (group : Nat)
  | budgetOverrun (job : Nat)
  | deadlineExpiry (job : Nat)
  | copyComplete (core copy : Nat)
  | followOnIssue (core copy : Nat)
  | shadowCopyStart (core copy : Nat)
  | collectiveAccept (group : Nat)
  | collectiveTimeout (group : Nat)
  | mstrBackground (core : Nat)
  | drainBackground (core : Nat)
  | seamDecode (core : Nat)
  | slabEncode (core copy : Nat)
  | decoderPendingWake (core : Nat)
  | warpWake (warp : Nat)
  | txAbortDeliver (warp : Nat)
  | conflictBackoffEnd (warp : Nat)
  | pageWalkComplete (core : Nat)
  | migratingRewalk (warp : Nat)
  | wcbAgeDrain (core : Nat)
  | remoteAccess (msg : PeerMsg)
  | peerFailed (peer : Nat)
  | groupCaptured (group : Nat)
  | vencAccept (core copy : Nat)
  | vencFrameStart (enc slot : Nat)
  | vencFrameDone (enc slot : Nat)
  | illegalInstruction (word : Word)
  | instructionFetchFault
  | intakeComplete (core : Nat)
  | writePerformed (core index : Nat)
  | reduceContribution (c : Contribution)
  | memoRemovalMessage (chip : Nat)
  | flitReceive (port link : Nat) (flit : Flit)
  | idleFlit (port link : Nat)
  | linkDown (port link : Nat)
  | linkTraining (port link farChip farPort : Nat)
  | hostMemAccess (addr : Nat) (access : BusOp)
  | bar2Access (part addr : Nat) (access : BusOp)
  | doorbell (part : Nat) (value : DWord)
  | install (part addr : Nat)
  | remove (part jobno : Nat)
  | phasestart (part addr : Nat)
  | hostCancel (part : Nat) (operand : DWord) (jobno : Nat)
  | release (part jobno : Nat)
  | failedClear (part : Nat) (mask : BitVec 16)
  | registerWrite (part offset : Nat) (value : DWord)
  | rdreg (part offset : Nat)
  | wrreg (part offset : Nat) (value : DWord)
  | preempt (part : Nat)
  | holdWrite (part : Nat) (hold : Bool)
  | logovfClear (part : Nat)
  | partcfgWrite (numbers : List Nat)
  | nodecfgWrite (cfg : NodeCfg)
  | keyload (slot owner : Nat) (key : BitVec 512) (bypass : Bool)
  | keyclr (slot : Nat)
  | attest (nonce : BitVec 384) (part : Nat)
  | preset (part : Nat)
  | telem (die : Nat)
  | svnup
  | powerOn (image : List Byte)
  | deviceReset (image : List Byte)
  | frameSyncEdge (part : Nat)
  | clockLower (part : Nat)
  | clockRaise (part : Nat)
  | thermalThreshold (die tenths : Nat)
  | hbmEccError (line : Nat) (correctable : Bool)
  | preemptRequest (group : Nat)
  | carveWrite (part die ways : Nat)
  | cxlCacheSnoop (line : Nat) (invalidate : Bool)
  deriving DecidableEq, Repr

end Sys2Proof
end

