-- ==== Sys2Proof/Machine/State.lean ====
section
/-!
DEFINITION. The state of one PX940 as plain data: warps, groups, cores, jobs and levels of work, partitions, the
fabric, the encoders, the boot state and memory, with the state right after reset. The warp, group and core that issue
stand in fields of their own (warp, group, core); all others stand in lists.
-/
namespace Sys2Proof.Machine

/-- An exact number: a NaN, an infinity, or (−1)^neg × mant × 2^exp (R59). -/
inductive Num where
  | nan
  | inf (neg : Bool)
  | fin (neg : Bool) (mant : Nat) (exp : Int)
  deriving DecidableEq, Repr

/-- The level a warp runs at (R46). -/
inductive Level where
  | user | system | handler
  deriving DecidableEq, Repr

/-- The run state of a warp (R368, space 2 item 4). -/
inductive RunState where
  | running | halted | presented | wedged | ended
  deriving DecidableEq, Repr

/-- A byte's place: scratchpad of a group, or a byte of the node's memory (chip × 2^48 + physical address). -/
inductive Loc where
  | scratch (group addr : Nat)
  | mem (addr : Nat)
  deriving DecidableEq, Repr

/-- A 128-byte line that transactions and sleepers track: scratchpad, memory, or a group's tag pseudo-line (R265). -/
inductive Line where
  | scratch (group n : Nat)
  | mem (n : Nat)
  | tags (group : Nat)
  deriving DecidableEq, Repr

/-- An architectural register of a warp: one word for each lane, and the poison mask of its pool entry (R42, R170). -/
structure RegVal where
  words : List Word
  poison : Word
  deriving DecidableEq, Repr

/-- A cached shape record (R87). -/
structure CachedRecord where
  job : Nat
  handle : Nat
  bytes : List Byte
  deriving DecidableEq, Repr

/-- The eviction class of a line (R215). -/
inductive EvictClass where
  | keep | normal | stream
  deriving DecidableEq, Repr

/-- How an access reaches a home slice: the class it gives its line, where it gives one (R215), the tenant width and
identifier of its job (R220), and the lowest C-die of its partition, which homes host lines (R358). -/
structure Via where
  cls : Option EvictClass
  width : Nat
  tenant : Nat
  low : Nat
  deriving DecidableEq, Repr

/-- A pushed alternative: target, and the checkpoint of the write set and the deferred effects (R272). -/
structure Alt where
  target : Word
  writes : List (Loc × Byte)
  homes : List (Nat × Via × Option Nat)
  wset : List Line
  clears : List DWord
  scope : Nat
  deriving DecidableEq, Repr

/-- The transaction state of a warp (R263 to R272). -/
structure Tx where
  /-- status word fields (R270) -/
  cause : Nat
  active : Bool
  altNo : Nat
  conflicts : Nat
  user : Nat
  /-- abort target and address of the attempt's TXB -/
  target : Word
  txb : Word
  /-- address of the TXB of the last attempt, when that attempt ended with CONFLICT (R271) -/
  run : Option Word
  /-- age: tick of the run's first TXB, core, warp slot (R266) -/
  age : Nat × Nat × Nat
  rset : List Line
  wset : List Line
  /-- the write buffer, newest first, and how the lines it holds are reached and under which key epoch (R215, R401) -/
  writes : List (Loc × Byte)
  homes : List (Nat × Via × Option Nat)
  /-- TAGCLR masks that take effect at commit (R262) -/
  clears : List DWord
  /-- the widest scope at which a store of the attempt releases; the commit releases at it (R336) -/
  scope : Nat
  alts : List Alt
  /-- a CONFLICT decided at a home and not yet delivered (R267) -/
  pending : Bool
  /-- cycle until which the warp issues nothing after a CONFLICT abort (R271) -/
  backoff : Option Nat
  deriving DecidableEq, Repr

/-- The key of a memo entry (R162). -/
structure MemoKey where
  word : Word
  mask : Word
  xt : Nat × Nat
  sources : List (Nat × Nat)
  preds : List Word
  prior : List (Nat × Nat)
  job : Nat
  context : List Nat
  deriving DecidableEq, Repr

/-- One of the last eight warp-instructions of a warp (R156): its destination registers, the memo key it looked up
with, the flags each lane's result raised, and for a load the scratchpad lines it read or that it is a global load. -/
structure WinEntry where
  dests : List Nat
  key : Option MemoKey
  flags : List (BitVec 7)
  scratch : List (Nat × Nat)
  globalLoad : Bool
  deriving DecidableEq, Repr

/-- What an instruction that has not retired keeps until its stream executes it again. -/
structure Hold where
  /-- it waits for a PENDING tile, an encoder, a copy slot or a peer (R261, R305, R316) -/
  waiting : Bool
  /-- its write waits on MIGRATING since that cycle; set true once 20 000 cycles have passed (R238) -/
  migrating : Option (Nat × Bool)
  migReady : Bool
  /-- peers that do not answer and for which a request of it has left (R316) -/
  atPeer : List Nat
  /-- one of these requests is an atomic's, which completes or fails before the warp halts (R372) -/
  atom : Bool
  /-- the records it has used, and the sharding entries it has captured, by job and number (R87, R240) -/
  records : List CachedRecord
  entries : List CachedRecord
  deriving DecidableEq, Repr

/-- The state of a warp that its entry into the handler moves into its user frame (R363). -/
structure Frame where
  /-- architectural registers; an unlisted one holds 0 in every lane (R129) -/
  regs : List (Nat × RegVal)
  /-- physical names the registers are bound to; an unlisted one is bound to name 0 (R158) -/
  names : List (Nat × Nat)
  /-- results that found no free entry and wait for their names, with the memo keys kept for them (R159, R164) -/
  stuck : List WinEntry
  /-- predicates p1 to p7, one mask of lanes each (R36) -/
  preds : List Word
  pcs : List Word
  live : Word
  /-- link-stack depths (R142) -/
  sds : List Word
  /-- sticky flags (R76) -/
  flags : List (BitVec 7)
  /-- RS generator states (R67) -/
  rs : List Word
  /-- loop-buffer tags of each lane (R140, R141) -/
  loops : List (List Word)
  winBase : Nat
  /-- join address J (R146) and the cycle at which it was set -/
  join : Option Word
  joinAt : Nat
  tx : Tx
  /-- segment registers 0 to 5: base and limit (R205) -/
  segs : List (DWord × DWord)
  stklim : Word
  /-- instructions that have not retired, by the PC of their stream (R140) -/
  parked : List (Nat × Hold)
  deriving DecidableEq, Repr

/-- The fault record of a warp: 16 words (R362). -/
structure FaultRec where
  ctl : Word
  lanes : Word
  fpc : Word
  rpc : Word
  addrLo : Word
  addrHi : Word
  handle : Word
  tc0 : Word
  tc1 : Word
  i2 : Word
  bitoff : Word
  eng : Word
  word : Word
  aux : Word
  who : Word
  core : Word
  deriving DecidableEq, Repr

/-- A load whose last lane has not arrived: the register of this staging entry, all destinations of the load, and the
memo key with the scratchpad lines it read and whether it read load-reuse pages (R157, R164). -/
structure Staged where
  dest : Nat
  all : List Nat
  key : Option MemoKey
  flags : List (BitVec 7)
  lines : List Nat
  reuse : Bool
  deriving DecidableEq, Repr

/-- A warp presented for a collective: function code, block offset of its lowest active lane, the mask of its active
lanes and their format words, and the cycle of its presentation (R288). -/
structure Present where
  fn : Nat
  block : Nat
  lanes : Word
  fmts : List Word
  since : Nat
  word : Word
  /-- the collective has been accepted and its intake is not complete -/
  accepted : Bool
  deriving DecidableEq, Repr

/-- A warp and its context (R374). -/
structure Warp where
  uid : Nat
  group : Nat
  /-- warp number in the group, and its slot on the core (R151) -/
  id : Nat
  slot : Nat
  /-- allotment A in registers (R42) -/
  allot : Nat
  level : Level
  /-- the level below handler level: system for a system launch (R46) -/
  system : Bool
  frame : Frame
  /-- the user frame, while the warp is at handler level (R363) -/
  saved : Option Frame
  lost : BitVec 16
  cycHi : Word
  tickHi : Word
  fault : FaultRec
  run : RunState
  /-- handler image in force since the warp entered the handler (R363, R400) -/
  hbase : DWord
  asleep : Bool
  sleepSet : List Line
  /-- a watched line was written, and the wake has not yet reached the warp (R273) -/
  woken : Bool
  /-- the last eight issues, newest first; a prefixed pair is one issue with a result for each instance (R54, R156) -/
  window : List (List WinEntry)
  staging : List Staged
  /-- the cycle since which the warp has stalled for a pool entry (R129, R159) -/
  stalled : Option Nat
  /-- re-segmented by SEGLD (R212) -/
  reseg : Bool
  /-- what the instruction that its stream executes has kept since it was issued before -/
  hold : Hold
  /-- sharding entries that a SHFENCE of the warp has closed and not yet written (R240) -/
  resharding : List Nat
  /-- counted cycles since the warp last issued (R153) -/
  passed : Nat
  /-- the step at which each lane last issued (R140) -/
  laneAt : List Nat
  present : Option Present
  deriving DecidableEq, Repr

/-- A copy tag of a group (R255, R258). -/
structure Tag where
  out : Nat
  done : Bool
  err : Bool
  code : Nat
  cflags : BitVec 7
  deriving DecidableEq, Repr

/-- An engine fault not yet taken: the warp number it is for, and the record (R365). -/
structure EngFault where
  warp : Nat
  record : FaultRec
  deriving DecidableEq, Repr

/-- A record on its way to a launch's fault log, with the log's header, the job, the core its faults come from and the
cycle since which the append waits: for a MIGRATING page, or for the answers to what it releases (R238, R367). -/
structure LateLog where
  job : Nat
  ring : Nat
  number : Nat
  core : Nat
  since : Nat
  record : FaultRec
  deriving DecidableEq, Repr

/-- A level of work that has a completion counter (R105). -/
inductive LevelId where
  | job (uid : Nat)
  | phase (uid : Nat)
  | graph (uid : Nat)
  | launch (uid : Nat)
  deriving DecidableEq, Repr

/-- A write of the device's own that a MIGRATING page holds back (R238): a level's counter, since a cycle of the
partition, or the opening or the closing of a queue of a pipeline's graph (R107, R114). -/
inductive LateWrite where
  | counter (level : LevelId) (since : Nat)
  | open (graph queue : Nat)
  | close (graph queue : Nat)
  deriving DecidableEq, Repr

/-- Where a group stands in its life. -/
inductive GroupStatus where
  | resident | draining | saved | completed
  deriving DecidableEq, Repr

/-- A weight plane with its descriptor; empty means K = N = 0 (R283). -/
structure Plane where
  k : Nat
  n : Nat
  kind : Nat
  rows : List (List Num)
  deriving DecidableEq, Repr

/-- Accepted matrix work that has not completed: an MSTR's accumulation, a drain with the next row and the cycle since
which it waits on a MIGRATING page, or an MZERO behind them (R294). -/
inductive MxWork where
  | stream (acc : Nat) (rows : List (List Num)) (plane : Plane) (chunk : Nat)
  | drain (block : List Byte) (fmt : Word) (offset row : Nat) (warp : Nat) (since : Option Nat)
  | zero (acc : Nat)
  deriving DecidableEq, Repr

/-- A shape record (R79, R80). -/
structure Shape where
  kind : Nat
  rank : Nat
  storage : Nat
  gen : Nat
  policy : Word
  base : Nat
  ext : List Nat
  stride : List Nat
  index : Nat
  freering : Nat
  reclaim : Nat
  shard : Nat
  codebook : Nat
  deriving DecidableEq, Repr

/-- A tile as an operation resolved it at the use of its record: the owner's job, local handle, record and coordinate,
and the sharding entry it captured, by job and number (R87, R229, R240). -/
structure TileRef where
  job : Nat
  handle : Nat
  shape : Shape
  coord : List Nat
  entry : Option (Nat × Nat)
  deriving DecidableEq, Repr

/-- An operand intake in progress: MLDS or MSTR, its block, format word and the tiles decoded so far. A follow-on
command names its copy (R293, R299). -/
structure Intake where
  fn : Nat
  block : List Byte
  offset : Nat
  fmt : Word
  tiles : List (List (List Num))
  waiting : Bool
  copy : Option Nat
  /-- the tiles of its operand as the use of their record resolved them (R87) -/
  refs : List TileRef
  /-- the group's slots as the intake started (R97) -/
  tables : List (Option (List Nat))
  books : List (Option (List (BitVec 16)))
  deriving DecidableEq, Repr

/-- A core's matrix engine (R283, R284). -/
structure Engine where
  owner : Option Nat
  active : Plane
  shadow : Plane
  /-- accumulator elements that are not +0, keyed by set × 16384 + m × 128 + n -/
  acc : List (Nat × Word)
  flags0 : BitVec 7
  flags1 : BitVec 7
  work : List MxWork
  intake : Option Intake
  deriving DecidableEq, Repr

/-- A copy in flight: its group, its 64-byte record with the record's offset, the warp that kicked it, bytes landed,
whether its follow-on has been issued, and whether a shadow copy still waits for room (R245, R256, R259). -/
structure Copy where
  uid : Nat
  group : Nat
  warp : Nat
  record : List Byte
  offset : Nat
  landed : Nat
  /-- the next row, or tile of a handle copy, and the tiles of its source and destination -/
  unit : Nat
  tiles : List (Option TileRef × Option TileRef)
  /-- the operation block of a CHAIN, as the hoist read it -/
  block : List Byte
  /-- a failure met at the kick that ends the copy as it runs: class, detail, address and auxiliary word -/
  late : Option (Nat × Nat × Nat × Nat)
  followed : Bool
  held : Bool
  /-- a VENC record accepted by its encoder, or an accepted REDUCE contribution (R260, R373) -/
  accepted : Bool
  /-- set while the matrix engine reads the operand of this copy's follow-on command -/
  following : Bool
  /-- the cycle since which a landing waits on a MIGRATING page (R238) -/
  migSince : Option Nat
  cflags : BitVec 7
  /-- the destination row in progress, its source read once (R249): data, spall, flags raised, and whether a line that
  was read is poisoned -/
  row : Option (List Byte × List Byte × BitVec 7 × Bool)
  deriving DecidableEq, Repr

/-- One byte written by a shadow copy and not yet published (R259). -/
structure ShadowByte where
  group : Nat
  tag : Nat
  copy : Nat
  loc : Loc
  byte : Byte
  /-- it came from a poisoned line (R404) -/
  bad : Bool
  /-- the job and virtual address it was written through, and the key epoch there (R237, R401) -/
  job : Nat
  va : Nat
  epoch : Option Nat
  deriving DecidableEq, Repr

/-- A group and its context (R374). -/
structure Group where
  uid : Nat
  launch : Nat
  job : Nat
  number : Nat
  core : Nat
  warps : Nat
  team : Nat
  rank : Nat
  teamSize : Nat
  status : GroupStatus
  /-- the cycle of the first start, and the order of starts (R131, R151) -/
  age : Nat
  order : Nat
  scratchLen : Nat
  scratch : List Host.Cell
  /-- code-table slots: code lengths of a valid slot; codebook slots: 16 BF16 patterns (R96) -/
  tables : List (Option (List Nat))
  books : List (Option (List (BitVec 16)))
  tagBase : Nat
  tags : List Tag
  elog : List EngFault
  edropped : Nat
  faulted : Bool
  /-- the cycle at which the group last started or resumed: its team compares from there (R154) -/
  since : Nat
  progress : Nat
  boost : Bool
  /-- a pre-emption has been requested; abort: the saved state is to be discarded (R120, R372) -/
  preempt : Bool
  abort : Bool
  /-- saved with the context: copies as RESTART records, and the matrix engine (R374) -/
  restarts : List Copy
  engine : Option Engine
  deriving DecidableEq, Repr

/-- An entry of the register pool (R158, R159, R170). -/
structure PoolEntry where
  name : Nat
  words : List Word
  gen : Nat
  poison : Word
  live : Bool
  deriving DecidableEq, Repr

/-- A memo entry (R161, R162). -/
structure MemoEntry where
  key : MemoKey
  dests : List (Nat × Nat)
  flags : List (BitVec 7)
  /-- scratchpad group and lines read, for a scratchpad load; globalLoad for a load-reuse page -/
  scratch : List (Nat × Nat)
  globalLoad : Bool
  deriving DecidableEq, Repr

/-- A line copy of the L1 or constant cache: line of the node's memory, its bytes, and the lanes that have accessed it
since it was filled (R216, R324). -/
structure LineCopy where
  line : Nat
  bytes : List Byte
  seen : List (Nat × Nat)
  deriving DecidableEq, Repr

/-- An effective translation: output address of the page start, page size in bits, aperture, key and attributes (R234). -/
structure Leaf where
  frame : Nat
  bits : Nat
  aperture : Nat
  key : Nat
  slab : Bool
  reuse : Bool
  migrating : Bool
  ratom : Bool
  order : Nat
  exec : Bool
  write : Bool
  read : Bool
  /-- DIRTY of both stages as the walk left them -/
  dirty : Bool
  deriving DecidableEq, Repr

/-- A cached translation: job, virtual and intermediate page, the bits of the two stages' pages, and the leaf (R236). -/
structure TlbEntry where
  job : Nat
  page : Nat
  inter : Nat
  span1 : Nat
  span2 : Nat
  vm : Nat
  leaf : Leaf
  deriving DecidableEq, Repr

/-- A translation walk in progress, with the generations it recorded (R239). -/
structure Walk where
  job : Nat
  va : Nat
  write : Bool
  gen1 : Nat
  gen2 : Nat
  deriving DecidableEq, Repr

/-- A line that its home slice holds: the line of the node's memory, slice 48n to 48n + 47 of C-die n, set and class
(R12, R218). -/
structure SliceLine where
  line : Nat
  slice : Nat
  set : Nat
  cls : EvictClass
  deriving DecidableEq, Repr

/-- A cached stage-2 translation of a table address: partition, VM, intermediate page and the bits of its page, with the
leaf's own value, place and level (R236). -/
structure TableEntry where
  part : Nat
  vm : Nat
  page : Nat
  bits : Nat
  entry : Nat
  place : Nat
  level : Nat
  deriving DecidableEq, Repr

/-- A write that has left a lane and is not yet performed at its home: held in the write-combining buffer, or in
flight (R322, R331). A RED carries its operation in op; a store has op none. -/
structure PWrite where
  warp : Nat
  group : Nat
  /-- the partition it was issued in -/
  part : Nat
  lane : Nat
  loc : Loc
  via : Via
  /-- the key epoch it is made under, for HBM of this device (R401) -/
  epoch : Option Nat
  bytes : List Byte
  op : Option Nat
  buffered : Bool
  /-- made to an SO page, or volatile: the lane's later such accesses wait for it (R325, R328) -/
  strong : Bool
  /-- made to a UO page: no release orders it (R325) -/
  uo : Bool
  /-- it reaches the stack region of its launch: halting writes it back (R143, R210) -/
  stack : Bool
  /-- who reads it before its home does: 0 its lane, 1 the warp once a FENCEW has passed it, 2 the group and 3 this device
  once it is released that far (R204, R327, R334) -/
  shown : Nat
  /-- the step of the machine that issued it: lanes of one instruction share it (R221, R316) -/
  step : Nat
  /-- the cycle at which it was issued -/
  since : Nat
  deriving DecidableEq, Repr

/-- A core (R14). -/
structure Core where
  id : Nat
  /-- pool entries E; 0 while no group has landed since reset (R128) -/
  poolSize : Nat
  pool : List PoolEntry
  memo : List MemoEntry
  records : List CachedRecord
  tlb : List TlbEntry
  walks : List Walk
  l1 : List LineCopy
  ccache : List LineCopy
  pend : List PWrite
  wcbage : Nat
  copies : List Copy
  shadows : List ShadowByte
  engine : Engine
  /-- engine generator of RS roundings, the launch whose seed it runs on, and outputs it has given that no element has
  taken yet (R68) -/
  rng : Word
  rngLaunch : Nat
  ahead : List Nat
  cycle : Nat
  deriving DecidableEq, Repr

/-- An installed job: its context and what the device keeps for it (R108). Jobs of peers carry their chip. -/
structure Job where
  uid : Nat
  chip : Nat
  part : Nat
  jobno : Nat
  ptroot : Nat
  recBase : Nat
  recCount : Nat
  shBase : Nat
  shCount : Nat
  tables : List (Option (List Nat))
  books : List (Option (List (BitVec 16)))
  period : Nat
  deadline : Nat
  budget : Nat
  contract : Bool
  tier : Nat
  counter : Nat
  vm : Nat
  tenant : Nat
  s2 : Bool
  gen1 : Nat
  /-- root of the stage-2 tables of a peer's job; an own job has its partition's VMROOT -/
  root2 : Nat
  admitted : Bool
  /-- start tick of the current period, the phase that opened it, cycles charged and whether the job has overrun (R123) -/
  perStart : Option Nat
  perPhase : Nat
  charge : Nat
  overrun : Bool
  deadlineSeen : Bool
  /-- phases in flight, faulted children and cancel mode of the job level (R105) -/
  inFlight : Nat
  faulted : Nat
  cancel : Nat
  /-- a held start: the phase record's fields (R116) -/
  held : Option (Nat × Nat)
  closed : List Nat
  /-- REMOVE has aborted its levels and waits for what is still in flight; true if its ring waits with it (R124, R379) -/
  removing : Option Bool
  deriving DecidableEq, Repr

/-- A phase in flight (R115). -/
structure Phase where
  uid : Nat
  job : Nat
  counter : Nat
  outstanding : Nat
  faulted : Nat
  cancel : Nat
  done : Bool
  start : Nat
  deriving DecidableEq, Repr

/-- State of a graph node (R113). -/
inductive NodeState where
  | waiting | ready | started (launch : Nat) | complete (faulted : Bool) | discarded
  deriving DecidableEq, Repr

/-- A graph node: launch record address, predecessors, and its place in the order in which nodes became ready (R112). -/
structure Node where
  lrec : Nat
  pred : DWord
  state : NodeState
  readyAt : Nat
  deriving DecidableEq, Repr

/-- A graph of a phase (R113). -/
structure Graph where
  uid : Nat
  phase : Nat
  job : Nat
  record : Nat
  counter : Nat
  outstanding : Nat
  faulted : Nat
  cancel : Nat
  nodes : List Node
  pipeline : Bool
  qtab : Nat
  qcount : Nat
  startCycle : Nat
  samples : Nat
  /-- a move under way: the donor's group that is to be saved, and the stage that receives its core (R134) -/
  move : Option (Nat × Nat)
  done : Bool
  deriving DecidableEq, Repr

/-- A launch: its record (R110) and its progress. -/
structure Launch where
  uid : Nat
  graph : Nat
  job : Nat
  node : Option Nat
  code : Nat
  groups : Nat
  warps : Nat
  team : Nat
  allot : Nat
  pool : Nat
  system : Bool
  tier : Nat
  tags : Nat
  scratch : Nat
  stack : Nat
  const : Nat
  constLen : Nat
  seed : Word
  gbase : Nat
  glimit : Nat
  counter : Nat
  faultRec : Nat
  ctsel : BitVec 16
  outstanding : Nat
  faulted : Nat
  cancel : Nat
  next : Nat
  done : Bool
  deriving DecidableEq, Repr

/-- An item of a tier's placement queue (R131): the groups of a launch that have never started, those of a pipeline's
stages in turn, or a saved group or team. -/
inductive QItem where
  | fresh (launch : Nat)
  | pipe (launches : List Nat)
  | saved (groups : List Nat)
  deriving DecidableEq, Repr

/-- A partition: its dies, its registers (R400, R359) and its placement queues. -/
structure Part where
  num : Nat
  dies : List Nat
  hold : Bool
  captured : Bool
  hbase : DWord
  hstack : DWord
  savebase : DWord
  evqbase : DWord
  hevqbase : DWord
  sync : DWord
  dlogbase : DWord
  dlogOn : Bool
  logovf : Bool
  arena : DWord
  arenalen : DWord
  tenant : Nat
  s2 : Bool
  vmroots : List DWord
  /-- the VMROOT that walks of each VM use: the register as it stood at the VM's last TLBINV2 (R400) -/
  vmlive : List DWord
  vmgens : List Nat
  jobtags : List (Nat × Nat)
  carve : List Nat
  relpol : BitVec 2
  ringbase : DWord
  doorbell : DWord
  ringhead : DWord
  winkey : Nat
  fabpol : BitVec 3
  failed : BitVec 16
  /-- reference counter, and the clock as steps of 118.75 MHz below 1.9 GHz (R405) -/
  tick : Nat
  /-- cycles since the partition's last reset: the counter of each of its cores (R135) -/
  cycle : Nat
  clockStep : Nat
  /-- the tick since which current and power have stood below 90 % of their limits (R405) -/
  coolSince : Option Nat
  lastEdge : Option Nat
  queues : List (List QItem)
  /-- the cycle of a whole-partition pre-emption request not yet complete (R373) -/
  preemptAt : Option Nat
  opened : Bool
  deriving DecidableEq, Repr

/-- A key slot (R401). -/
structure KeySlot where
  slot : Nat
  owner : Nat
  key : BitVec 512
  bypass : Bool
  epoch : Nat
  deriving DecidableEq, Repr

/-- The state of one link of a port (R347 to R352). -/
structure Link where
  port : Nat
  idx : Nat
  up : Bool
  txSeq : BitVec 12
  rxSeq : BitVec 12
  retry : List Flit
  replays : Nat
  /-- LINKSTAT shows it: false from a reset of its partition until it next changes (R4, R359) -/
  shown : Bool := true
  deriving DecidableEq, Repr

/-- A flit that waits for a credit or for room in a retry buffer: the port it leaves by, and the link, where it belongs to
one; whether it was sent before, so that it takes no new slot of the receiver; and the peer in whose forwarding slot here
it stands (R349, R352, R353). -/
structure Queued where
  port : Nat
  link : Option Nat
  again : Bool
  holds : Option Nat
  flit : Flit
  deriving DecidableEq, Repr

/-- A message that has arrived and is not performed: the port and link it came by (R348), and the cycle since which its
write waits on a MIGRATING page (R238). -/
structure Arrived where
  port : Nat
  link : Nat
  since : Option Nat
  msg : PeerMsg
  deriving DecidableEq, Repr

/-- Flow-control totals toward a peer on one channel (R349). -/
structure Credit where
  peer : Nat
  ch : Nat
  sent : Word
  freed : Word
  /-- slots this device has freed for the peer -/
  given : Word
  deriving DecidableEq, Repr

/-- Whether a peer answers: reachable; silent (no link has answered since a first symptom, not yet declared failed);
its failure is bit j of FAILED (R333, R353). -/
structure Peer where
  chip : Nat
  silent : Bool
  /-- messages received, by channel and number (R347) -/
  seen : List (Nat × BitVec 16)
  /-- intermediate chip of a detour in force (R353) -/
  detour : Option Nat
  /-- the chips the peer has live links to (R353) -/
  reach : List Nat
  /-- the peer's partitions: number, dies, and carved ways of each die (R355) -/
  parts : List (Nat × List Nat × List Nat)
  deriving DecidableEq, Repr

/-- A reduction in flight at its home (R318). -/
structure Reduction where
  first : Contribution
  parts : List Contribution
  /-- the cycle since which its write at DST waits on a MIGRATING page (R238) -/
  since : Option Nat
  deriving DecidableEq, Repr

/-- A record in an encoder's queue (R390). -/
structure VencRec where
  core : Nat
  copy : Nat
  group : Nat
  job : Nat
  record : List Byte
  phase0 : Word
  reading : Bool
  observed : Nat
  dropped : Bool
  deriving DecidableEq, Repr

/-- An encoder stream slot's configuration (R388, R389). -/
structure VencSlot where
  slot : Nat
  config : List Nat
  forceKey : Bool
  deriving DecidableEq, Repr

/-- A video encoder (R386, R390). -/
structure Encoder where
  id : Nat
  queue : List VencRec
  slots : List VencSlot
  deriving DecidableEq, Repr

/-- Boot state: in reset-hold with the status of the last image, in reset-hold with an image accepted and step 4 to come,
running, or held by THERMTRIP (R394, R396, R406). -/
inductive Boot where
  | hold (status : Nat) | checked | running | tripped
  deriving DecidableEq, Repr

/-- What the device has told the world outside: interrupts (R380), answers on the management channel (R407), data of
host and peer reads, statuses of host commands and of frame-sync starts (R125, R402), answers to peers (R354), removals
of memo entries sent to them (R167), reports with their two signatures (R397). -/
inductive Output where
  | msix (part vector : Nat)
  | mgmt (status : Nat) (value : DWord)
  | status (part n : Nat)
  | data (bytes : List Byte)
  | answer (peer : Nat) (bytes : List Byte)
  | removal (peer : Nat)
  | refusal (peer detail : Nat)
  | boot (status : Nat)
  | report (bytes rsa slh : List Byte)
  | flit (port link : Nat) (f : Flit)
  | send (peer : Nat) (c : Contribution)
  deriving DecidableEq, Repr

/-- What the sensors of a C-die read last: its core-rail current in amperes, its power in watts, and its junction
temperature in tenths of a degree (R405 to R407). -/
structure Sensors where
  current : Nat
  power : Nat
  tenths : Nat
  deriving DecidableEq, Repr

/-- What comes next, decided outside the instruction stream: an operation or event of the part, the issue of one warp's
stream, where 0 names its broadcast stream and n its side stream n (R140, R153), or one of the choices and inputs the
spec leaves to the device or the world: a register error in a pool entry or a staging entry (R169, R170), the
write-back of a dirty line (R360), landing of a copy's next bytes (R256), a walk that begins (R239), a peer's own write
to its memory, what a die's sensors read (R405 to R407), a peer's job (R229) or partitions (R355), a peer falling silent
or answering again (R352), time, an entry leaving a cache (a die's shared TLB and the table-address cache among them), and
whether plain stores wait before they reach their home (R322). -/
inductive Input where
  | event (i : Instr)
  | issue (warp stream : Nat)
  | regError (core name : Nat) (lanes : Word) (corrected : Bool)
  | stagingError (warp dest : Nat) (lanes : Word) (corrected : Bool)
  | evict (line : Nat)
  | land (core copy bytes : Nat)
  | beginWalk (core job va : Nat) (write : Bool)
  | peerWrite (addr : Nat) (bytes : List Byte)
  | peerJob (j : Job)
  | peerSilent (chip : Nat) (silent : Bool)
  | peerIs (p : Peer)
  | hostWrite (addr : Nat) (bytes : List Byte)
  | elapse (part ticks cycles : Nat)
  | dropTlb (core index : Nat)
  | dropDieTlb (die index : Nat)
  | dropTableTlb (index : Nat)
  | dropRecord (core index : Nat)
  | dropL1 (core index : Nat)
  | delayStores (on : Bool)
  | sensors (die : Nat) (r : Sensors)
  deriving DecidableEq, Repr

/-- The whole machine. -/
structure State where
  /-- the issuing warp, its group and core, the lanes of the issuing stream, and its PC and the word it issues -/
  warp : Warp
  group : Group
  core : Core
  lanes : Word
  warps : List Warp
  groups : List Group
  cores : List Core
  jobs : List Job
  phases : List Phase
  graphs : List Graph
  launches : List Launch
  parts : List Part
  keys : List KeySlot
  node : NodeCfg
  links : List Link
  credits : List Credit
  /-- flits that wait to leave, in order, and the link on which each port sent last (R345, R349) -/
  queued : List Queued
  stripes : List (Nat × Nat)
  peers : List Peer
  reductions : List Reduction
  encoders : List Encoder
  boot : Boot
  /-- fused SVN counter, and the image that runs or has been accepted (R395, R396) -/
  fuseSvn : Nat
  image : FwImage
  /-- package power cap in watts (R405) -/
  pwrcap : Nat
  /-- what the C-dies' sensors read; unlisted is 0 (R405 to R407) -/
  sensors : List (Nat × Sensors)
  /-- the node's memory: byte at chip × 2^48 + physical address; unlisted reads 0 -/
  mem : List Host.Cell
  /-- HBM images of lines that are dirty at their home slice, each with its key epoch (R228, R360, R401) -/
  hbm : List (Nat × Nat × List Byte)
  /-- key epochs lines were last written under; unlisted is 0, plaintext (R401) -/
  epochs : List (Nat × Nat)
  /-- fault-log records that wait, oldest first -/
  lateLogs : List LateLog
  /-- writes of counters and queue headers that wait on MIGRATING pages, oldest first -/
  lateWrites : List LateWrite
  /-- poisoned lines (R404) -/
  badLines : List Nat
  badScratch : List (Nat × Nat)
  /-- poisoned lines that are being rewritten: line, step, and the bytes written in that step (R404) -/
  healing : List (Line × Nat × List Nat)
  /-- reuse-read marks: line and chips that set it (R167) -/
  marks : List (Nat × List Nat)
  /-- host lines held at a slice (R358) -/
  hostLines : List Nat
  /-- lines the home slices of this device hold, from the most to the least recently used (R218) -/
  llc : List SliceLine
  /-- watches the home slices hold, oldest first: line of the node's memory and warp (R274) -/
  watches : List (Nat × Nat)
  /-- slab index entries under rewriting: the entry's place, and the warp or copy whose encoder holds its PENDING
  (R305) -/
  rewrites : List (Nat × Nat)
  /-- the shared TLB of each C-die, and the stage-2 translations of table addresses (R236) -/
  dieTlbs : List (Nat × List TlbEntry)
  tableTlb : List TableEntry
  /-- plain stores wait in flight until WRITE_PERFORMED when set (R322, R325) -/
  delay : Bool
  agenda : List Input
  inbox : List Arrived
  out : List Output
  /-- numbers given to warps, groups, copies and levels as they come to be, and starts of groups so far -/
  fresh : Nat
  starts : Nat
  /-- key material loaded so far, in the order of first loads: the epoch of a key is its place, counted from 1 (R401) -/
  material : List (BitVec 512)
  /-- the model's own: counter of free values, and steps so far -/
  free : Nat
  clock : Nat
  deriving DecidableEq, Repr

/-- Why the machine stops: it never does. The PX940 takes every fault of the spec as an exception (R363, R366), and a
device held by THERMTRIP goes on being held (R406). -/
inductive Fault where
  deriving DecidableEq, Repr

/-- Why an instruction has no meaning here. -/
inductive Refusal where
  /-- Raised by an arm of exec whose instruction is not modelled. Safe: nothing can be proved of such a step. -/
  | notModelled (mnemonic : String)
  deriving DecidableEq, Repr

/-- A transaction status that reads 0: no transaction has run (R270). -/
def Tx.none : Tx :=
  { cause := 0, active := false, altNo := 0, conflicts := 0, user := 0, target := 0, txb := 0, run := Option.none,
    age := (0, 0, 0), rset := [], wset := [], writes := [], homes := [], clears := [], scope := 0, alts := [],
    pending := false, backoff := Option.none }

/-- Nothing kept: the instruction is issued for the first time. -/
def Hold.none : Hold :=
  { waiting := false, migrating := Option.none, migReady := false, atPeer := [], atom := false, records := [], entries := [] }

/-- A frame at a warp's start, before its lanes are made live and its segments are loaded (R135, R137, R142). -/
def Frame.start : Frame :=
  { regs := [], names := [], stuck := [], preds := List.replicate 7 0, pcs := List.replicate 32 0, live := 0,
    sds := List.replicate 32 0, flags := List.replicate 32 0, rs := List.replicate 32 1,
    loops := List.replicate 32 [], winBase := 0, join := Option.none, joinAt := 0, tx := Tx.none,
    segs := List.replicate 6 (0, 0), stklim := 0, parked := [] }

/-- A fault record that holds no fault (R362). -/
def FaultRec.empty : FaultRec :=
  { ctl := 0, lanes := 0, fpc := 0, rpc := 0, addrLo := 0, addrHi := 0, handle := 0, tc0 := 0, tc1 := 0, i2 := 0,
    bitoff := 0, eng := 0, word := 0, aux := 0, who := 0, core := 0 }

/-- No warp: ended, with no lane. It stands in the issuing place while nothing has issued. -/
def Warp.idle : Warp :=
  { uid := 0, group := 0, id := 0, slot := 0, allot := 128, level := .user, system := false, frame := Frame.start,
    saved := Option.none, lost := 0, cycHi := 0, tickHi := 0, fault := FaultRec.empty, run := .ended, hbase := 0, asleep := false,
    sleepSet := [], woken := false, window := [], staging := [], stalled := Option.none, reseg := false,
    hold := Hold.none, resharding := [], passed := 0, laneAt := List.replicate 32 0, present := Option.none }

/-- No group. -/
def Group.idle : Group :=
  { uid := 0, launch := 0, job := 0, number := 0, core := 0, warps := 1, team := 0, rank := 0, teamSize := 1,
    status := .completed, age := 0, order := 0, scratchLen := 0, scratch := [], tables := List.replicate 8 Option.none,
    books := List.replicate 8 Option.none, tagBase := 0, tags := [], elog := [], edropped := 0, faulted := false,
    since := 0, progress := 0, boost := false, preempt := false, abort := false, restarts := [], engine := Option.none }

/-- An empty plane (R283). -/
def Plane.empty : Plane := { k := 0, n := 0, kind := 0, rows := [] }

/-- The matrix engine as a group first holds it: empty planes, +0 accumulators, clear flag words (R283). -/
def Engine.empty : Engine :=
  { owner := Option.none, active := Plane.empty, shadow := Plane.empty, acc := [], flags0 := 0, flags1 := 0,
    work := [], intake := Option.none }

/-- Core number id right after reset: WCBAGE 256, cycle counter 0 (R135, R398). DESIGN CHOICE: WCBAGE is core-wide and
takes 256 here, not at each warp's start, as R135 also says (log entry 62). -/
def Core.reset (id : Nat) : Core :=
  { id := id, poolSize := 0, pool := [], memo := [], records := [], tlb := [], walks := [], l1 := [], ccache := [],
    pend := [], wcbage := 256, copies := [], shadows := [], engine := Engine.empty, rng := 1, rngLaunch := 0, ahead := [],
    cycle := 0 }

/-- A partition right after reset: every register at the reset value of R400 and R359. -/
def Part.reset (num : Nat) (dies : List Nat) : Part :=
  { num := num, dies := dies, hold := false, captured := false, hbase := 0, hstack := 0, savebase := 0, evqbase := 0,
    hevqbase := 0, sync := 0, dlogbase := 0, dlogOn := false, logovf := false, arena := 0, arenalen := 0, tenant := 0,
    s2 := false, vmroots := List.replicate 16 0, vmlive := List.replicate 16 0, vmgens := List.replicate 16 0,
    jobtags := [], carve := [], relpol := 1, ringbase := 0, doorbell := 0, ringhead := 0, winkey := 0, fabpol := 0, failed := 0,
    tick := 0, cycle := 0, clockStep := 0, coolSince := some 0, lastEdge := Option.none, queues := [[], [], []],
    preemptAt := Option.none, opened := false }

/-- No firmware image. -/
def noImage : FwImage :=
  { magic := 0, svn := 0, bodyLen := 0, rsaSig := [], slhSig := [], modulus := [], exponent := 0, slhKey := [],
    zeros := [], body := [] }

/-- The machine right after power-on reset (R394, R398): in reset-hold, no partition opened, no job, no group, no
fuse raised, PWRCAP 8 000 W (R405), memory with nothing listed. -/
def State.reset : State :=
  { warp := Warp.idle, group := Group.idle, core := Core.reset 0, lanes := 0, warps := [], groups := [], cores := [],
    jobs := [], phases := [], graphs := [], launches := [], parts := [Part.reset 0 [0, 1, 2, 3, 4, 5, 6, 7]],
    keys := [], node := { size := 8, chip := 0, ports := List.replicate 16 Option.none }, links := [], credits := [],
    queued := [], stripes := [], peers := [], reductions := [], encoders := [], boot := .hold 0, fuseSvn := 0,
    image := noImage, pwrcap := 8000, sensors := [], mem := [], hbm := [], epochs := [], lateLogs := [], lateWrites := [],
    badLines := [], badScratch := [], healing := [], marks := [], hostLines := [], llc := [], watches := [], rewrites := [], dieTlbs := [], tableTlb := [], delay := false,
    agenda := [], inbox := [], out := [], fresh := 1, starts := 0, material := [], free := 0, clock := 0 }

end Sys2Proof.Machine
end

