-- ==== Sys2Proof/Machine/Mem.lean ====
section
/-!
DEFINITION. Sorted maps, memory in canonical form, bytes and words, and the lookups of the state's lists.
-/
namespace Sys2Proof.Machine

/-- The value of a key in a sorted list. -/
def amGet {β : Type} : List (Nat × β) → Nat → Option β
  | [], _ => none
  | (k, v) :: rest, a => if k = a then some v else amGet rest a

/-- The list with a key set, kept sorted. -/
def amPut {β : Type} (a : Nat) (b : β) : List (Nat × β) → List (Nat × β)
  | [] => [(a, b)]
  | (k, v) :: rest =>
    if a < k then (a, b) :: (k, v) :: rest
    else if a = k then (a, b) :: rest
    else (k, v) :: amPut a b rest

/-- The list without a key. -/
def amDel {β : Type} (a : Nat) : List (Nat × β) → List (Nat × β)
  | [] => []
  | (k, v) :: rest => if k = a then amDel a rest else (k, v) :: amDel a rest

/-- What a byte reads as while nothing has written it. DESIGN CHOICE, log entry 1. -/
def emptyByte : Byte := 0

/-- The byte at an address. -/
def Memory.get (m : List Host.Cell) (a : Nat) : Byte := (amGet m a).getD emptyByte

/-- The memory with one byte written, kept canonical. -/
def Memory.put (m : List Host.Cell) (a : Nat) (b : Byte) : List Host.Cell :=
  if b = emptyByte then amDel a m else amPut a b m

/-- Every address of the list is above a. -/
def Memory.above (a : Nat) : List Host.Cell → Bool
  | [] => true
  | (k, _) :: rest => decide (a < k) && Memory.above a rest

/-- The canonical form: addresses strictly rising, no entry equal to what an unlisted address reads as. -/
def Memory.wf : List Host.Cell → Bool
  | [] => true
  | (k, b) :: rest => Memory.above k rest && decide (b ≠ emptyByte) && Memory.wf rest

/-- n bytes from an address up. -/
def Memory.read (m : List Host.Cell) (a n : Nat) : List Byte := (List.range n).map fun i => Memory.get m (a + i)

/-- The memory with bytes written from an address up. -/
def Memory.write (m : List Host.Cell) (a : Nat) : List Byte → List Host.Cell
  | [] => m
  | b :: bs => Memory.write (Memory.put m a b) (a + 1) bs

/-- The little-endian value of bytes (R1). -/
def leNat : List Byte → Nat
  | [] => 0
  | b :: bs => b.toNat + 256 * leNat bs

/-- n little-endian bytes of a value. -/
def leBytes : Nat → Nat → List Byte
  | 0, _ => []
  | n + 1, v => BitVec.ofNat 8 v :: leBytes n (v / 256)

/-- n bytes of a byte list from an offset; missing bytes are 0. -/
def sliceB (bs : List Byte) (o n : Nat) : List Byte := (List.range n).map fun i => bs.getD (o + i) 0

/-- The little-endian value of n bytes of a byte list from an offset. -/
def fieldB (bs : List Byte) (o n : Nat) : Nat := leNat (sliceB bs o n)

/-- Bits hi down to lo of a number. -/
def bits (x hi lo : Nat) : Nat := x / 2 ^ lo % 2 ^ (hi + 1 - lo)

/-- The key of a physical address of a chip in the node's memory. -/
def memKey (chip pa : Nat) : Nat := chip * 2 ^ 48 + pa

/-- The 128-byte line of an address. -/
def lineOf (a : Nat) : Nat := a / 128

/-- The lines that n bytes from an address touch, ascending. -/
def linesOf (a n : Nat) : List Nat :=
  if n = 0 then [] else (List.range (lineOf (a + n - 1) - lineOf a + 1)).map fun i => lineOf a + i

/-- The lanes of a mask, ascending. -/
def lanesIn (m : Word) : List Nat := lanes32.filter fun l => m.getLsbD l

/-- The mask of the lanes that satisfy a test. -/
def maskOf (f : Nat → Bool) : Word := lanes32.foldl (fun acc l => if f l then acc ||| BitVec.twoPow 32 l else acc) 0

/-- A function applied to every warp. -/
def State.mapWarps (f : Warp → Warp) (s : State) : State := { s with warp := f s.warp, warps := s.warps.map f }

/-- A function applied to every group. -/
def State.mapGroups (f : Group → Group) (s : State) : State := { s with group := f s.group, groups := s.groups.map f }

/-- A function applied to every core that has left its reset state. -/
def State.mapCores (f : Core → Core) (s : State) : State := { s with core := f s.core, cores := s.cores.map f }

/-- Every warp. -/
def State.allWarps (s : State) : List Warp := s.warp :: s.warps

/-- Every group. -/
def State.allGroups (s : State) : List Group := s.group :: s.groups

/-- A warp by its number; the idle warp where there is none. -/
def State.warpOf (s : State) (uid : Nat) : Warp :=
  if s.warp.uid = uid then s.warp else (s.warps.find? fun w => w.uid == uid).getD Warp.idle

/-- A group by its number. -/
def State.groupOf (s : State) (uid : Nat) : Group :=
  if s.group.uid = uid then s.group else (s.groups.find? fun g => g.uid == uid).getD Group.idle

/-- A core that nothing has used: in its reset state, with the cycles its partition has counted (R135). -/
def State.newCore (s : State) (id : Nat) : Core :=
  { Core.reset id with cycle := ((s.parts.find? fun p => p.dies.contains (id / 36)).map (·.cycle)).getD 0 }

/-- A core by its number; a core that nothing has used is in its reset state. -/
def State.coreOf (s : State) (id : Nat) : Core :=
  if s.core.id = id then s.core else (s.cores.find? fun c => c.id == id).getD (s.newCore id)

/-- The issuing place taken by a core. -/
def State.focusCore (id : Nat) (s : State) : State :=
  if s.core.id = id then s
  else { s with core := s.coreOf id, cores := s.core :: s.cores.filter fun c => c.id != id }

/-- One warp changed. -/
def State.updWarp (uid : Nat) (f : Warp → Warp) (s : State) : State :=
  if s.warp.uid = uid then { s with warp := f s.warp }
  else { s with warps := s.warps.map fun w => if w.uid = uid then f w else w }

/-- One group changed. -/
def State.updGroup (uid : Nat) (f : Group → Group) (s : State) : State :=
  if s.group.uid = uid then { s with group := f s.group }
  else { s with groups := s.groups.map fun g => if g.uid = uid then f g else g }

/-- One core changed; a core that nothing has used yet is listed first. -/
def State.updCore (id : Nat) (f : Core → Core) (s : State) : State :=
  if s.core.id = id then { s with core := f s.core }
  else if s.cores.any fun c => c.id == id then
    { s with cores := s.cores.map fun c => if c.id = id then f c else c }
  else { s with cores := f (s.newCore id) :: s.cores }

/-- A job by its number. -/
def State.jobOf? (s : State) (uid : Nat) : Option Job := s.jobs.find? fun j => j.uid == uid

/-- No job: nothing installed. -/
def Job.none : Job :=
  { uid := 0, chip := 0, part := 0, jobno := 0, ptroot := 0, recBase := 0, recCount := 0, shBase := 0, shCount := 0,
    tables := [], books := [], period := 0, deadline := 0, budget := 0, contract := false, tier := 0, counter := 0,
    vm := 0, tenant := 0, s2 := false, gen1 := 0, root2 := 0, admitted := false, perStart := Option.none, perPhase := 0,
    charge := 0, overrun := false, deadlineSeen := false, inFlight := 0, faulted := 0, cancel := 0,
    held := Option.none, closed := [], removing := Option.none }

/-- A job by its number; no job where there is none. -/
def State.jobOf (s : State) (uid : Nat) : Job := (s.jobOf? uid).getD Job.none

/-- One job changed. -/
def State.updJob (uid : Nat) (f : Job → Job) (s : State) : State :=
  { s with jobs := s.jobs.map fun j => if j.uid = uid then f j else j }

/-- A partition by its number. -/
def State.partOf (s : State) (num : Nat) : Part := (s.parts.find? fun p => p.num == num).getD (Part.reset num [])

/-- One partition changed. -/
def State.updPart (num : Nat) (f : Part → Part) (s : State) : State :=
  { s with parts := s.parts.map fun p => if p.num = num then f p else p }

/-- No launch. -/
def Launch.none : Launch :=
  { uid := 0, graph := 0, job := 0, node := Option.none, code := 0, groups := 0, warps := 1, team := 1, allot := 128,
    pool := 0, system := false, tier := 1, tags := 0, scratch := 0, stack := 0, const := 0, constLen := 0, seed := 0,
    gbase := 0, glimit := 0, counter := 0, faultRec := 0, ctsel := 0, outstanding := 0, faulted := 0, cancel := 0,
    next := 0, done := true }

/-- A launch by its number. -/
def State.launchOf (s : State) (uid : Nat) : Launch := (s.launches.find? fun l => l.uid == uid).getD Launch.none

/-- One launch changed. -/
def State.updLaunch (uid : Nat) (f : Launch → Launch) (s : State) : State :=
  { s with launches := s.launches.map fun l => if l.uid = uid then f l else l }

/-- No graph. -/
def Graph.none : Graph :=
  { uid := 0, phase := 0, job := 0, record := 0, counter := 0, outstanding := 0, faulted := 0, cancel := 0, nodes := [],
    pipeline := false, qtab := 0, qcount := 0, startCycle := 0, samples := 0, move := Option.none, done := true }

/-- A graph by its number. -/
def State.graphOf (s : State) (uid : Nat) : Graph := (s.graphs.find? fun g => g.uid == uid).getD Graph.none

/-- One graph changed. -/
def State.updGraph (uid : Nat) (f : Graph → Graph) (s : State) : State :=
  { s with graphs := s.graphs.map fun g => if g.uid = uid then f g else g }

/-- No phase. -/
def Phase.none : Phase :=
  { uid := 0, job := 0, counter := 0, outstanding := 0, faulted := 0, cancel := 0, done := true, start := 0 }

/-- A phase by its number. -/
def State.phaseOf (s : State) (uid : Nat) : Phase := (s.phases.find? fun p => p.uid == uid).getD Phase.none

/-- One phase changed. -/
def State.updPhase (uid : Nat) (f : Phase → Phase) (s : State) : State :=
  { s with phases := s.phases.map fun p => if p.uid = uid then f p else p }

/-- The job, launch and partition of the issuing warp. -/
def State.job (s : State) : Job := s.jobOf s.group.job
/-- The launch of the issuing warp. -/
def State.launch (s : State) : Launch := s.launchOf s.group.launch
/-- The partition of the issuing warp. -/
def State.part (s : State) : Part := s.partOf s.job.part
/-- The partition of a group. -/
def State.partOfGroup (s : State) (g : Group) : Part := s.partOf (s.jobOf g.job).part

/-- A peer by its chip number. -/
def State.peerOf (s : State) (chip : Nat) : Option Peer := s.peers.find? fun p => p.chip == chip

/-- A key slot by its number; an empty slot is not listed (R401). -/
def State.keyOf (s : State) (slot : Nat) : Option KeySlot := s.keys.find? fun k => k.slot == slot

/-- Bytes of the node's memory. -/
def State.read (s : State) (a n : Nat) : List Byte := Memory.read s.mem a n

/-- The value of n little-endian bytes of the node's memory. -/
def State.readNat (s : State) (a n : Nat) : Nat := leNat (s.read a n)

/-- A physical address of HBM of this device or another (R408). -/
def isHbm (pa : Nat) : Bool := decide (pa < 2 ^ 40)

/-- A physical address in the host range (R358). -/
def isHost (pa : Nat) : Bool := decide (0x800000000000 ≤ pa) && decide (pa < 0xFF0000000000)

/-- A physical address of the carved storage of one of the dies, given each die's carved ways (R219). -/
def isCarved (dies carve : List Nat) (pa : Nat) : Bool :=
  decide (0xFF0000000000 ≤ pa) &&
    (let o := pa - 0xFF0000000000
     dies.zipIdx.any fun d => d.1 == o / 2 ^ 32 && decide (o % 2 ^ 32 < carve.getD d.2 0 * 48 * 524288))

/-- The storage of a partition (R408): HBM of its dies' stacks and its carved storage. -/
def inStorage (dies carve : List Nat) (pa : Nat) : Bool :=
  (isHbm pa && dies.contains (pa / 2 ^ 37)) || isCarved dies carve pa

end Sys2Proof.Machine
end

