-- ==== Sys2Proof/Decode.lean ====
section
/-!
DEFINITION. Decoding of 32-bit instruction words by opcode, function code and reserved fields (R34 to R38, R44, R45,
R48, R49), and the encoder written from the same patterns.
-/
namespace Sys2Proof

/-- Why a word is no instruction: opcode unassigned (R48), function code unassigned (R45), or a set reserved bit (R49). -/
inductive DecodeError where
  | opcode | function | reserved
  deriving DecidableEq, Repr

/-- The field of len bits whose lowest bit is lo (R35). -/
def fld (w : Word) (lo len : Nat) : BitVec len := w.extractLsb' lo len

/-- The instruction, provided its reserved fields are zero (R49). -/
def keep (zero : Prop) [Decidable zero] (i : Instr) : Except DecodeError Instr :=
  if zero then .ok i else .error .reserved

/-- Opcode 0x1D by its function code (R45). -/
def decode1D (w : Word) : Except DecodeError Instr :=
  match (fld w 4 7).toNat with
  | 0 => .ok (.mov (fld w 18 7) (fld w 11 7) (fld w 0 4))
  | 1 => .ok (.not (fld w 18 7) (fld w 11 7) (fld w 0 4))
  | 2 => .ok (.ineg (fld w 18 7) (fld w 11 7) (fld w 0 4))
  | 3 => .ok (.iabs (fld w 18 7) (fld w 11 7) (fld w 0 4))
  | 4 => .ok (.popc (fld w 18 7) (fld w 11 7) (fld w 0 4))
  | 5 => .ok (.clz (fld w 18 7) (fld w 11 7) (fld w 0 4))
  | 6 => .ok (.brev (fld w 18 7) (fld w 11 7) (fld w 0 4))
  | 7 => .ok (.sext8 (fld w 18 7) (fld w 11 7) (fld w 0 4))
  | 8 => .ok (.sext16 (fld w 18 7) (fld w 11 7) (fld w 0 4))
  | 9 => .ok (.zext8 (fld w 18 7) (fld w 11 7) (fld w 0 4))
  | 10 => .ok (.zext16 (fld w 18 7) (fld w 11 7) (fld w 0 4))
  | _ => .error .function

/-- Opcode 0x1E by its function code (R45). -/
def decode1E (w : Word) : Except DecodeError Instr :=
  match (fld w 4 7).toNat with
  | 0 => keep (fld w 21 4 = 0 ∧ fld w 17 1 = 0) (.pand (fld w 18 3) (fld w 14 3) (fld w 11 3) (fld w 0 4))
  | 1 => keep (fld w 21 4 = 0 ∧ fld w 17 1 = 0) (.por (fld w 18 3) (fld w 14 3) (fld w 11 3) (fld w 0 4))
  | 2 => keep (fld w 21 4 = 0 ∧ fld w 17 1 = 0) (.pxor (fld w 18 3) (fld w 14 3) (fld w 11 3) (fld w 0 4))
  | 3 => keep (fld w 21 4 = 0 ∧ fld w 14 4 = 0) (.pnot (fld w 18 3) (fld w 11 3) (fld w 0 4))
  | 4 => keep (fld w 11 7 = 0) (.p2v (fld w 18 7) (fld w 0 4))
  | 5 => keep (fld w 18 7 = 0) (.v2p (fld w 11 7) (fld w 0 4))
  | 6 => keep (fld w 21 4 = 0) (.pset (fld w 18 3) (fld w 11 7) (fld w 0 4))
  | _ => .error .function

/-- Opcode 0x48 by its function code (R45). -/
def decode48 (w : Word) : Except DecodeError Instr :=
  match (fld w 4 7).toNat with
  | 0 => .ok (.fabs (fld w 18 7) (fld w 11 7) (fld w 0 4))
  | 1 => .ok (.fneg (fld w 18 7) (fld w 11 7) (fld w 0 4))
  | 2 => .ok (.frcp (fld w 18 7) (fld w 11 7) (fld w 0 4))
  | 3 => .ok (.fsqrt (fld w 18 7) (fld w 11 7) (fld w 0 4))
  | 4 => .ok (.frsq (fld w 18 7) (fld w 11 7) (fld w 0 4))
  | 5 => .ok (.fexp2 (fld w 18 7) (fld w 11 7) (fld w 0 4))
  | 6 => .ok (.flog2 (fld w 18 7) (fld w 11 7) (fld w 0 4))
  | 7 => .ok (.fsin (fld w 18 7) (fld w 11 7) (fld w 0 4))
  | 8 => .ok (.fcos (fld w 18 7) (fld w 11 7) (fld w 0 4))
  | 9 => .ok (.ftanh (fld w 18 7) (fld w 11 7) (fld w 0 4))
  | 10 => .ok (.fsigm (fld w 18 7) (fld w 11 7) (fld w 0 4))
  | 11 => .ok (.fclass (fld w 18 7) (fld w 11 7) (fld w 0 4))
  | 12 => .ok (.frndRn (fld w 18 7) (fld w 11 7) (fld w 0 4))
  | 13 => .ok (.frndRz (fld w 18 7) (fld w 11 7) (fld w 0 4))
  | 14 => .ok (.frndRd (fld w 18 7) (fld w 11 7) (fld w 0 4))
  | 15 => .ok (.frndRu (fld w 18 7) (fld w 11 7) (fld w 0 4))
  | _ => .error .function

/-- Opcode 0x4E by its function code (R45). -/
def decode4E (w : Word) : Except DecodeError Instr :=
  match (fld w 4 7).toNat with
  | 0 => keep (fld w 21 4 = 0 ∧ fld w 14 4 = 0) (.voteAny (fld w 18 3) (fld w 11 3) (fld w 0 4))
  | 1 => keep (fld w 21 4 = 0 ∧ fld w 14 4 = 0) (.voteAll (fld w 18 3) (fld w 11 3) (fld w 0 4))
  | 2 => keep (fld w 14 4 = 0) (.voteBallot (fld w 18 7) (fld w 11 3) (fld w 0 4))
  | 3 => keep (fld w 14 4 = 0) (.voteCount (fld w 18 7) (fld w 11 3) (fld w 0 4))
  | 4 => .ok (.redwAddS32 (fld w 18 7) (fld w 11 7) (fld w 0 4))
  | 5 => .ok (.redwAddF32 (fld w 18 7) (fld w 11 7) (fld w 0 4))
  | 6 => .ok (.redwMinS (fld w 18 7) (fld w 11 7) (fld w 0 4))
  | 7 => .ok (.redwMinN (fld w 18 7) (fld w 11 7) (fld w 0 4))
  | 8 => .ok (.redwMaxS (fld w 18 7) (fld w 11 7) (fld w 0 4))
  | 9 => .ok (.redwMaxN (fld w 18 7) (fld w 11 7) (fld w 0 4))
  | 10 => .ok (.redwMinF (fld w 18 7) (fld w 11 7) (fld w 0 4))
  | 11 => .ok (.redwMaxF (fld w 18 7) (fld w 11 7) (fld w 0 4))
  | 12 => .ok (.redwAnd (fld w 18 7) (fld w 11 7) (fld w 0 4))
  | 13 => .ok (.redwOr (fld w 18 7) (fld w 11 7) (fld w 0 4))
  | 14 => .ok (.redwXor (fld w 18 7) (fld w 11 7) (fld w 0 4))
  | 15 => .ok (.scanwInclS32 (fld w 18 7) (fld w 11 7) (fld w 0 4))
  | 16 => .ok (.scanwExclS32 (fld w 18 7) (fld w 11 7) (fld w 0 4))
  | 17 => .ok (.scanwInclF32 (fld w 18 7) (fld w 11 7) (fld w 0 4))
  | 18 => .ok (.scanwExclF32 (fld w 18 7) (fld w 11 7) (fld w 0 4))
  | 19 => .ok (.matchL (fld w 18 7) (fld w 11 7) (fld w 0 4))
  | 20 => keep (fld w 11 14 = 0) (.fencew (fld w 0 4))
  | _ => .error .function

/-- Opcode 0x5F by its selecting field (R45). -/
def decode5F (w : Word) : Except DecodeError Instr :=
  match (fld w 18 7).toNat with
  | 0 => .ok (.pftL1 (fld w 11 7) (fld w 4 7) (fld w 0 4))
  | 1 => .ok (.pftLlc (fld w 11 7) (fld w 4 7) (fld w 0 4))
  | _ => .error .reserved

/-- Opcode 0x60 by its function code (R45). -/
def decode60 (w : Word) : Except DecodeError Instr :=
  match (fld w 4 7).toNat with
  | 0 => keep (fld w 18 7 = 0) (.cflushWb (fld w 11 7) (fld w 0 4))
  | 1 => keep (fld w 18 7 = 0) (.cflushInv (fld w 11 7) (fld w 0 4))
  | 2 => keep (fld w 18 7 = 0) (.cflushWbinv (fld w 11 7) (fld w 0 4))
  | _ => .error .function

/-- Opcode 0x69 by its function code (R45). -/
def decode69 (w : Word) : Except DecodeError Instr :=
  match (fld w 4 7).toNat with
  | 0 => keep (fld w 11 14 = 0) (.retry (fld w 0 4))
  | 1 => keep (fld w 18 7 = 0) (.txa (fld w 11 7) (fld w 0 4))
  | 2 => keep (fld w 11 7 = 0) (.txq (fld w 18 7) (fld w 0 4))
  | _ => .error .function

/-- Opcode 0x6A by its function code (R45). -/
def decode6A (w : Word) : Except DecodeError Instr :=
  match (fld w 4 7).toNat with
  | 0 => .ok (.phreg (fld w 18 7) (fld w 11 7) (fld w 0 4))
  | 1 => .ok (.phdrop (fld w 18 7) (fld w 11 7) (fld w 0 4))
  | 2 => .ok (.pharr (fld w 18 7) (fld w 11 7) (fld w 0 4))
  | 3 => .ok (.phrd (fld w 18 7) (fld w 11 7) (fld w 0 4))
  | _ => .error .function

/-- Opcode 0x6B by its function code (R45). -/
def decode6B (w : Word) : Except DecodeError Instr :=
  match (fld w 4 7).toNat with
  | 0 => keep (fld w 21 4 = 0) (.tagany (fld w 18 3) (fld w 11 7) (fld w 0 4))
  | 1 => keep (fld w 21 4 = 0) (.tagall (fld w 18 3) (fld w 11 7) (fld w 0 4))
  | 2 => .ok (.tagff (fld w 18 7) (fld w 11 7) (fld w 0 4))
  | 3 => keep (fld w 18 7 = 0) (.tagclr (fld w 11 7) (fld w 0 4))
  | _ => .error .function

/-- Opcode 0x6C by its function code (R45). -/
def decode6C (w : Word) : Except DecodeError Instr :=
  match (fld w 4 7).toNat with
  | 0 => .ok (.xkick (fld w 18 7) (fld w 11 7) (fld w 0 4))
  | 1 => .ok (.xcancel (fld w 18 7) (fld w 11 7) (fld w 0 4))
  | 2 => .ok (.xstat (fld w 18 7) (fld w 11 7) (fld w 0 4))
  | 3 => .ok (.publish (fld w 18 7) (fld w 11 7) (fld w 0 4))
  | _ => .error .function

/-- Opcode 0x6D by its function code (R45). -/
def decode6D (w : Word) : Except DecodeError Instr :=
  match (fld w 18 7).toNat with
  | 0 => keep (fld w 0 4 = 0) (.mlds (fld w 11 7) (fld w 4 7))
  | 1 => keep (fld w 0 4 = 0) (.mswp (fld w 11 7) (fld w 4 7))
  | 2 => keep (fld w 0 4 = 0) (.mstr (fld w 11 7) (fld w 4 7))
  | 3 => keep (fld w 0 4 = 0) (.mdrn (fld w 11 7) (fld w 4 7))
  | 4 => keep (fld w 0 4 = 0) (.mzero (fld w 11 7) (fld w 4 7))
  | _ => .error .function

/-- Opcode 0x72 by its function code (R45). -/
def decode72 (w : Word) : Except DecodeError Instr :=
  match (fld w 4 7).toNat with
  | 0 => .ok (.zqry (fld w 18 7) (fld w 11 7) (fld w 0 4))
  | 1 => .ok (.zver (fld w 18 7) (fld w 11 7) (fld w 0 4))
  | 2 => .ok (.tqry (fld w 18 7) (fld w 11 7) (fld w 0 4))
  | 3 => .ok (.ctinv (fld w 18 7) (fld w 11 7) (fld w 0 4))
  | _ => .error .function

/-- Opcode 0x73 by its selecting field (R45). -/
def decode73 (w : Word) : Except DecodeError Instr :=
  match (fld w 21 4).toNat with
  | 0 => .ok (.ctloadCt (fld w 18 3) (fld w 11 7) (fld w 4 7) (fld w 0 4))
  | 1 => .ok (.ctloadCb (fld w 18 3) (fld w 11 7) (fld w 4 7) (fld w 0 4))
  | _ => .error .reserved

/-- Opcode 0x74 by its function code (R45). -/
def decode74 (w : Word) : Except DecodeError Instr :=
  match (fld w 18 7).toNat with
  | 0 => keep (fld w 4 7 = 0) (.recfence (fld w 11 7) (fld w 0 4))
  | 1 => keep (fld w 4 7 = 0) (.shfence (fld w 11 7) (fld w 0 4))
  | _ => .error .function

/-- Opcode 0x76 by its function code (R45). -/
def decode76 (w : Word) : Except DecodeError Instr :=
  match (fld w 4 7).toNat with
  | 0 => .ok (.cntrd (fld w 18 7) (fld w 11 7) (fld w 0 4))
  | 1 => .ok (.cancel (fld w 18 7) (fld w 11 7) (fld w 0 4))
  | _ => .error .function

/-- Opcode 0x7C by its function code (R45). -/
def decode7C (w : Word) : Except DecodeError Instr :=
  match (fld w 4 7).toNat with
  | 0 => .ok (.grprd (fld w 18 7) (fld w 11 7) (fld w 0 4))
  | 1 => .ok (.grpwr (fld w 18 7) (fld w 11 7) (fld w 0 4))
  | 2 => .ok (.grpres (fld w 18 7) (fld w 11 7) (fld w 0 4))
  | 3 => keep (fld w 11 14 = 0) (.tret (fld w 0 4))
  | _ => .error .function

/-- Opcode 0x7D by its function code (R45). -/
def decode7D (w : Word) : Except DecodeError Instr :=
  match (fld w 4 7).toNat with
  | 0 => keep (fld w 18 7 = 0) (.tlbinv (fld w 11 7) (fld w 0 4))
  | 1 => keep (fld w 18 7 = 0) (.tlbinv2 (fld w 11 7) (fld w 0 4))
  | 2 => .ok (.xlate (fld w 18 7) (fld w 11 7) (fld w 0 4))
  | 3 => .ok (.phstart (fld w 18 7) (fld w 11 7) (fld w 0 4))
  | _ => .error .function

/-- The instruction a word stands for, or why it stands for none (R44). -/
def decode (w : Word) : Except DecodeError Instr :=
  match (fld w 25 7).toNat with
  | 0x00 => if w = 0 then .ok .nop else .error .opcode
  | 0x01 => .ok (.iadd (fld w 18 7) (fld w 11 7) (fld w 4 7) (fld w 0 4))
  | 0x02 => .ok (.isub (fld w 18 7) (fld w 11 7) (fld w 4 7) (fld w 0 4))
  | 0x03 => .ok (.imul (fld w 18 7) (fld w 11 7) (fld w 4 7) (fld w 0 4))
  | 0x04 => .ok (.imulhS (fld w 18 7) (fld w 11 7) (fld w 4 7) (fld w 0 4))
  | 0x05 => .ok (.imulhN (fld w 18 7) (fld w 11 7) (fld w 4 7) (fld w 0 4))
  | 0x06 => .ok (.imad (fld w 18 7) (fld w 11 7) (fld w 4 7) (fld w 0 4))
  | 0x07 => .ok (.imadwS (fld w 18 7) (fld w 11 7) (fld w 4 7) (fld w 0 4))
  | 0x08 => .ok (.imadwN (fld w 18 7) (fld w 11 7) (fld w 4 7) (fld w 0 4))
  | 0x09 => .ok (.iadd64 (fld w 18 7) (fld w 11 7) (fld w 4 7) (fld w 0 4))
  | 0x0A => .ok (.isub64 (fld w 18 7) (fld w 11 7) (fld w 4 7) (fld w 0 4))
  | 0x0B => .ok (.iminS (fld w 18 7) (fld w 11 7) (fld w 4 7) (fld w 0 4))
  | 0x0C => .ok (.iminN (fld w 18 7) (fld w 11 7) (fld w 4 7) (fld w 0 4))
  | 0x0D => .ok (.imaxS (fld w 18 7) (fld w 11 7) (fld w 4 7) (fld w 0 4))
  | 0x0E => .ok (.imaxN (fld w 18 7) (fld w 11 7) (fld w 4 7) (fld w 0 4))
  | 0x0F => .ok (.ishl (fld w 18 7) (fld w 11 7) (fld w 4 7) (fld w 0 4))
  | 0x10 => .ok (.ishr (fld w 18 7) (fld w 11 7) (fld w 4 7) (fld w 0 4))
  | 0x11 => .ok (.isar (fld w 18 7) (fld w 11 7) (fld w 4 7) (fld w 0 4))
  | 0x12 => .ok (.irot (fld w 18 7) (fld w 11 7) (fld w 4 7) (fld w 0 4))
  | 0x13 => .ok (.and (fld w 18 7) (fld w 11 7) (fld w 4 7) (fld w 0 4))
  | 0x14 => .ok (.or (fld w 18 7) (fld w 11 7) (fld w 4 7) (fld w 0 4))
  | 0x15 => .ok (.xor (fld w 18 7) (fld w 11 7) (fld w 4 7) (fld w 0 4))
  | 0x16 => .ok (.andn (fld w 18 7) (fld w 11 7) (fld w 4 7) (fld w 0 4))
  | 0x17 => .ok (.bfxS (fld w 18 7) (fld w 11 7) (fld w 4 7) (fld w 0 4))
  | 0x18 => .ok (.bfxN (fld w 18 7) (fld w 11 7) (fld w 4 7) (fld w 0 4))
  | 0x19 => .ok (.bfi (fld w 18 7) (fld w 11 7) (fld w 4 7) (fld w 0 4))
  | 0x1A => .ok (.bperm (fld w 18 7) (fld w 11 7) (fld w 4 7) (fld w 0 4))
  | 0x1B => .ok (.isel (fld w 18 7) (fld w 11 7) (fld w 4 7) (fld w 0 4))
  | 0x1C => .ok (.icmp (fld w 21 4) (fld w 18 3) (fld w 11 7) (fld w 4 7) (fld w 0 4))
  | 0x1D => decode1D w
  | 0x1E => decode1E w
  | 0x20 => .ok (.iaddi (fld w 18 7) (fld w 11 7) (fld w 0 11))
  | 0x21 => .ok (.imuli (fld w 18 7) (fld w 11 7) (fld w 0 11))
  | 0x22 => .ok (.andi (fld w 18 7) (fld w 11 7) (fld w 0 11))
  | 0x23 => .ok (.ori (fld w 18 7) (fld w 11 7) (fld w 0 11))
  | 0x24 => .ok (.xori (fld w 18 7) (fld w 11 7) (fld w 0 11))
  | 0x25 => keep (fld w 5 6 = 0) (.shli (fld w 18 7) (fld w 11 7) (fld w 0 5))
  | 0x26 => keep (fld w 5 6 = 0) (.shri (fld w 18 7) (fld w 11 7) (fld w 0 5))
  | 0x27 => keep (fld w 5 6 = 0) (.sari (fld w 18 7) (fld w 11 7) (fld w 0 5))
  | 0x28 => .ok (.icmpi (fld w 21 4) (fld w 18 3) (fld w 11 7) (fld w 0 11))
  | 0x29 => .ok (.movl (fld w 18 7) (fld w 0 18))
  | 0x2A => .ok (.movh (fld w 18 7) (fld w 0 18))
  | 0x2B => .ok (.bra (fld w 21 4) (fld w 0 21))
  | 0x2C => .ok (.call (fld w 21 4) (fld w 0 21))
  | 0x2D => keep (fld w 18 7 = 0 ∧ fld w 4 7 = 0) (.brx (fld w 11 7) (fld w 0 4))
  | 0x2E => keep (fld w 18 7 = 0 ∧ fld w 4 7 = 0) (.callx (fld w 11 7) (fld w 0 4))
  | 0x2F => keep (fld w 4 21 = 0) (.ret (fld w 0 4))
  | 0x30 => keep (fld w 4 21 = 0) (.exit (fld w 0 4))
  | 0x31 => keep (fld w 21 4 = 0) (.join (fld w 0 21))
  | 0x32 => keep (fld w 11 14 = 0) (.winb (fld w 0 11))
  | 0x33 => keep (fld w 11 14 = 0) (.trap (fld w 0 11))
  | 0x34 => keep (fld w 11 14 = 0) (.bpt (fld w 0 11))
  | 0x35 => keep (fld w 18 7 = 0 ∧ fld w 0 5 = 0) (.xt (fld w 15 3) (fld w 12 3) (fld w 5 7))
  | 0x36 => .ok (.fadd (fld w 18 7) (fld w 11 7) (fld w 4 7) (fld w 0 4))
  | 0x37 => .ok (.fsub (fld w 18 7) (fld w 11 7) (fld w 4 7) (fld w 0 4))
  | 0x38 => .ok (.fmul (fld w 18 7) (fld w 11 7) (fld w 4 7) (fld w 0 4))
  | 0x39 => .ok (.ffma (fld w 18 7) (fld w 11 7) (fld w 4 7) (fld w 0 4))
  | 0x3A => .ok (.ffms (fld w 18 7) (fld w 11 7) (fld w 4 7) (fld w 0 4))
  | 0x3B => .ok (.fmin (fld w 18 7) (fld w 11 7) (fld w 4 7) (fld w 0 4))
  | 0x3C => .ok (.fmax (fld w 18 7) (fld w 11 7) (fld w 4 7) (fld w 0 4))
  | 0x3D => .ok (.fcmp (fld w 21 4) (fld w 18 3) (fld w 11 7) (fld w 4 7) (fld w 0 4))
  | 0x3E => .ok (.fdiv (fld w 18 7) (fld w 11 7) (fld w 4 7) (fld w 0 4))
  | 0x3F => .ok (.fscale (fld w 18 7) (fld w 11 7) (fld w 4 7) (fld w 0 4))
  | 0x40 => .ok (.hadd2 (fld w 18 7) (fld w 11 7) (fld w 4 7) (fld w 0 4))
  | 0x41 => .ok (.hmul2 (fld w 18 7) (fld w 11 7) (fld w 4 7) (fld w 0 4))
  | 0x42 => .ok (.hfma2 (fld w 18 7) (fld w 11 7) (fld w 4 7) (fld w 0 4))
  | 0x43 => .ok (.badd2 (fld w 18 7) (fld w 11 7) (fld w 4 7) (fld w 0 4))
  | 0x44 => .ok (.bmul2 (fld w 18 7) (fld w 11 7) (fld w 4 7) (fld w 0 4))
  | 0x45 => .ok (.bfma2 (fld w 18 7) (fld w 11 7) (fld w 4 7) (fld w 0 4))
  | 0x46 => .ok (.fdot4 (fld w 18 7) (fld w 11 7) (fld w 4 7) (fld w 0 4))
  | 0x47 => .ok (.fdot4E5 (fld w 18 7) (fld w 11 7) (fld w 4 7) (fld w 0 4))
  | 0x48 => decode48 w
  | 0x49 => .ok (.fcvt (fld w 18 7) (fld w 11 7) (fld w 4 7) (fld w 0 4))
  | 0x4A => .ok (.shflIdx (fld w 18 7) (fld w 11 7) (fld w 4 7) (fld w 0 4))
  | 0x4B => .ok (.shflUp (fld w 18 7) (fld w 11 7) (fld w 4 7) (fld w 0 4))
  | 0x4C => .ok (.shflDn (fld w 18 7) (fld w 11 7) (fld w 4 7) (fld w 0 4))
  | 0x4D => .ok (.shflXor (fld w 18 7) (fld w 11 7) (fld w 4 7) (fld w 0 4))
  | 0x4E => decode4E w
  | 0x50 => .ok (.ldN8 (fld w 18 7) (fld w 11 7) (fld w 4 7) (fld w 0 4))
  | 0x51 => .ok (.ldS8 (fld w 18 7) (fld w 11 7) (fld w 4 7) (fld w 0 4))
  | 0x52 => .ok (.ldN16 (fld w 18 7) (fld w 11 7) (fld w 4 7) (fld w 0 4))
  | 0x53 => .ok (.ldS16 (fld w 18 7) (fld w 11 7) (fld w 4 7) (fld w 0 4))
  | 0x54 => .ok (.ld32 (fld w 18 7) (fld w 11 7) (fld w 4 7) (fld w 0 4))
  | 0x55 => .ok (.ld64 (fld w 18 7) (fld w 11 7) (fld w 4 7) (fld w 0 4))
  | 0x56 => .ok (.ld128 (fld w 18 7) (fld w 11 7) (fld w 4 7) (fld w 0 4))
  | 0x57 => .ok (.st8 (fld w 18 7) (fld w 11 7) (fld w 4 7) (fld w 0 4))
  | 0x58 => .ok (.st16 (fld w 18 7) (fld w 11 7) (fld w 4 7) (fld w 0 4))
  | 0x59 => .ok (.st32 (fld w 18 7) (fld w 11 7) (fld w 4 7) (fld w 0 4))
  | 0x5A => .ok (.st64 (fld w 18 7) (fld w 11 7) (fld w 4 7) (fld w 0 4))
  | 0x5B => .ok (.st128 (fld w 18 7) (fld w 11 7) (fld w 4 7) (fld w 0 4))
  | 0x5C => .ok (.ldc (fld w 18 7) (fld w 11 7) (fld w 4 7) (fld w 0 4))
  | 0x5D => .ok (.tld (fld w 18 7) (fld w 11 7) (fld w 4 7) (fld w 0 4))
  | 0x5E => .ok (.tst (fld w 18 7) (fld w 11 7) (fld w 4 7) (fld w 0 4))
  | 0x5F => decode5F w
  | 0x60 => decode60 w
  | 0x61 => .ok (.atom (fld w 18 7) (fld w 11 7) (fld w 4 7) (fld w 0 4))
  | 0x62 => .ok (.atomc (fld w 18 7) (fld w 11 7) (fld w 4 7) (fld w 0 4))
  | 0x63 => .ok (.red (fld w 18 7) (fld w 11 7) (fld w 4 7) (fld w 0 4))
  | 0x64 => .ok (.agginc (fld w 18 7) (fld w 11 7) (fld w 4 7) (fld w 0 4))
  | 0x65 => keep (fld w 6 12 = 0) (.fence (fld w 18 7) (fld w 3 3) (fld w 0 3))
  | 0x66 => keep (fld w 21 4 = 0) (.txb (fld w 0 21))
  | 0x67 => keep (fld w 0 25 = 0) (.txe)
  | 0x68 => keep (fld w 21 4 = 0) (.orelse (fld w 0 21))
  | 0x69 => decode69 w
  | 0x6A => decode6A w
  | 0x6B => decode6B w
  | 0x6C => decode6C w
  | 0x6D => decode6D w
  | 0x6E => keep (fld w 4 7 = 0) (.mrd (fld w 18 7) (fld w 11 7) (fld w 0 4))
  | 0x6F => keep (fld w 4 7 = 0) (.mwr (fld w 18 7) (fld w 11 7) (fld w 0 4))
  | 0x70 => .ok (.zld (fld w 18 7) (fld w 11 7) (fld w 4 7) (fld w 0 4))
  | 0x71 => .ok (.zst (fld w 18 7) (fld w 11 7) (fld w 4 7) (fld w 0 4))
  | 0x72 => decode72 w
  | 0x73 => decode73 w
  | 0x74 => decode74 w
  | 0x75 => .ok (.launch (fld w 18 7) (fld w 11 7) (fld w 4 7) (fld w 0 4))
  | 0x76 => decode76 w
  | 0x77 => keep (fld w 21 4 = 0 ∧ fld w 10 1 = 0) (.qput (fld w 18 3) (fld w 11 7) (fld w 4 6) (fld w 0 4))
  | 0x78 => keep (fld w 14 4 = 0 ∧ fld w 10 1 = 0) (.qtake (fld w 18 7) (fld w 11 3) (fld w 4 6) (fld w 0 4))
  | 0x79 => keep (fld w 11 7 = 0) (.srd (fld w 18 7) (fld w 0 11))
  | 0x7A => keep (fld w 18 7 = 0) (.swr (fld w 11 7) (fld w 0 11))
  | 0x7B => keep (fld w 18 7 = 0 ∧ fld w 3 8 = 0) (.segld (fld w 11 7) (fld w 0 3))
  | 0x7C => decode7C w
  | 0x7D => decode7D w
  | _ => .error .opcode

/-- The word at the head of a list of bytes, little-endian (R34), and the rest of the list. -/
def wordOfBytes : List Byte → Option (Word × List Byte)
  | b0 :: b1 :: b2 :: b3 :: rest => some (b3 ++ b2 ++ b1 ++ b0, rest)
  | _ => none

/-- Decode the instruction at the head of a list of bytes; none where fewer than four bytes stand there. -/
def decodeBytes (bs : List Byte) : Option (Except DecodeError Instr × List Byte) :=
  match wordOfBytes bs with
  | some (w, rest) => some (decode w, rest)
  | none => none

/-- The instruction read from an instruction whose bits are w, numbered as the opcode table numbers them; every
instruction is one 32-bit word, and bits from nbits up are zero. -/
def decodeTableWord (nbits w : Nat) : Option Instr :=
  match decode (BitVec.ofNat 32 (w % 2 ^ nbits)) with
  | .ok i => some i
  | .error _ => none

/-- The words of an instruction; an operation or event of the part has none. -/
def encode : Instr → List Word
  | .nop => [0]
  | .iadd d a b g => [0x01#7 ++ d ++ a ++ b ++ g]
  | .isub d a b g => [0x02#7 ++ d ++ a ++ b ++ g]
  | .imul d a b g => [0x03#7 ++ d ++ a ++ b ++ g]
  | .imulhS d a b g => [0x04#7 ++ d ++ a ++ b ++ g]
  | .imulhN d a b g => [0x05#7 ++ d ++ a ++ b ++ g]
  | .imad d a b g => [0x06#7 ++ d ++ a ++ b ++ g]
  | .imadwS d a b g => [0x07#7 ++ d ++ a ++ b ++ g]
  | .imadwN d a b g => [0x08#7 ++ d ++ a ++ b ++ g]
  | .iadd64 d a b g => [0x09#7 ++ d ++ a ++ b ++ g]
  | .isub64 d a b g => [0x0a#7 ++ d ++ a ++ b ++ g]
  | .iminS d a b g => [0x0b#7 ++ d ++ a ++ b ++ g]
  | .iminN d a b g => [0x0c#7 ++ d ++ a ++ b ++ g]
  | .imaxS d a b g => [0x0d#7 ++ d ++ a ++ b ++ g]
  | .imaxN d a b g => [0x0e#7 ++ d ++ a ++ b ++ g]
  | .ishl d a b g => [0x0f#7 ++ d ++ a ++ b ++ g]
  | .ishr d a b g => [0x10#7 ++ d ++ a ++ b ++ g]
  | .isar d a b g => [0x11#7 ++ d ++ a ++ b ++ g]
  | .irot d a b g => [0x12#7 ++ d ++ a ++ b ++ g]
  | .and d a b g => [0x13#7 ++ d ++ a ++ b ++ g]
  | .or d a b g => [0x14#7 ++ d ++ a ++ b ++ g]
  | .xor d a b g => [0x15#7 ++ d ++ a ++ b ++ g]
  | .andn d a b g => [0x16#7 ++ d ++ a ++ b ++ g]
  | .bfxS d a b g => [0x17#7 ++ d ++ a ++ b ++ g]
  | .bfxN d a b g => [0x18#7 ++ d ++ a ++ b ++ g]
  | .bfi d a b g => [0x19#7 ++ d ++ a ++ b ++ g]
  | .bperm d a b g => [0x1a#7 ++ d ++ a ++ b ++ g]
  | .isel d a b g => [0x1b#7 ++ d ++ a ++ b ++ g]
  | .icmp c p a b g => [0x1c#7 ++ c ++ p ++ a ++ b ++ g]
  | .mov d a g => [0x1d#7 ++ d ++ a ++ 0x00#7 ++ g]
  | .not d a g => [0x1d#7 ++ d ++ a ++ 0x01#7 ++ g]
  | .ineg d a g => [0x1d#7 ++ d ++ a ++ 0x02#7 ++ g]
  | .iabs d a g => [0x1d#7 ++ d ++ a ++ 0x03#7 ++ g]
  | .popc d a g => [0x1d#7 ++ d ++ a ++ 0x04#7 ++ g]
  | .clz d a g => [0x1d#7 ++ d ++ a ++ 0x05#7 ++ g]
  | .brev d a g => [0x1d#7 ++ d ++ a ++ 0x06#7 ++ g]
  | .sext8 d a g => [0x1d#7 ++ d ++ a ++ 0x07#7 ++ g]
  | .sext16 d a g => [0x1d#7 ++ d ++ a ++ 0x08#7 ++ g]
  | .zext8 d a g => [0x1d#7 ++ d ++ a ++ 0x09#7 ++ g]
  | .zext16 d a g => [0x1d#7 ++ d ++ a ++ 0x0a#7 ++ g]
  | .pand d b a g => [0x1e#7 ++ 0#4 ++ d ++ 0#1 ++ b ++ a ++ 0x00#7 ++ g]
  | .por d b a g => [0x1e#7 ++ 0#4 ++ d ++ 0#1 ++ b ++ a ++ 0x01#7 ++ g]
  | .pxor d b a g => [0x1e#7 ++ 0#4 ++ d ++ 0#1 ++ b ++ a ++ 0x02#7 ++ g]
  | .pnot d a g => [0x1e#7 ++ 0#4 ++ d ++ 0#4 ++ a ++ 0x03#7 ++ g]
  | .p2v d g => [0x1e#7 ++ d ++ 0#7 ++ 0x04#7 ++ g]
  | .v2p a g => [0x1e#7 ++ 0#7 ++ a ++ 0x05#7 ++ g]
  | .pset d a g => [0x1e#7 ++ 0#4 ++ d ++ a ++ 0x06#7 ++ g]
  | .iaddi d a i => [0x20#7 ++ d ++ a ++ i]
  | .imuli d a i => [0x21#7 ++ d ++ a ++ i]
  | .andi d a i => [0x22#7 ++ d ++ a ++ i]
  | .ori d a i => [0x23#7 ++ d ++ a ++ i]
  | .xori d a i => [0x24#7 ++ d ++ a ++ i]
  | .shli d a n => [0x25#7 ++ d ++ a ++ 0#6 ++ n]
  | .shri d a n => [0x26#7 ++ d ++ a ++ 0#6 ++ n]
  | .sari d a n => [0x27#7 ++ d ++ a ++ 0#6 ++ n]
  | .icmpi c p a i => [0x28#7 ++ c ++ p ++ a ++ i]
  | .movl d i => [0x29#7 ++ d ++ i]
  | .movh d i => [0x2a#7 ++ d ++ i]
  | .bra g i => [0x2b#7 ++ g ++ i]
  | .call g i => [0x2c#7 ++ g ++ i]
  | .brx a g => [0x2d#7 ++ 0#7 ++ a ++ 0#7 ++ g]
  | .callx a g => [0x2e#7 ++ 0#7 ++ a ++ 0#7 ++ g]
  | .ret g => [0x2f#7 ++ 0#21 ++ g]
  | .exit g => [0x30#7 ++ 0#21 ++ g]
  | .join i => [0x31#7 ++ 0#4 ++ i]
  | .winb i => [0x32#7 ++ 0#14 ++ i]
  | .trap i => [0x33#7 ++ 0#14 ++ i]
  | .bpt i => [0x34#7 ++ 0#14 ++ i]
  | .xt h c s => [0x35#7 ++ 0#7 ++ h ++ c ++ s ++ 0#5]
  | .fadd d a b g => [0x36#7 ++ d ++ a ++ b ++ g]
  | .fsub d a b g => [0x37#7 ++ d ++ a ++ b ++ g]
  | .fmul d a b g => [0x38#7 ++ d ++ a ++ b ++ g]
  | .ffma d a b g => [0x39#7 ++ d ++ a ++ b ++ g]
  | .ffms d a b g => [0x3a#7 ++ d ++ a ++ b ++ g]
  | .fmin d a b g => [0x3b#7 ++ d ++ a ++ b ++ g]
  | .fmax d a b g => [0x3c#7 ++ d ++ a ++ b ++ g]
  | .fcmp c p a b g => [0x3d#7 ++ c ++ p ++ a ++ b ++ g]
  | .fdiv d a b g => [0x3e#7 ++ d ++ a ++ b ++ g]
  | .fscale d a b g => [0x3f#7 ++ d ++ a ++ b ++ g]
  | .hadd2 d a b g => [0x40#7 ++ d ++ a ++ b ++ g]
  | .hmul2 d a b g => [0x41#7 ++ d ++ a ++ b ++ g]
  | .hfma2 d a b g => [0x42#7 ++ d ++ a ++ b ++ g]
  | .badd2 d a b g => [0x43#7 ++ d ++ a ++ b ++ g]
  | .bmul2 d a b g => [0x44#7 ++ d ++ a ++ b ++ g]
  | .bfma2 d a b g => [0x45#7 ++ d ++ a ++ b ++ g]
  | .fdot4 d a b g => [0x46#7 ++ d ++ a ++ b ++ g]
  | .fdot4E5 d a b g => [0x47#7 ++ d ++ a ++ b ++ g]
  | .fabs d a g => [0x48#7 ++ d ++ a ++ 0x00#7 ++ g]
  | .fneg d a g => [0x48#7 ++ d ++ a ++ 0x01#7 ++ g]
  | .frcp d a g => [0x48#7 ++ d ++ a ++ 0x02#7 ++ g]
  | .fsqrt d a g => [0x48#7 ++ d ++ a ++ 0x03#7 ++ g]
  | .frsq d a g => [0x48#7 ++ d ++ a ++ 0x04#7 ++ g]
  | .fexp2 d a g => [0x48#7 ++ d ++ a ++ 0x05#7 ++ g]
  | .flog2 d a g => [0x48#7 ++ d ++ a ++ 0x06#7 ++ g]
  | .fsin d a g => [0x48#7 ++ d ++ a ++ 0x07#7 ++ g]
  | .fcos d a g => [0x48#7 ++ d ++ a ++ 0x08#7 ++ g]
  | .ftanh d a g => [0x48#7 ++ d ++ a ++ 0x09#7 ++ g]
  | .fsigm d a g => [0x48#7 ++ d ++ a ++ 0x0a#7 ++ g]
  | .fclass d a g => [0x48#7 ++ d ++ a ++ 0x0b#7 ++ g]
  | .frndRn d a g => [0x48#7 ++ d ++ a ++ 0x0c#7 ++ g]
  | .frndRz d a g => [0x48#7 ++ d ++ a ++ 0x0d#7 ++ g]
  | .frndRd d a g => [0x48#7 ++ d ++ a ++ 0x0e#7 ++ g]
  | .frndRu d a g => [0x48#7 ++ d ++ a ++ 0x0f#7 ++ g]
  | .fcvt d a b g => [0x49#7 ++ d ++ a ++ b ++ g]
  | .shflIdx d a b g => [0x4a#7 ++ d ++ a ++ b ++ g]
  | .shflUp d a b g => [0x4b#7 ++ d ++ a ++ b ++ g]
  | .shflDn d a b g => [0x4c#7 ++ d ++ a ++ b ++ g]
  | .shflXor d a b g => [0x4d#7 ++ d ++ a ++ b ++ g]
  | .voteAny d a g => [0x4e#7 ++ 0#4 ++ d ++ 0#4 ++ a ++ 0x00#7 ++ g]
  | .voteAll d a g => [0x4e#7 ++ 0#4 ++ d ++ 0#4 ++ a ++ 0x01#7 ++ g]
  | .voteBallot d a g => [0x4e#7 ++ d ++ 0#4 ++ a ++ 0x02#7 ++ g]
  | .voteCount d a g => [0x4e#7 ++ d ++ 0#4 ++ a ++ 0x03#7 ++ g]
  | .redwAddS32 d a g => [0x4e#7 ++ d ++ a ++ 0x04#7 ++ g]
  | .redwAddF32 d a g => [0x4e#7 ++ d ++ a ++ 0x05#7 ++ g]
  | .redwMinS d a g => [0x4e#7 ++ d ++ a ++ 0x06#7 ++ g]
  | .redwMinN d a g => [0x4e#7 ++ d ++ a ++ 0x07#7 ++ g]
  | .redwMaxS d a g => [0x4e#7 ++ d ++ a ++ 0x08#7 ++ g]
  | .redwMaxN d a g => [0x4e#7 ++ d ++ a ++ 0x09#7 ++ g]
  | .redwMinF d a g => [0x4e#7 ++ d ++ a ++ 0x0a#7 ++ g]
  | .redwMaxF d a g => [0x4e#7 ++ d ++ a ++ 0x0b#7 ++ g]
  | .redwAnd d a g => [0x4e#7 ++ d ++ a ++ 0x0c#7 ++ g]
  | .redwOr d a g => [0x4e#7 ++ d ++ a ++ 0x0d#7 ++ g]
  | .redwXor d a g => [0x4e#7 ++ d ++ a ++ 0x0e#7 ++ g]
  | .scanwInclS32 d a g => [0x4e#7 ++ d ++ a ++ 0x0f#7 ++ g]
  | .scanwExclS32 d a g => [0x4e#7 ++ d ++ a ++ 0x10#7 ++ g]
  | .scanwInclF32 d a g => [0x4e#7 ++ d ++ a ++ 0x11#7 ++ g]
  | .scanwExclF32 d a g => [0x4e#7 ++ d ++ a ++ 0x12#7 ++ g]
  | .matchL d a g => [0x4e#7 ++ d ++ a ++ 0x13#7 ++ g]
  | .fencew g => [0x4e#7 ++ 0#14 ++ 0x14#7 ++ g]
  | .ldN8 d a b g => [0x50#7 ++ d ++ a ++ b ++ g]
  | .ldS8 d a b g => [0x51#7 ++ d ++ a ++ b ++ g]
  | .ldN16 d a b g => [0x52#7 ++ d ++ a ++ b ++ g]
  | .ldS16 d a b g => [0x53#7 ++ d ++ a ++ b ++ g]
  | .ld32 d a b g => [0x54#7 ++ d ++ a ++ b ++ g]
  | .ld64 d a b g => [0x55#7 ++ d ++ a ++ b ++ g]
  | .ld128 d a b g => [0x56#7 ++ d ++ a ++ b ++ g]
  | .st8 d a b g => [0x57#7 ++ d ++ a ++ b ++ g]
  | .st16 d a b g => [0x58#7 ++ d ++ a ++ b ++ g]
  | .st32 d a b g => [0x59#7 ++ d ++ a ++ b ++ g]
  | .st64 d a b g => [0x5a#7 ++ d ++ a ++ b ++ g]
  | .st128 d a b g => [0x5b#7 ++ d ++ a ++ b ++ g]
  | .ldc d a b g => [0x5c#7 ++ d ++ a ++ b ++ g]
  | .tld d a b g => [0x5d#7 ++ d ++ a ++ b ++ g]
  | .tst d a b g => [0x5e#7 ++ d ++ a ++ b ++ g]
  | .pftL1 a b g => [0x5f#7 ++ 0x00#7 ++ a ++ b ++ g]
  | .pftLlc a b g => [0x5f#7 ++ 0x01#7 ++ a ++ b ++ g]
  | .cflushWb a g => [0x60#7 ++ 0#7 ++ a ++ 0x00#7 ++ g]
  | .cflushInv a g => [0x60#7 ++ 0#7 ++ a ++ 0x01#7 ++ g]
  | .cflushWbinv a g => [0x60#7 ++ 0#7 ++ a ++ 0x02#7 ++ g]
  | .atom d a b g => [0x61#7 ++ d ++ a ++ b ++ g]
  | .atomc d a b g => [0x62#7 ++ d ++ a ++ b ++ g]
  | .red d a b g => [0x63#7 ++ d ++ a ++ b ++ g]
  | .agginc d a b g => [0x64#7 ++ d ++ a ++ b ++ g]
  | .fence d s k => [0x65#7 ++ d ++ 0#12 ++ s ++ k]
  | .txb i => [0x66#7 ++ 0#4 ++ i]
  | .txe => [0x67#7 ++ 0#25]
  | .orelse i => [0x68#7 ++ 0#4 ++ i]
  | .retry g => [0x69#7 ++ 0#14 ++ 0x00#7 ++ g]
  | .txa a g => [0x69#7 ++ 0#7 ++ a ++ 0x01#7 ++ g]
  | .txq d g => [0x69#7 ++ d ++ 0#7 ++ 0x02#7 ++ g]
  | .phreg d a g => [0x6a#7 ++ d ++ a ++ 0x00#7 ++ g]
  | .phdrop d a g => [0x6a#7 ++ d ++ a ++ 0x01#7 ++ g]
  | .pharr d a g => [0x6a#7 ++ d ++ a ++ 0x02#7 ++ g]
  | .phrd d a g => [0x6a#7 ++ d ++ a ++ 0x03#7 ++ g]
  | .tagany p a g => [0x6b#7 ++ 0#4 ++ p ++ a ++ 0x00#7 ++ g]
  | .tagall p a g => [0x6b#7 ++ 0#4 ++ p ++ a ++ 0x01#7 ++ g]
  | .tagff d a g => [0x6b#7 ++ d ++ a ++ 0x02#7 ++ g]
  | .tagclr a g => [0x6b#7 ++ 0#7 ++ a ++ 0x03#7 ++ g]
  | .xkick d a g => [0x6c#7 ++ d ++ a ++ 0x00#7 ++ g]
  | .xcancel d a g => [0x6c#7 ++ d ++ a ++ 0x01#7 ++ g]
  | .xstat d a g => [0x6c#7 ++ d ++ a ++ 0x02#7 ++ g]
  | .publish d a g => [0x6c#7 ++ d ++ a ++ 0x03#7 ++ g]
  | .mlds a b => [0x6d#7 ++ 0x00#7 ++ a ++ b ++ 0#4]
  | .mswp a b => [0x6d#7 ++ 0x01#7 ++ a ++ b ++ 0#4]
  | .mstr a b => [0x6d#7 ++ 0x02#7 ++ a ++ b ++ 0#4]
  | .mdrn a b => [0x6d#7 ++ 0x03#7 ++ a ++ b ++ 0#4]
  | .mzero a b => [0x6d#7 ++ 0x04#7 ++ a ++ b ++ 0#4]
  | .mrd d a g => [0x6e#7 ++ d ++ a ++ 0#7 ++ g]
  | .mwr d a g => [0x6f#7 ++ d ++ a ++ 0#7 ++ g]
  | .zld d a b g => [0x70#7 ++ d ++ a ++ b ++ g]
  | .zst d a b g => [0x71#7 ++ d ++ a ++ b ++ g]
  | .zqry d a g => [0x72#7 ++ d ++ a ++ 0x00#7 ++ g]
  | .zver d a g => [0x72#7 ++ d ++ a ++ 0x01#7 ++ g]
  | .tqry d a g => [0x72#7 ++ d ++ a ++ 0x02#7 ++ g]
  | .ctinv d a g => [0x72#7 ++ d ++ a ++ 0x03#7 ++ g]
  | .ctloadCt s a b g => [0x73#7 ++ 0x00#4 ++ s ++ a ++ b ++ g]
  | .ctloadCb s a b g => [0x73#7 ++ 0x01#4 ++ s ++ a ++ b ++ g]
  | .recfence a g => [0x74#7 ++ 0x00#7 ++ a ++ 0#7 ++ g]
  | .shfence a g => [0x74#7 ++ 0x01#7 ++ a ++ 0#7 ++ g]
  | .launch d a b g => [0x75#7 ++ d ++ a ++ b ++ g]
  | .cntrd d a g => [0x76#7 ++ d ++ a ++ 0x00#7 ++ g]
  | .cancel d a g => [0x76#7 ++ d ++ a ++ 0x01#7 ++ g]
  | .qput p a q g => [0x77#7 ++ 0#4 ++ p ++ a ++ 0#1 ++ q ++ g]
  | .qtake d p q g => [0x78#7 ++ d ++ 0#4 ++ p ++ 0#1 ++ q ++ g]
  | .srd d i => [0x79#7 ++ d ++ 0#7 ++ i]
  | .swr a i => [0x7a#7 ++ 0#7 ++ a ++ i]
  | .segld a s => [0x7b#7 ++ 0#7 ++ a ++ 0#8 ++ s]
  | .grprd d a g => [0x7c#7 ++ d ++ a ++ 0x00#7 ++ g]
  | .grpwr d a g => [0x7c#7 ++ d ++ a ++ 0x01#7 ++ g]
  | .grpres d a g => [0x7c#7 ++ d ++ a ++ 0x02#7 ++ g]
  | .tret g => [0x7c#7 ++ 0#14 ++ 0x03#7 ++ g]
  | .tlbinv a g => [0x7d#7 ++ 0#7 ++ a ++ 0x00#7 ++ g]
  | .tlbinv2 a g => [0x7d#7 ++ 0#7 ++ a ++ 0x01#7 ++ g]
  | .xlate d a g => [0x7d#7 ++ d ++ a ++ 0x02#7 ++ g]
  | .phstart d a g => [0x7d#7 ++ d ++ a ++ 0x03#7 ++ g]
  | .asyncFaultTake .. => []
  | .loadArrival .. => []
  | .joinTimeout .. => []
  | .urgencyCompare .. => []
  | .poolPressure .. => []
  | .pipelineSample .. => []
  | .groupPlace .. => []
  | .heldStart .. => []
  | .launchStart .. => []
  | .groupComplete .. => []
  | .budgetOverrun .. => []
  | .deadlineExpiry .. => []
  | .copyComplete .. => []
  | .followOnIssue .. => []
  | .shadowCopyStart .. => []
  | .collectiveAccept .. => []
  | .collectiveTimeout .. => []
  | .mstrBackground .. => []
  | .drainBackground .. => []
  | .seamDecode .. => []
  | .slabEncode .. => []
  | .decoderPendingWake .. => []
  | .warpWake .. => []
  | .txAbortDeliver .. => []
  | .conflictBackoffEnd .. => []
  | .pageWalkComplete .. => []
  | .migratingRewalk .. => []
  | .wcbAgeDrain .. => []
  | .remoteAccess .. => []
  | .reduceContribution .. => []
  | .memoRemovalMessage .. => []
  | .flitReceive .. => []
  | .idleFlit .. => []
  | .linkDown .. => []
  | .peerFailed .. => []
  | .linkTraining .. => []
  | .hostMemAccess .. => []
  | .bar2Access .. => []
  | .doorbell .. => []
  | .install .. => []
  | .remove .. => []
  | .phasestart .. => []
  | .hostCancel .. => []
  | .release .. => []
  | .failedClear .. => []
  | .registerWrite .. => []
  | .rdreg .. => []
  | .wrreg .. => []
  | .preempt .. => []
  | .holdWrite .. => []
  | .logovfClear .. => []
  | .partcfgWrite .. => []
  | .nodecfgWrite .. => []
  | .keyload .. => []
  | .keyclr .. => []
  | .attest .. => []
  | .preset .. => []
  | .telem .. => []
  | .svnup .. => []
  | .powerOn .. => []
  | .deviceReset .. => []
  | .frameSyncEdge .. => []
  | .clockLower .. => []
  | .clockRaise .. => []
  | .thermalThreshold .. => []
  | .hbmEccError .. => []
  | .preemptRequest .. => []
  | .groupCaptured .. => []
  | .vencAccept .. => []
  | .vencFrameStart .. => []
  | .vencFrameDone .. => []
  | .illegalInstruction .. => []
  | .instructionFetchFault .. => []
  | .intakeComplete .. => []
  | .carveWrite .. => []
  | .writePerformed .. => []
  | .cxlCacheSnoop .. => []

/-- The bytes of a word in memory, bits [7:0] first (R34). -/
def bytesOfWord (w : Word) : List Byte := [fld w 0 8, fld w 8 8, fld w 16 8, fld w 24 8]

end Sys2Proof
end

