-- ==== Sys2Proof/WellFormed.lean ====
section
/-!
DEFINITION. Well-formed instructions: the operand checks that depend on the word alone and stand after the pattern of
the word (R36, R37, R39, R41, R136, R212, R334). A meaning raises the illegal-instruction fault on an ill-formed one.
-/
namespace Sys2Proof

/-- The selectors that SRD reads (R135). -/
abbrev readable (sel : Nat) : Prop :=
  sel ≤ 0x0B ∨ (0x10 ≤ sel ∧ sel ≤ 0x14) ∨ (0x20 ≤ sel ∧ sel ≤ 0x24) ∨ (0x40 ≤ sel ∧ sel ≤ 0x57) ∨
    (0x60 ≤ sel ∧ sel ≤ 0x62)

/-- The selectors that SWR writes: FLAGS, STKLIM, RSSTATE and WCBAGE (R135). -/
abbrev writable (sel : Nat) : Prop := sel = 0x10 ∨ sel = 0x12 ∨ sel = 0x13 ∨ sel = 0x60

/-- The guard is one the instruction may carry: not 0b1000 (R39), and 0b0000 in a warp-wide word (R41). -/
def guardOk : Instr → Bool
  | .iadd _ _ _ g => decide (g ≠ 8)
  | .isub _ _ _ g => decide (g ≠ 8)
  | .imul _ _ _ g => decide (g ≠ 8)
  | .imulhS _ _ _ g => decide (g ≠ 8)
  | .imulhN _ _ _ g => decide (g ≠ 8)
  | .imad _ _ _ g => decide (g ≠ 8)
  | .imadwS _ _ _ g => decide (g ≠ 8)
  | .imadwN _ _ _ g => decide (g ≠ 8)
  | .iadd64 _ _ _ g => decide (g ≠ 8)
  | .isub64 _ _ _ g => decide (g ≠ 8)
  | .iminS _ _ _ g => decide (g ≠ 8)
  | .iminN _ _ _ g => decide (g ≠ 8)
  | .imaxS _ _ _ g => decide (g ≠ 8)
  | .imaxN _ _ _ g => decide (g ≠ 8)
  | .ishl _ _ _ g => decide (g ≠ 8)
  | .ishr _ _ _ g => decide (g ≠ 8)
  | .isar _ _ _ g => decide (g ≠ 8)
  | .irot _ _ _ g => decide (g ≠ 8)
  | .and _ _ _ g => decide (g ≠ 8)
  | .or _ _ _ g => decide (g ≠ 8)
  | .xor _ _ _ g => decide (g ≠ 8)
  | .andn _ _ _ g => decide (g ≠ 8)
  | .bfxS _ _ _ g => decide (g ≠ 8)
  | .bfxN _ _ _ g => decide (g ≠ 8)
  | .bfi _ _ _ g => decide (g ≠ 8)
  | .bperm _ _ _ g => decide (g ≠ 8)
  | .isel _ _ _ g => decide (g ≠ 8)
  | .icmp _ _ _ _ g => decide (g ≠ 8)
  | .mov _ _ g => decide (g ≠ 8)
  | .not _ _ g => decide (g ≠ 8)
  | .ineg _ _ g => decide (g ≠ 8)
  | .iabs _ _ g => decide (g ≠ 8)
  | .popc _ _ g => decide (g ≠ 8)
  | .clz _ _ g => decide (g ≠ 8)
  | .brev _ _ g => decide (g ≠ 8)
  | .sext8 _ _ g => decide (g ≠ 8)
  | .sext16 _ _ g => decide (g ≠ 8)
  | .zext8 _ _ g => decide (g ≠ 8)
  | .zext16 _ _ g => decide (g ≠ 8)
  | .pand _ _ _ g => decide (g ≠ 8)
  | .por _ _ _ g => decide (g ≠ 8)
  | .pxor _ _ _ g => decide (g ≠ 8)
  | .pnot _ _ g => decide (g ≠ 8)
  | .p2v _ g => decide (g ≠ 8)
  | .v2p _ g => decide (g ≠ 8)
  | .pset _ _ g => decide (g ≠ 8)
  | .bra g _ => decide (g ≠ 8)
  | .call g _ => decide (g ≠ 8)
  | .brx _ g => decide (g ≠ 8)
  | .callx _ g => decide (g ≠ 8)
  | .ret g => decide (g ≠ 8)
  | .exit g => decide (g ≠ 8)
  | .fadd _ _ _ g => decide (g ≠ 8)
  | .fsub _ _ _ g => decide (g ≠ 8)
  | .fmul _ _ _ g => decide (g ≠ 8)
  | .ffma _ _ _ g => decide (g ≠ 8)
  | .ffms _ _ _ g => decide (g ≠ 8)
  | .fmin _ _ _ g => decide (g ≠ 8)
  | .fmax _ _ _ g => decide (g ≠ 8)
  | .fcmp _ _ _ _ g => decide (g ≠ 8)
  | .fdiv _ _ _ g => decide (g ≠ 8)
  | .fscale _ _ _ g => decide (g ≠ 8)
  | .hadd2 _ _ _ g => decide (g ≠ 8)
  | .hmul2 _ _ _ g => decide (g ≠ 8)
  | .hfma2 _ _ _ g => decide (g ≠ 8)
  | .badd2 _ _ _ g => decide (g ≠ 8)
  | .bmul2 _ _ _ g => decide (g ≠ 8)
  | .bfma2 _ _ _ g => decide (g ≠ 8)
  | .fdot4 _ _ _ g => decide (g ≠ 8)
  | .fdot4E5 _ _ _ g => decide (g ≠ 8)
  | .fabs _ _ g => decide (g ≠ 8)
  | .fneg _ _ g => decide (g ≠ 8)
  | .frcp _ _ g => decide (g ≠ 8)
  | .fsqrt _ _ g => decide (g ≠ 8)
  | .frsq _ _ g => decide (g ≠ 8)
  | .fexp2 _ _ g => decide (g ≠ 8)
  | .flog2 _ _ g => decide (g ≠ 8)
  | .fsin _ _ g => decide (g ≠ 8)
  | .fcos _ _ g => decide (g ≠ 8)
  | .ftanh _ _ g => decide (g ≠ 8)
  | .fsigm _ _ g => decide (g ≠ 8)
  | .fclass _ _ g => decide (g ≠ 8)
  | .frndRn _ _ g => decide (g ≠ 8)
  | .frndRz _ _ g => decide (g ≠ 8)
  | .frndRd _ _ g => decide (g ≠ 8)
  | .frndRu _ _ g => decide (g ≠ 8)
  | .fcvt _ _ _ g => decide (g ≠ 8)
  | .shflIdx _ _ _ g => decide (g ≠ 8)
  | .shflUp _ _ _ g => decide (g ≠ 8)
  | .shflDn _ _ _ g => decide (g ≠ 8)
  | .shflXor _ _ _ g => decide (g ≠ 8)
  | .voteAny _ _ g => decide (g ≠ 8)
  | .voteAll _ _ g => decide (g ≠ 8)
  | .voteBallot _ _ g => decide (g ≠ 8)
  | .voteCount _ _ g => decide (g ≠ 8)
  | .redwAddS32 _ _ g => decide (g ≠ 8)
  | .redwAddF32 _ _ g => decide (g ≠ 8)
  | .redwMinS _ _ g => decide (g ≠ 8)
  | .redwMinN _ _ g => decide (g ≠ 8)
  | .redwMaxS _ _ g => decide (g ≠ 8)
  | .redwMaxN _ _ g => decide (g ≠ 8)
  | .redwMinF _ _ g => decide (g ≠ 8)
  | .redwMaxF _ _ g => decide (g ≠ 8)
  | .redwAnd _ _ g => decide (g ≠ 8)
  | .redwOr _ _ g => decide (g ≠ 8)
  | .redwXor _ _ g => decide (g ≠ 8)
  | .scanwInclS32 _ _ g => decide (g ≠ 8)
  | .scanwExclS32 _ _ g => decide (g ≠ 8)
  | .scanwInclF32 _ _ g => decide (g ≠ 8)
  | .scanwExclF32 _ _ g => decide (g ≠ 8)
  | .matchL _ _ g => decide (g ≠ 8)
  | .fencew g => decide (g ≠ 8)
  | .ldN8 _ _ _ g => decide (g ≠ 8)
  | .ldS8 _ _ _ g => decide (g ≠ 8)
  | .ldN16 _ _ _ g => decide (g ≠ 8)
  | .ldS16 _ _ _ g => decide (g ≠ 8)
  | .ld32 _ _ _ g => decide (g ≠ 8)
  | .ld64 _ _ _ g => decide (g ≠ 8)
  | .ld128 _ _ _ g => decide (g ≠ 8)
  | .st8 _ _ _ g => decide (g ≠ 8)
  | .st16 _ _ _ g => decide (g ≠ 8)
  | .st32 _ _ _ g => decide (g ≠ 8)
  | .st64 _ _ _ g => decide (g ≠ 8)
  | .st128 _ _ _ g => decide (g ≠ 8)
  | .ldc _ _ _ g => decide (g ≠ 8)
  | .tld _ _ _ g => decide (g ≠ 8)
  | .tst _ _ _ g => decide (g ≠ 8)
  | .pftL1 _ _ g => decide (g ≠ 8)
  | .pftLlc _ _ g => decide (g ≠ 8)
  | .cflushWb _ g => decide (g ≠ 8)
  | .cflushInv _ g => decide (g ≠ 8)
  | .cflushWbinv _ g => decide (g ≠ 8)
  | .atom _ _ _ g => decide (g ≠ 8)
  | .atomc _ _ _ g => decide (g ≠ 8)
  | .red _ _ _ g => decide (g ≠ 8)
  | .agginc _ _ _ g => decide (g ≠ 8)
  | .retry g => decide (g = 0)
  | .txa _ g => decide (g = 0)
  | .txq _ g => decide (g ≠ 8)
  | .phreg _ _ g => decide (g ≠ 8)
  | .phdrop _ _ g => decide (g ≠ 8)
  | .pharr _ _ g => decide (g ≠ 8)
  | .phrd _ _ g => decide (g ≠ 8)
  | .tagany _ _ g => decide (g ≠ 8)
  | .tagall _ _ g => decide (g ≠ 8)
  | .tagff _ _ g => decide (g ≠ 8)
  | .tagclr _ g => decide (g ≠ 8)
  | .xkick _ _ g => decide (g ≠ 8)
  | .xcancel _ _ g => decide (g ≠ 8)
  | .xstat _ _ g => decide (g ≠ 8)
  | .publish _ _ g => decide (g ≠ 8)
  | .mrd _ _ g => decide (g ≠ 8)
  | .mwr _ _ g => decide (g ≠ 8)
  | .zld _ _ _ g => decide (g ≠ 8)
  | .zst _ _ _ g => decide (g ≠ 8)
  | .zqry _ _ g => decide (g ≠ 8)
  | .zver _ _ g => decide (g ≠ 8)
  | .tqry _ _ g => decide (g ≠ 8)
  | .ctinv _ _ g => decide (g ≠ 8)
  | .ctloadCt _ _ _ g => decide (g ≠ 8)
  | .ctloadCb _ _ _ g => decide (g ≠ 8)
  | .recfence _ g => decide (g ≠ 8)
  | .shfence _ g => decide (g ≠ 8)
  | .launch _ _ _ g => decide (g ≠ 8)
  | .cntrd _ _ g => decide (g ≠ 8)
  | .cancel _ _ g => decide (g ≠ 8)
  | .qput _ _ _ g => decide (g ≠ 8)
  | .qtake _ _ _ g => decide (g ≠ 8)
  | .grprd _ _ g => decide (g ≠ 8)
  | .grpwr _ _ g => decide (g ≠ 8)
  | .grpres _ _ g => decide (g ≠ 8)
  | .tret g => decide (g ≠ 8)
  | .tlbinv _ g => decide (g ≠ 8)
  | .tlbinv2 _ g => decide (g ≠ 8)
  | .xlate _ _ g => decide (g ≠ 8)
  | .phstart _ _ g => decide (g ≠ 8)
  | _ => true

/-- The operands are legal: predicate destinations, condition codes, kinds, scopes, segments, selectors. -/
def operandsOk : Instr → Bool
  | .icmp c p _ _ _ => decide (p ≠ 0 ∧ c.toNat ≤ 9)
  | .pand d _ _ _ => decide (d ≠ 0)
  | .por d _ _ _ => decide (d ≠ 0)
  | .pxor d _ _ _ => decide (d ≠ 0)
  | .pnot d _ _ => decide (d ≠ 0)
  | .pset d _ _ => decide (d ≠ 0)
  | .icmpi c p _ _ => decide (p ≠ 0 ∧ c.toNat ≤ 9)
  | .fcmp c p _ _ _ => decide (p ≠ 0 ∧ c.toNat ≤ 7)
  | .voteAny d _ _ => decide (d ≠ 0)
  | .voteAll d _ _ => decide (d ≠ 0)
  | .fence _ s k => decide (k.toNat < 4 ∧ s.toNat < 6)
  | .tagany p _ _ => decide (p ≠ 0)
  | .tagall p _ _ => decide (p ≠ 0)
  | .qput p _ _ _ => decide (p ≠ 0)
  | .qtake _ p _ _ => decide (p ≠ 0)
  | .srd _ i => decide (readable i.toNat)
  | .swr _ i => decide (writable i.toNat)
  | .segld _ s => decide (s = 0 ∨ s = 3)
  | _ => true

/-- A well-formed instruction. -/
def wellFormed (i : Instr) : Bool := guardOk i && operandsOk i

end Sys2Proof
end

