-- ==== Sys2Proof/Machine/Operands.lean ====
section
/-!
DEFINITION. Operand forms: the register window, lane words, pairs and quads, predicates and guards, immediates
(R36 to R43).
-/
namespace Sys2Proof.Machine

/-- Architectural register n of a frame; one that nothing has written is 0 in every lane (R129). -/
def Frame.reg (f : Frame) (n : Nat) : RegVal := (amGet f.regs n).getD { words := [], poison := 0 }

/-- The word of an architectural register in a lane. -/
def Frame.word (f : Frame) (n l : Nat) : Word := (f.reg n).words.getD l 0

/-- An architectural register is written in the lanes of a mask; the lanes of bad become poisoned, the other written
lanes whole (R42, R170). -/
def Frame.setRegP (n : Nat) (mask bad : Word) (g : Nat → Word) (f : Frame) : Frame :=
  let v : RegVal := { words := lanesOf fun l => if mask.getLsbD l then g l else f.word n l
                      poison := ((f.reg n).poison &&& ~~~mask) ||| (bad &&& mask) }
  { f with regs := amPut n v f.regs }

/-- The issuing warp's frame is changed. -/
def State.updFrame (g : Frame → Frame) (s : State) : State := { s with warp := { s.warp with frame := g s.warp.frame } }

/-- The issuing warp's frame. -/
def State.frame (s : State) : Frame := s.warp.frame

/-- The architectural register that operand number n names through the window (R42). -/
def State.arch (s : State) (n : Nat) : Nat := 16 * s.frame.winBase + n

/-- Lane word of operand number n, v[n][L]. -/
def State.v (s : State) (n l : Nat) : Word := s.frame.word (s.arch n) l

/-- The pair at operand number n, P(n)[L]: low word first (R43). -/
def State.pair (s : State) (n l : Nat) : DWord := s.v (n + 1) l ++ s.v n l

/-- Operand number n is written in the lanes of a mask. -/
def State.setV (n : Nat) (mask : Word) (g : Nat → Word) (s : State) : State :=
  s.updFrame (Frame.setRegP (16 * s.frame.winBase + n) mask 0 g)

/-- The pair at operand number n is written in the lanes of a mask. -/
def State.setPair (n : Nat) (mask : Word) (g : Nat → DWord) (s : State) : State :=
  (s.setV n mask fun l => (g l).setWidth 32).setV (n + 1) mask fun l => (g l >>> 32).setWidth 32

/-- k registers from operand number n are written in the lanes of a mask. -/
def State.setBlock (n : Nat) (mask : Word) : Nat → (Nat → Nat → Word) → State → State
  | 0, _, s => s
  | k + 1, g, s => (s.setBlock n mask k g).setV (n + k) mask (g k)

/-- Predicate p as a mask of lanes; p0 reads true (R36). -/
def State.pred (s : State) (p : Pred) : Word :=
  if p = 0 then BitVec.allOnes 32 else s.frame.preds.getD (p.toNat - 1) 0

/-- The lanes for which the guard is true (R39). -/
def State.guardMask (s : State) (g : Guard) : Word :=
  let m := s.pred (g.setWidth 3)
  if g.getLsbD 3 then ~~~m else m

/-- Predicate p is written in the lanes of a mask; p0 is no destination. -/
def State.setPred (p : Nat) (mask : Word) (v : Word) (s : State) : State :=
  s.updFrame fun f =>
    let old (k : Nat) : Word := f.preds.getD k 0
    { f with preds :=
        (List.range 7).map fun k => if k + 1 = p then (old k &&& ~~~mask) ||| (v &&& mask) else old k }

/-- The lanes of the issuing stream for which the guard is true: the active lanes (R40). -/
def State.active (s : State) (g : Guard) : Word := s.lanes &&& s.guardMask g

/-- The lowest lane of a mask, if it has one. -/
def lowest (m : Word) : Option Nat := (lanesIn m).head?

/-- The sign-extended 11-bit immediate (R38). -/
def imm11 (i : BitVec 11) : Word := i.signExtend 32

/-- The PC of the issuing stream: that of its lowest lane (R137). -/
def State.pc (s : State) : Word := s.frame.pcs.getD ((lowest s.lanes).getD 0) 0

/-- The PCs of the lanes of a mask are set. -/
def State.setPcs (mask : Word) (g : Nat → Word) (s : State) : State :=
  s.updFrame fun f => { f with pcs := lanesOf fun l => if mask.getLsbD l then g l else f.pcs.getD l 0 }

/-- Every lane of the issuing stream moves to its next word (R137). -/
def State.advance (s : State) : State := s.setPcs s.lanes fun l => s.frame.pcs.getD l 0 + 4

/-- Sign-extended word offset of a BR word in bytes (R144). -/
def brOffset (i : BitVec 21) : Word := (i.signExtend 32) <<< 2

end Sys2Proof.Machine
end

