-- ==== Sys2Proof/Machine/Num.lean ====
section
/-!
DEFINITION. Numbers: the sixteen kinds, exact values, the one rounding function with its flags, NaN propagation, exact
sums and products, and conversion between kinds (R56 to R67, R72, R73, R76).
-/
namespace Sys2Proof.Machine

/-- Sticky flags, laid out as FLAGS [6:0] (R76). -/
abbrev Flags := BitVec 7

/-- INVALID of R76. -/
def fInvalid : Flags := 0x01
/-- DIVZERO of R76. -/
def fDivzero : Flags := 0x02
/-- OVERFLOW of R76. -/
def fOverflow : Flags := 0x04
/-- UNDERFLOW of R76. -/
def fUnderflow : Flags := 0x08
/-- INEXACT of R76. -/
def fInexact : Flags := 0x10
/-- RANGE of R76. -/
def fRange : Flags := 0x20
/-- SATURATE of R76. -/
def fSaturate : Flags := 0x40

/-- The flag when the condition holds, else no flag. -/
def flagIf (c : Bool) (f : Flags) : Flags := if c then f else 0

/-- Kind codes (R56). -/
def kBF16 : Nat := 0
/-- FP32 is kind 8. -/
def kFP32 : Nat := 8
/-- E8M0 is kind 15. -/
def kE8M0 : Nat := 15

/-- A floating-point kind's layout: exponent width, significand width, bias, largest finite pattern, pattern of +infinity
if it has one, and of the default NaN if it has one (R59, R61). -/
structure Fmt where
  ebits : Nat
  mbits : Nat
  bias : Nat
  maxPat : Nat
  inf : Option Nat
  nan : Option Nat
  deriving DecidableEq, Repr

/-- The layout of a floating-point kind with a sign (R59); FP32 for any other code. -/
def fmtOf : Nat → Fmt
  | 0 => { ebits := 8, mbits := 7, bias := 127, maxPat := 0x7F7F, inf := some 0x7F80, nan := some 0x7FC0 }
  | 1 => { ebits := 5, mbits := 10, bias := 15, maxPat := 0x7BFF, inf := some 0x7C00, nan := some 0x7E00 }
  | 2 => { ebits := 4, mbits := 3, bias := 7, maxPat := 0x7E, inf := none, nan := some 0x7F }
  | 3 => { ebits := 5, mbits := 2, bias := 15, maxPat := 0x7B, inf := some 0x7C, nan := some 0x7F }
  | 4 => { ebits := 2, mbits := 3, bias := 1, maxPat := 0x1F, inf := none, nan := none }
  | 5 => { ebits := 3, mbits := 2, bias := 3, maxPat := 0x1F, inf := none, nan := none }
  | 6 => { ebits := 2, mbits := 1, bias := 1, maxPat := 0x7, inf := none, nan := none }
  | _ => { ebits := 8, mbits := 23, bias := 127, maxPat := 0x7F7FFFFF, inf := some 0x7F800000, nan := some 0x7FC00000 }

/-- The bit of the sign. -/
def Fmt.signBit (f : Fmt) : Nat := f.ebits + f.mbits

/-- The width of a kind in bits (R56). -/
def kindWidth : Nat → Nat
  | 0 => 16 | 1 => 16 | 2 => 8 | 3 => 8 | 4 => 6 | 5 => 6 | 6 => 4 | 7 => 4
  | 8 => 32 | 9 => 32 | 10 => 32 | 11 => 16 | 12 => 16 | 13 => 8 | 14 => 8 | _ => 8

/-- A kind that holds signed floating-point values: 0 to 6 and FP32. -/
def isFloat (k : Nat) : Bool := decide (k ≤ 6) || k == 8

/-- The magnitude part of a pattern is a NaN of the kind (R59). -/
def isNaNPat (f : Fmt) (p : Nat) : Bool :=
  match f.nan, f.inf with
  | some _, some i => decide (i < p % 2 ^ f.signBit)
  | some n, none => p % 2 ^ f.signBit == n
  | none, _ => false

/-- The pattern is a signalling NaN: the quiet bit of an FP32, FP16 or BF16 NaN is clear (R61). -/
def isSNaNPat (k p : Nat) : Bool :=
  isNaNPat (fmtOf k) p && (k == 0 || k == 1 || k == 8) && !(p.testBit ((fmtOf k).mbits - 1))

/-- The value of a pattern of a signed floating-point kind (R59). -/
def valueOf (k p : Nat) : Num :=
  let f := fmtOf k
  let neg := p.testBit f.signBit
  let mag := p % 2 ^ f.signBit
  if isNaNPat f p then .nan
  else if f.inf = some mag then .inf neg
  else
    let e := mag / 2 ^ f.mbits
    let m := mag % 2 ^ f.mbits
    if e = 0 then .fin neg m (1 - (f.bias : Int) - f.mbits)
    else .fin neg (2 ^ f.mbits + m) ((e : Int) - f.bias - f.mbits)

/-- The value of an E8M0 pattern: 2^(e − 127), or NaN for 0xFF (R60). -/
def valueE8M0 (p : Nat) : Num := if p % 256 = 255 then .nan else .fin false 1 ((p % 256 : Nat) - 127)

/-- The exact number of an integer. -/
def Num.ofInt (i : Int) : Num := .fin (decide (i < 0)) i.natAbs 0

/-- The integer that the low bits of a word stand for under an integer kind (R57, R64). -/
def intOf (k : Nat) (x : Word) : Int :=
  match k with
  | 9 => x.toInt
  | 10 => x.toNat
  | 11 => (x.setWidth 16).toInt
  | 12 => (x.setWidth 16).toNat
  | 13 => (x.setWidth 8).toInt
  | _ => (x.setWidth 8).toNat

/-- The range of an integer kind. -/
def intRange : Nat → Int × Int
  | 9 => (-2147483648, 2147483647)
  | 10 => (0, 4294967295)
  | 11 => (-32768, 32767)
  | 12 => (0, 65535)
  | 13 => (-128, 127)
  | _ => (0, 255)

/-- The value of the low bits of a register under a kind other than CB4 (R57, R59, R60, R64). -/
def readKind (k : Nat) (x : Word) : Num :=
  if isFloat k then valueOf k (x.toNat % 2 ^ kindWidth k)
  else if k = 15 then valueE8M0 x.toNat
  else Num.ofInt (intOf k x)

/-- Bits of a positive number; 0 for 0. -/
def bitLen (m : Nat) : Nat := if m = 0 then 0 else Nat.log2 m + 1

/-- Rounding of m × 2^e to a multiple of 2^q under a code of R65: the multiple, and whether bits were lost. w is the
random draw of RS (R67). -/
def roundQ (mode : Nat) (neg : Bool) (w m : Nat) (e q : Int) : Nat × Bool :=
  if q ≤ e then (m * 2 ^ (e - q).toNat, false)
  else
    let s := (q - e).toNat
    let n := m / 2 ^ s
    let r := m % 2 ^ s
    if r = 0 then (n, false)
    else
      let up : Bool :=
        match mode with
        | 0 => decide (2 ^ s < 2 * r) || (decide (2 * r = 2 ^ s) && n % 2 == 1)
        | 1 => false
        | 2 => neg
        | 3 => !neg
        | 4 => decide (2 ^ s ≤ 2 * r)
        | _ => decide (w < r * 65536 / 2 ^ s)
      (if up then n + 1 else n, true)

/-- A magnitude pattern with the sign of a kind. -/
def withSign (k : Nat) (neg : Bool) (mag : Nat) : Nat := if neg then mag + 2 ^ (fmtOf k).signBit else mag

/-- The result of an overflow and its flags (R66). -/
def overflowOf (k mode : Nat) (sat neg : Bool) : Nat × Flags :=
  let f := fmtOf k
  let away : Bool := mode == 0 || mode == 4 || mode == 5 || (mode == 3 && !neg) || (mode == 2 && neg)
  if sat then (withSign k neg f.maxPat, fOverflow ||| fSaturate ||| fInexact)
  else if away then
    match f.inf, f.nan with
    | some i, _ => (withSign k neg i, fOverflow ||| fInexact)
    | none, some n => (withSign k neg n, fOverflow ||| fInexact)
    | none, none => (withSign k neg f.maxPat, fOverflow ||| fSaturate ||| fInexact)
  else (withSign k neg f.maxPat, fOverflow ||| fInexact)

/-- A finite number (not zero) rounded once to a signed floating-point kind (R65 to R67). -/
def roundFin (k mode : Nat) (sat : Bool) (w : Nat) (neg : Bool) (m : Nat) (e : Int) : Nat × Flags :=
  let f := fmtOf k
  let emin : Int := 1 - (f.bias : Int)
  let big : Int := e + bitLen m - 1
  let q : Int := max big emin - f.mbits
  let r := roundQ mode neg w m e q
  let pat := (q + f.mbits - emin).toNat * 2 ^ f.mbits + r.1
  if f.maxPat < pat then overflowOf k mode sat neg
  else
    let u := roundQ mode neg w m e (big - f.mbits)
    let tiny : Bool := decide (big < emin) && decide (u.1 < 2 ^ (emin - (big - f.mbits)).toNat)
    (withSign k neg pat, flagIf r.2 fInexact ||| flagIf (tiny && r.2) fUnderflow)

/-- A number rounded once to a signed floating-point kind; a NaN gives the default NaN, or +0 with invalid where the
kind has none (R61, R65, R66). -/
def roundFloat (k mode : Nat) (sat : Bool) (w : Nat) (x : Num) : Nat × Flags :=
  let f := fmtOf k
  match x with
  | .nan => match f.nan with
    | some n => (n, 0)
    | none => (0, fInvalid)
  | .inf neg => match f.inf with
    | some i => (withSign k neg i, 0)
    | none => match f.nan with
      | some n => if sat then (withSign k neg f.maxPat, fSaturate) else (n, fInvalid)
      | none => (withSign k neg f.maxPat, fSaturate)
  | .fin neg 0 _ => (withSign k neg 0, 0)
  | .fin neg m e => roundFin k mode sat w neg m e

/-- A number converted to E8M0 (R60, R65, R66). -/
def roundE8M0 (mode : Nat) (sat : Bool) (w : Nat) (x : Num) : Nat × Flags :=
  match x with
  | .nan => (0xFF, fInvalid)
  | .inf true => (0xFF, fInvalid)
  | .inf false => (0xFE, fSaturate)
  | .fin _ 0 _ => (0xFF, fInvalid)
  | .fin true _ _ => (0xFF, fInvalid)
  | .fin false m e =>
    let big : Int := e + bitLen m - 1
    if big < -127 then (0, fUnderflow ||| fInexact)
    else
      let field := (big + 127).toNat
      let half := 2 ^ (bitLen m - 1)
      let r := m - half
      let up : Bool :=
        match mode with
        | 0 => decide (half < 2 * r) || (decide (2 * r = half) && field % 2 == 1)
        | 1 => false
        | 2 => false
        | 3 => decide (r ≠ 0)
        | 4 => decide (half ≤ 2 * r)
        | _ => decide (w < r * 65536 / half)
      let p := if up then field + 1 else field
      if 0xFE < p then
        if sat then (0xFE, fOverflow ||| fSaturate ||| fInexact)
        else if mode = 0 ∨ mode = 4 ∨ mode = 5 ∨ mode = 3 then (0xFF, fOverflow ||| fInexact)
        else (0xFE, fOverflow ||| fInexact)
      else (p, flagIf (decide (r ≠ 0)) fInexact)

/-- A floating-point number converted to an integer kind: the integer and the flags (R61, R64). -/
def roundInt (k mode : Nat) (sat : Bool) (w : Nat) (x : Num) : Int × Flags :=
  let lo := (intRange k).1
  let hi := (intRange k).2
  let out : Flags := if sat then fSaturate else fInvalid
  match x with
  | .nan => (0, fInvalid)
  | .inf neg => (if neg then lo else hi, out)
  | .fin neg m e =>
    let r := roundQ mode neg w m e 0
    let v : Int := if neg then -(r.1 : Int) else r.1
    if v < lo then (lo, out)
    else if hi < v then (hi, out)
    else (v, flagIf r.2 fInexact)

/-- The register word of an integer of a kind: extended by its signedness (R57). -/
def intWord (k : Nat) (v : Int) : Word :=
  match k with
  | 11 => (BitVec.ofInt 16 v).signExtend 32
  | 12 => (BitVec.ofInt 16 v).setWidth 32
  | 13 => (BitVec.ofInt 8 v).signExtend 32
  | 14 => (BitVec.ofInt 8 v).setWidth 32
  | _ => BitVec.ofInt 32 v

/-- The kinds whose NaNs have a quiet bit: BF16, FP16 and FP32; every NaN of E4M3 and E5M2 is quiet (R59, R61). -/
def hasQuietBit (k : Nat) : Bool := k == 0 || k == 1 || k == 8

/-- The NaN that a NaN source of one kind gives in another: quieted, sign kept, as many high significand bits kept as
fit; +0 with invalid where the kind has no NaN (R61). -/
def nanTo (dk sk p : Nat) : Nat × Flags :=
  let s := fmtOf sk
  let d := fmtOf dk
  let inv := flagIf (isSNaNPat sk p) fInvalid
  let neg := p.testBit s.signBit
  match d.nan, d.inf with
  | none, _ => (0, fInvalid)
  | some n, none => (withSign dk neg n, inv)
  | some _, some i =>
    let quiet (k mbits m : Nat) : Nat := if hasQuietBit k then m ||| 2 ^ (mbits - 1) else m
    let m := quiet sk s.mbits (p % 2 ^ s.mbits)
    let m' := if s.mbits ≤ d.mbits then m * 2 ^ (d.mbits - s.mbits) else m / 2 ^ (s.mbits - d.mbits)
    (withSign dk neg (i + quiet dk d.mbits m'), inv)

/-- The first NaN among source patterns of a kind, in order, as a result of that kind, with invalid where any source is
signalling (R61). -/
def firstNaN (k : Nat) (ps : List Nat) : Option (Nat × Flags) :=
  match ps.find? (isNaNPat (fmtOf k)) with
  | none => none
  | some p => some ((nanTo k k p).1, flagIf (ps.any (isSNaNPat k)) fInvalid)

/-- A signed integer multiple of 2^e. -/
def scaled (neg : Bool) (m : Nat) : Int := if neg then -(m : Int) else m

/-- The exact sum of finite numbers and infinities; opposite infinities give NaN. An exact zero sum of opposite signs is
+0 (R65). -/
def Num.add (x y : Num) : Num :=
  match x, y with
  | .nan, _ => .nan
  | _, .nan => .nan
  | .inf a, .inf b => if a = b then .inf a else .nan
  | .inf a, _ => .inf a
  | _, .inf b => .inf b
  | .fin a m e, .fin b n f =>
    let g := min e f
    let s := scaled a m * 2 ^ (e - g).toNat + scaled b n * 2 ^ (f - g).toNat
    if s = 0 then .fin (a && b) 0 0 else .fin (decide (s < 0)) s.natAbs g

/-- The exact product; 0 × infinity gives NaN. -/
def Num.mul (x y : Num) : Num :=
  match x, y with
  | .nan, _ => .nan
  | _, .nan => .nan
  | .inf a, .inf b => .inf (a != b)
  | .inf a, .fin b n _ => if n = 0 then .nan else .inf (a != b)
  | .fin a m _, .inf b => if m = 0 then .nan else .inf (a != b)
  | .fin a m e, .fin b n f => .fin (a != b) (m * n) (e + f)

/-- The number with its sign inverted. -/
def Num.neg : Num → Num
  | .nan => .nan
  | .inf a => .inf (!a)
  | .fin a m e => .fin (!a) m e

/-- The number is a NaN. -/
def Num.isNaN : Num → Bool
  | .nan => true
  | _ => false

/-- The sum of a list, exact; +0 for the empty list. -/
def Num.sum (xs : List Num) : Num :=
  match xs with
  | [] => .fin false 0 0
  | x :: rest => rest.foldl Num.add x

/-- Bits kept of a quotient or root before its sticky bit: more than any kind's significand needs. -/
def quotBits : Nat := 80

/-- A quotient of finite non-zero numbers, exact to quotBits with a sticky bit, which rounds as the exact quotient
does. -/
def quot (a : Bool) (m : Nat) (e : Int) (b : Bool) (n : Nat) (f : Int) : Num :=
  let s := quotBits + bitLen n
  let q := m * 2 ^ s / n
  let r := m * 2 ^ s % n
  .fin (a != b) (2 * q + (if r = 0 then 0 else 1)) (e - f - s - 1)

/-- An FP32 result of an exact number under RN with saturate 0 (R183). -/
def rn32 (x : Num) : Word × Flags :=
  let r := roundFloat 8 0 false 0 x
  (BitVec.ofNat 32 r.1, r.2)

/-- One conversion between kinds under a rounding code, a saturate bit and a draw: FCVT's result word and flags
(R57, R60, R61, R64 to R66, R195). -/
def convert (sk dk mode : Nat) (sat : Bool) (w : Nat) (x : Word) : Word × Flags :=
  let p := x.toNat % 2 ^ kindWidth sk
  if sk = dk then
    if isFloat sk then
      if isNaNPat (fmtOf sk) p then (BitVec.ofNat 32 (nanTo sk sk p).1, (nanTo sk sk p).2) else (BitVec.ofNat 32 p, 0)
    else if sk = 15 then (BitVec.ofNat 32 p, 0)
    else (intWord sk (intOf sk x), 0)
  else if isFloat sk && isNaNPat (fmtOf sk) p then
    if isFloat dk then (BitVec.ofNat 32 (nanTo dk sk p).1, (nanTo dk sk p).2)
    else if dk = 15 then (0xFF, fInvalid)
    else (0, fInvalid)
  else
    let v := readKind sk x
    if isFloat dk then
      let r := if sk = 15 ∧ v.isNaN then nanTo dk 8 0x7FC00000 else roundFloat dk mode sat w v
      (BitVec.ofNat 32 r.1, r.2)
    else if dk = 15 then
      let r := roundE8M0 mode sat w v
      (BitVec.ofNat 32 r.1, r.2)
    else if isFloat sk || sk == 15 then
      let r := roundInt dk mode sat w v
      (intWord dk r.1, r.2)
    else
      let i := intOf sk x
      let lo := (intRange dk).1
      let hi := (intRange dk).2
      if lo ≤ i ∧ i ≤ hi then (intWord dk i, 0)
      else if sat then (intWord dk (if i < lo then lo else hi), fSaturate)
      else (intWord dk i, 0)

/-- The generator step of R67. -/
def rsNext (x : Word) : Word :=
  let a := x ^^^ (x <<< 13)
  let b := a ^^^ (a >>> 17)
  b ^^^ (b <<< 5)

/-- The 16 random bits of a draw: bits [31:16] of the state after the step (R67). -/
def rsBits (x : Word) : Nat := (rsNext x).toNat / 65536

/-- The seed of a lane: launch seed XOR (global warp number × 32 + lane), 1 in place of 0 (R67). -/
def rsSeed (seed : Word) (warp lane : Nat) : Word :=
  let x := seed ^^^ BitVec.ofNat 32 (warp * 32 + lane)
  if x = 0 then 1 else x

/-- Two numbers compared: less, equal or greater by value; +0 and −0 are equal. Neither is a NaN. -/
def Num.cmp (x y : Num) : Ordering :=
  match x, y with
  | .inf a, .inf b => if a = b then .eq else if a then .lt else .gt
  | .inf a, _ => if a then .lt else .gt
  | _, .inf b => if b then .gt else .lt
  | .fin a m e, .fin b n f =>
    let g := min e f
    compare (scaled a m * 2 ^ (e - g).toNat) (scaled b n * 2 ^ (f - g).toNat)
  | _, _ => .eq

end Sys2Proof.Machine
end

