-- ==== Sys2Proof/Machine/Slab.lean ====
section
/-!
DEFINITION. Slabs as bytes: canonical codes (R95), the CRC (R93), decoding a slab and what it reports (R90 to R94,
R302), encoding one (R306), and the value of a slab element (R62, R63).
-/
namespace Sys2Proof.Machine

/-- One bit of the reflected CRC-32C register (R93). -/
def crcStep (c : Word) : Word := if c.getLsbD 0 then (c >>> 1) ^^^ 0x82F63B78 else c >>> 1

/-- One byte enters the CRC register. -/
def crcByte (c : Word) (b : Byte) : Word := (List.range 8).foldl (fun x _ => crcStep x) (c ^^^ b.setWidth 32)

/-- CRC-32C: polynomial 0x1EDC6F41 reflected, initial value all ones, final inversion (R93). -/
def crc32c (bs : List Byte) : Word := ~~~ (bs.foldl crcByte 0xFFFFFFFF)

/-- The alphabet size of a kind (R95). -/
def alphabetSize (k : Nat) : Nat := if k ≤ 3 then 256 else if k ≤ 5 then 64 else 16

/-- The width of a literal symbol (R92). -/
def literalWidth (k : Nat) : Nat := if k ≤ 3 then 8 else if k ≤ 5 then 6 else 4

/-- A code: its length, its bits and its symbol. -/
structure Code where
  len : Nat
  code : Nat
  sym : Nat
  deriving DecidableEq, Repr

/-- The canonical codes of a table of lengths, in ascending order of length and symbol (R95). -/
def canonical (lens : List Nat) : List Code :=
  (((List.range 12).flatMap fun n => (lens.zipIdx.filter fun p => p.1 == n + 1).map fun p => (n + 1, p.2)).foldl
    (fun (acc : List Code × Nat × Nat) x =>
      let c := if acc.1.isEmpty then 0 else (acc.2.2 + 1) * 2 ^ (x.1 - acc.2.1)
      ({ len := x.1, code := c, sym := x.2 } :: acc.1, x.1, c)) ([], 0, 0)).1.reverse

/-- The lengths of a code table of n symbols, two to a byte (R29, R95). -/
def tableOf (bs : List Byte) : List Nat := bs.flatMap fun b => [b.toNat % 16, b.toNat / 16]

/-- A code table that CTLOAD accepts: lengths to 12, Kraft sum at most 1 (R95, R98). -/
def tableOk (lens : List Nat) : Bool :=
  lens.all (fun n => decide (n ≤ 12)) && decide ((lens.map fun n => if n = 0 then 0 else 2 ^ (12 - n)).sum ≤ 4096)

/-- The codes a slab of a kind uses: its table's, or the plain patterns (R92). DESIGN CHOICE: a plain pattern is read and
written most significant bit first like a code, which R92 says of codes only (log entry 63). -/
def codesFor (k : Nat) (table : Option (List Nat)) : List Code :=
  match table with
  | some lens => canonical lens
  | none => (List.range (2 ^ literalWidth k)).map fun s => { len := literalWidth k, code := s, sym := s }

/-- Bit p of a slab (R92). -/
def slabBit (bs : List Byte) (p : Nat) : Bool := (bs.getD (p / 8) 0).getLsbD (p % 8)

/-- A decode failure: cause, bit offset and seam (R94). -/
structure DecFail where
  cause : Nat
  off : Nat
  seam : Nat
  deriving DecidableEq, Repr

/-- One symbol read at a bit number, most significant bit first: its symbol and the next bit number. n bits of it, with
value c, have been read; stop is the first bit past the seam. -/
def symbolAt (cs : List Code) (bs : List Byte) (start stop : Nat) : Nat → Nat → Nat → Except (Nat × Nat) (Nat × Nat)
  | 0, _, _ => .error (2, start)
  | fuel + 1, n, c =>
    match cs.find? fun x => x.len == n && x.code == c with
    | some x => .ok (x.sym, start + n)
    | none =>
      if !(cs.any fun x => decide (n < x.len) && x.code / 2 ^ (x.len - n) == c) then .error (2, start)
      else if stop ≤ start + n then .error (3, stop)
      else symbolAt cs bs start stop fuel (n + 1) (2 * c + (if slabBit bs (start + n) then 1 else 0))

/-- k symbols of a seam from a bit number. -/
def seamSymbols (cs : List Code) (bs : List Byte) (stop : Nat) : Nat → Nat → Except (Nat × Nat) (List Nat)
  | 0, p => if p = stop then .ok [] else .error (3, p)
  | k + 1, p =>
    match symbolAt cs bs p stop 14 0 0 with
    | .error e => .error e
    | .ok (s, q) => (seamSymbols cs bs stop k q).map (s :: ·)

/-- Word n of a slab. -/
def slabWord (bs : List Byte) (n : Nat) : Nat := fieldB bs (4 * n) 4

/-- The seam lengths of a slab. -/
def seamLens (bs : List Byte) : List Nat := (List.range 8).map fun k => fieldB bs (0x30 + 2 * k) 2

/-- Seam count, code-table slot and alphabet of a header. -/
def slabSeams (bs : List Byte) : Nat := bits (slabWord bs 0) 18 16 + 1
/-- CTSLOT of a header. -/
def slabSlot (bs : List Byte) : Nat := bits (slabWord bs 0) 15 12
/-- ALPHA of a header. -/
def slabAlpha (bs : List Byte) : Nat := bits (slabWord bs 0) 11 8

/-- Header word 0 is laid out as R91, with the record's KIND. -/
def headOk (w kind : Nat) : Bool :=
  w % 256 == 0xA5 && w / 2 ^ 19 == 0 && decide (2 ≤ bits w 11 8 ∧ bits w 11 8 ≤ 7) && bits w 11 8 == kind &&
    [0, 1, 3, 7].contains (bits w 18 16)

/-- The code tables of a group's slots. -/
abbrev Tables := List (Option (List Nat))

/-- The table a slot names, with alphabet size checked; none where the slot cannot be used (R94, R97). -/
def slotTable (ts : Tables) (slot kind : Nat) : Option (Option (List Nat)) :=
  if slot = 15 then some none
  else if 8 ≤ slot then none
  else
    match ts.getD slot none with
    | some lens => if lens.length = alphabetSize kind then some (some lens) else none
    | none => none

/-- The header of a slab is good (R94). -/
def slabHeaderOk (ts : Tables) (kind len : Nat) (bs : List Byte) : Bool :=
  let n := slabSeams bs
  let lens := seamLens bs
  decide (64 ≤ bs.length) && headOk (slabWord bs 0) kind && slabWord bs 2 == len && slabWord bs 3 == 0 &&
    (slotTable ts (slabSlot bs) kind).isSome && (lens.take n).all (· != 0) && (lens.drop n).all (· == 0) &&
    decide (512 + (lens.take n).sum ≤ 8 * bs.length) &&
    (slabSlot bs != 15 || (lens.take n).all (· == literalWidth kind * 1024 / n))

/-- A decoded tile: 1024 symbols in position order and 32 scales. -/
structure Tile where
  syms : List Nat
  scales : List Nat
  deriving DecidableEq, Repr

/-- A slab is decoded whole or not at all; the first cause in the order of R302 is reported. bad says that a line of it
was poisoned, which reports a CRC mismatch (R404). DESIGN CHOICE: a bad header, non-zero padding and a CRC mismatch,
which belong to no one seam, report seam 0 (log entry 47). -/
def decodeSlab (ts : Tables) (kind len : Nat) (bad : Bool) (bs : List Byte) : Except DecFail Tile :=
  if !slabHeaderOk ts kind len bs then .error { cause := 1, off := 0, seam := 0 }
  else
    let n := slabSeams bs
    let lens := seamLens bs
    let cs := codesFor kind ((slotTable ts (slabSlot bs) kind).getD none)
    let start (k : Nat) : Nat := 512 + (lens.take k).sum
    let res : Except DecFail (List Nat) := (List.range n).foldlM (fun acc k =>
      match seamSymbols cs bs (start (k + 1)) (1024 / n) (start k) with
      | .ok ss => .ok (acc ++ ss)
      | .error e => .error { cause := e.1, off := e.2, seam := k }) []
    match res with
    | .error e => .error e
    | .ok syms =>
      match (List.range (8 * bs.length - start n)).find? fun i => slabBit bs (start n + i) with
      | some i => .error { cause := 4, off := start n + i, seam := 0 }
      | none =>
        if bad || (crc32c (syms.map (BitVec.ofNat 8))).toNat != slabWord bs 1 then
          .error { cause := 5, off := 32, seam := 0 }
        else .ok { syms := syms, scales := (List.range 32).map fun r => fieldB bs (0x10 + r) 1 }

/-- The bits of a code, most significant first. -/
def Code.bits (c : Code) : List Bool := (List.range c.len).map fun i => c.code.testBit (c.len - 1 - i)

/-- Bits packed least significant first into n bytes. -/
def packBits : Nat → List Bool → List Byte
  | 0, _ => []
  | n + 1, bs =>
    BitVec.ofNat 8 ((bs.take 8).zipIdx.foldl (fun a b => a + (if b.1 then 2 ^ b.2 else 0)) 0) :: packBits n (bs.drop 8)

/-- A slab of a tile under a code-table slot and a seam count; none where the slot is not usable or a symbol has no code
(R306 step 3, R307 detail 3). -/
def encodeSlab (ts : Tables) (kind slot seams : Nat) (t : Tile) : Option (List Byte) := do
  let table ← slotTable ts slot kind
  let cs := codesFor kind table
  let per := 1024 / seams
  let codes ← t.syms.mapM fun s => (cs.find? fun c => c.sym == s).map Code.bits
  let parts := (List.range seams).map fun k => ((codes.drop (k * per)).take per).flatten
  let body := parts.flatten
  let len := (512 + body.length + 255) / 256
  return leBytes 4 (0xA5 + kind * 256 + slot * 4096 + (seams - 1) * 65536) ++
    leBytes 4 (crc32c (t.syms.map (BitVec.ofNat 8))).toNat ++ leBytes 4 len ++ leBytes 4 0 ++
    t.scales.map (BitVec.ofNat 8) ++ (List.range 8).flatMap (fun k => leBytes 2 ((parts.getD k []).length)) ++
    packBits (32 * len - 64) body

/-- A slab padded with zero sectors to a run of n sectors, which its header's length then says (R306). -/
def padSlab (bs : List Byte) (n : Nat) : List Byte :=
  bs.take 8 ++ leBytes 4 n ++ bs.drop 12 ++ List.replicate (32 * n - bs.length) 0

/-- The kind and pattern an element's symbol stands for: itself, or a codebook's BF16 entry (R62). -/
def symbolPattern (kind : Nat) (book : List (BitVec 16)) (sym : Nat) : Nat × Nat :=
  if kind = 7 then (0, (book.getD sym 0).toNat) else (kind, sym)

/-- The exact value of an element, its row's scale applied (R63). -/
def elementValue (p : Nat × Nat) (scale : Option Nat) : Num :=
  match scale with
  | none => valueOf p.1 p.2
  | some e => (valueOf p.1 p.2).mul (valueE8M0 e)

/-- An element delivered in a floating-point kind: a NaN symbol propagates, a scale of 0xFF makes the default NaN
(R61, R63). -/
def deliver (dk mode : Nat) (sat : Bool) (w : Nat) (p : Nat × Nat) (scale : Option Nat) : Nat × Flags :=
  if isNaNPat (fmtOf p.1) p.2 then nanTo dk p.1 p.2
  else if scale = some 255 then nanTo dk 8 0x7FC00000
  else roundFloat dk mode sat w (elementValue p scale)

/-- The magnitude of a number. -/
def Num.abs : Num → Num
  | .nan => .nan
  | .inf _ => .inf false
  | .fin _ m e => .fin false m e

/-- The new row scale of ZST: the least that holds the row's largest magnitude; 0xFE if none does, 0x7F if every value is
0 or a NaN (R308). -/
def newScale (kind : Nat) (xs : List Num) : Nat :=
  let big := (xs.filter fun x => !x.isNaN).filter fun x => match x with | .fin _ 0 _ => false | _ => true
  if big.isEmpty then 0x7F
  else
    let top := valueOf kind (fmtOf kind).maxPat
    let fits (e : Nat) : Bool := big.all fun x => x.abs.cmp (top.mul (valueE8M0 e)) != .gt
    ((List.range 255).find? fits).getD 0xFE

/-- A number divided by a row scale that is not NaN. -/
def unscale (x : Num) (e : Nat) : Num :=
  match x with
  | .fin s m k => .fin s m (k - ((e : Int) - 127))
  | _ => x

/-- A source pattern, with the scale it stands under if it has one, converted to a symbol under a row scale, with
saturate 1 (R225, R308). A NaN propagates; a NaN scale makes a NaN (R61, R63). -/
def toSymbol (kind mode w : Nat) (p : Nat × Nat) (old : Option Nat) (scale : Nat) : Nat × Flags :=
  if isNaNPat (fmtOf p.1) p.2 then nanTo kind p.1 p.2
  else if old = some 255 ∨ scale = 255 then nanTo kind 8 0x7FC00000
  else roundFloat kind mode true w (unscale (elementValue p old) scale)

end Sys2Proof.Machine
end

