-- ==== Sys2Proof/Machine/Names.lean ====
section
/-!
DEFINITION. Physical names: naming a register by its contents (R158 to R160), entering the memo as results are named
(R161, R164), what leaves a warp's forwarding window (R156), and naming what has had to wait (R129).
-/
namespace Sys2Proof.Machine

/-- The 32 lane words of a register. -/
def RegVal.full (v : RegVal) : List Word := lanesOf fun l => v.words.getD l 0

/-- Every byte is 0 and none is poisoned. -/
def RegVal.zero (v : RegVal) : Bool := v.poison == 0 && v.words.all fun w => w == 0

/-- NB, the buckets of the named region (R158). -/
def Core.buckets (c : Core) : Nat := c.poolSize * 15 / 128

/-- The first name of the overflow region: OVF set, index 0 (R158). -/
def overflowBase : Nat := 8192

/-- The pool entry of a name that something has been written under. -/
def Core.entryOf (c : Core) (n : Nat) : Option PoolEntry := c.pool.find? fun e => e.name == n

/-- The entry of a name is free: not live and not withdrawn (R160, R170). -/
def Core.nameFree (c : Core) (n : Nat) : Bool :=
  match c.entryOf n with
  | some e => !e.live && e.poison == 0
  | none => true

/-- The generation of a name; name 0 has none (R158, R159). -/
def Core.genOf (c : Core) (n : Nat) : Nat := if n = 0 then 0 else ((c.entryOf n).map (·.gen)).getD 0

/-- A pool entry is written. -/
def Core.putEntry (e : PoolEntry) (c : Core) : Core := { c with pool := e :: c.pool.filter fun x => x.name != e.name }

/-- The bucket of a value (R159). -/
def Core.bucketOf (c : Core) (v : RegVal) : Nat :=
  (crc32c (v.full.flatMap fun w => leBytes 4 w.toNat)).toNat % 65536 * c.buckets / 65536

/-- The live, whole entry of a name holds this value (R159); a poisoned value matches none (R170, R171). -/
def Core.holdsValue (c : Core) (v : RegVal) (n : Nat) : Bool :=
  v.poison == 0 && (match c.entryOf n with | some e => e.live && e.poison == 0 && e.words == v.full | none => false)

/-- A value takes the first name there is of: an entry that holds it, a free way of its bucket (of the next generation,
and a generation that comes round empties the memo), a free overflow entry; none where there is none of the three
(R159). -/
def takeName (v : RegVal) (c : Core) : Option Nat → Option Nat → Option Nat → Option (Nat × Core)
  | some n, _, _ => some (n, c)
  | none, some n, _ =>
    let gen := (c.genOf n + 1) % 64
    let d := c.putEntry { name := n, words := v.full, gen := gen, poison := v.poison, live := true }
    some (n, if gen = 0 then { d with memo := [] } else d)
  | none, none, some n => some (n, c.putEntry { name := n, words := v.full, gen := 0, poison := v.poison, live := true })
  | none, none, none => none

/-- The names of the eight ways of a value's bucket (R159). -/
def Core.waysOf (c : Core) (v : RegVal) : List Nat := (List.range 8).map fun w => 8 * c.bucketOf v + w

/-- Naming a value: its name and the core after, or none where the pool has no entry for it (R159). -/
def nameFor (v : RegVal) (c : Core) : Option (Nat × Core) :=
  if v.zero then some (0, c)
  else takeName v c ((c.waysOf v).find? (c.holdsValue v)) ((c.waysOf v).find? fun n => n != 0 && c.nameFree n)
    (((List.range (c.poolSize / 16)).map (overflowBase + ·)).find? c.nameFree)

/-- An architectural register takes a name; name 0 is not listed (R158, R159). -/
def Frame.bind (r n : Nat) (f : Frame) : Frame := { f with names := if n = 0 then amDel r f.names else amPut r n f.names }

/-- The name a register is bound to. -/
def Frame.nameOf (f : Frame) (r : Nat) : Nat := (amGet f.names r).getD 0

/-- A group that holds a core's resources. -/
def Group.onCore (g : Group) : Bool := g.status == .resident || g.status == .draining

/-- The groups on a core. -/
def State.groupsOn (s : State) (core : Nat) : List Group := s.allGroups.filter fun g => g.onCore && g.core == core

/-- Names that registers of warps on the issuing core are bound to (R160). -/
def boundNames (s : State) : List Nat :=
  let us := (s.groupsOn s.core.id).map (·.uid)
  (s.allWarps.filter fun w => us.contains w.group).flatMap fun w =>
    (w.frame.names ++ (match w.saved with | some f => f.names | none => [])).map (·.2)

/-- Entries that no register is bound to are free (R160); a poisoned one is withdrawn (R170). -/
def sweep (s : State) : State :=
  let ns := boundNames s
  { s with core := { s.core with pool := s.core.pool.map fun e => { e with live := e.live && ns.contains e.name } } }

/-- Registers of the issuing warp are named one after another, each against the entries that are bound by then; false
where the pool ran out for one, which is left unnamed (R159, R160). -/
def nameRegs : List Nat → State → State × Bool
  | [], s => (s, true)
  | r :: rs, s0 =>
    let s := sweep s0
    match nameFor (s.frame.reg r) s.core with
    | some (n, c) => nameRegs rs (({ s with core := c } : State).updFrame (Frame.bind r n))
    | none => ((nameRegs rs (s.updFrame (Frame.bind r 0))).1, false)

/-- The bytes over which the set of a key is computed (R161). DESIGN CHOICE: the components in the order of R162, 4 bytes
each, with no length marks between them; the spec gives no layout: log entry 70. -/
def MemoKey.bytes (k : MemoKey) : List Byte :=
  let pairs (xs : List (Nat × Nat)) : List Nat := xs.flatMap fun p => [p.1, p.2]
  ([k.word.toNat, k.mask.toNat, k.xt.1, k.xt.2] ++ pairs k.sources ++ k.preds.map (·.toNat) ++ pairs k.prior ++
    (k.job :: k.context)).flatMap (leBytes 4)

/-- The set of a key (R161). -/
def MemoKey.set (k : MemoKey) : Nat := (crc32c k.bytes).toNat % 512

/-- A recorded destination still holds what it held: live, of the recorded generation and not poisoned (R164). -/
def Core.sound (c : Core) (d : Nat × Nat) : Bool :=
  d.1 == 0 || (match c.entryOf d.1 with | some e => e.live && e.gen == d.2 && e.poison == 0 | none => false)

/-- A missed instruction enters the memo as its result is named, if every destination took a named, whole entry; the
least recent way of a full set goes (R161, R164). The list stands newest first. -/
def enterMemo (key : MemoKey) (dests : List Nat) (flags : List (BitVec 7)) (scratch : List (Nat × Nat)) (global : Bool)
    (f : Frame) (c : Core) : Core :=
  let ds := dests.map fun r => (f.nameOf r, c.genOf (f.nameOf r))
  if ds.all fun d => decide (d.1 < overflowBase) && c.sound d then
    let rest := c.memo.filter fun e => e.key != key
    let set := rest.filter fun e => e.key.set == key.set
    let rest := if 4 ≤ set.length then (match set.getLast? with | some e => rest.erase e | none => rest) else rest
    { c with memo := { key := key, dests := ds, flags := flags, scratch := scratch, globalLoad := global } :: rest }
  else c

/-- A result whose registers have been named, all of them where named says so, may enter the memo; one that found no
entry keeps its key until it is named (R159, R164). -/
def enterResult (e : WinEntry) (named : Bool) (s : State) : State :=
  match e.key with
  | none => s
  | some k =>
    if e.dests.isEmpty then s
    else if named then
      let t := sweep s
      { t with core := enterMemo k e.dests e.flags e.scratch e.globalLoad t.frame t.core }
    else s.updFrame fun f => { f with stuck := f.stuck ++ [e] }

/-- One result leaves the window: its live registers are named, and its instruction may enter the memo (R156). -/
def leaveOne (s : State) (e : WinEntry) : State :=
  let q := nameRegs e.dests s
  enterResult e q.2 q.1

/-- Results leave the window, oldest first. -/
def leaveWindow (es : List (List WinEntry)) (s : State) : State := (es.reverse.flatten).foldl leaveOne s

/-- A register of a frame that holds a value has no name and is not busy. -/
def Frame.unnamed (busy : List Nat) (f : Frame) : Bool :=
  f.regs.any fun p => !(busy.contains p.1) && (amGet f.names p.1).isNone && !p.2.zero

/-- The registers whose value is not yet named: results in the window and loads under way (R155, R156). -/
def Warp.pendingRegs (w : Warp) : List Nat := (w.window.flatten.flatMap (·.dests)) ++ w.staging.map (·.dest)

/-- Something of the warp waits for a name, in one of its frames. -/
def Warp.short (w : Warp) : Bool :=
  w.frame.unnamed w.pendingRegs || (match w.saved with | some f => f.unnamed [] | none => false)

/-- The issuing warp stalls while it waits for a name, from the cycle at which it first did (R129, R159). -/
def markStalled (s : State) : State :=
  { s with warp := { s.warp with
      stalled := if s.warp.short then (match s.warp.stalled with | some c => some c | none => some s.core.cycle) else none } }

/-- The issuing warp has issued once more, with these results: the window moves on, and what leaves it is named (R156). -/
def pushWindow (es : List WinEntry) (s : State) : State :=
  let win := es :: s.warp.window
  markStalled (leaveWindow (win.drop 8) { s with warp := { s.warp with window := win.take 8 } })

/-- A load in its staging entry as it is named whole (R157, R164). -/
def Staged.result (group : Nat) (e : Staged) : WinEntry :=
  { dests := e.all, key := e.key, flags := e.flags, scratch := e.lines.map fun l => (group, l), globalLoad := e.reuse }

/-- A load's register takes its name as its last lane comes; the load may enter the memo with its last register (R157,
R164). -/
def arrive (e : Staged) (s : State) : State :=
  let left := s.warp.staging.erase e
  let q := nameRegs [e.dest] { s with warp := { s.warp with staging := left } }
  if left.any fun x => e.all.contains x.dest then q.1
  else
    enterResult (e.result s.warp.group) (e.all.all fun r => (q.1.frame.reg r).zero || (amGet q.1.frame.names r).isSome) q.1

/-- The issuing warp halts or ends: everything in its window is named, and so is what its loads under way deliver (R156,
R157). -/
def emptyWindow (s : State) : State :=
  let w := s.warp
  w.staging.foldl (fun t e => arrive e t) (leaveWindow w.window { s with warp := { w with window := [] } })

/-- What waits for a name in the issuing warp's frame is named: results with a key kept for the memo, then other
registers that hold a value under no name and are not busy (R129, R159). -/
def nameFrame (busy : List Nat) (s : State) : State :=
  let t := s.frame.stuck.foldl leaveOne (s.updFrame fun f => { f with stuck := [] })
  (nameRegs ((t.frame.regs.filter fun p =>
    !(busy.contains p.1) && (amGet t.frame.names p.1).isNone && !p.2.zero).map (·.1)) t).1

/-- The user frame, kept while the issuing warp is at handler level, takes the issuing place for a while. -/
def inSaved (f : State → State) (s : State) : State :=
  match s.warp.saved with
  | none => s
  | some u =>
    let t := f { s with warp := { s.warp with frame := u, saved := some s.warp.frame } }
    { t with warp := { t.warp with frame := t.warp.saved.getD t.warp.frame, saved := some t.warp.frame } }

/-- What waits for a name in the issuing warp is named, in both of its frames; a warp that finds no entry stalls (R129,
R159). -/
def settleNames (s0 : State) : State × Bool :=
  let busy := s0.warp.pendingRegs
  let s := sweep (inSaved (nameFrame []) (nameFrame busy s0))
  (markStalled s, !s.warp.short)

end Sys2Proof.Machine
end

