-- ==== Sys2Proof/Machine/Uses.lean ====
section
/-!
DEFINITION. What a word asks before its own entry is read: its guard, the level it needs, its pairs and quads, the
registers it reads and writes, and whether a transaction admits it (R39, R43, R47, R155, R162, R171, R264).
-/
namespace Sys2Proof.Machine

/-- The guard of an instruction; a word without one is always true (R35, R39). -/
def guardOf : Instr → Guard
  | .iadd _ _ _ g => g | .isub _ _ _ g => g | .imul _ _ _ g => g | .imulhS _ _ _ g => g | .imulhN _ _ _ g => g
  | .imad _ _ _ g => g | .imadwS _ _ _ g => g | .imadwN _ _ _ g => g | .iadd64 _ _ _ g => g | .isub64 _ _ _ g => g
  | .iminS _ _ _ g => g | .iminN _ _ _ g => g | .imaxS _ _ _ g => g | .imaxN _ _ _ g => g | .ishl _ _ _ g => g
  | .ishr _ _ _ g => g | .isar _ _ _ g => g | .irot _ _ _ g => g | .and _ _ _ g => g | .or _ _ _ g => g
  | .xor _ _ _ g => g | .andn _ _ _ g => g | .bfxS _ _ _ g => g | .bfxN _ _ _ g => g | .bfi _ _ _ g => g
  | .bperm _ _ _ g => g | .isel _ _ _ g => g | .icmp _ _ _ _ g => g
  | .mov _ _ g => g | .not _ _ g => g | .ineg _ _ g => g | .iabs _ _ g => g | .popc _ _ g => g | .clz _ _ g => g
  | .brev _ _ g => g | .sext8 _ _ g => g | .sext16 _ _ g => g | .zext8 _ _ g => g | .zext16 _ _ g => g
  | .pand _ _ _ g => g | .por _ _ _ g => g | .pxor _ _ _ g => g | .pnot _ _ g => g | .p2v _ g => g | .v2p _ g => g
  | .pset _ _ g => g | .bra g _ => g | .call g _ => g | .brx _ g => g | .callx _ g => g | .ret g => g | .exit g => g
  | .fadd _ _ _ g => g | .fsub _ _ _ g => g | .fmul _ _ _ g => g | .ffma _ _ _ g => g | .ffms _ _ _ g => g
  | .fmin _ _ _ g => g | .fmax _ _ _ g => g | .fcmp _ _ _ _ g => g | .fdiv _ _ _ g => g | .fscale _ _ _ g => g
  | .hadd2 _ _ _ g => g | .hmul2 _ _ _ g => g | .hfma2 _ _ _ g => g | .badd2 _ _ _ g => g | .bmul2 _ _ _ g => g
  | .bfma2 _ _ _ g => g | .fdot4 _ _ _ g => g | .fdot4E5 _ _ _ g => g
  | .fabs _ _ g => g | .fneg _ _ g => g | .frcp _ _ g => g | .fsqrt _ _ g => g | .frsq _ _ g => g | .fexp2 _ _ g => g
  | .flog2 _ _ g => g | .fsin _ _ g => g | .fcos _ _ g => g | .ftanh _ _ g => g | .fsigm _ _ g => g
  | .fclass _ _ g => g | .frndRn _ _ g => g | .frndRz _ _ g => g | .frndRd _ _ g => g | .frndRu _ _ g => g
  | .fcvt _ _ _ g => g | .shflIdx _ _ _ g => g | .shflUp _ _ _ g => g | .shflDn _ _ _ g => g | .shflXor _ _ _ g => g
  | .voteAny _ _ g => g | .voteAll _ _ g => g | .voteBallot _ _ g => g | .voteCount _ _ g => g
  | .redwAddS32 _ _ g => g | .redwAddF32 _ _ g => g | .redwMinS _ _ g => g | .redwMinN _ _ g => g
  | .redwMaxS _ _ g => g | .redwMaxN _ _ g => g | .redwMinF _ _ g => g | .redwMaxF _ _ g => g | .redwAnd _ _ g => g
  | .redwOr _ _ g => g | .redwXor _ _ g => g | .scanwInclS32 _ _ g => g | .scanwExclS32 _ _ g => g
  | .scanwInclF32 _ _ g => g | .scanwExclF32 _ _ g => g | .matchL _ _ g => g | .fencew g => g
  | .ldN8 _ _ _ g => g | .ldS8 _ _ _ g => g | .ldN16 _ _ _ g => g | .ldS16 _ _ _ g => g | .ld32 _ _ _ g => g
  | .ld64 _ _ _ g => g | .ld128 _ _ _ g => g | .st8 _ _ _ g => g | .st16 _ _ _ g => g | .st32 _ _ _ g => g
  | .st64 _ _ _ g => g | .st128 _ _ _ g => g | .ldc _ _ _ g => g | .tld _ _ _ g => g | .tst _ _ _ g => g
  | .pftL1 _ _ g => g | .pftLlc _ _ g => g | .cflushWb _ g => g | .cflushInv _ g => g | .cflushWbinv _ g => g
  | .atom _ _ _ g => g | .atomc _ _ _ g => g | .red _ _ _ g => g | .agginc _ _ _ g => g | .retry g => g
  | .txa _ g => g | .txq _ g => g | .phreg _ _ g => g | .phdrop _ _ g => g | .pharr _ _ g => g | .phrd _ _ g => g
  | .tagany _ _ g => g | .tagall _ _ g => g | .tagff _ _ g => g | .tagclr _ g => g | .xkick _ _ g => g
  | .xcancel _ _ g => g | .xstat _ _ g => g | .publish _ _ g => g | .mrd _ _ g => g | .mwr _ _ g => g
  | .zld _ _ _ g => g | .zst _ _ _ g => g | .zqry _ _ g => g | .zver _ _ g => g | .tqry _ _ g => g | .ctinv _ _ g => g
  | .ctloadCt _ _ _ g => g | .ctloadCb _ _ _ g => g | .recfence _ g => g | .shfence _ g => g | .launch _ _ _ g => g
  | .cntrd _ _ g => g | .cancel _ _ g => g | .qput _ _ _ g => g | .qtake _ _ _ g => g | .grprd _ _ g => g
  | .grpwr _ _ g => g | .grpres _ _ g => g | .tret g => g | .tlbinv _ g => g | .tlbinv2 _ g => g | .xlate _ _ g => g
  | .phstart _ _ g => g
  | _ => 0

/-- The word of an instruction (R34 to R45). -/
def wordOf (i : Instr) : Word := (encode i).headD 0

/-- The level a word needs and the detail of its privilege fault: 0 user, 1 system, 2 handler (R47, R136). -/
def levelNeeded (i : Instr) : Nat × Nat :=
  let op := (wordOf i).toNat / 2 ^ 25
  match i with
  | .segld _ _ | .tlbinv _ _ | .tlbinv2 _ _ | .xlate _ _ _ | .phstart _ _ _ => (1, op)
  | .grprd _ _ _ | .grpwr _ _ _ | .grpres _ _ _ | .tret _ => (2, op)
  | .swr _ sel => if sel = 0x12 ∨ sel = 0x60 then (1, sel.toNat) else (0, 0)
  | _ => (0, 0)

/-- The rank of a level: user 0, system 1, handler 2 (R362). -/
def Level.rank : Level → Nat
  | .user => 0
  | .system => 1
  | .handler => 2

/-- Register number n starts a pair. -/
def evenReg (n : Reg) : Bool := n.toNat % 2 == 0
/-- Register number n starts a quad. -/
def quadReg (n : Reg) : Bool := n.toNat % 4 == 0

/-- Pairs are even, quads are multiples of four, and a ZLD block starts at 0, 32, 64 or 96 (R43, R303). -/
def pairsOk : Instr → Bool
  | .imadwS d _ _ _ | .imadwN d _ _ _ | .ld64 d _ _ _ | .st64 d _ _ _ | .atomc d _ _ _ | .cntrd d _ _ => evenReg d
  | .iadd64 d a b _ | .isub64 d a b _ => evenReg d && evenReg a && evenReg b
  | .ld128 d _ _ _ | .st128 d _ _ _ | .mrd d _ _ | .mwr d _ _ => quadReg d
  | .tld _ a _ _ | .tst _ a _ _ | .zst _ a _ _ | .segld a _ => quadReg a
  | .zld d a _ _ => d.toNat % 32 == 0 && quadReg a
  | .zqry d a _ | .zver d a _ => evenReg d && quadReg a
  | .tqry d a _ => quadReg d && quadReg a
  | .xlate d a _ => quadReg d && evenReg a
  | .tagany _ a _ | .tagall _ a _ | .tagff _ a _ | .tagclr a _ | .publish _ a _ | .tlbinv a _ | .tlbinv2 a _ => evenReg a
  | _ => true

/-- k register numbers from n. -/
def block (n : Reg) (k : Nat) : List Nat := (List.range k).map fun i => n.toNat + i

/-- The source registers of an instruction, explicit and implicit, in the field order d, a, b (R162). -/
def srcRegs : Instr → List Nat
  | .iadd _ a b _ | .isub _ a b _ | .imul _ a b _ | .imulhS _ a b _ | .imulhN _ a b _ | .iminS _ a b _
  | .iminN _ a b _ | .imaxS _ a b _ | .imaxN _ a b _ | .ishl _ a b _ | .ishr _ a b _ | .isar _ a b _ | .irot _ a b _
  | .and _ a b _ | .or _ a b _ | .xor _ a b _ | .andn _ a b _ | .bfxS _ a b _ | .bfxN _ a b _ | .icmp _ _ a b _
  | .fadd _ a b _ | .fsub _ a b _ | .fmul _ a b _ | .fmin _ a b _ | .fmax _ a b _ | .fcmp _ _ a b _ | .fdiv _ a b _
  | .fscale _ a b _ | .hadd2 _ a b _ | .hmul2 _ a b _ | .badd2 _ a b _ | .bmul2 _ a b _ | .fcvt _ a b _
  | .shflIdx _ a b _ | .shflUp _ a b _ | .shflDn _ a b _ | .shflXor _ a b _ | .ldN8 _ a b _ | .ldS8 _ a b _
  | .ldN16 _ a b _ | .ldS16 _ a b _ | .ld32 _ a b _ | .ld64 _ a b _ | .ld128 _ a b _ | .ldc _ a b _ | .pftL1 a b _
  | .pftLlc a b _ | .ctloadCt _ a b _ | .ctloadCb _ a b _ | .launch _ a b _ | .mlds a b | .mswp a b | .mstr a b
  | .mdrn a b | .mzero a b => block a 1 ++ block b 1
  | .imad d a b _ | .bfi d a b _ | .bperm d a b _ | .isel d a b _ | .ffma d a b _ | .ffms d a b _ | .hfma2 d a b _
  | .bfma2 d a b _ | .fdot4 d a b _ | .fdot4E5 d a b _ | .st8 d a b _ | .st16 d a b _ | .st32 d a b _ | .atom d a b _
  | .red d a b _ | .agginc d a b _ => block d 1 ++ block a 1 ++ block b 1
  | .imadwS d a b _ | .imadwN d a b _ | .st64 d a b _ | .atomc d a b _ => block d 2 ++ block a 1 ++ block b 1
  | .st128 d a b _ => block d 4 ++ block a 1 ++ block b 1
  | .iadd64 _ a b _ | .isub64 _ a b _ => block a 2 ++ block b 2
  | .mov _ a _ | .not _ a _ | .ineg _ a _ | .iabs _ a _ | .popc _ a _ | .clz _ a _ | .brev _ a _ | .sext8 _ a _
  | .sext16 _ a _ | .zext8 _ a _ | .zext16 _ a _ | .v2p a _ | .pset _ a _ | .iaddi _ a _ | .imuli _ a _ | .andi _ a _
  | .ori _ a _ | .xori _ a _ | .shli _ a _ | .shri _ a _ | .sari _ a _ | .icmpi _ _ a _ | .brx a _ | .callx a _
  | .fabs _ a _ | .fneg _ a _ | .frcp _ a _ | .fsqrt _ a _ | .frsq _ a _ | .fexp2 _ a _ | .flog2 _ a _ | .fsin _ a _
  | .fcos _ a _ | .ftanh _ a _ | .fsigm _ a _ | .fclass _ a _ | .frndRn _ a _ | .frndRz _ a _ | .frndRd _ a _
  | .frndRu _ a _ | .redwAddS32 _ a _ | .redwAddF32 _ a _ | .redwMinS _ a _ | .redwMinN _ a _ | .redwMaxS _ a _
  | .redwMaxN _ a _ | .redwMinF _ a _ | .redwMaxF _ a _ | .redwAnd _ a _ | .redwOr _ a _ | .redwXor _ a _
  | .scanwInclS32 _ a _ | .scanwExclS32 _ a _ | .scanwInclF32 _ a _ | .scanwExclF32 _ a _ | .matchL _ a _
  | .cflushWb a _ | .cflushInv a _ | .cflushWbinv a _ | .txa a _ | .phreg _ a _ | .phdrop _ a _ | .pharr _ a _
  | .phrd _ a _ | .xkick _ a _ | .xcancel _ a _ | .xstat _ a _ | .mrd _ a _ | .ctinv _ a _ | .recfence a _
  | .shfence a _ | .cntrd _ a _ | .cancel _ a _ | .qput _ a _ _ | .swr a _ | .grprd _ a _ | .grpres _ a _
  | .phstart _ a _ => block a 1
  | .movh d _ => block d 1
  | .grpwr d a _ => block d 1 ++ block a 1
  | .mwr d a _ => block d 4 ++ block a 1
  | .tagany _ a _ | .tagall _ a _ | .tagff _ a _ | .tagclr a _ | .publish _ a _ | .tlbinv a _ | .tlbinv2 a _
  | .xlate _ a _ => block a 2
  | .segld a _ | .zqry _ a _ | .zver _ a _ | .tqry _ a _ => block a 4
  | .tld _ a b _ | .zld _ a b _ => block a 4 ++ block b 1
  | .tst d a b _ | .zst d a b _ => block d 1 ++ block a 4 ++ block b 1
  | _ => []

/-- The destination registers of an instruction (R155, R156). -/
def dstRegs : Instr → List Nat
  | .iadd d _ _ _ | .isub d _ _ _ | .imul d _ _ _ | .imulhS d _ _ _ | .imulhN d _ _ _ | .imad d _ _ _
  | .iminS d _ _ _ | .iminN d _ _ _ | .imaxS d _ _ _ | .imaxN d _ _ _ | .ishl d _ _ _ | .ishr d _ _ _ | .isar d _ _ _
  | .irot d _ _ _ | .and d _ _ _ | .or d _ _ _ | .xor d _ _ _ | .andn d _ _ _ | .bfxS d _ _ _ | .bfxN d _ _ _
  | .bfi d _ _ _ | .bperm d _ _ _ | .isel d _ _ _ | .fadd d _ _ _ | .fsub d _ _ _ | .fmul d _ _ _ | .ffma d _ _ _
  | .ffms d _ _ _ | .fmin d _ _ _ | .fmax d _ _ _ | .fdiv d _ _ _ | .fscale d _ _ _ | .hadd2 d _ _ _ | .hmul2 d _ _ _
  | .hfma2 d _ _ _ | .badd2 d _ _ _ | .bmul2 d _ _ _ | .bfma2 d _ _ _ | .fdot4 d _ _ _ | .fdot4E5 d _ _ _
  | .fcvt d _ _ _ | .shflIdx d _ _ _ | .shflUp d _ _ _ | .shflDn d _ _ _ | .shflXor d _ _ _ | .ldN8 d _ _ _
  | .ldS8 d _ _ _ | .ldN16 d _ _ _ | .ldS16 d _ _ _ | .ld32 d _ _ _ | .ldc d _ _ _ | .tld d _ _ _ | .atom d _ _ _
  | .atomc d _ _ _ | .agginc d _ _ _ | .launch d _ _ _ | .qtake d _ _ _ => block d 1
  | .mov d _ _ | .not d _ _ | .ineg d _ _ | .iabs d _ _ | .popc d _ _ | .clz d _ _ | .brev d _ _ | .sext8 d _ _
  | .sext16 d _ _ | .zext8 d _ _ | .zext16 d _ _ | .iaddi d _ _ | .imuli d _ _ | .andi d _ _ | .ori d _ _
  | .xori d _ _ | .shli d _ _ | .shri d _ _ | .sari d _ _ | .fabs d _ _ | .fneg d _ _ | .frcp d _ _ | .fsqrt d _ _
  | .frsq d _ _ | .fexp2 d _ _ | .flog2 d _ _ | .fsin d _ _ | .fcos d _ _ | .ftanh d _ _ | .fsigm d _ _
  | .fclass d _ _ | .frndRn d _ _ | .frndRz d _ _ | .frndRd d _ _ | .frndRu d _ _ | .voteBallot d _ _
  | .voteCount d _ _ | .redwAddS32 d _ _ | .redwAddF32 d _ _ | .redwMinS d _ _ | .redwMinN d _ _ | .redwMaxS d _ _
  | .redwMaxN d _ _ | .redwMinF d _ _ | .redwMaxF d _ _ | .redwAnd d _ _ | .redwOr d _ _ | .redwXor d _ _
  | .scanwInclS32 d _ _ | .scanwExclS32 d _ _ | .scanwInclF32 d _ _ | .scanwExclF32 d _ _ | .matchL d _ _
  | .fence d _ _ | .phreg d _ _ | .phdrop d _ _ | .pharr d _ _ | .phrd d _ _ | .tagff d _ _ | .xkick d _ _
  | .xcancel d _ _ | .xstat d _ _ | .publish d _ _ | .ctinv d _ _ | .cancel d _ _ | .grprd d _ _ | .grpres d _ _
  | .phstart d _ _ => block d 1
  | .movl d _ | .movh d _ | .p2v d _ | .txq d _ | .srd d _ => block d 1
  | .imadwS d _ _ _ | .imadwN d _ _ _ | .iadd64 d _ _ _ | .isub64 d _ _ _ | .ld64 d _ _ _ => block d 2
  | .cntrd d _ _ | .zqry d _ _ | .zver d _ _ => block d 2
  | .ld128 d _ _ _ => block d 4
  | .mrd d _ _ | .tqry d _ _ | .xlate d _ _ => block d 4
  | .zld d _ _ _ => block d 32
  | _ => []

/-- The mask of the lowest lane of a mask. -/
def lowMask (m : Word) : Word :=
  match lowest m with
  | some l => BitVec.twoPow 32 l
  | none => 0

/-- A mask without its highest lane. -/
def belowHigh (m : Word) : Word :=
  match (lanesIn m).getLast? with
  | some l => m &&& ~~~(BitVec.twoPow 32 l)
  | none => 0

/-- The lane that lane l of a SHFL reads, when it is a source lane (R198). -/
def shflLane (form : Nat) (x : Word) (act : Word) (l : Nat) : Option Nat :=
  let j : Int :=
    match form with
    | 0 => x.toNat
    | 1 => (l : Int) - x.toNat
    | 2 => (l : Int) + x.toNat
    | _ => Nat.xor l x.toNat
  if 0 ≤ j ∧ j < 32 ∧ act.getLsbD j.toNat then some j.toNat else none

/-- The lanes whose word a SHFL delivers to an active lane. -/
def shflRead (form : Nat) (b : Reg) (act : Word) (s : State) : Word :=
  (lanesIn act).foldl (fun m l =>
    match shflLane form (s.v b.toNat l) act l with
    | some j => m ||| BitVec.twoPow 32 j
    | none => m) 0

/-- The register words an instruction reads as active operands: register number and lanes (R171). Instructions that take
an operand from one lane read it there only; no active lane receives the highest source lane's word of an exclusive
integer prefix (R202). -/
def usesOf (i : Instr) (act : Word) (s : State) : List (Nat × Word) :=
  let low := lowMask act
  let on (m : Word) (rs : List Nat) : List (Nat × Word) := rs.map fun r => (r, m)
  match i with
  | .shflIdx _ a b _ => [(a.toNat, shflRead 0 b act s), (b.toNat, act)]
  | .shflUp _ a b _ => [(a.toNat, shflRead 1 b act s), (b.toNat, act)]
  | .shflDn _ a b _ => [(a.toNat, shflRead 2 b act s), (b.toNat, act)]
  | .shflXor _ a b _ => [(a.toNat, shflRead 3 b act s), (b.toNat, act)]
  | .scanwExclS32 _ a _ => on (belowHigh act) (block a 1)
  | .scanwExclF32 _ a _ => on (if belowHigh act = 0 then 0 else act) (block a 1)
  | .mlds a b | .mswp a b | .mstr a b | .mdrn a b | .mzero a b => on low (block a 1) ++ on act (block b 1)
  | .txa a _ => on (lowMask s.frame.live) (block a 1)
  | .phreg _ a _ | .phdrop _ a _ | .pharr _ a _ | .phrd _ a _ | .xcancel _ a _ | .ctinv _ a _ | .cancel _ a _
  | .phstart _ a _ | .grpres _ a _ => on low (block a 1)
  | .publish _ a _ | .tlbinv a _ | .tlbinv2 a _ => on low (block a 2)
  | .segld a _ => on low (block a 4)
  | .ctloadCt _ a b _ | .ctloadCb _ a b _ | .launch _ a b _ => on low (block a 1 ++ block b 1)
  | .agginc d a b _ => on act (block d 1) ++ on low (block a 1 ++ block b 1)
  | .zld _ a b _ => on low (block a 4 ++ block b 1)
  | .zst d a b _ => on act (block d 1) ++ on low (block a 4 ++ block b 1)
  | .swr a sel => on (if sel = 0x10 ∨ sel = 0x13 then act else low) (block a 1)
  | _ => on act (srcRegs i)

/-- The lowest lane, then the first register in field order, whose word is poisoned (R171). -/
def poisonedUse (uses : List (Nat × Word)) (s : State) : Option (Nat × Nat) :=
  let bad := uses.map fun u => (u.1, u.2 &&& (s.frame.reg (s.arch u.1)).poison)
  (lanes32.filterMap fun l => (bad.find? fun u => u.2.getLsbD l).map fun u => (u.1, l)).head?

/-- Instructions that abort a transaction when one lane is active (R264). -/
def unsupported : Instr → Bool
  | .atom _ _ _ _ | .atomc _ _ _ _ | .red _ _ _ _ | .agginc _ _ _ _ | .tld _ _ _ _ | .tst _ _ _ _ | .zld _ _ _ _
  | .zst _ _ _ _ | .cflushWb _ _ | .cflushInv _ _ | .cflushWbinv _ _ | .fence _ _ _ | .fencew _ | .recfence _ _
  | .shfence _ _ | .ctloadCt _ _ _ _ | .ctloadCb _ _ _ _ | .ctinv _ _ _ | .launch _ _ _ _ | .cancel _ _ _
  | .xkick _ _ _ | .xcancel _ _ _ | .publish _ _ _ | .mlds _ _ | .mswp _ _ | .mstr _ _ | .mdrn _ _ | .mzero _ _
  | .mrd _ _ _ | .mwr _ _ _ | .exit _ | .segld _ _ | .tlbinv _ _ | .tlbinv2 _ _ | .xlate _ _ _ | .phstart _ _ _ => true
  | _ => false

end Sys2Proof.Machine
end

