-- ==== Sys2Proof/Config.lean ====
section
/-!
DEFINITION. What the spec leaves to the device or to an implementation: free values, which are constants without a
body.
-/
namespace Sys2Proof.Config

/-- Whether special function fn delivers the neighbour of larger magnitude for a source word whose exact result FP32
does not hold (R74 bounds the error, R192 makes the choice the same in every lane, core and run). -/
opaque specialUp : Nat → Word → Bool

/-- A byte read under another key than it was written under: by place and the counter of free values (R401). -/
opaque garbled : Nat → Nat → Byte

/-- Whether a load that finds an older copy in the L1 returns it (R216, R324). -/
opaque l1Stale : Nat → Bool

/-- Whether a write declared lost had been performed at its home before the peer failed (R333). -/
opaque lostPerformed : Nat → Bool

/-- Cycles and ticks between one step of the model and the next (R135). -/
opaque elapsedCycles : Nat → Nat
/-- Ticks between one step of the model and the next. -/
opaque elapsedTicks : Nat → Nat

/-- Which of its generator's outputs at hand an engine gives to an element, and the draw of a reduction: the order of
draws is not fixed (R68). -/
opaque engineDraw : Nat → Nat
/-- How many outputs an engine's generator has run ahead of the elements that took theirs (R68). -/
opaque engineAhead : Nat → Nat

/-- Whether the execution unit that a warp's next instruction needs accepts an issue, by step and warp: a matter of issue
rates (R152, R172). -/
opaque unitAccepts : Nat → Nat → Bool

/-- The bitstream an encoder writes for a frame, by the counter of free values; codec internals are outside the spec. -/
opaque bitstream : Nat → List Byte

/-- Whether a key frame's references fit the encoder arena: the spec gives no size for them (R389). -/
opaque arenaFits : Nat → Bool

/-- The two fused digests of the firmware's keys (R396). -/
opaque fusedDigests : List (BitVec 8) × List (BitVec 8)
/-- The device's RSA-3072 identity key pair: modulus, public exponent, private exponent (R397). -/
opaque rsaIdentity : Nat × Nat × Nat
/-- The device's SLH-DSA-SHA2-192s identity key pair: secret seed, secret key of the PRF, public seed and root, 24 bytes
each (R397). -/
opaque slhIdentity : List (BitVec 8)
/-- The salt of an RSASSA-PSS signature: the scheme leaves it to the signer (R395, R397). -/
opaque pssSalt : Nat → BitVec 384
/-- The random value of an SLH-DSA signature: the scheme leaves it to the signer (R395, R397). -/
opaque slhRandom : Nat → BitVec 192

/-- The code-table slot and the seam-count code of a slab that TST writes where the tile had none: the spec names neither
(R226). -/
opaque freshSlab : Nat → Nat × Nat

/-- The device's serial (R397). -/
opaque serial : List Byte

/-- How many flits of instructions' requests have left on a channel since its totals were last compared: they are not
modelled, and their number is free (R349; log entry 41). -/
opaque requestFlits : Nat → BitVec 32

end Sys2Proof.Config
end

