-- ==== Sys2Proof/Machine/Special.lean ====
section
/-!
DEFINITION. The special functions (R74, R75, R192): exact brackets by integer arithmetic, the neighbour delivered being
a choice of the device within one ulp; division, reciprocal and square root correctly rounded.
-/
namespace Sys2Proof.Machine

/-- Fraction bits of the fixed-point values below. -/
def fxBits : Nat := 320

/-- One in fixed point. -/
def fxOne : Int := 2 ^ fxBits

/-- Fixed-point product, rounded down. -/
def fxMul (a b : Int) : Int := a * b / fxOne

/-- atan(1/n) in fixed point by its series, k terms from term number i. -/
def fxAtanInv (n : Int) : Nat → Nat → Int → Int
  | 0, _, _ => 0
  | k + 1, i, p => (if i % 2 = 0 then p / (2 * i + 1) else -(p / (2 * i + 1))) + fxAtanInv n k (i + 1) (p / (n * n))

/-- π in fixed point, by Machin's formula. -/
def fxPi : Int := 16 * fxAtanInv 5 75 0 (fxOne / 5) - 4 * fxAtanInv 239 24 0 (fxOne / 239)

/-- Twice the inverse hyperbolic tangent series: the sum of 2 z^(2i+1)/(2i+1), k terms. -/
def fxLog2z (z2 : Int) : Nat → Nat → Int → Int
  | 0, _, _ => 0
  | k + 1, i, p => 2 * (p / (2 * i + 1)) + fxLog2z z2 k (i + 1) (fxMul p z2)

/-- The natural logarithm of a fixed-point x from 1 to 2. -/
def fxLn (x : Int) : Int :=
  let z := (x - fxOne) * fxOne / (x + fxOne)
  fxLog2z (fxMul z z) 105 0 z

/-- ln 2 in fixed point. -/
def fxLn2 : Int := fxLn (2 * fxOne)

/-- The exponential series, k terms from term i with term value p. -/
def fxExpSeries (x : Int) : Nat → Nat → Int → Int
  | 0, _, _ => 0
  | k + 1, i, p => p + fxExpSeries x k (i + 1) (fxMul p x / (i + 1))

/-- e^x in fixed point for 0 ≤ x < 1. -/
def fxExp (x : Int) : Int := fxExpSeries x 70 0 fxOne

/-- The sine or cosine series for a fixed-point x, from term i with value p. -/
def fxSinSeries (x2 : Int) : Nat → Nat → Int → Int
  | 0, _, _ => 0
  | k + 1, i, p => p - fxSinSeries x2 k (i + 2) (fxMul p x2 / ((i + 1) * (i + 2)))

/-- A finite number in fixed point, rounded down. -/
def fxOf (neg : Bool) (m : Nat) (e : Int) : Int :=
  let s := e + fxBits
  let v : Int := if 0 ≤ s then (m : Int) * 2 ^ s.toNat else (m : Int) / 2 ^ (-s).toNat
  if neg then -v else v

/-- An approximation made sticky: half a unit above the truncated magnitude, so that it never equals a kind's value. -/
def stickyOf (neg : Bool) (mag : Nat) (e : Int) : Num := .fin neg (2 * mag + 1) (e - 1)

/-- 2^x for a finite x: the integer part goes to the exponent. -/
def exp2Num (neg : Bool) (m : Nat) (e : Int) : Num :=
  let x := fxOf neg m e
  let n := x / fxOne
  let f := x - n * fxOne
  if f = 0 ∧ 0 ≤ e + fxBits then .fin false 1 n
  else stickyOf false (fxExp (fxMul f fxLn2)).toNat (n - fxBits)

/-- log₂ of a positive finite number: exact for a power of two. -/
def log2Num (m : Nat) (e : Int) : Num :=
  let b := bitLen m - 1
  let n : Int := e + b
  if m = 2 ^ b then Num.ofInt n
  else
    let x : Int := (m : Int) * fxOne / 2 ^ b
    let y := n * fxOne + fxLn x * fxOne / fxLn2
    stickyOf (decide (y < 0)) y.natAbs (-(fxBits : Int))

/-- sin (quarter 0) or cos (quarter 1) of a finite number of magnitude at most 2^18, reduced by π/2. -/
def sinCosNum (quarter : Nat) (neg : Bool) (m : Nat) (e : Int) : Num :=
  let x := fxOf neg m e
  let half := fxPi / 2
  let n := (x + half / 2) / half
  let r := x - n * half
  let q := (n + quarter).toNat % 4
  let q := if n + quarter < 0 then ((n + quarter) % 4).toNat else q
  let r2 := fxMul r r
  let v := if q % 2 = 0 then fxSinSeries r2 40 1 r else fxSinSeries r2 40 0 fxOne
  let v := if q < 2 then v else -v
  stickyOf (decide (v < 0)) v.natAbs (-(fxBits : Int))

/-- e^x of a finite number as mantissa over 2^fxBits and exponent of two. -/
def expParts (neg : Bool) (m : Nat) (e : Int) : Int × Int :=
  let x := fxOf neg m e
  let n := x / fxLn2
  (fxExp (x - n * fxLn2), n)

/-- tanh of a finite non-zero number: x less a little near 0, 1 less a little far from 0, else (t − 1)/(t + 1) with
t = e^2x. -/
def tanhNum (neg : Bool) (m : Nat) (e : Int) : Num :=
  let big : Int := e + bitLen m - 1
  if big < -40 then Num.fin neg (m * 2 ^ 64 - 1) (e - 64)
  else if 6 ≤ big then Num.fin neg (2 ^ 64 - 1) (-64)
  else
    let p := expParts false m (e + 1)
    let t : Int := p.1 * 2 ^ (Int.toNat p.2)
    stickyOf neg ((t - fxOne) * fxOne / (t + fxOne)).toNat (-(fxBits : Int))

/-- 1/(1 + e^−x) of a finite non-zero number. -/
def sigmNum (neg : Bool) (m : Nat) (e : Int) : Num :=
  let big : Int := e + bitLen m - 1
  if big < -100 then (if neg then .fin false (2 ^ 100 - 1) (-101) else .fin false (2 ^ 100 + 1) (-101))
  else if 9 ≤ big then (if neg then .fin false 1 (-1000) else .fin false (2 ^ 64 - 1) (-64))
  else
    let p := expParts false m e
    let t : Int := p.1 * 2 ^ (Int.toNat p.2)
    if neg then stickyOf false (fxOne * fxOne * 2 ^ fxBits / (fxOne + t)).toNat (-(2 * fxBits : Int))
    else stickyOf false (t * fxOne / (fxOne + t)).toNat (-(fxBits : Int))

/-- The integer square root of m × 2^e with a sticky bit; e is made even first. -/
def sqrtNum (m : Nat) (e : Int) : Num :=
  let d : Nat := if e % 2 = 0 then 0 else 1
  let v := m * 2 ^ (2 * quotBits + d)
  let s := Nat.sqrt v
  .fin false (2 * s + (if s * s = v then 0 else 1)) ((e - d - 2 * quotBits) / 2 - 1)

/-- 1/√(m × 2^e): the root of the reciprocal, with a sticky bit. -/
def rsqNum (m : Nat) (e : Int) : Num :=
  let d : Nat := if e % 2 = 0 then 0 else 1
  let m' := m * 2 ^ d
  let s := 4 * quotBits
  let v := 2 ^ (2 * s) / m'
  let r := Nat.sqrt v
  let exact : Bool := decide (r * r * m' = 2 ^ (2 * s))
  .fin false (2 * r + (if exact then 0 else 1)) (-(e - d) / 2 - s - 1)

/-- The FP32 delivered for an exact value of a special function: the value itself where FP32 holds it, otherwise the
neighbour below or above in magnitude as the device chooses, both within one ulp (R74). Flags as R192. -/
def special (fn : Nat) (src : Word) (x : Num) : Word × Flags :=
  match x with
  | .fin neg (m + 1) e =>
    let near := roundFloat 8 0 false 0 x
    let low := roundFloat 8 1 false 0 x
    if near.2 &&& fInexact = 0 then (BitVec.ofNat 32 near.1, near.2)
    else if near.2 &&& fOverflow ≠ 0 then (BitVec.ofNat 32 near.1, near.2)
    else
      let up := roundFloat 8 (if neg then 2 else 3) false 0 (.fin neg (m + 1) e)
      if Config.specialUp fn src then (BitVec.ofNat 32 up.1, up.2) else (BitVec.ofNat 32 low.1, low.2)
  | _ => rn32 x

/-- The default NaN of FP32 with flags. -/
def dnan (f : Flags) : Word × Flags := (0x7FC00000, f)

/-- An FP32 infinity with flags. -/
def infW (neg : Bool) (f : Flags) : Word × Flags := (if neg then 0xFF800000 else 0x7F800000, f)

/-- A signed zero. -/
def zeroW (neg : Bool) : Word × Flags := (if neg then 0x80000000 else 0, 0)

/-- FRCP (R74, R75). -/
def rcp32 (x : Num) : Word × Flags :=
  match x with
  | .nan => dnan 0
  | .inf neg => zeroW neg
  | .fin neg 0 _ => infW neg fDivzero
  | .fin neg m e => rn32 (quot false 1 0 neg m e)

/-- FSQRT (R74, R75). -/
def sqrt32 (x : Num) : Word × Flags :=
  match x with
  | .nan => dnan 0
  | .inf false => infW false 0
  | .inf true => dnan fInvalid
  | .fin neg 0 _ => zeroW neg
  | .fin true _ _ => dnan fInvalid
  | .fin false m e => rn32 (sqrtNum m e)

/-- FRSQ (R74, R75). -/
def rsq32 (src : Word) (x : Num) : Word × Flags :=
  match x with
  | .nan => dnan 0
  | .inf false => zeroW false
  | .inf true => dnan fInvalid
  | .fin neg 0 _ => infW neg fDivzero
  | .fin true _ _ => dnan fInvalid
  | .fin false m e => special 4 src (rsqNum m e)

/-- FEXP2 (R74, R75): x of 128 or more overflows; x below −149 rounds to +0 or 2^−149 under RN with underflow. -/
def exp2W (src : Word) (x : Num) : Word × Flags :=
  match x with
  | .nan => dnan 0
  | .inf neg => if neg then zeroW false else infW false 0
  | .fin neg m e =>
    if m = 0 then rn32 (Num.ofInt 1)
    else
      let v := if Num.cmp (.fin neg m e) (Num.ofInt 128) ≠ .lt then Num.fin false 1 128
        else if Num.cmp (.fin neg m e) (Num.ofInt (-200)) = .lt then Num.fin false 1 (-200)
        else if e + bitLen m - 1 < -100 then
          (if neg then Num.fin false (2 ^ 100 - 1) (-100) else Num.fin false (2 ^ 100 + 1) (-100))
        else exp2Num neg m e
      if Num.cmp (.fin neg m e) (Num.ofInt (-149)) = .lt then rn32 v else special 5 src v

/-- FLOG2 (R74, R75). -/
def log2W (src : Word) (x : Num) : Word × Flags :=
  match x with
  | .nan => dnan 0
  | .inf false => infW false 0
  | .inf true => dnan fInvalid
  | .fin _ 0 _ => infW true fDivzero
  | .fin true _ _ => dnan fInvalid
  | .fin false m e => special 6 src (log2Num m e)

/-- FSIN and FCOS (R74, R75): beyond 2^18 the default NaN with invalid and range. -/
def sinCosW (quarter : Nat) (src : Word) (x : Num) : Word × Flags :=
  match x with
  | .nan => dnan 0
  | .inf _ => dnan (fInvalid ||| fRange)
  | .fin neg m e =>
    if m = 0 then (if quarter = 0 then zeroW neg else rn32 (Num.ofInt 1))
    else if Num.cmp (.fin false m e) (.fin false 1 18) = .gt then dnan (fInvalid ||| fRange)
    else if e + bitLen m - 1 < -40 then
      special (7 + quarter) src
        (if quarter = 0 then .fin neg (m * 2 ^ 64 - 1) (e - 64) else .fin false (2 ^ 64 - 1) (-64))
    else special (7 + quarter) src (sinCosNum quarter neg m e)

/-- FTANH (R74, R75). -/
def tanhW (src : Word) (x : Num) : Word × Flags :=
  match x with
  | .nan => dnan 0
  | .inf neg => rn32 (.fin neg 1 0)
  | .fin neg m e => if m = 0 then zeroW neg else special 9 src (tanhNum neg m e)

/-- FSIGM (R74, R75). -/
def sigmW (src : Word) (x : Num) : Word × Flags :=
  match x with
  | .nan => dnan 0
  | .inf neg => if neg then zeroW false else rn32 (Num.ofInt 1)
  | .fin neg m e => if m = 0 then rn32 (.fin false 1 (-1)) else special 10 src (sigmNum neg m e)

end Sys2Proof.Machine
end

