-- ==== Sys2Proof/Machine/Flags.lean ====
section
/-!
DEFINITION. Sticky flags and RS generators of the lanes (R67, R76), and every comparison and flag computation on FP32,
FP16 and BF16 operands that the instructions share (R184 to R190, R193).
-/
namespace Sys2Proof.Machine

/-- Flags are ORed into the lanes of a mask (R76). -/
def State.orFlags (mask : Word) (g : Nat → Flags) (s : State) : State :=
  s.updFrame fun f =>
    { f with flags := lanesOf fun l => if mask.getLsbD l then f.flags.getD l 0 ||| g l else f.flags.getD l 0 }

/-- The generators of the lanes of a mask step once (R67). -/
def State.stepRs (mask : Word) (s : State) : State :=
  s.updFrame fun f =>
    { f with rs := lanesOf fun l => if mask.getLsbD l then rsNext (f.rs.getD l 0) else f.rs.getD l 0 }

/-- FP32 patterns of a and b, with the first NaN among them in order, or the result of f (R61, R184). -/
def nan2 (k : Nat) (a b : Nat) (f : Nat × Flags) : Nat × Flags :=
  match firstNaN k [a, b] with
  | some r => r
  | none => f

/-- A rounded result under RN with saturate 0; an exact NaN is the default NaN with invalid (R185). -/
def rnKind (k : Nat) (x : Num) : Nat × Flags :=
  match x with
  | .nan => (((fmtOf k).nan).getD 0, fInvalid)
  | _ => roundFloat k 0 false 0 x

/-- a + b of a kind (R184, R185, R189). -/
def addK (k a b : Nat) : Nat × Flags := nan2 k a b (rnKind k ((valueOf k a).add (valueOf k b)))

/-- a − b of a kind. -/
def subK (k a b : Nat) : Nat × Flags := nan2 k a b (rnKind k ((valueOf k a).add (valueOf k b).neg))

/-- a × b of a kind. -/
def mulK (k a b : Nat) : Nat × Flags := nan2 k a b (rnKind k ((valueOf k a).mul (valueOf k b)))

/-- a × b + d, or d − a × b with sub, rounded once; 0 × infinity sets invalid even beside a quiet NaN addend (R185). -/
def fmaK (k : Nat) (sub : Bool) (a b d : Nat) : Nat × Flags :=
  let p := (valueOf k a).mul (valueOf k b)
  let bad : Bool := p.isNaN && !(valueOf k a).isNaN && !(valueOf k b).isNaN
  match firstNaN k [a, b, d] with
  | some r => (r.1, r.2 ||| flagIf bad fInvalid)
  | none => rnKind k ((if sub then p.neg else p).add (valueOf k d))

/-- a / b (R184, R185). -/
def div32 (a b : Nat) : Nat × Flags :=
  nan2 8 a b <|
    match valueOf 8 a, valueOf 8 b with
    | .inf _, .inf _ => (0x7FC00000, fInvalid)
    | .inf x, .fin y _ _ => (withSign 8 (x != y) 0x7F800000, 0)
    | .fin x _ _, .inf y => (withSign 8 (x != y) 0, 0)
    | .fin x m e, .fin y n f =>
      if n = 0 then
        if m = 0 then (0x7FC00000, fInvalid) else (withSign 8 (x != y) 0x7F800000, fDivzero)
      else if m = 0 then (withSign 8 (x != y) 0, 0)
      else rnKind 8 (quot x m e y n f)
    | _, _ => (0x7FC00000, fInvalid)

/-- The smaller or the larger FP32 operand; −0 is below +0, and a NaN propagates (R186). -/
def minMax32 (big : Bool) (a b : Nat) : Nat × Flags :=
  nan2 8 a b <|
    let below : Bool :=
      match (valueOf 8 a).cmp (valueOf 8 b) with
      | .lt => true
      | .gt => false
      | .eq => decide (b < a)
    (if below != big then a else b, 0)

/-- x × 2^n (R187). -/
def scale32 (a : Nat) (n : Int) : Nat × Flags :=
  match firstNaN 8 [a] with
  | some r => r
  | none =>
    match valueOf 8 a with
    | .fin x m e => if m = 0 then (a, 0) else rnKind 8 (.fin x m (e + max (-1000) (min 1000 n)))
    | _ => (a, 0)

/-- The result of an FP32 compare under a condition code, and its flags (R188). -/
def cmp32 (c a b : Nat) : Bool × Flags :=
  let u := isNaNPat (fmtOf 8) a || isNaNPat (fmtOf 8) b
  let o := (valueOf 8 a).cmp (valueOf 8 b)
  let r : Bool :=
    match c with
    | 0 => !u && o == .eq
    | 1 => u || o != .eq
    | 2 => !u && o == .lt
    | 3 => !u && o != .gt
    | 4 => !u && o == .gt
    | 5 => !u && o != .lt
    | 6 => u
    | _ => !u
  (r, flagIf (isSNaNPat 8 a || isSNaNPat 8 b || (u && decide (2 ≤ c) && decide (c ≤ 5))) fInvalid)

/-- A result on each half of a register (R189). -/
def halves (f : Nat → Nat → Nat → Nat × Flags) (a b d : Word) : Word × Flags :=
  let lo := f (a.toNat % 65536) (b.toNat % 65536) (d.toNat % 65536)
  let hi := f (a.toNat / 65536) (b.toNat / 65536) (d.toNat / 65536)
  (BitVec.ofNat 32 (hi.1 * 65536 + lo.1), lo.2 ||| hi.2)

/-- Four FP8 products and an FP32 addend summed exactly and rounded once (R72, R190). -/
def dot4 (k : Nat) (a b d : Word) : Word × Flags :=
  let el (x : Word) (i : Nat) : Nat := x.toNat / 2 ^ (8 * i) % 256
  let as := [el a 0, el a 1, el a 2, el a 3]
  let bs := [el b 0, el b 1, el b 2, el b 3]
  match (as ++ bs).find? (isNaNPat (fmtOf k)) with
  | some p => (BitVec.ofNat 32 (nanTo 8 k p).1, flagIf (isSNaNPat 8 d.toNat) fInvalid)
  | none =>
    match firstNaN 8 [d.toNat] with
    | some r => (BitVec.ofNat 32 r.1, r.2)
    | none =>
      let ps := List.zipWith (fun x y => (valueOf k x).mul (valueOf k y)) as bs
      let r := rnKind 8 (Num.sum (ps ++ [valueOf 8 d.toNat]))
      (BitVec.ofNat 32 r.1, r.2)

/-- FCLASS (R193). -/
def class32 (p : Nat) : Word :=
  let neg := p.testBit 31
  if isNaNPat (fmtOf 8) p then (if isSNaNPat 8 p then 0x100 else 0x200)
  else if p % 2 ^ 31 = 0x7F800000 then (if neg then 0x1 else 0x80)
  else if p % 2 ^ 31 = 0 then (if neg then 0x8 else 0x10)
  else if p % 2 ^ 31 < 0x800000 then (if neg then 0x4 else 0x20)
  else (if neg then 0x2 else 0x40)

/-- FRND: an integral value under a rounding code, with no flag but invalid for a signalling NaN (R194). -/
def frnd32 (mode p : Nat) : Nat × Flags :=
  match firstNaN 8 [p] with
  | some r => r
  | none =>
    match valueOf 8 p with
    | .fin neg m e =>
      if m = 0 ∨ 0 ≤ e then (p, 0)
      else
        let n := (roundQ mode neg 0 m e 0).1
        (if n = 0 then withSign 8 neg 0 else (roundFloat 8 0 false 0 (.fin neg n 0)).1, 0)
    | _ => (p, 0)

/-- A special function of a source word, NaN first (R61, R192). -/
def special32 (f : Num → Word × Flags) (x : Word) : Word × Flags :=
  match firstNaN 8 [x.toNat] with
  | some r => (BitVec.ofNat 32 r.1, r.2)
  | none => f (valueOf 8 x.toNat)

end Sys2Proof.Machine
end

