-- ==== Sys2Proof/Machine/Slices.lean ====
section
/-!
DEFINITION. The last-level cache: the eviction class of a line (R215), its home slice and set (R12, R13, R218, R220,
R358), and replacement in a set (R218, R219).
-/
namespace Sys2Proof.Machine

/-- The mixing of a 41-bit line number that R215 and R218 share: the product with a constant, modulo 2^32. -/
def lineMix (n k : Nat) : Nat := ((n % 2 ^ 32) ^^^ (n / 2 ^ 32 % 512)) * k % 2 ^ 32

/-- The 8-bit hash h of the virtual line of an address (R215). -/
def evictHash (va : Nat) : Nat := lineMix (va / 128) 0x9E3779B1 / 2 ^ 24

/-- The eviction class of the line of an address under thresholds T1 and T2 (R215). -/
def evictClass (t1 t2 va : Nat) : EvictClass :=
  if evictHash va < t1 then .keep else if evictHash va < t2 then .normal else .stream

/-- x of a physical address (R218). -/
def sliceHash (pa : Nat) : Nat := lineMix (pa / 128) 0x85EBCA6B

/-- The home slice of a physical address on a C-die, numbered 48n to 48n + 47 on C-die n (R12, R218). -/
def homeSlice (die pa : Nat) : Nat := 48 * die + sliceHash pa * 48 / 2 ^ 32

/-- The set of a physical address: x[11:0], its top bits replaced by the tenant identifier (R218, R220). -/
def setIndex (v : Via) (pa : Nat) : Nat :=
  sliceHash pa % 2 ^ (12 - v.width) + (if v.width = 0 then 0 else v.tenant % 2 ^ v.width * 2 ^ (12 - v.width))

/-- The C-die whose slices home a physical address: that of its HBM stack (R12, R13), or for host memory the lowest of
the partition (R358). Carved storage stands in its own slice and takes no part in replacement (R219). -/
def homeDie (v : Via) (pa : Nat) : Option Nat :=
  if isHbm pa then some (pa / 2 ^ 37) else if isHost pa then some v.low else none

/-- The device's own access, made for no job. -/
def Via.device : Via := { cls := none, width := 0, tenant := 0, low := 0 }

/-- How accesses of a job reach their home slices. -/
def State.viaOf (s : State) (j : Job) (cls : Option EvictClass) : Via :=
  let p := s.partOf j.part
  { cls := cls, width := p.tenant, tenant := j.tenant, low := p.dies.foldl min (p.dies.headD 0) }

/-- How accesses of the device on a partition's behalf, for no job, reach their home slices. -/
def State.viaPart (s : State) (part : Nat) : Via :=
  let p := s.partOf part
  { Via.device with low := p.dies.foldl min (p.dies.headD 0) }

/-- The ways of a slice of a C-die that replacement uses: 16 less those carved (R218, R219). -/
def State.waysOf (s : State) (die : Nat) : Nat :=
  16 - ((s.parts.findSome? fun p => (p.dies.zipIdx.find? fun d => d.1 == die).map fun d => p.carve.getD d.2 0).getD 0)

/-- The line of a set, given from most to least recently used, that leaves it first: the least recently used stream
line, else normal line, else keep line (R218). -/
def pickVictim (mates : List SliceLine) : Option SliceLine :=
  let last (k : EvictClass) : Option SliceLine := mates.reverse.find? fun e => e.cls == k
  ((last .stream).orElse fun _ => last .normal).orElse fun _ => last .keep

/-- The lines that leave a set, given from most to least recently used, for it to hold n fewer (R218, R219). -/
def pickVictims : Nat → List SliceLine → List SliceLine
  | 0, _ => []
  | n + 1, mates =>
    match pickVictim mates with
    | none => []
    | some x => x :: pickVictims n (mates.filter fun y => y.line != x.line)

/-- A line in the slices' order of use: a stream line that is filled enters at the least recently used position, any
other at the most recently used (R218). -/
def enterLine (e : SliceLine) (llc : List SliceLine) : List SliceLine :=
  if e.cls = .stream then llc ++ [e] else e :: llc

/-- An access to a line at its slice: a line held becomes the most recently used and takes the access's class; a line not
held is filled, and lines leave until its set has a free way for it (R215, R218). Answers the lines that left. -/
def placeLine (ways : Nat) (cls : Option EvictClass) (e : SliceLine) (llc : List SliceLine) :
    List SliceLine × List Nat :=
  match llc.find? fun x => x.line == e.line with
  | some x => ({ x with cls := cls.getD x.cls } :: llc.filter (fun y => y.line != e.line), [])
  | none =>
    let mates := llc.filter fun x => x.slice == e.slice && x.set == e.set
    let out := (pickVictims (mates.length + 1 - ways) mates).map (·.line)
    (enterLine e (llc.filter fun y => !(out.contains y.line)), out)

/-- The lines of a C-die's slices that stand in more ways of their sets than are left to replacement (R219). DESIGN
CHOICE: a carve takes ways from the lines that a fill would replace; the spec does not say which ways it takes: log
entry 72. -/
def overfull (die ways : Nat) (llc : List SliceLine) : List Nat :=
  let mine := llc.filter fun x => x.slice / 48 == die
  let sets := mine.foldl (fun acc x => if (x.slice, x.set) ∈ acc then acc else acc ++ [(x.slice, x.set)]) []
  sets.flatMap fun k =>
    let mates := mine.filter fun x => x.slice == k.1 && x.set == k.2
    (pickVictims (mates.length - ways) mates).map (·.line)

end Sys2Proof.Machine
end

