-- ==== Sys2Proof/Machine/Home.lean ====
section
/-!
DEFINITION. What a home does when a write arrives: coherence order, wakes, transaction conflicts, reuse-read marks,
dirty lines and key epochs (R167, R218, R266, R273, R322, R401); rings (R101) and the event queues (R380).
-/
namespace Sys2Proof.Machine

/-- A warp outside or inside a transaction when an untracked write reaches a line: a running attempt that holds the line
aborts with CONFLICT (R266), a sleeper on the line is to wake (R273). -/
def touchWarp (ln : Line) (w : Warp) : Warp :=
  let w := if w.frame.tx.active ∧ (ln ∈ w.frame.tx.rset ∨ ln ∈ w.frame.tx.wset) then
      { w with frame := { w.frame with tx := { w.frame.tx with pending := true } } }
    else w
  if w.asleep ∧ ln ∈ w.sleepSet then { w with woken := true } else w

/-- An untracked write reaches a line. -/
def touchLine (ln : Line) (s : State) : State := s.mapWarps (touchWarp ln)

/-- A core's memo loses the entries that a removal hits, given the scratchpad lines an entry read and whether it is of a
global load (R166). -/
def Core.forget (hit : List (Nat × Nat) → Bool → Bool) (c : Core) : Core :=
  { c with memo := c.memo.filter fun e => !(hit e.scratch e.globalLoad) }

/-- A result that a removal hits no longer enters the memo. -/
def WinEntry.forget (hit : List (Nat × Nat) → Bool → Bool) (e : WinEntry) : WinEntry :=
  if hit e.scratch e.globalLoad then { e with key := none } else e

/-- Results of a warp that are still on their way to the memo, loads under way among them, meet a removal as the entries
they would become do: their keys go (R164, R166, R329). -/
def Warp.forget (hit : List (Nat × Nat) → Bool → Bool) (w : Warp) : Warp :=
  let clean (f : Frame) : Frame := { f with stuck := f.stuck.map (WinEntry.forget hit) }
  { w with
    staging := w.staging.map fun e => if hit (e.lines.map fun l => (w.group, l)) e.reuse then { e with key := none } else e
    frame := clean w.frame
    saved := w.saved.map clean }

/-- A removal from the memo of every core (R166). -/
def forgetAll (hit : List (Nat × Nat) → Bool → Bool) (s : State) : State :=
  (s.mapCores (Core.forget hit)).mapWarps (Warp.forget hit)

/-- The shared results of global loads go from every core (R166, R167). -/
def forgetGlobal (s : State) : State := forgetAll (fun _ global => global) s

/-- A write to a line with a reuse-read mark first removes the global-load memo entries of every core of this device and
sends the removal to every other device that set the mark; then the mark is cleared (R167). Nothing happens here between
the removal and its acknowledgement. -/
def clearMark (line : Nat) (s : State) : State :=
  match amGet s.marks line with
  | none => s
  | some chips =>
    { forgetGlobal s with
      marks := amDel line s.marks
      out := s.out ++ (chips.filter (· ≠ s.node.chip)).map Output.removal }

/-- A line leaves its home slice: a dirty line is written to HBM, its reuse-read mark goes once every core's entries of
global loads have gone, and a host line is given up (R167, R218, R228, R358). -/
def evictLine (line : Nat) (s : State) : State :=
  let t := clearMark line s
  { t with
    hbm := amDel line t.hbm
    hostLines := t.hostLines.filter (· ≠ line)
    llc := t.llc.filter fun x => x.line != line }

/-- A load of reuse pages, from a device of the node, marks a line at its home slice (R167). -/
def markLine (chip line : Nat) (s : State) : State :=
  let old := (amGet s.marks line).getD []
  { s with marks := amPut line (if chip ∈ old then old else chip :: old) s.marks }

/-- The L1 copy of a line goes from the issuing core. -/
def dropCopy (line : Nat) (s : State) : State :=
  { s with core := { s.core with l1 := s.core.l1.filter fun c => c.line != line } }

/-- Lines leave their slices, one after another. -/
def evictLines (lines : List Nat) (s : State) : State := lines.foldl (fun t x => evictLine x t) s

/-- An access reaches a line at its home slice on this device (R13, R215, R218). A line of another chip, and a line of
carved storage, stands in no slice of this replacement. -/
def reachLine (v : Via) (line : Nat) (s : State) : State :=
  match homeDie v (line * 128 % 2 ^ 48) with
  | none => s
  | some d =>
    if line / 2 ^ 41 ≠ s.node.chip then s
    else
      let pa := line * 128 % 2 ^ 48
      let r := placeLine (s.waysOf d) v.cls
        { line := line, slice := homeSlice d pa, set := setIndex v pa, cls := v.cls.getD .normal } s.llc
      evictLines r.2 { s with llc := r.1 }

/-- The issuing core reads a line at its home: the core's own L1 copy, where there is one, is not what it read, and goes
(R216, R324, R327). -/
def reachRead (v : Via) (line : Nat) (s : State) : State := dropCopy line (reachLine v line s)

/-- The HBM image of a line is kept when the line becomes dirty at its home slice (R228, R360). -/
def markDirty (line : Nat) (s : State) : State :=
  if line / 2 ^ 41 = s.node.chip ∧ isHbm (line * 128 % 2 ^ 48) ∧ (amGet s.hbm line).isNone then
    { s with hbm := amPut line ((amGet s.epochs line).getD 0, s.read (line * 128) 128) s.hbm }
  else s

/-- The line comes under a key epoch: bytes of a line held under another epoch are unrelated bytes (R401). -/
def rekey (line epoch : Nat) (s : State) : State :=
  let old := (amGet s.epochs line).getD 0
  if old = epoch then s
  else
    { s with
      epochs := if epoch = 0 then amDel line s.epochs else amPut line epoch s.epochs
      mem := Memory.write s.mem (line * 128) (lanesOf (fun i => Config.garbled (line * 128 + i) s.free) ++
        (List.range 96).map fun i => Config.garbled (line * 128 + 32 + i) s.free)
      free := s.free + 1 }

/-- What a write does to one line before its bytes change. A write by physical address keeps the line's epoch. -/
def openLine (v : Via) (epoch : Option Nat) (line : Nat) (s : State) : State :=
  let s := markDirty line (clearMark line (reachLine v line s))
  touchLine (.mem line) (match epoch with | some e => rekey line e s | none => s)

/-- The line is poisoned (R404). -/
def State.badLine (s : State) : Line → Bool
  | .mem n => s.badLines.contains n
  | .scratch g n => s.badScratch.contains (g, n)
  | .tags _ => false

/-- Bytes of a poisoned line are written, from address lo up to hi of its space: a write of the whole line clears the
poison (R404). DESIGN CHOICE: the bytes that one step of the machine writes count as one write, so that the lanes of one
store clear it together: log entry 73. -/
def heal (ln : Line) (n lo hi : Nat) (s : State) : State :=
  if !(s.badLine ln) then s
  else
    let old := match s.healing.find? fun x => x.1 == ln && x.2.1 == s.clock with | some x => x.2.2 | none => []
    let now := (List.range 128).filter fun i => old.contains i || (decide (lo ≤ n * 128 + i) && decide (n * 128 + i < hi))
    let rest := s.healing.filter fun x => x.1 != ln
    if now.length = 128 then
      { s with
        healing := rest
        badLines := s.badLines.filter fun l => Line.mem l != ln
        badScratch := s.badScratch.filter fun l => Line.scratch l.1 l.2 != ln }
    else { s with healing := (ln, s.clock, now) :: rest }

/-- Bytes are written at their home (R322): the one operation through which the node's memory changes. -/
def writeHome (v : Via) (epoch : Option Nat) (a : Nat) (bs : List Byte) (s : State) : State :=
  let s := (linesOf a bs.length).foldl (fun t l => heal (.mem l) l a (a + bs.length) (openLine v epoch l t)) s
  { s with mem := Memory.write s.mem a bs }

/-- A write of the device's own, made for no job and with no class. -/
def performWrite (epoch : Option Nat) (a : Nat) (bs : List Byte) (s : State) : State := writeHome Via.device epoch a bs s

/-- Shared results of scratchpad loads that read a line go (R166). -/
def forgetScratch (g line : Nat) (s : State) : State := forgetAll (fun ls _ => ls.contains (g, line)) s

/-- Bytes are written to a group's scratchpad: the one operation through which it changes. -/
def scratchWrite (g a : Nat) (bs : List Byte) (s : State) : State :=
  let s := (linesOf a bs.length).foldl
    (fun t l => heal (.scratch g l) l a (a + bs.length) (touchLine (.scratch g l) (forgetScratch g l t))) s
  s.updGroup g fun x => { x with scratch := Memory.write x.scratch a bs }

/-- Bytes of a group's scratchpad. -/
def State.scratch (s : State) (g a n : Nat) : List Byte := Memory.read (s.groupOf g).scratch a n

/-- A write to a place. -/
def writeLoc (v : Via) (epoch : Option Nat) (l : Loc) (bs : List Byte) (s : State) : State :=
  match l with
  | .scratch g a => scratchWrite g a bs s
  | .mem a => writeHome v epoch a bs s

/-- A byte at a place. -/
def readLoc (s : State) : Loc → Byte
  | .scratch g a => Memory.get (s.groupOf g).scratch a
  | .mem a => Memory.get s.mem a

/-- The place i bytes on. -/
def Loc.plus : Loc → Nat → Loc
  | .scratch g a, i => .scratch g (a + i)
  | .mem a, i => .mem (a + i)

/-- The line of a place. -/
def Loc.line : Loc → Line
  | .scratch g a => .scratch g (lineOf a)
  | .mem a => .mem (lineOf a)

/-- A place of the node's memory as a translation gives it: the address and the key epoch it is accessed under; none
reads and keeps the epoch the line has (R401). -/
structure Spot where
  addr : Nat
  epoch : Option Nat
  deriving DecidableEq, Repr

/-- The byte at a place: unrelated bytes where the line was written under another key (R401). -/
def Spot.get (s : State) (p : Spot) : Byte :=
  match p.epoch with
  | some e =>
    if (amGet s.epochs (lineOf p.addr)).getD 0 = e then Memory.get s.mem p.addr else Config.garbled p.addr s.free
  | none => Memory.get s.mem p.addr

/-- A ring's header and descriptors reached through a map of addresses to places of the node's memory (R101). -/
structure Ring where
  base : Nat
  via : Via
  place : Nat → Option Spot

/-- n bytes at a ring's address, if every byte has a place. -/
def Ring.read (r : Ring) (s : State) (a n : Nat) : Option Nat :=
  ((List.range n).mapM fun i => (r.place (a + i)).map (Spot.get s)).map leNat

/-- Bytes written at places, byte by byte where they are not in one run. -/
def writeSpots (v : Via) (ps : List Spot) (bs : List Byte) (s : State) : State :=
  match ps with
  | [] => s
  | p :: _ =>
    if (ps.zipIdx.all fun x => x.1 == { p with addr := p.addr + x.2 }) then writeHome v p.epoch p.addr bs s
    else (ps.zip bs).foldl (fun t x => writeHome v x.1.epoch x.1.addr [x.2] t) s

/-- Bytes written at a ring's address, if every byte has a place (R408). -/
def Ring.write (r : Ring) (a : Nat) (bs : List Byte) (s : State) : Option State :=
  ((List.range bs.length).mapM fun i => r.place (a + i)).map fun ps => writeSpots r.via ps bs s

/-- What became of an append. -/
inductive Append where
  | done (s : State)
  | full (s : State)
  | lost

/-- A record is appended: written at ARRAY + size × (TAIL mod CAP), then TAIL (R101, R367, R380). A full ring adds 1 to
the saturating DROPPED word at 0x1C. -/
def ringAppend (r : Ring) (size : Nat) (bs : List Byte) (s : State) : Append :=
  match r.read s r.base 8, r.read s (r.base + 8) 8, r.read s (r.base + 16) 8, r.read s (r.base + 24) 4,
      r.read s (r.base + 28) 4 with
  | some head, some tail, some array, some cap, some dropped =>
    if cap ≤ (tail - head) % 2 ^ 64 then
      match r.write (r.base + 28) (leBytes 4 (min (dropped + 1) 0xFFFFFFFF)) s with
      | some t => .full t
      | none => .lost
    else
      match r.write (array + size * (tail % cap)) bs s with
      | none => .lost
      | some t =>
        match r.write (r.base + 8) (leBytes 8 (tail + 1)) t with
        | some u => .done u
        | none => .lost
  | _, _, _, _, _ => .lost

/-- A ring at a physical address of this device: it reaches the storage of the partition that owns it, and host memory
(R358, R408). -/
def physRing (s : State) (part base : Nat) : Ring :=
  let p := s.partOf part
  { base := base
    via := s.viaPart part
    place := fun a =>
      if inStorage p.dies p.carve a || isHost a then some { addr := memKey s.node.chip a, epoch := none } else none }

/-- The four words of an event's payload. -/
abbrev Payload := Nat × Nat × Nat × Nat

/-- The 32 bytes of an event record (R380). -/
def eventBytes (code job part tick : Nat) (p : Payload) : List Byte :=
  leBytes 4 (code + (job % 256) * 65536 + (part % 8) * 2 ^ 24) ++ leBytes 4 0 ++ leBytes 8 tick ++ leBytes 4 p.1 ++
    leBytes 4 p.2.1 ++ leBytes 4 p.2.2.1 ++ leBytes 4 p.2.2.2

/-- One event appended to a queue and its MSI-X vector signalled (R380). A queue register that reads 0 places no
queue: log entry 9. -/
def appendEvent (base code job : Nat) (p : Payload) (part : Nat) (s : State) : State :=
  if base = 0 then s
  else
    match ringAppend (physRing s part base) 32 (eventBytes code job part (s.partOf part).tick p) s with
    | .done t => { t with out := t.out ++ [.msix part code] }
    | .full t => { t with out := t.out ++ [.msix part code] }
    | .lost => s

/-- An event of the device goes to the queue or queues of R380. -/
def postEvent (code : Nat) (part job : Nat) (p : Payload) (s : State) : State :=
  let q := s.partOf part
  if code = 23 then appendEvent q.hevqbase.toNat code job p part s
  else
    let t := appendEvent q.evqbase.toNat code job p part s
    if code = 15 ∨ (16 ≤ code ∧ code ≤ 21) ∨ (24 ≤ code ∧ code ≤ 26) then appendEvent q.hevqbase.toNat code job p part t
    else t

end Sys2Proof.Machine
end

