-- ==== Sys2Proof/Machine/Walk.lean ====
section
/-!
DEFINITION. Translation: page-table entries, nested walks, effective attributes, ACCESSED and DIRTY, the dirty-page log
and the core's TLB (R229 to R239, R243, R408).
-/
namespace Sys2Proof.Machine

/-- What an access asks of a translation (R235). -/
structure Acc where
  read : Bool
  write : Bool
  exec : Bool
  slab : Bool
  deriving DecidableEq, Repr

/-- A read. -/
def accRead : Acc := { read := true, write := false, exec := false, slab := false }
/-- A write. -/
def accWrite : Acc := { read := false, write := true, exec := false, slab := false }
/-- An instruction fetch. -/
def accExec : Acc := { read := false, write := false, exec := true, slab := false }

/-- A translation failure: detail, stage and level (R235). -/
structure TFail where
  detail : Nat
  stage : Nat
  level : Nat
  deriving DecidableEq, Repr

/-- A leaf entry as a walk found it: its value, where it stands, its level and the bits of its page, and the addresses
of the entries the walk read, in the stage's own output space. -/
structure Found where
  entry : Nat
  place : Nat
  level : Nat
  bits : Nat
  path : List Nat := []
  deriving DecidableEq, Repr

/-- SB, the end of the global segment rounded up to a page (R209). -/
def Launch.stackBase (l : Launch) : Nat := (l.glimit + 4095) / 4096 * 4096

/-- The stack region of a launch holds an address (R210). -/
def Launch.inStacks (l : Launch) (va : Nat) : Bool :=
  decide (l.stackBase ≤ va) && decide (va < l.stackBase + l.groups * l.warps * 32 * l.stack)

/-- An address lies in the stack region of a live launch of a job that the access may not reach; own is the launch that
a handler-level access belongs to (R210). -/
def inForeignStack (s : State) (job : Nat) (own : Option Nat) (va : Nat) : Bool :=
  s.launches.any fun l => l.job == job && !l.done && l.inStacks va && some l.uid != own

/-- The launch whose stacks the issuing warp reaches by address: its own, at handler level. -/
def State.ownStacks (s : State) : Option Nat := if s.warp.level = .handler then some s.group.launch else none

/-- One level after another of a stage's tables, from the table at an address (R231, R232). rd reads the entry at an
address, for a level, and says where it stands. -/
def walkLevels (rd : Nat → Nat → Except TFail (Nat × Nat)) (stage va : Nat) : List Nat → Nat → Nat → Except TFail Found
  | [], _, _ => .error { detail := 3, stage := stage, level := 4 }
  | lvl :: rest, table, gran =>
    let shift := if lvl = 4 then (if gran = 1 then 16 else 12) else 48 - 9 * lvl
    let idx := va / 2 ^ shift % (if lvl = 4 ∧ gran = 1 then 32 else 512)
    match rd lvl (table + 8 * idx) with
    | .error f => .error f
    | .ok (e, place) =>
      if e % 2 = 0 then .error { detail := 1, stage := stage, level := lvl }
      else if bits e 3 1 = 0 then
        let g := bits e 4 4
        if lvl = 4 ∨ bits e 63 48 ≠ 0 ∨ bits e 7 5 ≠ 0 ∨ (g = 1 ∧ lvl ≠ 3) ∨ (g = 0 ∧ bits e 11 8 ≠ 0) then
          .error { detail := 3, stage := stage, level := lvl }
        else
          (walkLevels rd stage va rest (bits e 47 8 * 256) g).map fun h => { h with path := (table + 8 * idx) :: h.path }
      else .ok { entry := e, place := place, level := lvl, bits := shift, path := [table + 8 * idx] }

/-- Where an address lies inside its page. -/
def pageOffset (h : Found) (a : Nat) : Nat := a % 2 ^ h.bits

/-- The output address of a leaf. -/
def outputOf (h : Found) (a : Nat) : Nat := bits h.entry 47 12 * 4096 + pageOffset h a

/-- The storage of a job's partition, on this device or on the peer that holds the job, has an address (R408). -/
def storageHolds (s : State) (j : Job) (pa : Nat) : Bool :=
  if j.chip = s.node.chip then inStorage (s.partOf j.part).dies (s.partOf j.part).carve pa
  else
    match (s.peerOf j.chip).bind fun p => p.parts.find? fun q => q.1 == j.part with
    | some q => inStorage q.2.1 q.2.2 pa
    | none => true

/-- An access of a job performed on its own device at a physical address: the partition's storage or host memory
(R358, R408). -/
def reaches (s : State) (j : Job) (pa : Nat) : Bool := storageHolds s j pa || isHost pa

/-- The key epoch a local HBM line is accessed under; a bypass slot stores plaintext (R401). -/
def epochOf (s : State) (key : Nat) : Nat :=
  match s.keyOf key with
  | some k => if k.bypass then 0 else k.epoch
  | none => 0

/-- The epoch of an access to a physical address of a chip under a key slot: local HBM only. -/
def epochAt (s : State) (chip key pa : Nat) : Option Nat :=
  if chip = s.node.chip ∧ isHbm pa then some (epochOf s key) else none

/-- An output that a leaf of a job may not give: under a key slot that is empty or another partition's, or, on the job's
own chip, at an address that no storage of its partition has (R235, R401, R408). -/
def badOutput (s : State) (j : Job) (key aperture pa : Nat) : Bool :=
  (!(match s.keyOf key with | some k => k.owner == j.part | none => false) && !isHost pa) ||
    (aperture == j.chip && !(reaches s j pa))

/-- The checks of one leaf, in the order of R235: permission, form, REUSE, SLAB, aperture and key slot. out says that
this stage supplies aperture and key, for the access at its input address a; an output address on the device's own
aperture that names no storage of the partition counts as a malformed entry (R408). -/
def leafCheck (s : State) (j : Job) (acc : Acc) (stage : Nat) (out : Bool) (h : Found) (a : Nat) : Except TFail Unit :=
  let e := h.entry
  let fail (d : Nat) : Except TFail Unit := .error { detail := d, stage := stage, level := h.level }
  if (acc.read && bits e 1 1 == 0) || (acc.write && bits e 2 2 == 0) || (acc.exec && bits e 3 3 == 0) then fail 2
  else if h.level = 1 ∨ bits e 63 61 ≠ 0 ∨ bits e 5 4 = 3 ∨ (bits e 47 12 * 4096) % 2 ^ h.bits ≠ 0 ∨
      (!out ∧ (bits e 60 52 ≠ 0 ∨ bits e 51 48 ≠ 0)) then fail 3
  else if out ∧ badOutput s j (bits e 60 52) (bits e 51 48) (outputOf h a) then fail 3
  else if acc.write && bits e 10 10 == 1 then fail 4
  else if acc.slab && bits e 11 11 == 0 then fail 5
  else if out ∧ s.node.size ≤ bits e 51 48 then fail 6
  else .ok ()

/-- A table entry read at a physical address of a job's own chip, for an entry of a stage and level (R236, R408). -/
def rdPhys (s : State) (j : Job) (stage lvl a : Nat) : Except TFail (Nat × Nat) :=
  if reaches s j a then .ok (s.readNat (memKey j.chip a) 8, memKey j.chip a)
  else .error { detail := 3, stage := stage, level := lvl }

/-- The stage-2 leaf of an intermediate address, from the root in force for the VM (R230, R231, R400). -/
def walk2 (s : State) (j : Job) (ia : Nat) : Except TFail Found :=
  walkLevels (rdPhys s j 2) 2 ia [1, 2, 3, 4]
    (if j.chip = s.node.chip then ((s.partOf j.part).vmlive.getD j.vm 0).toNat else j.root2) 0

/-- The cached stage-2 translation of a table address of a job, where there is one (R236). -/
def tableFind (s : State) (j : Job) (ia : Nat) : Option Found :=
  if j.chip = s.node.chip then
    (s.tableTlb.find? fun t => t.part == j.part && t.vm == j.vm && t.page == ia / 2 ^ t.bits * 2 ^ t.bits).map fun t =>
      { entry := t.entry, place := t.place, level := t.level, bits := t.bits }
  else none

/-- The stage-2 translation of a stage-1 table address: cached, or by a walk (R236). -/
def walkTable (s : State) (j : Job) (ia : Nat) : Except TFail Found :=
  match tableFind s j ia with
  | some h => .ok h
  | none => walk2 s j ia

/-- The stage-1 entry at a table address: the physical address itself without stage 2; under stage 2 the address that
stage 2 gives, on the chip and under the key of its leaf (R230, R231, R234). -/
def rdTable (s : State) (j : Job) (lvl a : Nat) : Except TFail (Nat × Nat) :=
  if j.s2 then
    match walkTable s j a with
    | .error f => .error f
    | .ok h =>
      match leafCheck s j accRead 2 true h a with
      | .error f => .error f
      | .ok _ =>
        let chip := bits h.entry 51 48
        let pa := outputOf h a
        let at_ (i : Nat) : Byte :=
          Spot.get s { addr := memKey chip (pa + i), epoch := epochAt s chip (bits h.entry 60 52) pa }
        .ok (leNat ((List.range 8).map at_), memKey chip pa)
  else rdPhys s j 1 lvl a

/-- Both stages of a translation: the stage-1 leaf and, where the job has one, the stage-2 leaf. -/
structure Walked where
  one : Found
  two : Option Found
  leaf : Leaf
  /-- intermediate address of the page -/
  inter : Nat
  deriving DecidableEq, Repr

/-- The effective attributes of a stage-1 leaf and, where there is one, a stage-2 leaf (R234). -/
def leafOf (va : Nat) (one : Found) (two : Option Found) : Leaf :=
  let t := two.getD one
  let e1 := one.entry
  let e2 := t.entry
  let b := min one.bits t.bits
  let pa := match two with
    | some h => outputOf h (outputOf one va)
    | none => outputOf one va
  let both (i : Nat) : Bool := bits e1 i i == 1 && bits e2 i i == 1
  let either (i : Nat) : Bool := bits e1 i i == 1 || bits e2 i i == 1
  { frame := pa - va % 2 ^ b, bits := b, aperture := bits e2 51 48, key := bits e2 60 52, slab := both 11,
    reuse := either 10, migrating := either 9, ratom := both 6, order := min (bits e1 5 4) (bits e2 5 4), exec := both 3,
    write := both 2, read := both 1, dirty := both 8 }

/-- The full walk of an access of a job (R230 to R235), on the job's own chip. -/
def walk (s : State) (j : Job) (va : Nat) (acc : Acc) : Except TFail Walked :=
  if 2 ^ 48 ≤ va then .error { detail := 3, stage := 1, level := 1 }
  else
    match walkLevels (rdTable s j) 1 va [1, 2, 3, 4] j.ptroot 0 with
    | .error f => .error f
    | .ok one =>
      match leafCheck s j acc 1 (!j.s2) one va with
      | .error f => .error f
      | .ok _ =>
        let ia := outputOf one va
        if j.s2 then
          match walk2 s j ia with
          | .error f => .error f
          | .ok two =>
            match leafCheck s j acc 2 true two ia with
            | .error f => .error f
            | .ok _ => .ok { one := one, two := some two, leaf := leafOf va one (some two), inter := ia }
        else .ok { one := one, two := none, leaf := leafOf va one none, inter := ia }

/-- A cached translation that serves an access: it grants what the access needs, and a write through it finds DIRTY
set and MIGRATING clear, for a write on a MIGRATING page walks again (R236, R237, R238). -/
def tlbServes (acc : Acc) (l : Leaf) : Bool :=
  (!acc.read || l.read) && (!acc.write || (l.write && l.dirty && !l.reuse && !l.migrating)) && (!acc.exec || l.exec) &&
    (!acc.slab || l.slab)

/-- The entry of a TLB that holds an address of a job (R236). -/
def tlbIn (tlb : List TlbEntry) (job va : Nat) : Option TlbEntry :=
  tlb.find? fun t => t.job == job && decide (t.page = va / 2 ^ t.leaf.bits * 2 ^ t.leaf.bits)

/-- The entry of the core's TLB that holds an address of a job (R236). -/
def tlbFind (c : Core) (job va : Nat) : Option TlbEntry := tlbIn c.tlb job va

/-- The shared TLB of a core's C-die (R12, R236). -/
def State.dieTlb (s : State) (core : Nat) : List TlbEntry := (amGet s.dieTlbs (core / 36)).getD []

/-- The cached translation that serves an access: of the core's TLB, else of its C-die's (R236). -/
def tlbServe (s : State) (job va : Nat) (acc : Acc) : Option TlbEntry :=
  match (tlbFind s.core job va).filter fun t => tlbServes acc t.leaf with
  | some t => some t
  | none => (tlbIn (s.dieTlb s.core.id) job va).filter fun t => tlbServes acc t.leaf

/-- The physical address of an address under its leaf. -/
def Leaf.phys (l : Leaf) (va : Nat) : Nat := l.frame + va % 2 ^ l.bits

/-- The level of a leaf entry whose page has these bits (R231). -/
def levelOfBits (b : Nat) : Nat := if b ≤ 16 then 4 else if b ≤ 21 then 3 else if b ≤ 30 then 2 else 1

/-- The effective translation of an access of a job: from the TLBs or by a walk (R236). A cached translation is held to
the key slots and the storage as they stand (R401, R408). -/
def translate (s : State) (j : Job) (va : Nat) (acc : Acc) : Except TFail Leaf :=
  if 2 ^ 48 ≤ va then .error { detail := 3, stage := 1, level := 1 }
  else
    match tlbServe s j.uid va acc with
    | some t =>
      if badOutput s j t.leaf.key t.leaf.aperture (t.leaf.phys va) then
        .error { detail := 3, stage := if j.s2 then 2 else 1, level := levelOfBits t.span2 }
      else .ok t.leaf
    | none => (walk s j va acc).map (·.leaf)

/-- A record of the dirty-page log for a stage-2 leaf (R243). -/
def dirtyRecord (vm ia : Nat) (h : Found) : Nat :=
  let size := if h.bits = 12 then 0 else if h.bits = 16 then 1 else if h.bits = 21 then 2 else 3
  vm * 2 ^ 56 + (ia / 2 ^ h.bits * 2 ^ h.bits) + size * 2 + 1

/-- The dirty-page log takes part in setting DIRTY in a stage-2 leaf (R243). The page of a peer's job goes to the log of
the peer's own partition. -/
def logDirty (j : Job) (ia : Nat) (h : Found) (s : State) : State :=
  let p := s.partOf j.part
  if !p.dlogOn ∨ p.logovf ∨ j.chip ≠ s.node.chip then s
  else
    match ringAppend (physRing s j.part p.dlogbase.toNat) 8 (leBytes 8 (dirtyRecord j.vm ia h)) s with
    | .done t => t
    | _ => postEvent 23 j.part j.jobno (j.vm, 0, 0, 0) (s.updPart j.part fun q => { q with logovf := true })

/-- ACCESSED, and DIRTY for a write, are set in a leaf at its home (R237). -/
def setLeaf (j : Job) (write stage2 : Bool) (ia : Nat) (h : Found) (s : State) : State :=
  let e := h.entry ||| 0x80 ||| (if write then 0x100 else 0)
  if e = h.entry then s
  else
    let s := if write ∧ stage2 ∧ bits h.entry 8 8 = 0 then logDirty j ia h s else s
    writeHome (s.viaOf j none) none h.place (leBytes 8 e) s

/-- A core's TLB of 256 entries takes a translation; the oldest leaves (R236). -/
def Core.addTlb (t : TlbEntry) (c : Core) : Core := { c with tlb := (t :: c.tlb).take 256 }

/-- A C-die's shared TLB of 8192 entries takes a translation; the oldest leaves (R236). -/
def addDieTlb (die : Nat) (t : TlbEntry) (s : State) : State :=
  { s with dieTlbs := amPut die ((t :: (amGet s.dieTlbs die).getD []).take 8192) s.dieTlbs }

/-- The stage-2 translations of the table addresses a walk used are cached (R236). -/
def addTables (j : Job) (w : Walked) (s : State) : State :=
  if !j.s2 ∨ j.chip ≠ s.node.chip then s
  else
    w.one.path.foldl (fun t a =>
      match tableFind t j a, walk2 t j a with
      | none, .ok h =>
        let e : TableEntry := { part := j.part, vm := j.vm, page := a / 2 ^ h.bits * 2 ^ h.bits, bits := h.bits
                                entry := h.entry, place := h.place, level := h.level }
        { t with tableTlb := e :: t.tableTlb }
      | _, _ => t) s

/-- ACCESSED and DIRTY are set in the leaves of a walk (R237). -/
def setLeaves (j : Job) (write : Bool) (w : Walked) (s : State) : State :=
  let s := setLeaf j write false 0 w.one s
  match w.two with
  | some h => setLeaf j write true w.inter h s
  | none => s

/-- The device's own access through a job's translation sets the bits of its leaves (R237). -/
def touchPage (j : Job) (va : Nat) (acc : Acc) (s : State) : State :=
  match walk s j va acc with
  | .error _ => s
  | .ok w => setLeaves j acc.write w s

/-- The cached form of a walk's result for an address; a write leaves DIRTY set (R236, R237). -/
def tlbEntryOf (j : Job) (va : Nat) (write : Bool) (w : Walked) : TlbEntry :=
  let l := { w.leaf with dirty := w.leaf.dirty || write }
  { job := j.uid, page := va / 2 ^ l.bits * 2 ^ l.bits, inter := w.inter / 2 ^ l.bits * 2 ^ l.bits, span1 := w.one.bits
    span2 := (w.two.getD w.one).bits, vm := j.vm, leaf := l }

/-- The result of a walk is installed in a core's TLB and its C-die's, with the table translations it used (R236). -/
def install (j : Job) (va : Nat) (write : Bool) (w : Walked) (core : Nat) (s : State) : State :=
  addTables j w (addDieTlb (core / 36) (tlbEntryOf j va write w) (s.updCore core (Core.addTlb (tlbEntryOf j va write w))))

/-- The translation of an access that is performed is used: bits are set and the TLBs hold it; one that the C-die's TLB
gave enters the core's (R236, R237). -/
def useTranslation (j : Job) (va : Nat) (acc : Acc) (s : State) : State :=
  match (tlbFind s.core j.uid va).filter fun t => tlbServes acc t.leaf, tlbServe s j.uid va acc with
  | some _, _ => s
  | none, some t => { s with core := s.core.addTlb t }
  | none, none =>
    match walk s j va acc with
    | .error _ => s
    | .ok w => install j va acc.write w s.core.id (setLeaves j acc.write w s)

/-- The epoch that applies to an access through a leaf: local HBM only. -/
def epochFor (s : State) (lf : Leaf) (va : Nat) : Option Nat := epochAt s lf.aperture lf.key (lf.phys va)

/-- A byte of the node's memory under a leaf: unrelated under another key (R401). -/
def homeByte (s : State) (lf : Leaf) (va a : Nat) : Byte := Spot.get s { addr := a, epoch := epochFor s lf va }

/-- A job's virtual address as a place of the node's memory, for the device's own accesses, with the failure. -/
def virtPlace (s : State) (j : Job) (acc : Acc) (va : Nat) : Except TFail (Spot × Leaf) :=
  (walk s j va acc).map fun w =>
    ({ addr := memKey w.leaf.aperture (w.leaf.phys va), epoch := epochFor s w.leaf va }, w.leaf)

/-- A ring at a virtual address of a job, outside the job's stack regions (R210). -/
def virtRing (s : State) (j : Job) (acc : Acc) (base : Nat) : Ring :=
  { base := base
    via := s.viaOf j none
    place := fun a =>
      if inForeignStack s j.uid none a then none
      else match virtPlace s j acc a with | .ok p => some p.1 | .error _ => none }

end Sys2Proof.Machine
end

