-- ==== Sys2Proof/Machine/Writes.lean ====
section
/-!
DEFINITION. Writes on their way to their homes: the writes of a core in flight and in its write-combining buffer as
their lane sees them, as they are performed, lost and drained (R203, R221, R322, R324, R331 to R333), and the copies of
lines a core holds (R216, R217).
-/
namespace Sys2Proof.Machine

/-- The word an atomic operation writes from old x and operand y, with its flags (R313). -/
def atomOp (op : Nat) (x y : Word) : Word × Flags :=
  let fp (r : Nat × Flags) : Word × Flags := (BitVec.ofNat 32 r.1, r.2)
  match op with
  | 1 => (x + y, 0)
  | 2 => fp (addK 8 x.toNat y.toNat)
  | 3 => (if x.slt y then x else y, 0)
  | 4 => (if x.ult y then x else y, 0)
  | 5 => (if x.slt y then y else x, 0)
  | 6 => (if x.ult y then y else x, 0)
  | 7 => fp (minMax32 false x.toNat y.toNat)
  | 8 => fp (minMax32 true x.toNat y.toNat)
  | 9 => (x &&& y, 0)
  | 10 => (x ||| y, 0)
  | 11 => (x ^^^ y, 0)
  | _ => (y, 0)

/-- A word of little-endian bytes. -/
def wordOfList (bs : List Byte) : Word := BitVec.ofNat 32 (leNat bs)

/-- A peer counts as failed for the issuing warp's partition (R333, R353). -/
def State.failedPeer (s : State) (chip : Nat) : Bool := s.part.failed.getLsbD chip

/-- A peer does not answer. -/
def State.silentPeer (s : State) (chip : Nat) : Bool := ((s.peerOf chip).map (·.silent)).getD false

/-- The copy of a line in a cache list. -/
def copyOf (cs : List LineCopy) (line : Nat) : Option LineCopy := cs.find? fun c => c.line == line

/-- The lane has accessed the line since its copy was filled. -/
def sawLine (who : Nat × Nat) (cs : List LineCopy) (line : Nat) : List LineCopy :=
  cs.map fun c => if c.line = line then { c with seen := who :: c.seen.filter (· ≠ who) } else c

/-- The tag of a job's line in the constant cache, by virtual address (R217). -/
def constLine (job va : Nat) : Nat := job * 2 ^ 41 + va / 128

/-- A lane's own access to a place is marked at the core's copy of its line. -/
def sawPlace (who : Nat × Nat) (l : Loc) (s : State) : State :=
  match l with
  | .mem a => { s with core := { s.core with l1 := sawLine who s.core.l1 (lineOf a) } }
  | .scratch _ _ => s

/-- A copy of a line takes bytes stored by the issuing core (R216). -/
def patchCopies (a : Nat) (bs : List Byte) (cs : List LineCopy) : List LineCopy :=
  cs.map fun c =>
    { c with bytes := c.bytes.zipIdx.map fun b =>
        if a ≤ c.line * 128 + b.2 ∧ c.line * 128 + b.2 < a + bs.length then bs.getD (c.line * 128 + b.2 - a) 0 else b.1 }

/-- The core's own copy of a line takes bytes written at its home. -/
def patchPlace (l : Loc) (bs : List Byte) (s : State) : State :=
  match l with
  | .mem a => { s with core := { s.core with l1 := patchCopies a bs s.core.l1 } }
  | .scratch _ _ => s

/-- How far a place lies past another of the same space, where it does. -/
def Loc.after : Loc → Loc → Option Nat
  | .scratch g a, .scratch h b => if g = h ∧ b ≤ a then some (a - b) else none
  | .mem a, .mem b => if b ≤ a then some (a - b) else none
  | _, _ => none

/-- A write in flight covers a place. -/
def PWrite.covers (e : PWrite) (x : Loc) : Bool :=
  match x.after e.loc with
  | some i => decide (i < e.bytes.length)
  | none => false

/-- The bytes a write in flight leaves over a view of memory. -/
def PWrite.result (e : PWrite) (v : Loc → Byte) : List Byte :=
  match e.op with
  | none => e.bytes
  | some op =>
    leBytes 4 (atomOp op (wordOfList ((List.range 4).map fun i => v (e.loc.plus i))) (wordOfList e.bytes)).1.toNat

/-- A write in flight seen over a view of memory. -/
def PWrite.over (e : PWrite) (v : Loc → Byte) : Loc → Byte := fun x =>
  match x.after e.loc with
  | some i => if i < e.bytes.length then (e.result v).getD i 0 else v x
  | none => v x

/-- A view of memory as a lane of the issuing warp sees it: its own writes in flight, those of its warp that a FENCEW has
passed and those of its group that are released to it, in order, and over the bytes of an instruction's own write those
that a higher lane of the same instruction writes there (R204, R221, R324, R327). -/
def State.ownView (s : State) (l : Nat) (base : Loc → Byte) : Loc → Byte :=
  s.core.pend.foldl (fun v e =>
    if e.warp ≠ s.warp.uid then (if 2 ≤ e.shown ∧ e.group = s.group.uid then e.over v else v)
    else if e.lane = l ∨ 1 ≤ e.shown then e.over v
    else if l < e.lane then
      fun x =>
        if s.core.pend.any fun o => o.warp == e.warp && o.lane == l && o.step == e.step && o.covers x then e.over v x
        else v x
    else v) base

/-- A write in flight is performed at its home; the core's own copy of the line takes its bytes (R216, R322). -/
def PWrite.perform (e : PWrite) (s : State) : State :=
  let bs := e.result (readLoc s)
  patchPlace e.loc bs (writeLoc e.via e.epoch e.loc bs s)

/-- The home of a write in flight is on this device. -/
def PWrite.isLocal (s : State) (e : PWrite) : Bool :=
  match e.loc with
  | .mem a => a / 2 ^ 48 == s.node.chip
  | .scratch _ _ => true

/-- The peer a write in flight goes to. -/
def PWrite.chip (e : PWrite) : Nat :=
  match e.loc with
  | .mem a => a / 2 ^ 48
  | .scratch _ _ => 0

/-- A write of a warp to a peer is declared lost: the lost mask's bit, and a lost-write event (R333). -/
def loseWrite (uid chip : Nat) (s : State) : State :=
  let w := s.warpOf uid
  let g := s.groupOf w.group
  let j := s.jobOf g.job
  postEvent 12 j.part j.jobno (g.number, w.id, chip, 0)
    (s.updWarp uid fun x => { x with lost := x.lost ||| BitVec.twoPow 16 chip })

/-- A write to a peer leaves the write-combining buffer: performed, in flight while the peer is silent, or lost where the
peer has failed for the partition it was issued in. -/
def sendWrite (e : PWrite) (s : State) : State :=
  if (s.partOf e.part).failed.getLsbD e.chip then loseWrite e.warp e.chip s
  else if s.silentPeer e.chip then
    { s with core := { s.core with pend := s.core.pend ++ [{ e with buffered := false }] } }
  else e.perform s

/-- A write has left for a peer that does not answer; it keeps its place until the peer answers (R332). -/
def PWrite.away (s : State) (e : PWrite) : Bool := !(e.isLocal s) && !e.buffered && s.silentPeer e.chip

/-- The writes in flight of the issuing core that satisfy a test are sent on, in order. -/
def drainWhere (f : PWrite → Bool) (s : State) : State :=
  let go (e : PWrite) : Bool := f e && !(e.away s)
  (s.core.pend.filter go).foldl (fun t e => if e.isLocal s then e.perform t else sendWrite e t)
    { s with core := { s.core with pend := s.core.pend.filter fun e => !(go e) } }

/-- The same for every core that has left its reset state. -/
def drainCores (f : PWrite → Bool) (s : State) : State :=
  ((s.cores.filter fun c => c.pend.any f).foldl (fun t c => (drainWhere f (t.focusCore c.id)).focusCore s.core.id)
    (drainWhere f s))

/-- A peer answers again: the writes that have left for it are performed in the order in which they left (R332, R356). -/
def peerAnswers (chip : Nat) (s : State) : State :=
  drainCores (fun e => !(e.isLocal s) && !e.buffered && e.chip == chip) s

/-- Everything held for a line leaves first, so that same-address order holds (R316, R324). -/
def drainLine (line : Line) (s : State) : State := drainWhere (fun e => e.loc.line == line) s

/-- Writes on their way that satisfy a test are shown to more readers (R204, R327). -/
def showWrites (n : Nat) (f : PWrite → Bool) (s : State) : State :=
  { s with core := { s.core with pend := s.core.pend.map fun e => if f e then { e with shown := max n e.shown } else e } }

/-- Every lane of the issuing warp reads the warp's writes that are still on their way: they are performed with respect
to each of them (R204). -/
def widenOwn (s : State) : State := showWrites 1 (fun e => e.warp == s.warp.uid) s

/-- A write of the issuing warp that a halt writes back: its home is on this device, or it reaches the launch's stacks
(R143, R210). -/
def PWrite.homeward (s : State) (e : PWrite) : Bool := e.warp == s.warp.uid && (e.isLocal s || e.stack)

/-- The issuing warp's writes in flight to homes on this device are performed, and its writes to the stacks sent on. -/
def drainOwn (s : State) : State := drainWhere (PWrite.homeward s) s

/-- The distinct values of a list, in order of first appearance. -/
def distinct {α : Type} [DecidableEq α] (xs : List α) : List α :=
  xs.foldl (fun acc x => if x ∈ acc then acc else acc ++ [x]) []

/-- The lines the write-combining buffer holds, oldest first. -/
def bufferedLines (c : Core) : List Line := distinct ((c.pend.filter (·.buffered)).map fun e => e.loc.line)

/-- A write enters the write-combining buffer (R331). -/
def bufferWrite (e : PWrite) (s : State) : State :=
  { s with core := { s.core with pend := s.core.pend ++ [{ e with buffered := true }] } }

/-- The stores of the write-combining buffer write every byte of a line. -/
def lineFull (c : Core) (line : Line) : Bool :=
  let mine := c.pend.filter fun x => x.buffered && x.loc.line == line && x.op.isNone
  match line with
  | .mem n => (List.range 128).all fun i => mine.any fun x => x.covers (.mem (n * 128 + i))
  | _ => false

/-- After an instruction's writes have gathered, full lines drain, and past 32 lines the oldest (R331). -/
def drainFull (s : State) : State :=
  let s := ((bufferedLines s.core).filter (lineFull s.core)).foldl (fun t l => drainLine l t) s
  ((bufferedLines s.core).take ((bufferedLines s.core).length - 32)).foldl (fun t l => drainLine l t) s

end Sys2Proof.Machine
end

