-- ==== Sys2Proof/Machine/Ops.lean ====
section
/-!
DEFINITION. The operations that instructions share: aborting a transaction (R269 to R271), the fault record, taking an
exception (R361 to R366), the launch's fault log and a group's engine-fault log (R365, R367), the return from the
handler (R371), and the order in which a word is checked (R50).
-/
namespace Sys2Proof.Machine

/-- What a step answers. -/
abbrev Out := Host.Outcome State Fault Refusal

/-- Transaction status word (R270). -/
def Tx.status (t : Tx) : Word :=
  BitVec.ofNat 32 (t.user * 2 ^ 24 + t.conflicts * 2 ^ 16 + t.altNo * 2 ^ 8 + (if t.active then 0x80 else 0) + t.cause)

/-- The transaction state after an abort: buffer, sets, deferred effects and alternatives are gone. After CONFLICT the
run goes on and the warp backs off; any other cause ends the run (R269 to R271). -/
def Tx.aborted (cause user now : Nat) (t : Tx) : Tx :=
  let n := if cause = 1 then min (t.conflicts + 1) 255 else 0
  { t with
    cause := cause
    active := false
    conflicts := n
    user := if cause = 6 then user else 0
    run := if cause = 1 then some t.txb else Option.none
    rset := []
    wset := []
    writes := []
    homes := []
    clears := []
    scope := 0
    alts := []
    pending := false
    backoff := if cause = 1 then some (now + 64 * 2 ^ min (n - 1) 7) else Option.none }

/-- An abort: a CONFLICT decided at a home and not yet delivered is taken instead of any other cause (R267); every live
lane goes to the abort target (R269). What its instruction was waiting for is over. -/
def abortTx (cause user : Nat) (s : State) : State :=
  ({ s with warp := { s.warp with hold := Hold.none } } : State).updFrame fun f =>
    let c := if f.tx.pending then 1 else cause
    { f with
      tx := f.tx.aborted c user s.core.cycle
      parked := []
      pcs := lanesOf fun l => if f.live.getLsbD l then f.tx.target else f.pcs.getD l 0 }

/-- What a fault reports (R361). lanes is none for the active lanes of the instruction. -/
structure Exc where
  cls : Nat
  detail : Nat
  addr : DWord := 0
  aux : Word := 0
  req : Nat := 0
  handle : Word := 0
  tc0 : Word := 0
  tc1 : Word := 0
  i2 : Word := 0
  bitoff : Word := 0
  seam : Nat := 0
  word : Option Word := none
  lanes : Option Word := none
  deriving DecidableEq, Repr

/-- A fault of a class with its detail, address and auxiliary word. -/
def exc (cls detail : Nat) (addr : Nat := 0) (aux : Nat := 0) : Exc :=
  { cls := cls, detail := detail, addr := BitVec.ofNat 64 addr, aux := BitVec.ofNat 32 aux }

/-- An illegal-instruction fault, which the word alone raises. -/
def excIllegal (detail : Nat) (s : State) : Exc := { exc 1 detail with lanes := some s.lanes }

/-- Why an instruction does not take its effect: a fault, an abort of the transaction, or a wait: it does not retire,
and its warp executes it again. -/
inductive Stop where
  | fault (e : Exc)
  | abort (cause : Nat) (user : Nat)
  | hold (t : State)
  deriving DecidableEq, Repr

/-- CTL, word 0 of a fault record (R362). -/
def ctlWord (nested txabort async : Bool) (req : Nat) (level : Level) (detail cls : Nat) : Word :=
  BitVec.ofNat 32 (2 ^ 31 + (if nested then 2 ^ 30 else 0) + (if txabort then 2 ^ 29 else 0) +
    (if async then 2 ^ 28 else 0) + req * 2 ^ 26 + level.rank * 2 ^ 24 + detail % 65536 * 256 + cls)

/-- The words of a fault record in order (R362). -/
def FaultRec.words (r : FaultRec) : List Word :=
  [r.ctl, r.lanes, r.fpc, r.rpc, r.addrLo, r.addrHi, r.handle, r.tc0, r.tc1, r.i2, r.bitoff, r.eng, r.word, r.aux,
    r.who, r.core]

/-- The 64 bytes of a fault record in a launch's fault log (R367). -/
def FaultRec.bytes (r : FaultRec) : List Byte := r.words.flatMap fun w => leBytes 4 w.toNat

/-- WHO, word 14 (R362). -/
def whoWord (number warp : Nat) : Word := BitVec.ofNat 32 (number % 2 ^ 24 + warp % 32 * 2 ^ 24)

/-- The record of a fault of the issuing warp (R362). -/
def State.record (s : State) (word act : Word) (e : Exc) : FaultRec :=
  let tx := s.frame.tx
  { ctl := ctlWord (decide (s.warp.level = .handler)) tx.active false e.req s.warp.level e.detail e.cls
    lanes := e.lanes.getD act
    fpc := s.pc
    rpc := if tx.active then tx.target else if e.cls = 21 then s.pc + 4 else s.pc
    addrLo := e.addr.setWidth 32
    addrHi := (e.addr >>> 32).setWidth 32
    handle := e.handle
    tc0 := e.tc0
    tc1 := e.tc1
    i2 := e.i2
    bitoff := e.bitoff
    eng := BitVec.ofNat 32 (e.seam % 8)
    word := e.word.getD word
    aux := e.aux
    who := whoWord s.group.number s.warp.id
    core := BitVec.ofNat 32 s.core.id }

/-- The leaf of a page of a job through which a device write would go is MIGRATING (R238). -/
def migratesAt (s : State) (j : Job) (va : Nat) : Bool :=
  match walk s j va accWrite with
  | .ok w => w.leaf.migrating
  | .error _ => false

/-- The slot of a ring that the next record takes. -/
def Ring.slot (r : Ring) (size : Nat) (s : State) : Option Nat :=
  match r.read s (r.base + 8) 8, r.read s (r.base + 16) 8, r.read s (r.base + 24) 4 with
  | some tail, some array, some cap => some (array + size * (tail % cap))
  | _, _, _ => none

/-- A release at sys scope for a core: what it holds and has on its way is sent on; false while a peer owes an answer
(R327, R331). -/
def releaseCore (core : Nat) (s : State) : State × Bool :=
  let t := (drainWhere (fun _ => true) (s.focusCore core)).focusCore s.core.id
  (t, !((t.coreOf core).pend.any fun e => !(e.isLocal t)))

/-- The fault-log event of a record; lost says that the record was not written (R367). -/
def logEvent (x : LateLog) (lost : Nat) (s : State) : State :=
  let j := s.jobOf x.job
  postEvent 1 j.part j.jobno (x.ring % 2 ^ 32, x.ring / 2 ^ 32, x.record.ctl.toNat % 256 + lost * 2 ^ 16, x.number) s

/-- A record that cannot be written is counted in DROPPED, where that word can be (R367). -/
def loseRecord (x : LateLog) (s : State) : State :=
  let j := s.jobOf x.job
  let ring := virtRing s j accWrite x.ring
  if migratesAt s j x.ring then s
  else
    match ring.read s (x.ring + 28) 4 with
    | some n => (ring.write (x.ring + 28) (leBytes 4 (min (n + 1) 0xFFFFFFFF)) (touchPage j x.ring accWrite s)).getD s
    | none => s

/-- A record is appended to its log, or found to be lost: true. It waits, false, while what the append releases is not
performed everywhere, or while a page it writes is MIGRATING, up to 20 000 cycles (R237, R238, R367). -/
def tryLog (x : LateLog) (s : State) : State × Bool :=
  if x.ring = 0 then (logEvent x 1 s, true)
  else
    let r := releaseCore x.core s
    let j := s.jobOf x.job
    let ring := virtRing r.1 j accWrite x.ring
    let slot := (ring.slot 64 r.1).getD x.ring
    if !r.2 then (r.1, false)
    else if migratesAt r.1 j x.ring || migratesAt r.1 j slot then
      if x.since + 20000 ≤ (s.coreOf x.core).cycle then (logEvent x 1 (loseRecord x r.1), true) else (r.1, false)
    else
      match ringAppend ring 64 x.record.bytes (touchPage j slot accWrite (touchPage j x.ring accWrite r.1)) with
      | .done t => (logEvent x 0 t, true)
      | .full t => (logEvent x 1 t, true)
      | .lost => (logEvent x 1 (loseRecord x r.1), true)

/-- The records that wait are tried again, oldest first; one that still waits holds back the later ones of its log. -/
def retryLogs (s : State) : State :=
  s.lateLogs.foldl (fun t x =>
    if t.lateLogs.any fun y => y.ring == x.ring && y.job == x.job then { t with lateLogs := t.lateLogs ++ [x] }
    else
      match tryLog x t with
      | (u, true) => u
      | (u, false) => { u with lateLogs := u.lateLogs ++ [x] }) { s with lateLogs := [] }

/-- A record goes to a group's launch's fault log, and a fault-log event is posted; with no log, a full ring or a log
that cannot be written, the event marks that the record was not written (R367). The group counts as faulted. -/
def logRecord (uid : Nat) (r : FaultRec) (s : State) : State :=
  let g := s.groupOf uid
  let x : LateLog := { job := g.job, ring := (s.launchOf g.launch).faultRec, number := g.number, core := g.core
                       since := (s.coreOf g.core).cycle, record := r }
  retryLogs { s.updGroup uid (fun y => { y with faulted := true }) with lateLogs := s.lateLogs ++ [x] }

/-- The handler image is valid (R400). -/
def State.handlerValid (s : State) : Bool := s.part.hbase.getLsbD 0

/-- The frame a warp starts at handler level with; warp is its number in the launch (R67, R363). -/
def handlerFrame (seed : Word) (warp : Nat) (f : Frame) : Frame :=
  { Frame.start with
    live := BitVec.allOnes 32
    rs := lanesOf fun l => rsSeed seed warp l
    segs := f.segs
    stklim := 1024 }

/-- An encoder gives up the index entries it was rewriting: PENDING is cleared and nothing else has changed (R306). -/
def dropRewrites (agent : Nat) (s : State) : State :=
  (s.rewrites.filter fun r => r.2 == agent).foldl (fun t r =>
    { writeHome (t.viaOf t.job none) none r.1 (leBytes 8 (t.readNat r.1 8 - (if (t.readNat r.1 8).testBit 1 then 2 else 0))) t with
      rewrites := t.rewrites.filter (· ≠ r) }) s

/-- The sharding entries that a warp's SHFENCE closed and has not written are opened again, unchanged (R240, R241). -/
def reopenEntries (s : State) : State :=
  let j := s.job
  { s with
    jobs := s.jobs.map fun x =>
      if x.part = j.part ∧ x.jobno = j.jobno ∧ !(s.failedPeer x.chip) then
        { x with closed := x.closed.filter fun k => !(s.warp.resharding.contains k) }
      else x
    warp := { s.warp with resharding := [] } }

/-- What an instruction that waited has begun is undone when it does not go on: a tile under rewriting, an entry being
changed (R241, R306). -/
def abandon (s : State) : State := reopenEntries (dropRewrites s.warp.uid s)

/-- Entry into the handler: the warp's stores in flight are written back, the record is written, the window is named, the
user state moves into the user frame, and the warp starts at offset 0 of the handler image (R143, R156, R210, R363). A
wait on a page or a peer is over. -/
def enterHandler (r : FaultRec) (s0 : State) : State :=
  let s := emptyWindow (drainOwn (abandon s0))
  { s with
    warp := { s.warp with
      fault := r
      hold := Hold.none
      saved := some s.warp.frame
      hbase := s.part.hbase &&& 0xFFFFFFFFFFFFF000
      frame := handlerFrame s.launch.seed (s.group.number * s.group.warps + s.warp.id) s.warp.frame
      level := .handler } }

/-- A nested fault: the record is written and appended to the launch's fault log, a wedged-warp event is posted, and the
warp is wedged (R366). -/
def wedge (r : FaultRec) (s0 : State) : State :=
  let s := abandon s0
  let r := { r with ctl := r.ctl ||| 0x40000000 }
  let t := logRecord s.group.uid r
    { s with warp := { s.warp with fault := r, run := .wedged, hold := Hold.none } }
  postEvent 2 s.job.part s.job.jobno (s.group.number, s.warp.id, r.ctl.toNat % 256, 0) t

/-- A record is taken by the issuing warp: into the handler, or nested (R363, R366). -/
def takeRecord (r : FaultRec) (s : State) : State :=
  if s.warp.level = .handler ∨ !s.handlerValid then wedge r s else enterHandler r s

/-- TAKING AN EXCEPTION: a fault of the issuing warp. A pending CONFLICT abort is taken instead (R267). Inside a
transaction the attempt aborts with cause FAULT, and the record's resume address is the abort target (R269). -/
def raise (word act : Word) (e : Exc) (s : State) : State :=
  if s.frame.tx.active && s.frame.tx.pending then abortTx 1 0 s
  else
    let r := s.record word act e
    takeRecord r (if s.frame.tx.active then abortTx 9 0 s else s)

/-- RETURN FROM THE HANDLER: the handler's writes reach their homes (R210), the user frame is restored, the lanes of
LANES that are still live resume at RPC, and VALID is cleared (R371). -/
def returnFromHandler (s0 : State) : State :=
  let s := drainOwn s0
  let f := s.warp.saved.getD s.warp.frame
  let w := s.warp
  { s with
    warp := { w with
      frame := { f with
        pcs := lanesOf fun l => if (w.fault.lanes &&& f.live).getLsbD l then w.fault.rpc else f.pcs.getD l 0 }
      saved := none
      level := if w.system then .system else .user
      fault := { w.fault with ctl := w.fault.ctl &&& 0x7FFFFFFF }
      window := []
      staging := [] } }

/-- An engine fault of a group: to the group's engine-fault log for its issuing warp, or to the launch's fault log when
that warp has ended, the group drains or the log is full (R365). -/
def engineFault (uid warp : Nat) (r : FaultRec) (s : State) : State :=
  let g := s.groupOf uid
  let gone := !(s.allWarps.any fun w => w.group == uid && w.id == warp && decide (w.run ≠ .ended))
  if gone ∨ g.status = .draining then logRecord uid r s
  else if 8 ≤ g.elog.length then
    logRecord uid r (s.updGroup uid fun x => { x with edropped := min (x.edropped + 1) 0xFFFFFFFF })
  else s.updGroup uid fun x => { x with elog := x.elog ++ [{ warp := warp, record := r }] }

/-- The record of an engine fault: ASYNC is set, LANES is 0, and FPC and RPC are written when the warp takes it
(R362, R365). -/
def engineRecord (g : Group) (warp engine tag : Nat) (e : Exc) : FaultRec :=
  { ctl := ctlWord false false true e.req .user e.detail e.cls
    lanes := 0
    fpc := 0
    rpc := 0
    addrLo := e.addr.setWidth 32
    addrHi := (e.addr >>> 32).setWidth 32
    handle := e.handle
    tc0 := e.tc0
    tc1 := e.tc1
    i2 := e.i2
    bitoff := e.bitoff
    eng := BitVec.ofNat 32 (e.seam % 8 + engine * 256 + tag * 65536)
    word := e.word.getD 0
    aux := e.aux
    who := whoWord g.number warp
    core := BitVec.ofNat 32 g.core }

/-- An instruction that stops: its fault is taken, or its transaction aborts. -/
def stop (word act : Word) (st : Stop) (s : State) : State :=
  match st with
  | .fault e => raise word act e s
  | .abort c u => abortTx c u s
  | .hold t => t

/-- The live lanes of the issuing warp hold one PC. -/
def State.together (s : State) : Bool :=
  match lanesIn s.frame.live with
  | [] => true
  | l :: ls => ls.all fun k => s.frame.pcs.getD k 0 == s.frame.pcs.getD l 0

/-- A regrouping that leaves the warp not converged aborts its transaction with DIVERGED (R267). -/
def settle (s : State) : State := if s.frame.tx.active && !s.together then abortTx 8 0 s else s

/-- The faults of a word before its own entry, in the order of R50: privilege, guard 0b1000, the other encoding faults.
DESIGN CHOICE: among the encoding faults of R50's step 4, which the rule does not order, a non-zero field or an illegal
operand (detail 4) goes before a misaligned pair or quad (detail 7): log entry 69. -/
def wordFault (i : Instr) (s : State) : Option Exc :=
  let need := levelNeeded i
  if s.warp.level.rank < need.1 then some { exc 2 need.2 with req := need.1, lanes := some s.lanes }
  else if guardOf i = 8 then some (excIllegal 3 s)
  else if !wellFormed i then some (excIllegal 4 s)
  else if !pairsOk i then some (excIllegal 7 s)
  else none

/-- A poisoned active operand raises a register-poison fault naming register and lane (R171). -/
def poisonFault (uses : List (Nat × Word)) (s : State) : Option Exc :=
  (poisonedUse uses s).map fun u => exc 18 0 0 (s.arch u.1 % 1024 + u.2 * 65536)

/-- What stops an instruction before its own entry: the word's faults, then R264 inside a transaction, then poison. -/
def prior (i : Instr) (act : Word) (s : State) : Option Stop :=
  match wordFault i s with
  | some e => some (.fault e)
  | none =>
    if s.frame.tx.active ∧ unsupported i ∧ act ≠ 0 then some (.abort 4 0)
    else (poisonFault (usesOf i act s) s).map .fault

/-- An instruction is executed on the lanes of the issuing stream for which its guard is true (R40, R50). -/
def insn (i : Instr) (s : State) (body : Word → Except Stop State) : Out :=
  let act := s.active (guardOf i)
  match prior i act s with
  | some st => .next (stop (wordOf i) act st s)
  | none =>
    match body act with
    | .error st => .next (stop (wordOf i) act st s)
    | .ok t => .next (settle t)

/-- An instruction that cannot fault past its word: its lanes' effect, then every lane of the stream moves on. -/
def plain (i : Instr) (s : State) (f : Word → State) : Out := insn i s fun act => .ok (f act).advance

/-- A fault from an entry. -/
def failWith {α : Type} (e : Exc) : Except Stop α := .error (.fault e)

/-- The first lane of a mask for which a check fails decides (R364). -/
def firstFail (m : Word) (chk : Nat → Option Exc) : Except Stop Unit :=
  match (lanesIn m).findSome? chk with
  | some e => failWith e
  | none => .ok ()

end Sys2Proof.Machine
end

