-- ==== Sys2Proof/Machine/Fetch.lean ====
section
/-!
DEFINITION. Fetching a word through the pages of the job (R137, R138), and the streams of a warp (R139, R140).
-/
namespace Sys2Proof.Machine

/-- The address of offset 0 of the issuing warp's code: CODE, or the handler image at handler level (R137, R363). -/
def State.codeBase (s : State) : Nat :=
  if s.warp.level = .handler then s.warp.hbase.toNat else s.launch.code

/-- The address of the word at an offset, formed in 64 bits. -/
def State.fetchAddr (s : State) (pc : Word) : Nat := (s.codeBase + pc.toNat) % 2 ^ 64

/-- The word at an address lies in a stack region that the warp may not reach (R210). -/
def foreignFetch (s : State) (pc : Word) : Bool := inForeignStack s s.group.job s.ownStacks (s.fetchAddr pc)

/-- The word at an offset, or the failure of its translation; a page must be valid and grant execute (R138). A stack
region gives no word (R210). DESIGN CHOICE: a fetch gives the word as its home holds it; that instruction caches and loop
buffers may give an older one, while a launch stores to its own code, is left out: log entry 75. -/
def fetchWord (s : State) (pc : Word) : Except TFail Word :=
  if foreignFetch s pc then .error { detail := 2, stage := 1, level := 4 }
  else
    (translate s s.job (s.fetchAddr pc) accExec).map fun l =>
      let a := s.fetchAddr pc
      BitVec.ofNat 32 (leNat ((List.range 4).map fun i => homeByte s l a (memKey l.aperture (l.phys a) + i)))

/-- The word at an offset is a WINB (R139). -/
def isWinb (s : State) (pc : Word) : Bool :=
  match fetchWord s pc with
  | .ok w => w.toNat / 2 ^ 25 == 0x32
  | .error _ => false

/-- The grouping of a warp's lanes: join address still set, broadcast stream and side streams (R139). -/
structure Streams where
  join : Option Word
  broadcast : Word
  sides : List Word
  deriving DecidableEq, Repr

/-- The lanes of a list as a mask. -/
def maskList (ls : List Nat) : Word := ls.foldl (fun m l => m ||| BitVec.twoPow 32 l) 0

/-- The PC held by the most lanes; ties go to the lowest PC. -/
def mostHeld (pcs : List Word) : Word :=
  ((distinct pcs).foldl (fun (b : Word × Nat) p =>
    let n := pcs.count p
    if b.2 < n ∨ (b.2 = n ∧ p.toNat < b.1.toNat) then (p, n) else b) (0, 0)).1

/-- The streams of candidate lanes. -/
def streamsOf (join : Option Word) (pc : Nat → Word) (cand : List Nat) : Streams :=
  let b := mostHeld (cand.map pc)
  { join := join
    broadcast := maskList (cand.filter fun l => pc l == b)
    sides := ((distinct (cand.map pc)).filter (· ≠ b)).map fun p => maskList (cand.filter fun l => pc l == p) }

/-- The regrouping of the issuing warp's lanes (R139). -/
def regroup (s : State) : Streams :=
  let f := s.frame
  let live := lanesIn f.live
  let pc (l : Nat) : Word := f.pcs.getD l 0
  let join :=
    match f.join with
    | some j => if live.all (fun l => pc l == j) || decide (f.joinAt + 4096 ≤ s.core.cycle) then none else some j
    | none => none
  let winb := (distinct (live.map pc)).filter (isWinb s)
  let agree := decide ((distinct (live.map pc)).length ≤ 1)
  let held (l : Nat) : Bool := winb.contains (pc l) && !agree
  let cand := live.filter fun l => !held l && join != some (pc l)
  if cand ≠ [] then streamsOf join pc cand
  else
    let cand := live.filter fun l => !held l
    if cand ≠ [] then streamsOf none pc cand
    else
      let low := winb.foldl (fun m p => if p.toNat < m.toNat then p else m) (winb.headD 0)
      streamsOf none pc (live.filter fun l => pc l == low)

/-- The warp is converged: its broadcast stream holds every live lane (R139). -/
def State.converged (s : State) : Bool := (regroup s).broadcast == s.frame.live

end Sys2Proof.Machine
end

