-- ==== Sys2Proof/Machine/Access.lean ====
section
/-!
DEFINITION. Accesses to memory by address: policy words, segments and stack regions (R205 to R214), translation of each
piece, transactions' read and write sets (R264 to R266), loads through the L1 and in-flight writes, stores, releases and
acquires (R216, R221, R324 to R334), and writes to peers (R331 to R333, R354, R355).
-/
namespace Sys2Proof.Machine

/-- SEG of a policy word (R213). -/
def polSeg (p : Word) : Nat := bits p.toNat 2 0
/-- ORDER. -/
def polOrder (p : Word) : Nat := bits p.toNat 5 3
/-- SCOPE. -/
def polScope (p : Word) : Nat := bits p.toNat 8 6
/-- REUSE. -/
def polReuse (p : Word) : Bool := p.getLsbD 9
/-- NT. -/
def polNt (p : Word) : Bool := p.getLsbD 10
/-- ATOP. -/
def polAtop (p : Word) : Nat := bits p.toNat 15 11

/-- What an instruction admits in its policy word (R214, R225, R314). -/
structure PolicyRule where
  segs : List Nat
  orders : List Nat
  atop : Nat → Bool

/-- The policy-word fault of a lane: the first row it breaks (R214). -/
def policyFault (r : PolicyRule) (p : Word) (l : Nat) : Option Exc :=
  if !r.segs.contains (polSeg p) then some (exc 8 1 0 l)
  else if !r.orders.contains (polOrder p) then some (exc 8 2 0 l)
  else if 6 ≤ polScope p then some (exc 8 3 0 l)
  else if !r.atop (polAtop p) then some (exc 8 4 0 l)
  else none

/-- Loads: segments 0 to 4, plain, acquire or volatile. -/
def loadRule : PolicyRule := { segs := [0, 1, 2, 3, 4], orders := [0, 1, 4], atop := fun n => n == 0 }
/-- Stores: segments 0 to 4, plain, release or volatile. -/
def storeRule : PolicyRule := { segs := [0, 1, 2, 3, 4], orders := [0, 2, 4], atop := fun n => n == 0 }

/-- Base and limit of a segment register of the issuing warp (R205). -/
def State.seg (s : State) (n : Nat) : DWord × DWord := s.frame.segs.getD n (0, 0)

/-- Virtual address of byte 0 of a lane's stack: R209, or the handler stack at handler level (R363). -/
def stackAddr (s : State) (l : Nat) : Nat :=
  if s.warp.level = .handler then
    s.part.hstack.toNat + ((s.core.id * 64 + s.warp.slot) * 32 + l) * 1024
  else
    s.launch.stackBase + ((s.group.number * s.group.warps + s.warp.id) * 32 + l) * s.launch.stack

/-- The virtual address of an offset in a segment. -/
def segVa (s : State) (l seg o : Nat) : Nat :=
  if seg = 4 then stackAddr s l + o else (s.seg seg).1.toNat + o

/-- The segment fault of an access of w bytes at an offset (R206, R207, R210). -/
def segFault (s : State) (l seg o w : Nat) (write : Bool) : Option Exc :=
  let bad (d : Nat) : Option Exc := some (exc 5 d o seg)
  let foreign := (List.range w).any fun i => inForeignStack s s.group.job s.ownStacks (segVa s l seg o + i)
  if seg = 4 then
    if s.frame.stklim.toNat < o + w then some (exc 6 2 o)
    else if s.warp.level = .handler ∧ foreign then bad 4
    else none
  else if seg = 3 ∧ write then bad 2
  else if (s.seg seg).2.toNat < (if seg = 0 ∨ seg = 3 then (s.seg seg).1.toNat else 0) + o + w then bad 1
  else if (seg = 0 ∨ seg = 3) ∧ foreign then bad 4
  else none

/-- An alignment fault naming the offset (R221). -/
def alignFault (o w : Nat) : Option Exc := if o % w = 0 then none else some (exc 4 0 o)

/-- A piece of an access inside one line: its place, length, virtual address and translation. -/
structure Piece where
  loc : Loc
  n : Nat
  va : Nat
  leaf : Option Leaf
  /-- the job whose pages it lies in, where that is not the issuing warp's own by the core's TLB -/
  through : Option Nat := none
  /-- translated through the core's TLB and its C-die's -/
  cached : Bool := true
  deriving DecidableEq, Repr

/-- n bytes from an address, split at line boundaries (R221). -/
def splitLines (a n : Nat) : List (Nat × Nat) :=
  (linesOf a n).map fun l =>
    let lo := max a (l * 128)
    (lo, min (a + n) (l * 128 + 128) - lo)

/-- The translation fault of a failure (R361). -/
def excXlate (f : TFail) (va : Nat) : Exc := exc 7 f.detail va ((f.stage - 1) * 256 + f.level * 512)

/-- One piece of a virtual access. -/
def pieceAt (s : State) (acc : Acc) (va n : Nat) : Except Stop Piece :=
  match translate s s.job va acc with
  | .error f => failWith (excXlate f va)
  | .ok lf => .ok { loc := .mem (memKey lf.aperture (lf.phys va)), n := n, va := va, leaf := some lf }

/-- The pieces of an access of w bytes at an offset of a segment; the register segment has none. -/
def piecesOf (s : State) (acc : Acc) (l seg o w : Nat) : Except Stop (List Piece) :=
  if seg = 1 then .ok ((splitLines o w).map fun p => { loc := .scratch s.group.uid p.1, n := p.2, va := p.1, leaf := none })
  else if seg = 2 then .ok []
  else (splitLines (segVa s l seg o) w).mapM fun p => pieceAt s acc p.1 p.2

/-- An access of one lane: its segment, offset, width, policy word and pieces. -/
structure LaneAcc where
  lane : Nat
  seg : Nat
  off : Nat
  w : Nat
  pol : Word
  pieces : List Piece
  deriving DecidableEq, Repr

/-- The chip a piece is homed on. -/
def Piece.chip (s : State) (p : Piece) : Nat := (p.leaf.map (·.aperture)).getD s.node.chip

/-- The piece is homed on another chip. -/
def Piece.remote (s : State) (p : Piece) : Bool := p.chip s != s.node.chip

/-- The fabric refusal of a message to a physical address of a peer (R355). -/
def refusalAt (s : State) (chip pa : Nat) : Option Nat :=
  match (s.peerOf chip).bind fun p => p.parts.find? fun q => q.1 == s.job.part with
  | none => some 1
  | some q => if inStorage q.2.1 q.2.2 pa then none else some 2

/-- The fabric-refusal fault of a piece (R355). -/
def refusalFault (s : State) (p : Piece) : Option Exc :=
  match p.leaf with
  | none => none
  | some lf =>
    if p.remote s ∧ !s.failedPeer lf.aperture then
      (refusalAt s lf.aperture (lf.phys p.va)).map fun d => exc 11 d 0 lf.aperture
    else none

/-- The peer-failure fault of a read or atomic to a failed peer; detail 2 once the request had left (R316, R333). -/
def failureFault (s : State) (p : Piece) : Option Exc :=
  if p.remote s ∧ s.failedPeer (p.chip s) then
    some (exc 10 (if p.chip s ∈ s.warp.hold.atPeer then 2 else 1) 0 (p.chip s))
  else none

/-- A request to a silent peer leaves the core when the crossbar accepts it: onto a link to the peer, or to the chip of a
detour in force, that is up with room in its retry buffer (R316, R352, R353). -/
def acceptsRequest (s : State) (chip : Nat) : Bool :=
  let hops := chip :: ((s.peerOf chip).bind (·.detour)).toList
  s.links.any fun k =>
    k.up && decide (k.retry.length < 256) &&
      (match s.node.ports.getD k.port none with | some q => hops.contains q.1 | none => false)

/-- The instruction does not retire: the warp waits, and executes it again. -/
def State.waits (s : State) : State := { s with warp := { s.warp with hold := { s.warp.hold with waiting := true } } }

/-- Requests of the instruction wait on silent peers; those the crossbar accepts have left (R316). atom says that they
are an atomic's. -/
def waitPeers (atom : Bool) (chips : List Nat) (s : State) : State :=
  { s with warp := { s.warp with hold := { s.warp.hold with
      waiting := true
      atPeer := distinct (s.warp.hold.atPeer ++ chips.filter (acceptsRequest s))
      atom := s.warp.hold.atom || atom } } }

/-- A request waits on a silent peer. -/
def waitPeer (chip : Nat) (s : State) : State := waitPeers false [chip] s

/-- The silent peers on which some piece is homed. -/
def silentHomes (s : State) (ps : List Piece) : List Nat :=
  distinct ((ps.filter fun p => p.remote s && !s.failedPeer (p.chip s) && s.silentPeer (p.chip s)).map (·.chip s))

-- Transactions

/-- Another attempt that is older than the issuing warp's (R266). -/
def olderTx (a b : Nat × Nat × Nat) : Bool :=
  decide (a.1 < b.1) || (a.1 == b.1 && (decide (a.2.1 < b.2.1) || (a.2.1 == b.2.1 && decide (a.2.2 < b.2.2))))

/-- Running attempts of other warps that hold a line against an access, write says the access writes. -/
def holders (ln : Line) (write : Bool) (s : State) : List Warp :=
  s.warps.filter fun w =>
    w.frame.tx.active && !w.frame.tx.pending &&
      (decide (ln ∈ w.frame.tx.wset) || (write && decide (ln ∈ w.frame.tx.rset)))

/-- A tracked access registers its line: capacity, then conflicts, which the older attempt wins (R265, R266). -/
def track (write : Bool) (ln : Line) (s : State) : Except Stop State :=
  let tx := s.frame.tx
  if (!write && !tx.rset.contains ln && decide (64 ≤ tx.rset.length)) then .error (.abort 2 0)
  else if (write && !tx.wset.contains ln && decide (32 ≤ tx.wset.length)) then .error (.abort 3 0)
  else
    let hs := holders ln write s
    if hs.any fun w => olderTx w.frame.tx.age tx.age then .error (.abort 1 0)
    else
      let lost : List Nat := hs.map (·.uid)
      let s : State := { s with warps := s.warps.map fun w : Warp =>
        if w.uid ∈ lost then { w with frame := { w.frame with tx := { w.frame.tx with pending := true } } } else w }
      .ok (s.updFrame fun f => { f with tx :=
        if write then { f.tx with wset := if ln ∈ f.tx.wset then f.tx.wset else ln :: f.tx.wset }
        else { f.tx with rset := if ln ∈ f.tx.rset then f.tx.rset else ln :: f.tx.rset } })

/-- Lines are registered one after another. -/
def trackAll (write : Bool) : List Line → State → Except Stop State
  | [], s => .ok s
  | ln :: rest, s =>
    match track write ln s with
    | .ok t => trackAll write rest t
    | .error e => .error e

/-- How a write through a piece reaches its home: the class of its line under a policy word, and the key epoch (R215,
R401). -/
def Piece.epoch (s : State) (p : Piece) : Option Nat := p.leaf.bind fun lf => epochFor s lf p.va

/-- How a lane's access under a policy word reaches a line's home slice: the class of T1 and T2, and keep for a global or
tensor load of a boosted group without the non-temporal bit (R154, R213, R215, R220). -/
def State.lineVia (s : State) (pol : Word) (load : Bool) (va : Nat) : Via :=
  s.viaOf s.job (some (if load && s.group.boost && !(polNt pol) && (polSeg pol == 0 || polSeg pol == 5) then .keep
    else evictClass (bits pol.toNat 23 16) (bits pol.toNat 31 24) va))

/-- Bytes enter the transaction's write buffer, at a place o bytes into a piece; how their line is reached and its key
wait with them (R215, R263, R401). -/
def txWrite (v : Via) (p : Piece) (o : Nat) (bs : List Byte) (s : State) : State :=
  s.updFrame fun f => { f with tx := { f.tx with
    writes := (bs.zipIdx.map fun b => (p.loc.plus (o + b.2), b.1)).reverse ++ f.tx.writes
    homes := match p.loc.plus o with
      | .mem a => (linesOf a bs.length).foldl (fun es l => amPut l (v, p.epoch s) es) f.tx.homes
      | .scratch _ _ => f.tx.homes } }

/-- The byte at a place under a piece's translation. -/
def pieceByte (s : State) (p : Piece) (i : Nat) : Byte :=
  match p.loc, p.leaf with
  | .mem a, some lf => homeByte s lf p.va (a + i)
  | l, _ => readLoc s (l.plus i)

/-- A byte as the transaction sees it: its own latest write, or the home's. -/
def txByte (s : State) (p : Piece) (i : Nat) : Byte :=
  match s.frame.tx.writes.find? fun w => w.1 == p.loc.plus i with
  | some w => w.2
  | none => pieceByte s p i

/-- A segment whose accesses a transaction tracks (R264). -/
def tracked (seg : Nat) : Bool := seg == 0 || seg == 1

/-- A piece lies in host memory (R358). -/
def Piece.host (s : State) (p : Piece) : Bool :=
  match p.leaf with
  | some lf => !p.remote s && isHost (lf.phys p.va)
  | none => false

/-- A piece of a tracked access that a transaction does not admit: on a UO page, under another chip's aperture, or in
host memory (R264, R358). -/
def Piece.txRefused (s : State) (p : Piece) : Bool :=
  p.host s || (match p.leaf with | some lf => lf.order == 2 || p.remote s | none => false)

/-- An access that a transaction does not admit: volatile, or of a piece it does not admit; any access to host memory
(R264, R358). -/
def txRefuses (s : State) (a : LaneAcc) : Bool :=
  (tracked a.seg && (polOrder a.pol == 4 || a.pieces.any (Piece.txRefused s))) || a.pieces.any (Piece.host s)

-- In-flight writes

/-- Every core's writes that the issuing warp has on their way, from the core it stands on and those it left. -/
def State.sent (s : State) : List PWrite :=
  (s.core :: s.cores).flatMap fun c => c.pend.filter fun e => e.warp == s.warp.uid

/-- The issuing warp made a write that is on its way, or may have observed it (R327). -/
def PWrite.observed (s : State) (e : PWrite) : Bool :=
  e.warp == s.warp.uid || (decide (2 ≤ e.shown) && e.group == s.group.uid) || decide (3 ≤ e.shown)

/-- A write to a peer that the issuing warp made or observed is not yet acknowledged. -/
def State.owed (s : State) : Bool :=
  (s.core :: s.cores).any fun c => c.pend.any fun e => !(e.isLocal s) && e.observed s

/-- Writes of the issuing core, of pages a test admits, are released at a scope below node: those to local homes are
performed at team or chip scope, and the warp's own and observed ones are shown that far (R327, R334). -/
def releaseNear (scope : Nat) (page : PWrite → Bool) (s : State) : State :=
  if scope ≤ 1 then showWrites (scope + 1) (fun e => e.observed s && page e) s
  else showWrites 3 (fun e => e.observed s && page e) (drainWhere (fun e => e.isLocal s && page e) s)

/-- What node or sys scope adds: the write-combining buffer drains, and the lines of others that hold writes the warp may
have observed (R331). -/
def releaseFar (s : State) : State :=
  drainCores (fun e => e.buffered && decide (3 ≤ e.shown)) (drainWhere (fun e => e.buffered) s)

/-- A release at a scope of the warp's writes and those it has observed, but for UO pages. False while a peer owes the
answer to one of them at node or sys scope (R325, R327, R331, R333). -/
def release (scope : Nat) (s : State) : State × Bool :=
  if 4 ≤ scope then
    let t := releaseFar (drainWhere (fun e => e.isLocal s && !e.uo) s)
    (t, !t.owed)
  else (releaseNear scope (fun e => !e.uo) s, true)

/-- A release that must be complete before the instruction goes on. -/
def releaseFirst (scope : Nat) (s : State) : Except Stop State :=
  match release scope s with
  | (t, true) => .ok t
  | (t, false) => .error (.hold t.waits)

/-- Order and scope have an effect on an access: not in the register and stack segments (R208, R209). -/
def LaneAcc.ordered (a : LaneAcc) : Bool := a.seg != 2 && a.seg != 4

/-- The order of a piece under a policy word that its page honours: none in the stack segment (R209), and on a UO page
acquire and release are plain (R325). -/
def pieceOrder (pol : Word) (p : Piece) : Nat :=
  if polSeg pol = 4 ∨ ((p.leaf.map (·.order)).getD 1 = 2 ∧ polOrder pol ≠ 4) then 0 else polOrder pol

/-- The piece lies in an SO page. -/
def Piece.so (p : Piece) : Bool := (p.leaf.map (·.order)).getD 1 == 0

/-- A lane's access is to an SO page or volatile (R325, R328). -/
def LaneAcc.strong (a : LaneAcc) : Bool := (a.ordered && polOrder a.pol == 4) || a.pieces.any Piece.so

/-- Some lane's SO or volatile access comes after such a write of the lane that a silent peer has not answered: the two
are performed in program order (R325, R328). -/
def strongWaits (as : List LaneAcc) (s : State) : Bool :=
  as.any fun a => a.strong && s.sent.any fun e => e.strong && e.lane == a.lane

/-- An acquire: what is released to this device and waits in a write-combining buffer is sent on, and L1 copies go (R216,
R327). Team scope needs it as well, since a team's groups stand on other cores. -/
def acquire (scope : Nat) (s : State) : State :=
  if 2 ≤ scope then
    let t := drainCores (fun e => e.buffered && decide (3 ≤ e.shown)) s
    { t with core := { t.core with l1 := [] } }
  else s

-- Reading and writing bytes

/-- The lines of L1 the core has room for (R128). -/
def l1Bytes (s : State) : Nat :=
  2097152 - s.core.poolSize * 128 -
    ((s.allGroups.filter fun g => g.core == s.core.id && (g.status == .resident || g.status == .draining)).map fun g =>
      (g.scratchLen + 4095) / 4096 * 4096 + g.warps * 6144).sum

/-- A load's piece read outside a transaction: the lane's own writes in flight over the home's bytes, or over an older
copy of the L1 where the lane has not accessed the line since the copy was filled (R216, R324), or of the constant
cache, which is tagged by virtual address (R211, R217). A load that no copy answers reaches the line's home slice and
fills the cache anew; a volatile one bypasses both (R328). -/
def readPiece (l : Nat) (pol : Word) (const : Bool) (p : Piece) (s : State) : List Byte × State :=
  match p.loc, p.leaf with
  | .scratch g a, _ =>
    ((List.range p.n).map fun i => s.ownView l (fun x => readLoc s x) (.scratch g (a + i)), s)
  | .mem a, none => (s.read a p.n, s)
  | .mem a, some lf =>
    let who := (s.warp.uid, l)
    let home (x : Nat) : Byte := homeByte s lf p.va x
    let line := lineOf a
    let kept := pieceOrder pol p != 4 && (const || (lf.order != 0 && !s.frame.tx.active))
    let tag := if const then constLine s.group.job p.va else line
    let old := if kept then copyOf (if const then s.core.ccache else s.core.l1) tag else none
    let hit := match old with
      | some c => !c.seen.contains who && Config.l1Stale s.free
      | none => false
    let base : Loc → Byte
      | .mem x => if hit then ((old.map (·.bytes)).getD []).getD (x - line * 128) 0 else home x
      | x => readLoc s x
    let bytes := (List.range p.n).map fun i => s.ownView l base (.mem (a + i))
    let fresh : LineCopy := { line := tag, bytes := (List.range 128).map fun i => home (line * 128 + i), seen := [who] }
    let t := if hit then s else reachRead (s.lineVia pol true p.va) line s
    let fill (cs : List LineCopy) : List LineCopy :=
      if hit then sawLine who cs tag
      else if kept && (const || !polNt pol) then fresh :: cs.filter fun c => c.line != tag
      else cs
    let core := if const then { t.core with ccache := (fill t.core.ccache).take 512 }
      else { t.core with l1 := (fill t.core.l1).take (l1Bytes s / 128) }
    (bytes, { t with core := core, free := t.free + (if old.isSome then 1 else 0) })

/-- Byte i of a piece lies in a poisoned line (R404). -/
def badByte (s : State) (p : Piece) (i : Nat) : Bool := s.badLine (p.loc.plus i).line

/-- A piece lies in a poisoned line (R404). -/
def badPiece (s : State) (p : Piece) : Bool := s.badLine p.loc.line

/-- A load of reuse pages marks the line at its home slice (R167). -/
def markReuse (pol : Word) (p : Piece) (s : State) : State :=
  match p.loc, p.leaf with
  | .mem a, some lf =>
    if lf.reuse && polReuse pol && polOrder pol != 4 then markLine s.node.chip (lineOf a) s else s
  | _, _ => s

/-- A line of host memory that an access reaches is held at its slice (R358). -/
def holdHost (p : Piece) (s : State) : State :=
  match p.loc, p.leaf with
  | .mem a, some lf =>
    if lf.aperture = s.node.chip ∧ isHost (lf.phys p.va) ∧ !(s.hostLines.contains (lineOf a)) then
      { s with hostLines := lineOf a :: s.hostLines }
    else s
  | _, _ => s

/-- An access that its home answers reaches the home slice of its line (R13, R218). -/
def reachPiece (v : Via) (p : Piece) (s : State) : State :=
  match p.loc with
  | .mem a => reachRead v (lineOf a) s
  | .scratch _ _ => s

/-- A piece's translation is used. -/
def usePiece (acc : Acc) (p : Piece) (s0 : State) : State :=
  let s := holdHost p s0
  match p.leaf, p.through with
  | some _, none => useTranslation s.job p.va acc s
  | some _, some j =>
    if p.cached then useTranslation (s.jobOf j) p.va acc s else touchPage (s.jobOf j) p.va acc s
  | none, _ => s

/-- The bytes a lane loads, which of them are poisoned, and the state after. A transaction reads at the home, where what
is on its way to the line arrives first. -/
def loadLane (a : LaneAcc) (s : State) : (List Byte × List Bool) × State :=
  a.pieces.foldl (fun r p =>
    let t := markReuse a.pol p (usePiece accRead p r.2)
    let q := if s.frame.tx.active && tracked a.seg then
        let u := drainLine p.loc.line t
        ((List.range p.n).map fun i => txByte u p i, reachPiece (u.lineVia a.pol true p.va) p u)
      else readPiece a.lane a.pol (a.seg == 3) p t
    ((r.1.1 ++ q.1, r.1.2 ++ (List.range p.n).map (badByte t p)), q.2)) (([], []), s)

/-- A write of a lane of the issuing warp through a piece, as it leaves the lane, without its bytes. -/
def State.newWrite (s : State) (l : Nat) (p : Piece) (pol : Word) : PWrite :=
  { warp := s.warp.uid, group := s.group.uid, part := s.job.part, lane := l, loc := p.loc, via := s.lineVia pol false p.va
    epoch := p.epoch s, bytes := [], op := none, buffered := false, strong := pieceOrder pol p == 4 || p.so
    uo := (p.leaf.map (·.order)).getD 1 == 2, stack := s.launch.inStacks p.va && p.leaf.isSome, shown := 0
    step := s.clock, since := s.core.cycle }

/-- A piece of a store is performed, or waits: in the write buffer of a transaction, in the write-combining buffer, or
in flight (R203, R216, R264, R322, R331). Bytes that lanes of one instruction write together become visible together
(R221), for what waits is performed with the other lanes' writes to its line. -/
def storePiece (l : Nat) (pol : Word) (seg : Nat) (p : Piece) (bs : List Byte) (s : State) : State :=
  let s := usePiece accWrite p s
  if s.frame.tx.active && tracked seg then txWrite (s.lineVia pol false p.va) p 0 bs s
  else
    let e : PWrite := { s.newWrite l p pol with bytes := bs }
    let plain := pieceOrder pol p == 0 && !p.so
    let s := sawPlace (s.warp.uid, l) p.loc s
    if p.remote s then
      if s.failedPeer (p.chip s) then loseWrite s.warp.uid (p.chip s) s
      else if plain then bufferWrite e s
      else sendWrite e (drainLine p.loc.line s)
    else if s.delay && plain then { s with core := { s.core with pend := s.core.pend ++ [e] } }
    else e.perform (drainLine p.loc.line s)

/-- A lane's bytes over its pieces, in order. -/
def storeLane (a : LaneAcc) (bs : List Byte) (s : State) : State :=
  (a.pieces.foldl (fun (r : State × List Byte) p =>
    (storePiece a.lane a.pol a.seg p (r.2.take p.n) r.1, r.2.drop p.n)) (s, bs)).1

/-- The leaf that makes a write of a job wait, as a walk at its end finds it: stage 1 before stage 2 (R234, R238). -/
def migratingAt (s : State) (j : Job) (va : Nat) : TFail :=
  match walk s j va accWrite with
  | .error f => f
  | .ok w =>
    match w.two with
    | some h =>
      if bits w.one.entry 9 9 = 1 then { detail := 8, stage := 1, level := w.one.level }
      else { detail := 8, stage := 2, level := h.level }
    | none => { detail := 8, stage := 1, level := w.one.level }

/-- The instruction's write waits on MIGRATING since a cycle, until it walks again (R238). -/
def State.migrates (c : Nat) (s : State) : State :=
  { s with warp := { s.warp with hold := { s.warp.hold with migrating := some (c, false), migReady := false } } }

/-- A write meets a MIGRATING page: the warp waits and walks again; past 20 000 cycles the wait raises translation
detail 8 (R238). -/
def migrate (ps : List Piece) (s : State) : Option (Except Stop State) :=
  match ps.find? fun p => (p.leaf.map (·.migrating)).getD false with
  | none => none
  | some p =>
    match s.warp.hold.migrating with
    | some (_, true) =>
      some (failWith (excXlate (migratingAt s ((p.through.map s.jobOf).getD s.job) p.va) p.va))
    | some (c, false) => some (.ok (s.migrates c))
    | none => some (.ok (s.migrates s.core.cycle))

/-- The instruction is done: it keeps nothing any more. -/
def State.settled (s : State) : State := { s with warp := { s.warp with hold := Hold.none } }

/-- The lanes' accesses, each piece translated; the lowest failing lane decides (R221). -/
def resolve (s : State) (acc : Acc) (as : List LaneAcc) : Except Stop (List LaneAcc) :=
  as.mapM fun a => (piecesOf s acc a.lane a.seg a.off a.w).map fun ps => { a with pieces := ps }

/-- What an attempt of a transaction does not admit aborts it (R264, R358); then the peer may refuse an access (R355). -/
def admitted (as : List LaneAcc) (s : State) : Except Stop (List LaneAcc) :=
  if s.frame.tx.active && as.any (txRefuses s) then .error (.abort 4 0)
  else
    match as.findSome? fun a => a.pieces.findSome? (refusalFault s) with
    | some e => failWith e
    | none => .ok as

/-- The checks of a load or store in the order of R221, all lanes before the next: policy word, segment, alignment,
translation and permission, then what a transaction or the peer refuses. -/
def checked (r : PolicyRule) (acc : Acc) (act : Word) (w : Nat) (off pol : Nat → Word) (s : State) :
    Except Stop (List LaneAcc) := do
  firstFail act fun l => policyFault r (pol l) l
  firstFail act fun l => segFault s l (polSeg (pol l)) (off l).toNat w acc.write
  firstFail act fun l =>
    if polOrder (pol l) ≠ 0 ∨ polSeg (pol l) = 2 then alignFault (off l).toNat w else none
  let as ← resolve s acc ((lanesIn act).map fun l =>
    { lane := l, seg := polSeg (pol l), off := (off l).toNat, w := w, pol := pol l, pieces := [] })
  admitted as s

/-- Every line the accesses of a transaction touch. -/
def accLines (as : List LaneAcc) : List Line :=
  distinct ((as.filter fun a => tracked a.seg).flatMap fun a => a.pieces.map fun p => p.loc.line)

/-- An access has one of two orders in a piece whose page honours it (R208, R209, R325). -/
def LaneAcc.has (a : LaneAcc) (x y : Nat) : Bool :=
  a.ordered && a.pieces.any fun p => pieceOrder a.pol p == x || pieceOrder a.pol p == y

/-- The scope of an access: every scope from group up is group scope in the scratchpad (R323). -/
def LaneAcc.scope (a : LaneAcc) : Nat := if a.seg = 1 then min 1 (polScope a.pol) else polScope a.pol

/-- Some lane releases; the widest scope of those that do. -/
def releaseScope (as : List LaneAcc) : Option Nat := ((as.filter fun a => a.has 2 3).map LaneAcc.scope).max?

/-- Some lane acquires; the widest scope of those that do. -/
def acquireScope (as : List LaneAcc) : Option Nat := ((as.filter fun a => a.has 1 3).map LaneAcc.scope).max?

/-- Acquires take effect after the lanes have read. -/
def acquireOf (as : List LaneAcc) (s : State) : State :=
  match acquireScope as with
  | some k => acquire k s
  | none => s

/-- Releases take effect before a lane writes; the instruction waits while a peer owes an answer. -/
def releasing (as : List LaneAcc) (s : State) (k : State → Except Stop State) : Except Stop State :=
  match releaseScope as with
  | none => k s
  | some sc =>
    match release sc s with
    | (t, true) => k t
    | (t, false) => .ok t.waits

/-- Byte k of register-segment offset o in a lane (R208). -/
def regByte (s : State) (l o : Nat) : Byte := BitVec.ofNat 8 ((s.frame.word (o / 4) l).toNat / 2 ^ (8 * (o % 4)) % 256)

/-- Bytes stored in the register segment of a lane; only the bytes named change (R208). -/
def regStore (l o : Nat) (bs : List Byte) (s : State) : State :=
  bs.zipIdx.foldl (fun t b =>
    let n := (o + b.2) / 4
    let k := 8 * ((o + b.2) % 4)
    t.updFrame fun f => f.setRegP n (BitVec.twoPow 32 l) 0 fun _ =>
      (f.word n l &&& ~~~(BitVec.ofNat 32 (255 * 2 ^ k))) ||| BitVec.ofNat 32 (b.1.toNat * 2 ^ k)) s

/-- Loads of every lane: bytes and poison by lane. A register-segment load carries the poison of what it reads. -/
def loadLanes (as : List LaneAcc) (s : State) : List (Nat × List Byte × List Bool) × State :=
  as.foldl (fun r a =>
    if a.seg = 2 then
      (r.1 ++ [(a.lane, (List.range a.w).map (fun i => regByte s a.lane (a.off + i)),
        (List.range a.w).map fun i => (s.frame.reg ((a.off + i) / 4)).poison.getLsbD a.lane)], r.2)
    else
      let q := loadLane a r.2
      (r.1 ++ [(a.lane, q.1.1, q.1.2)], q.2)) ([], s)

/-- The bytes loaded for a lane. -/
def bytesFor (rs : List (Nat × List Byte × List Bool)) (l : Nat) : List Byte := ((amGet rs l).map (·.1)).getD []

/-- The lanes of which some byte of word j is poisoned (R404). -/
def poisonOf (rs : List (Nat × List Byte × List Bool)) (j : Nat) : Word :=
  maskOf fun l => ((((amGet rs l).map (·.2)).getD []).drop (4 * j)).take 4 |>.any id

/-- Operand number n is written in the lanes of a mask, those of bad poisoned. -/
def State.setVP (n : Nat) (mask bad : Word) (g : Nat → Word) (s : State) : State :=
  s.updFrame (Frame.setRegP (16 * s.frame.winBase + n) mask bad g)

/-- A load's accesses, past its checks, are performed: transaction, peers, bytes, acquires. -/
def performLoads (as : List LaneAcc) (s : State) (k : List (Nat × List Byte × List Bool) → State → State) :
    Except Stop State :=
  match as.findSome? fun a => a.pieces.findSome? (failureFault s) with
  | some e => failWith e
  | none =>
      let silent := silentHomes s (as.flatMap (·.pieces))
      if silent ≠ [] then .ok (waitPeers false silent s)
      else if strongWaits as s then .ok s.waits
      else do
        let s ← if s.frame.tx.active then trackAll false (accLines as) s else .ok s
        let s := (as.filter fun a => polOrder a.pol ≠ 0).foldl (fun t a =>
          (a.pieces.filter (·.remote s)).foldl (fun t p => drainLine p.loc.line t) t) s
        let r := loadLanes as s
        return (k r.1 (acquireOf as r.2)).settled

/-- The lines that lanes write with an order of their own: what lanes write there plainly becomes visible with them, so
that no lower lane's byte is seen (R221). -/
def orderedLines (as : List LaneAcc) : List Line :=
  distinct (as.flatMap fun a => (a.pieces.filter fun p => pieceOrder a.pol p != 0 || p.so).map fun p => p.loc.line)

/-- Lines leave for their homes, one after another. -/
def drainLines (lines : List Line) (s : State) : State := lines.foldl (fun t l => drainLine l t) s

/-- An attempt keeps the scope at which its stores release; they release when it commits (R336). -/
def txReleases (as : List LaneAcc) (s : State) : State :=
  s.updFrame fun f => { f with tx := { f.tx with scope := max f.tx.scope ((releaseScope as).getD 0) } }

/-- A store's accesses, past its checks, are performed; inside a transaction they wait for its commit. -/
def performStores (as : List LaneAcc) (data : Nat → List Byte) (s : State) : Except Stop State :=
  let store (s : State) : State := as.foldl (fun t a =>
    if a.seg = 2 then regStore a.lane a.off (data a.lane) t else storeLane a (data a.lane) t) s
  match migrate (as.flatMap (·.pieces)) s with
  | some r => r
  | none =>
    if strongWaits as s then .ok s.waits
    else if s.frame.tx.active then do
      let s ← trackAll true (accLines as) s
      return (drainFull (store (txReleases as s))).settled.advance
    else releasing as s fun s => .ok (drainFull (drainLines (orderedLines as) (store s))).settled.advance

end Sys2Proof.Machine
end

