-- ==== Sys2Proof/Machine/Alu.lean ====
section
/-!
DEFINITION. The lane-by-lane instructions that XT may prefix (R52): one description each of operands and lane function,
and the operation that runs instances of a description over the active lanes (R53, R174 to R196).
-/
namespace Sys2Proof.Machine

/-- What an instruction computes in one lane from the values of d, a and b: an integer result, an FP result with
flags, or a conversion, which takes 16 random bits. -/
inductive LaneFn where
  | int (f : DWord → DWord → DWord → DWord)
  | flt (f : DWord → DWord → DWord → Nat → DWord × Flags)

/-- A lane-by-lane instruction: operand numbers, which of them are pairs, its lane function, the conversion-word check
of b and whether the lane draws from its generator. -/
structure Alu where
  d : Nat
  a : Nat
  b : Nat
  dPair : Bool := false
  aPair : Bool := false
  bPair : Bool := false
  fn : LaneFn
  bad : Word → Option Nat := fun _ => none
  draws : Word → Bool := fun _ => false

/-- The value of operand n in a lane, a single register zero-extended. -/
def operand (s : State) (pair : Bool) (n l : Nat) : DWord := if pair then s.pair n l else (s.v n l).setWidth 64

/-- The result of an instance in a lane, with the flags it raises. -/
def Alu.lane (u : Alu) (s : State) (w l : Nat) : DWord × Flags :=
  let d := operand s u.dPair u.d l
  let a := operand s u.aPair u.a l
  let b := operand s u.bPair u.b l
  match u.fn with
  | .int f => (f d a b, 0)
  | .flt f => f d a b w

/-- The destination of an instance is written in the active lanes. -/
def Alu.write (u : Alu) (act : Word) (g : Nat → DWord) (t : State) : State :=
  if u.dPair then t.setPair u.d act g else t.setV u.d act fun l => (g l).setWidth 32

/-- One instance: sources are read from s, the state before any instance writes (R53); results, flags and generators
move on in t. -/
def Alu.step (s : State) (act : Word) (t : State) (u : Alu) : State :=
  match u.fn with
  | .int _ => u.write act (fun l => (u.lane s 0 l).1) t
  | .flt _ =>
    let r (l : Nat) := u.lane s (rsBits (t.frame.rs.getD l 0)) l
    ((u.write act (fun l => (r l).1) t).orFlags act fun l => (r l).2).stepRs
      (act &&& maskOf fun l => u.draws (s.v u.b l))

/-- The operand-word fault of an instance in a lane (R71, R195). -/
def Alu.fault (u : Alu) (s : State) (l : Nat) : Option Exc := (u.bad (s.v u.b l)).map fun det => exc 15 det 0 l

/-- An unprefixed lane-by-lane instruction. -/
def aluExec (i : Instr) (u : Alu) (s : State) : Out :=
  insn i s fun act => do
    firstFail act (u.fault s)
    return (u.step s act s).advance

/-- A description moved by an XT offset (R53). -/
def Alu.offset (k : Nat) (u : Alu) : Alu := { u with d := u.d + k, a := u.a + k, b := u.b + k }

/-- d := f a b over words. -/
def alu3 (d a b : Reg) (f : Word → Word → Word) : Alu :=
  { d := d.toNat, a := a.toNat, b := b.toNat,
    fn := .int fun _ x y => (f (x.setWidth 32) (y.setWidth 32)).setWidth 64 }

/-- d := f d a b over words. -/
def alu4 (d a b : Reg) (f : Word → Word → Word → Word) : Alu :=
  { d := d.toNat, a := a.toNat, b := b.toNat,
    fn := .int fun z x y => (f (z.setWidth 32) (x.setWidth 32) (y.setWidth 32)).setWidth 64 }

/-- d := f a over words; b repeats a. -/
def alu2 (d a : Reg) (f : Word → Word) : Alu :=
  { d := d.toNat, a := a.toNat, b := a.toNat, fn := .int fun _ x _ => (f (x.setWidth 32)).setWidth 64 }

/-- P(d) := f P(d) a b, for the wide multiply-accumulates. -/
def aluWide (d a b : Reg) (f : DWord → Word → Word → DWord) : Alu :=
  { d := d.toNat, a := a.toNat, b := b.toNat, dPair := true,
    fn := .int fun z x y => f z (x.setWidth 32) (y.setWidth 32) }

/-- P(d) := f P(a) P(b). -/
def alu64 (d a b : Reg) (f : DWord → DWord → DWord) : Alu :=
  { d := d.toNat, a := a.toNat, b := b.toNat, dPair := true, aPair := true, bPair := true,
    fn := .int fun _ x y => f x y }

/-- An FP32 pattern and its flags as a result. -/
def fpOut (r : Nat × Flags) : DWord × Flags := (BitVec.ofNat 64 r.1, r.2)

/-- FP32 d := f a b. -/
def fpu3 (d a b : Reg) (f : Nat → Nat → Nat × Flags) : Alu :=
  { d := d.toNat, a := a.toNat, b := b.toNat,
    fn := .flt fun _ x y _ => fpOut (f (x.setWidth 32).toNat (y.setWidth 32).toNat) }

/-- FP32 d := f d a b. -/
def fpu4 (d a b : Reg) (f : Nat → Nat → Nat → Nat × Flags) : Alu :=
  { d := d.toNat, a := a.toNat, b := b.toNat,
    fn := .flt fun z x y _ => fpOut (f (z.setWidth 32).toNat (x.setWidth 32).toNat (y.setWidth 32).toNat) }

/-- Word results with flags from words d, a and b. -/
def fpuW (d a b : Reg) (f : Word → Word → Word → Word × Flags) : Alu :=
  { d := d.toNat, a := a.toNat, b := b.toNat,
    fn := .flt fun z x y _ =>
      let r := f (z.setWidth 32) (x.setWidth 32) (y.setWidth 32)
      (r.1.setWidth 64, r.2) }

/-- Word result with flags from word a. -/
def fpu2 (d a : Reg) (f : Word → Word × Flags) : Alu := fpuW d a a fun _ x _ => f x

/-- A conversion or format word's check on rounding code and kinds (R69, R71): the detail of its first row that fails. -/
def convWordBad (w : Word) : Option Nat :=
  let n := w.toNat
  if bits n 31 12 ≠ 0 then some 1
  else if bits n 3 0 = 7 ∨ bits n 7 4 = 7 then some 2
  else if 5 < bits n 10 8 then some 3
  else none

-- Integer arithmetic (R174, R175)

/-- IADD -/
def aluIadd (d a b : Reg) : Alu := alu3 d a b fun x y => x + y
/-- ISUB -/
def aluIsub (d a b : Reg) : Alu := alu3 d a b fun x y => x - y
/-- IMUL -/
def aluImul (d a b : Reg) : Alu := alu3 d a b fun x y => x * y
/-- IMULH.s -/
def aluImulhS (d a b : Reg) : Alu := alu3 d a b fun x y => BitVec.ofInt 32 (x.toInt * y.toInt / 2 ^ 32)
/-- IMULH.n -/
def aluImulhN (d a b : Reg) : Alu := alu3 d a b fun x y => BitVec.ofNat 32 (x.toNat * y.toNat / 2 ^ 32)
/-- IMAD -/
def aluImad (d a b : Reg) : Alu := alu4 d a b fun z x y => x * y + z
/-- IMADW.s -/
def aluImadwS (d a b : Reg) : Alu := aluWide d a b fun z x y => x.signExtend 64 * y.signExtend 64 + z
/-- IMADW.n -/
def aluImadwN (d a b : Reg) : Alu := aluWide d a b fun z x y => x.setWidth 64 * y.setWidth 64 + z
/-- IADD64 -/
def aluIadd64 (d a b : Reg) : Alu := alu64 d a b fun x y => x + y
/-- ISUB64 -/
def aluIsub64 (d a b : Reg) : Alu := alu64 d a b fun x y => x - y
/-- IMIN.s -/
def aluIminS (d a b : Reg) : Alu := alu3 d a b fun x y => if x.slt y then x else y
/-- IMIN.n -/
def aluIminN (d a b : Reg) : Alu := alu3 d a b fun x y => if x.ult y then x else y
/-- IMAX.s -/
def aluImaxS (d a b : Reg) : Alu := alu3 d a b fun x y => if x.slt y then y else x
/-- IMAX.n -/
def aluImaxN (d a b : Reg) : Alu := alu3 d a b fun x y => if x.ult y then y else x

-- Shifts and logic (R176)

/-- ISHL -/
def aluIshl (d a b : Reg) : Alu := alu3 d a b fun x y => if y.toNat < 32 then x <<< y.toNat else 0
/-- ISHR -/
def aluIshr (d a b : Reg) : Alu := alu3 d a b fun x y => if y.toNat < 32 then x >>> y.toNat else 0
/-- ISAR -/
def aluIsar (d a b : Reg) : Alu :=
  alu3 d a b fun x y =>
    if y.toNat < 32 then x.sshiftRight y.toNat else if x.getLsbD 31 then BitVec.allOnes 32 else 0
/-- IROT -/
def aluIrot (d a b : Reg) : Alu := alu3 d a b fun x y => x.rotateLeft (y.toNat % 32)
/-- AND -/
def aluAnd (d a b : Reg) : Alu := alu3 d a b fun x y => x &&& y
/-- OR -/
def aluOr (d a b : Reg) : Alu := alu3 d a b fun x y => x ||| y
/-- XOR -/
def aluXor (d a b : Reg) : Alu := alu3 d a b fun x y => x ^^^ y
/-- ANDN -/
def aluAndn (d a b : Reg) : Alu := alu3 d a b fun x y => x &&& ~~~y

-- Bit fields, byte permutation, selection (R177 to R179)

/-- Position and effective width of a field word (R177). -/
def fieldWord (y : Word) : Nat × Nat :=
  let p := y.toNat % 32
  (p, min (bits y.toNat 13 8) (32 - p))

/-- The low w bits of x, zero-extended. -/
def zextN (x : Word) (w : Nat) : Word := BitVec.ofNat 32 (x.toNat % 2 ^ w)

/-- The low w bits of x, sign-extended; 0 for w = 0. -/
def sextN (x : Word) (w : Nat) : Word :=
  if w = 0 then 0
  else
    let v := x.toNat % 2 ^ w
    if v.testBit (w - 1) then BitVec.ofInt 32 ((v : Int) - 2 ^ w) else BitVec.ofNat 32 v

/-- BFX.s -/
def aluBfxS (d a b : Reg) : Alu := alu3 d a b fun x y => sextN (x >>> (fieldWord y).1) (fieldWord y).2
/-- BFX.n -/
def aluBfxN (d a b : Reg) : Alu := alu3 d a b fun x y => zextN (x >>> (fieldWord y).1) (fieldWord y).2
/-- BFI -/
def aluBfi (d a b : Reg) : Alu :=
  alu4 d a b fun z x y =>
    let p := (fieldWord y).1
    let m : Word := BitVec.ofNat 32 ((2 ^ (fieldWord y).2 - 1) * 2 ^ p)
    (z &&& ~~~m) ||| ((x <<< p) &&& m)

/-- One byte of BPERM's result from selector byte c and the eight source bytes (R178). -/
def bpermByte (src c : Nat) : Nat :=
  let byte := src / 2 ^ (8 * (c % 8)) % 256
  if c.testBit 4 then 0 else if c.testBit 3 then (if byte.testBit 7 then 255 else 0) else byte

/-- BPERM -/
def aluBperm (d a b : Reg) : Alu :=
  alu4 d a b fun z x y =>
    let src := y.toNat * 2 ^ 32 + x.toNat
    let r (k : Nat) : Nat := bpermByte src (z.toNat / 2 ^ (8 * k) % 256)
    BitVec.ofNat 32 (r 3 * 2 ^ 24 + r 2 * 2 ^ 16 + r 1 * 2 ^ 8 + r 0)
/-- ISEL -/
def aluIsel (d a b : Reg) : Alu := alu4 d a b fun z x y => if z ≠ 0 then x else y

-- The unary family (R180)

/-- The number of set bits among the low n. -/
def popCount (x : Word) : Nat → Nat
  | 0 => 0
  | n + 1 => popCount x n + (if x.getLsbD n then 1 else 0)

/-- MOV -/
def aluMov (d a : Reg) : Alu := alu2 d a fun x => x
/-- NOT -/
def aluNot (d a : Reg) : Alu := alu2 d a fun x => ~~~x
/-- INEG -/
def aluIneg (d a : Reg) : Alu := alu2 d a fun x => 0 - x
/-- IABS -/
def aluIabs (d a : Reg) : Alu := alu2 d a fun x => if x.getLsbD 31 then 0 - x else x
/-- POPC -/
def aluPopc (d a : Reg) : Alu := alu2 d a fun x => BitVec.ofNat 32 (popCount x 32)
/-- CLZ -/
def aluClz (d a : Reg) : Alu := alu2 d a fun x => BitVec.ofNat 32 (32 - bitLen x.toNat)
/-- BREV -/
def aluBrev (d a : Reg) : Alu := alu2 d a fun x => maskOf fun k => x.getLsbD (31 - k)
/-- SEXT8 -/
def aluSext8 (d a : Reg) : Alu := alu2 d a fun x => (x.setWidth 8).signExtend 32
/-- SEXT16 -/
def aluSext16 (d a : Reg) : Alu := alu2 d a fun x => (x.setWidth 16).signExtend 32
/-- ZEXT8 -/
def aluZext8 (d a : Reg) : Alu := alu2 d a fun x => x &&& 0xFF
/-- ZEXT16 -/
def aluZext16 (d a : Reg) : Alu := alu2 d a fun x => x &&& 0xFFFF

-- FP32 arithmetic, minimum, maximum and scaling (R184 to R187)

/-- FADD -/
def aluFadd (d a b : Reg) : Alu := fpu3 d a b (addK 8)
/-- FSUB -/
def aluFsub (d a b : Reg) : Alu := fpu3 d a b (subK 8)
/-- FMUL -/
def aluFmul (d a b : Reg) : Alu := fpu3 d a b (mulK 8)
/-- FFMA -/
def aluFfma (d a b : Reg) : Alu := fpu4 d a b fun z x y => fmaK 8 false x y z
/-- FFMS -/
def aluFfms (d a b : Reg) : Alu := fpu4 d a b fun z x y => fmaK 8 true x y z
/-- FMIN -/
def aluFmin (d a b : Reg) : Alu := fpu3 d a b (minMax32 false)
/-- FMAX -/
def aluFmax (d a b : Reg) : Alu := fpu3 d a b (minMax32 true)
/-- FDIV -/
def aluFdiv (d a b : Reg) : Alu := fpu3 d a b div32
/-- FSCALE -/
def aluFscale (d a b : Reg) : Alu :=
  fpuW d a b fun _ x y =>
    let r := scale32 x.toNat y.toInt
    (BitVec.ofNat 32 r.1, r.2)

-- Packed halves and FP8 dot products (R189, R190)

/-- HADD2 -/
def aluHadd2 (d a b : Reg) : Alu := fpuW d a b fun z x y => halves (fun p q _ => addK 1 p q) x y z
/-- HMUL2 -/
def aluHmul2 (d a b : Reg) : Alu := fpuW d a b fun z x y => halves (fun p q _ => mulK 1 p q) x y z
/-- HFMA2 -/
def aluHfma2 (d a b : Reg) : Alu := fpuW d a b fun z x y => halves (fmaK 1 false) x y z
/-- BADD2 -/
def aluBadd2 (d a b : Reg) : Alu := fpuW d a b fun z x y => halves (fun p q _ => addK 0 p q) x y z
/-- BMUL2 -/
def aluBmul2 (d a b : Reg) : Alu := fpuW d a b fun z x y => halves (fun p q _ => mulK 0 p q) x y z
/-- BFMA2 -/
def aluBfma2 (d a b : Reg) : Alu := fpuW d a b fun z x y => halves (fmaK 0 false) x y z
/-- FDOT4 -/
def aluFdot4 (d a b : Reg) : Alu := fpuW d a b fun z x y => dot4 2 x y z
/-- FDOT4.e5 -/
def aluFdot4E5 (d a b : Reg) : Alu := fpuW d a b fun z x y => dot4 3 x y z

-- The FUN family (R191 to R194)

/-- A NaN source quieted, or f of the word (R61, R191). -/
def nanElse (f : Word → Word) (x : Word) : Word × Flags :=
  match firstNaN 8 [x.toNat] with
  | some r => (BitVec.ofNat 32 r.1, r.2)
  | none => (f x, 0)

/-- FABS -/
def aluFabs (d a : Reg) : Alu := fpu2 d a (nanElse fun x => x &&& 0x7FFFFFFF)
/-- FNEG -/
def aluFneg (d a : Reg) : Alu := fpu2 d a (nanElse fun x => x ^^^ 0x80000000)
/-- FRCP -/
def aluFrcp (d a : Reg) : Alu := fpu2 d a (special32 rcp32)
/-- FSQRT -/
def aluFsqrt (d a : Reg) : Alu := fpu2 d a (special32 sqrt32)
/-- FRSQ -/
def aluFrsq (d a : Reg) : Alu := fpu2 d a fun x => special32 (rsq32 x) x
/-- FEXP2 -/
def aluFexp2 (d a : Reg) : Alu := fpu2 d a fun x => special32 (exp2W x) x
/-- FLOG2 -/
def aluFlog2 (d a : Reg) : Alu := fpu2 d a fun x => special32 (log2W x) x
/-- FSIN -/
def aluFsin (d a : Reg) : Alu := fpu2 d a fun x => special32 (sinCosW 0 x) x
/-- FCOS -/
def aluFcos (d a : Reg) : Alu := fpu2 d a fun x => special32 (sinCosW 1 x) x
/-- FTANH -/
def aluFtanh (d a : Reg) : Alu := fpu2 d a fun x => special32 (tanhW x) x
/-- FSIGM -/
def aluFsigm (d a : Reg) : Alu := fpu2 d a fun x => special32 (sigmW x) x
/-- FCLASS -/
def aluFclass (d a : Reg) : Alu := fpu2 d a fun x => (class32 x.toNat, 0)
/-- FRND under a rounding code (R194). -/
def aluFrnd (mode : Nat) (d a : Reg) : Alu :=
  fpu2 d a fun x =>
    let r := frnd32 mode x.toNat
    (BitVec.ofNat 32 r.1, r.2)
/-- FCVT (R195, R196). -/
def aluFcvt (d a b : Reg) : Alu :=
  { d := d.toNat, a := a.toNat, b := b.toNat
    fn := .flt fun _ x y w =>
      let n := (y.setWidth 32).toNat
      let r := convert (bits n 3 0) (bits n 7 4) (bits n 10 8) (n.testBit 11) w (x.setWidth 32)
      (r.1.setWidth 64, r.2)
    bad := convWordBad
    draws := fun y => bits y.toNat 10 8 == 5 }

/-- The description of an instruction that XT may prefix (R52); none for any other. -/
def aluOf : Instr → Option Alu
  | .iadd d a b _ => some (aluIadd d a b)
  | .isub d a b _ => some (aluIsub d a b)
  | .imul d a b _ => some (aluImul d a b)
  | .imulhS d a b _ => some (aluImulhS d a b)
  | .imulhN d a b _ => some (aluImulhN d a b)
  | .imad d a b _ => some (aluImad d a b)
  | .imadwS d a b _ => some (aluImadwS d a b)
  | .imadwN d a b _ => some (aluImadwN d a b)
  | .iadd64 d a b _ => some (aluIadd64 d a b)
  | .isub64 d a b _ => some (aluIsub64 d a b)
  | .iminS d a b _ => some (aluIminS d a b)
  | .iminN d a b _ => some (aluIminN d a b)
  | .imaxS d a b _ => some (aluImaxS d a b)
  | .imaxN d a b _ => some (aluImaxN d a b)
  | .ishl d a b _ => some (aluIshl d a b)
  | .ishr d a b _ => some (aluIshr d a b)
  | .isar d a b _ => some (aluIsar d a b)
  | .irot d a b _ => some (aluIrot d a b)
  | .and d a b _ => some (aluAnd d a b)
  | .or d a b _ => some (aluOr d a b)
  | .xor d a b _ => some (aluXor d a b)
  | .andn d a b _ => some (aluAndn d a b)
  | .bfxS d a b _ => some (aluBfxS d a b)
  | .bfxN d a b _ => some (aluBfxN d a b)
  | .bfi d a b _ => some (aluBfi d a b)
  | .bperm d a b _ => some (aluBperm d a b)
  | .isel d a b _ => some (aluIsel d a b)
  | .mov d a _ => some (aluMov d a)
  | .not d a _ => some (aluNot d a)
  | .ineg d a _ => some (aluIneg d a)
  | .iabs d a _ => some (aluIabs d a)
  | .popc d a _ => some (aluPopc d a)
  | .clz d a _ => some (aluClz d a)
  | .brev d a _ => some (aluBrev d a)
  | .sext8 d a _ => some (aluSext8 d a)
  | .sext16 d a _ => some (aluSext16 d a)
  | .zext8 d a _ => some (aluZext8 d a)
  | .zext16 d a _ => some (aluZext16 d a)
  | .fadd d a b _ => some (aluFadd d a b)
  | .fsub d a b _ => some (aluFsub d a b)
  | .fmul d a b _ => some (aluFmul d a b)
  | .ffma d a b _ => some (aluFfma d a b)
  | .ffms d a b _ => some (aluFfms d a b)
  | .fmin d a b _ => some (aluFmin d a b)
  | .fmax d a b _ => some (aluFmax d a b)
  | .fdiv d a b _ => some (aluFdiv d a b)
  | .fscale d a b _ => some (aluFscale d a b)
  | .hadd2 d a b _ => some (aluHadd2 d a b)
  | .hmul2 d a b _ => some (aluHmul2 d a b)
  | .hfma2 d a b _ => some (aluHfma2 d a b)
  | .badd2 d a b _ => some (aluBadd2 d a b)
  | .bmul2 d a b _ => some (aluBmul2 d a b)
  | .bfma2 d a b _ => some (aluBfma2 d a b)
  | .fdot4 d a b _ => some (aluFdot4 d a b)
  | .fdot4E5 d a b _ => some (aluFdot4E5 d a b)
  | .fabs d a _ => some (aluFabs d a)
  | .fneg d a _ => some (aluFneg d a)
  | .frcp d a _ => some (aluFrcp d a)
  | .fsqrt d a _ => some (aluFsqrt d a)
  | .frsq d a _ => some (aluFrsq d a)
  | .fexp2 d a _ => some (aluFexp2 d a)
  | .flog2 d a _ => some (aluFlog2 d a)
  | .fsin d a _ => some (aluFsin d a)
  | .fcos d a _ => some (aluFcos d a)
  | .ftanh d a _ => some (aluFtanh d a)
  | .fsigm d a _ => some (aluFsigm d a)
  | .fclass d a _ => some (aluFclass d a)
  | .frndRn d a _ => some (aluFrnd 0 d a)
  | .frndRz d a _ => some (aluFrnd 1 d a)
  | .frndRd d a _ => some (aluFrnd 2 d a)
  | .frndRu d a _ => some (aluFrnd 3 d a)
  | .fcvt d a b _ => some (aluFcvt d a b)
  | _ => none

end Sys2Proof.Machine
end

