-- ==== Sys2Proof/Machine/Control.lean ====
section
/-!
DEFINITION. Control flow (R142 to R149) but for calls, which touch the stack segment, the predicate family (R150) and
the prefix XT (R52 to R55).
-/
namespace Sys2Proof.Machine

/-- The active lanes of the stream take new PCs; its other lanes fall through (R144). -/
def State.branch (act : Word) (g : Nat → Word) (s : State) : State :=
  s.setPcs s.lanes fun l => if act.getLsbD l then g l else s.frame.pcs.getD l 0 + 4

/-- The target of a BR word from a lane's PC (R24, R144). -/
def brTarget (s : State) (i : BitVec 21) (l : Nat) : Word := s.frame.pcs.getD l 0 + 4 + brOffset i

/-- An offset that is not a multiple of 4 raises an alignment fault naming it (R144). -/
def unaligned (x : Word) : Option Exc := if x.toNat % 4 = 0 then none else some (exc 4 0 x.toNat)

/-- BRA (R144). -/
def execBra (g : Guard) (i : BitVec 21) (s : State) : Out :=
  insn (.bra g i) s fun act => .ok (s.branch act (brTarget s i))

/-- BRX (R144). -/
def execBrx (a : Reg) (g : Guard) (s : State) : Out :=
  insn (.brx a g) s fun act => do
    firstFail act fun l => unaligned (s.v a.toNat l)
    return s.branch act fun l => s.v a.toNat l

/-- The warp ends when no live lane remains; its group drains once all its warps have ended (R147, R378). -/
def State.endWarp (s : State) : State :=
  if s.frame.live = 0 then
    let t := emptyWindow { s with warp := { s.warp with run := .ended } }
    if t.allWarps.all fun w => w.group != s.group.uid || w.run == .ended then
      { t with group := { t.group with status := .draining } }
    else t
  else s

/-- EXIT (R147). -/
def execExit (g : Guard) (s : State) : Out :=
  insn (.exit g) s fun act =>
    .ok ((s.updFrame fun f => { f with live := f.live &&& ~~~act }).advance).endWarp

/-- JOIN (R146). -/
def execJoin (i : BitVec 21) (s : State) : Out :=
  plain (.join i) s fun _ =>
    s.updFrame fun f => { f with join := some (s.pc + 4 + brOffset i), joinAt := s.core.cycle }

/-- WINB (R42, R148). -/
def execWinb (i : BitVec 11) (s : State) : Out :=
  insn (.winb i) s fun _ =>
    if (s.warp.allot - 128) / 16 < i.toNat then failWith (excIllegal 8 s)
    else .ok (s.updFrame fun f => { f with winBase := i.toNat }).advance

/-- TRAP (R149). -/
def execTrap (i : BitVec 11) (s : State) : Out := insn (.trap i) s fun _ => failWith (exc 21 i.toNat)

/-- BPT (R149). -/
def execBpt (i : BitVec 11) (s : State) : Out := insn (.bpt i) s fun _ => failWith (exc 22 i.toNat)

/-- PAND (R150). -/
def execPand (d b a : Pred) (g : Guard) (s : State) : Out :=
  plain (.pand d b a g) s fun act => s.setPred d.toNat act (s.pred a &&& s.pred b)

/-- POR (R150). -/
def execPor (d b a : Pred) (g : Guard) (s : State) : Out :=
  plain (.por d b a g) s fun act => s.setPred d.toNat act (s.pred a ||| s.pred b)

/-- PXOR (R150). -/
def execPxor (d b a : Pred) (g : Guard) (s : State) : Out :=
  plain (.pxor d b a g) s fun act => s.setPred d.toNat act (s.pred a ^^^ s.pred b)

/-- PNOT (R150). -/
def execPnot (d a : Pred) (g : Guard) (s : State) : Out :=
  plain (.pnot d a g) s fun act => s.setPred d.toNat act (~~~(s.pred a))

/-- The eight predicates of a lane as a word; bit 0 is p0, which reads true (R150). -/
def predWord (s : State) (l : Nat) : Word :=
  BitVec.ofNat 32 ((List.range 8).foldl (fun n k => if (s.pred (BitVec.ofNat 3 k)).getLsbD l then n + 2 ^ k else n) 0)

/-- P2V (R150). -/
def execP2v (d : Reg) (g : Guard) (s : State) : Out :=
  plain (.p2v d g) s fun act => s.setV d.toNat act (predWord s)

/-- V2P (R150). -/
def execV2p (a : Reg) (g : Guard) (s : State) : Out :=
  plain (.v2p a g) s fun act =>
    (List.range 7).foldl (fun t k => t.setPred (k + 1) act (maskOf fun l => (s.v a.toNat l).getLsbD (k + 1))) s

/-- PSET (R150). -/
def execPset (d : Pred) (a : Reg) (g : Guard) (s : State) : Out :=
  plain (.pset d a g) s fun act => s.setPred d.toNat act (maskOf fun l => s.v a.toNat l != 0)

/-- An opcode that XT may prefix (R52). -/
def xtEligible (w : Word) : Bool :=
  let o := w.toNat / 2 ^ 25
  (decide (1 ≤ o) && decide (o ≤ 0x1B)) || o == 0x1D || (decide (0x36 ≤ o) && decide (o ≤ 0x3C)) ||
    (decide (0x3E ≤ o) && decide (o ≤ 0x47)) || o == 0x48 || o == 0x49

/-- The guard field of a word by its format; a word of a format without one has guard 0 (R35). -/
def guardBits (w : Word) : Nat :=
  let o := w.toNat / 2 ^ 25
  if (0x20 ≤ o ∧ o ≤ 0x2A) ∨ (0x32 ≤ o ∧ o ≤ 0x35) ∨ o = 0x65 ∨ (0x79 ≤ o ∧ o ≤ 0x7B) then 0
  else if o = 0x2B ∨ o = 0x2C ∨ o = 0x31 ∨ (0x66 ≤ o ∧ o ≤ 0x68) then bits w.toNat 24 21
  else w.toNat % 16

/-- The illegal-instruction detail of a word that does not decode (R48 to R50). -/
def badWordDetail (w : Word) (e : DecodeError) : Nat :=
  match e with
  | .opcode => 1
  | .function => 2
  | .reserved => if guardBits w = 8 then 3 else 4

/-- The XT offsets, row by row (R53). -/
def xtOffsets (h c : BitVec 3) (st : BitVec 7) : List Nat :=
  (List.range (h.toNat + 1)).flatMap fun r => (List.range (c.toNat + 1)).map fun k => r * st.toNat + k

/-- The registers an instance writes. -/
def Alu.dests (u : Alu) : List Nat := if u.dPair then [u.d, u.d + 1] else [u.d]

/-- What R53 asks of one instance: every vector operand within v127, then every pair even. -/
def xtBad (u : Alu) : Option Nat :=
  if 127 < u.d ∨ 127 < u.a ∨ 127 < u.b then some 6
  else if (u.dPair && u.d % 2 == 1) || (u.aPair && u.a % 2 == 1) || (u.bPair && u.b % 2 == 1) then some 7
  else none

/-- XT misuse on an eligible following instruction: instance by instance, row by row, then overlapping destinations
(R53). -/
def xtMisuse (us : List Alu) : Option Nat :=
  match us.findSome? xtBad with
  | some det => some det
  | none => if (us.flatMap Alu.dests).eraseDups.length < (us.flatMap Alu.dests).length then some 5 else none

/-- What the word after an XT turns out to be: the faults of R53 and R50 on it, or its guard and instances. -/
def xtFollow (offs : List Nat) (w : Word) (s : State) : Except Exc (Instr × List Alu) :=
  let bad (det : Nat) : Except Exc (Instr × List Alu) := .error { excIllegal det s with word := some w }
  if !xtEligible w then bad 5
  else
    match decode w with
    | .error e => bad (badWordDetail w e)
    | .ok i =>
      match aluOf i with
      | none => bad 5
      | some u =>
        let us := offs.map fun k => u.offset k
        if guardOf i = 8 then bad 3
        else if !wellFormed i then bad 4
        else
          match xtMisuse us with
          | some det => bad det
          | none => .ok (i, us)

/-- XT and its following instruction as one unit (R52 to R54). -/
def execXt (h c : BitVec 3) (st : BitVec 7) (s : State) : Out :=
  insn (.xt h c st) s fun _ =>
    match fetchWord s (s.pc + 4) with
    | .error f => failWith { exc 3 f.detail (s.fetchAddr (s.pc + 4)) with lanes := some s.lanes, word := some 0 }
    | .ok w =>
      match xtFollow (xtOffsets h c st) w s with
      | .error e => failWith e
      | .ok (i, us) => do
        let act := s.active (guardOf i)
        let uses := (xtOffsets h c st).flatMap fun k => (srcRegs i).map fun n => (n + k, act)
        match poisonFault uses s with
        | some e => failWith { e with word := some w, lanes := some act }
        | none => .ok ()
        match firstFail act fun l => us.findSome? fun u => u.fault s l with
        | .error (.fault e) => failWith { e with word := some w, lanes := some act }
        | r => r
        return (us.foldl (Alu.step s act) s).setPcs s.lanes fun l => s.frame.pcs.getD l 0 + 8

end Sys2Proof.Machine
end

