-- ==== Sys2Proof/Machine/LoadStore.lean ====
section
/-!
DEFINITION. Loads, stores, LDC, prefetch and flush by address (R221 to R228), calls through the link stack (R145), CNTRD
(R120), FENCE and FENCEW (R204, R334).
-/
namespace Sys2Proof.Machine

/-- Word k of a byte list. -/
def wordAt (bs : List Byte) (k : Nat) : Word := BitVec.ofNat 32 (fieldB bs (4 * k) 4)

/-- k registers from operand d take the words of the lanes' bytes, poisoned where the bytes are. -/
def setLoaded (d k : Nat) (act : Word) (word : List Byte → Nat → Word)
    (rs : List (Nat × List Byte × List Bool)) (s : State) : State :=
  (List.range k).foldl (fun t j => t.setVP (d + j) act (poisonOf rs j) fun l => word (bytesFor rs l) j) s

/-- A load of w bytes into k registers, each word formed from the lane's bytes (R221, R222). -/
def ldExec (i : Instr) (d a b : Reg) (w k : Nat) (word : List Byte → Nat → Word) (s : State) : Out :=
  insn i s fun act => do
    let as ← checked loadRule accRead act w (s.v a.toNat) (s.v b.toNat) s
    performLoads as s fun rs t => (setLoaded d.toNat k act word rs t).advance

/-- Bytes zero-extended. -/
def zextBytes (bs : List Byte) (_ : Nat) : Word := BitVec.ofNat 32 (leNat bs)
/-- Bytes sign-extended. -/
def sextBytes (bs : List Byte) (_ : Nat) : Word := sextN (BitVec.ofNat 32 (leNat bs)) (8 * bs.length)

/-- LD.n8 (R222). -/
def execLdN8 (d a b : Reg) (g : Guard) (s : State) : Out := ldExec (.ldN8 d a b g) d a b 1 1 zextBytes s
/-- LD.s8 (R222). -/
def execLdS8 (d a b : Reg) (g : Guard) (s : State) : Out := ldExec (.ldS8 d a b g) d a b 1 1 sextBytes s
/-- LD.n16 (R222). -/
def execLdN16 (d a b : Reg) (g : Guard) (s : State) : Out := ldExec (.ldN16 d a b g) d a b 2 1 zextBytes s
/-- LD.s16 (R222). -/
def execLdS16 (d a b : Reg) (g : Guard) (s : State) : Out := ldExec (.ldS16 d a b g) d a b 2 1 sextBytes s
/-- LD.32 (R222). -/
def execLd32 (d a b : Reg) (g : Guard) (s : State) : Out := ldExec (.ld32 d a b g) d a b 4 1 wordAt s
/-- LD.64 (R222). -/
def execLd64 (d a b : Reg) (g : Guard) (s : State) : Out := ldExec (.ld64 d a b g) d a b 8 2 wordAt s
/-- LD.128 (R222). -/
def execLd128 (d a b : Reg) (g : Guard) (s : State) : Out := ldExec (.ld128 d a b g) d a b 16 4 wordAt s

/-- The w bytes that a store takes from the registers at operand d in a lane. -/
def storeData (s : State) (d w l : Nat) : List Byte :=
  ((List.range ((w + 3) / 4)).flatMap fun j => leBytes 4 (s.v (d + j) l).toNat).take w

/-- A store of w bytes (R221, R222). -/
def stExec (i : Instr) (d a b : Reg) (w : Nat) (s : State) : Out :=
  insn i s fun act => do
    let as ← checked storeRule accWrite act w (s.v a.toNat) (s.v b.toNat) s
    performStores as (storeData s d.toNat w) s

/-- ST.8 (R222). -/
def execSt8 (d a b : Reg) (g : Guard) (s : State) : Out := stExec (.st8 d a b g) d a b 1 s
/-- ST.16 (R222). -/
def execSt16 (d a b : Reg) (g : Guard) (s : State) : Out := stExec (.st16 d a b g) d a b 2 s
/-- ST.32 (R222). -/
def execSt32 (d a b : Reg) (g : Guard) (s : State) : Out := stExec (.st32 d a b g) d a b 4 s
/-- ST.64 (R222). -/
def execSt64 (d a b : Reg) (g : Guard) (s : State) : Out := stExec (.st64 d a b g) d a b 8 s
/-- ST.128 (R222). -/
def execSt128 (d a b : Reg) (g : Guard) (s : State) : Out := stExec (.st128 d a b g) d a b 16 s

/-- The accesses of an instruction without a policy word: a fixed word, offsets checked for alignment to `al` first when
it is not 0, then segment and translation (R120, R145, R224). -/
def fixedAccess (acc : Acc) (act : Word) (w al : Nat) (pol : Word) (off : Nat → Word) (s : State) :
    Except Stop (List LaneAcc) := do
  firstFail act fun l => if al = 0 then none else alignFault (off l).toNat al
  firstFail act fun l => segFault s l (polSeg pol) (off l).toNat w acc.write
  let as ← resolve s acc ((lanesIn act).map fun l =>
    { lane := l, seg := polSeg pol, off := (off l).toNat, w := w, pol := pol, pieces := [] })
  admitted as s

/-- LDC (R224): plain, group scope, REUSE, T1 = 0, T2 = 0xFF. -/
def execLdc (d a b : Reg) (g : Guard) (s : State) : Out :=
  insn (.ldc d a b g) s fun act => do
    let as ← fixedAccess accRead act 4 4 0xFF000243 (fun l => s.v a.toNat l + 4 * s.v b.toNat l) s
    performLoads as s fun rs t => (setLoaded d.toNat 1 act wordAt rs t).advance

/-- CNTRD: an acquire of chip scope of the counter, a global-segment offset (R120). -/
def execCntrd (d a : Reg) (g : Guard) (s : State) : Out :=
  insn (.cntrd d a g) s fun act => do
    let as ← fixedAccess accRead act 8 8 0xC8 (s.v a.toNat) s
    performLoads as s fun rs t => (setLoaded d.toNat 2 act wordAt rs t).advance

/-- A call pushes one link record for each active lane and goes to its target (R145). -/
def callExec (i : Instr) (target : Nat → Word) (s : State) : Out :=
  insn i s fun act => do
    let sd (l : Nat) : Word := s.frame.sds.getD l 0
    firstFail act fun l =>
      if s.frame.stklim.toNat < (sd l).toNat + 8 then some (exc 6 0 (sd l).toNat) else unaligned (target l)
    let as ← fixedAccess accWrite act 8 0 0x4 sd s
    match migrate (as.flatMap (·.pieces)) s with
    | some r => r
    | none =>
      if strongWaits as s then return s.waits
      else
        let pc (l : Nat) : Word := s.frame.pcs.getD l 0
        let rec_ (l : Nat) : List Byte := leBytes 4 (pc l + 4).toNat ++ leBytes 4 (pc l).toNat
        let t := drainFull (as.foldl (fun t a => storeLane a (rec_ a.lane) t) s)
        let t := t.updFrame fun f =>
          { f with sds := lanesOf fun l => if act.getLsbD l then f.sds.getD l 0 + 8 else f.sds.getD l 0 }
        return (t.branch act target).settled

/-- CALL (R145). -/
def execCall (g : Guard) (i : BitVec 21) (s : State) : Out := callExec (.call g i) (brTarget s i) s

/-- CALLX (R145). -/
def execCallx (a : Reg) (g : Guard) (s : State) : Out := callExec (.callx a g) (s.v a.toNat) s

/-- What a RET reads in one lane: its checks in the rule's order, then the link record's return offset (R145). s is the
state at issue, r the lanes before and the state their reads left. -/
def popLane (s : State) (r : List (Nat × Word) × State) (l : Nat) : Except Stop (List (Nat × Word) × State) := do
  let sd : Word := s.frame.sds.getD l 0
  if sd = 0 then failWith (exc 6 1 0)
  else if s.frame.stklim.toNat < sd.toNat then failWith (exc 6 0 sd.toNat)
  else
    let as ← fixedAccess accRead (BitVec.twoPow 32 l) 8 0 0x4 (fun _ => sd - 8) s
    match as.findSome? fun a => a.pieces.findSome? (failureFault s) with
    | some e => failWith e
    | none =>
      let silent := silentHomes s (as.flatMap (·.pieces))
      if silent ≠ [] then .error (.hold (waitPeers false silent s))
      else if strongWaits as s then .error (.hold s.waits)
      else
        let q := loadLanes as r.2
        let ret := wordAt (bytesFor q.1 l) 0
        match unaligned ret with
        | some e => failWith e
        | none => return (r.1 ++ [(l, ret)], q.2)

/-- RET (R145): lane by lane, the lowest faulting lane decides (R364). -/
def execRet (g : Guard) (s : State) : Out :=
  insn (.ret g) s fun act => do
    let r ← (lanesIn act).foldlM (popLane s) ([], s)
    let t := r.2.updFrame fun f =>
      { f with sds := lanesOf fun l => if act.getLsbD l then f.sds.getD l 0 - 8 else f.sds.getD l 0 }
    return (t.branch act fun l => (amGet r.1 l).getD 0).settled

/-- A prefetch brings the line of a lane that raises no failure into its home slice, and into the L1 or the constant
cache (R215, R227). -/
def prefetchLane (l : Nat) (o pol : Word) (l1 : Bool) (s : State) : State :=
  let seg := polSeg pol
  if seg = 1 ∨ seg = 2 then s
  else
    match segFault s l seg o.toNat 1 false with
    | some _ => s
    | none =>
      match pieceAt s accRead (segVa s l seg o.toNat) 1 with
      | .error _ => s
      | .ok p =>
        let s := reachPiece (s.lineVia pol false p.va) p (usePiece accRead p s)
        match p.loc, p.leaf with
        | .mem a, some lf =>
          let line := lineOf a
          let tag := if seg = 3 then constLine s.group.job p.va else line
          let fresh : LineCopy :=
            { line := tag, bytes := (List.range 128).map fun k => homeByte s lf p.va (line * 128 + k), seen := [] }
          if !l1 || polNt pol then s
          else if seg = 3 then
            if (copyOf s.core.ccache tag).isSome then s
            else { s with core := { s.core with ccache := (fresh :: s.core.ccache).take 512 } }
          else if lf.order = 0 ∨ (copyOf s.core.l1 line).isSome then s
          else { s with core := { s.core with l1 := (fresh :: s.core.l1).take (l1Bytes s / 128) } }
        | _, _ => s

/-- A lane's prefetch would reach host memory (R358). -/
def prefetchesHost (s : State) (l : Nat) (o pol : Word) : Bool :=
  let seg := polSeg pol
  !(seg == 1 || seg == 2) && (segFault s l seg o.toNat 1 false).isNone &&
    (match pieceAt s accRead (segVa s l seg o.toNat) 1 with | .ok p => p.host s | .error _ => false)

/-- PFT at one level (R227): only policy-word faults; inside a transaction, a line of host memory aborts (R358). -/
def pftExec (i : Instr) (a b : Reg) (l1 : Bool) (s : State) : Out :=
  insn i s fun act => do
    firstFail act fun l =>
      policyFault { segs := [0, 1, 2, 3, 4], orders := [0, 2, 4], atop := fun n => n == 0 } (s.v b.toNat l) l
    if s.frame.tx.active && (lanesIn act).any (fun l => prefetchesHost s l (s.v a.toNat l) (s.v b.toNat l)) then
      .error (.abort 4 0)
    else return ((lanesIn act).foldl (fun t l => prefetchLane l (s.v a.toNat l) (s.v b.toNat l) l1 t) s).advance

/-- PFT.l1 (R227). -/
def execPftL1 (a b : Reg) (g : Guard) (s : State) : Out := pftExec (.pftL1 a b g) a b true s
/-- PFT.llc (R227). -/
def execPftLlc (a b : Reg) (g : Guard) (s : State) : Out := pftExec (.pftLlc a b g) a b false s

/-- A dirty line is written to HBM: the HBM image catches up (R228). -/
def writeBack (line : Nat) (s : State) : State := { s with hbm := amDel line s.hbm }

/-- A flush of each distinct line the active lanes name; the warp's earlier stores to the line go first, and the flush
waits while one to a silent peer is not acknowledged, or while the home where it acts does not answer: far says that it
acts there (R228). DESIGN CHOICE: R206 is checked for an access of 1 byte at the offset, since R228 names no width: log
entry 76. -/
def flushExec (i : Instr) (a : Reg) (far : Bool) (f : Nat → State → State) (s : State) : Out :=
  insn i s fun act => do
    let as ← fixedAccess accRead act 1 0 0 (s.v a.toNat) s
    let ps := as.flatMap (·.pieces)
    let silent := silentHomes s ps
    if far && !silent.isEmpty then return waitPeers false silent s
    let lines := distinct (ps.filterMap fun p => match p.loc with | .mem x => some (lineOf x) | _ => none)
    let t := lines.foldl (fun t line => drainLine (.mem line) t) (ps.foldl (fun t p => usePiece accRead p t) s)
    if t.core.pend.any fun e => lines.any fun n => e.loc.line == .mem n then return t.waits
    else return (lines.foldl (fun t line => f line t) t).settled.advance

/-- CFLUSH.wb (R228). -/
def execCflushWb (a : Reg) (g : Guard) (s : State) : Out := flushExec (.cflushWb a g) a true writeBack s
/-- CFLUSH.inv (R228). -/
def execCflushInv (a : Reg) (g : Guard) (s : State) : Out := flushExec (.cflushInv a g) a false dropCopy s
/-- A line leaves its home slice and the issuing core's L1, written back first; carved storage is not affected (R219,
R228). -/
def flushLine (line : Nat) (s : State) : State :=
  if 0xFF0000000000 ≤ line * 128 % 2 ^ 48 then s else dropCopy line (evictLine line s)

/-- CFLUSH.wbinv: a marked line that leaves its slice drops the shared loads first (R167, R228). -/
def execCflushWbinv (a : Reg) (g : Guard) (s : State) : Out := flushExec (.cflushWbinv a g) a true flushLine s

/-- FENCEW (R204): the warp's accesses are performed with respect to every lane of the warp: its writes in flight to
homes on this device at the home, and its lanes all read those that are on their way to a peer. No line of the
write-combining buffer drains (R331). -/
def execFencew (g : Guard) (s : State) : Out :=
  insn (.fencew g) s fun act =>
    if act = 0 then .ok s.advance
    else
      .ok (widenOwn (drainOwn s)).advance

/-- A removal from the memo of the issuing core alone (R166). -/
def forgetCore (hit : List (Nat × Nat) → Bool → Bool) (s : State) : State :=
  let us := (s.groupsOn s.core.id).map (·.uid)
  ({ s with core := s.core.forget hit } : State).mapWarps fun w => if us.contains w.group then w.forget hit else w

/-- FENCE (R334, R335): what FENCEW does, and the order of its kind: every write of the core to a home on this device is
performed, and those to peers are shown as far as its scope reaches; at node or sys scope, but for kind acq, the
write-combining buffer drains and every answer of a peer is waited for (R331, R333). Dropping the L1 at team scope is log
entry 21. -/
def execFence (d : Reg) (sc k : BitVec 3) (s : State) : Out :=
  insn (.fence d sc k) s fun act =>
    let scope := sc.toNat
    let node := decide (4 ≤ scope) && k != 1
    let t := widenOwn (drainWhere (fun e => e.isLocal s || (e.buffered && node)) s)
    let t := if k = 1 then t else if node then releaseFar t else releaseNear scope (fun _ => true) t
    if node && t.owed then .ok t.waits
    else
      let t := if k = 0 ∨ k = 1 then acquire scope t else t
      let t := if 1 ≤ scope then forgetCore (fun ls _ => !ls.isEmpty) t else t
      let m : Word := if node then t.warp.lost.setWidth 32 else 0
      let t : State := if node then { t with warp := { t.warp with lost := 0 } } else t
      .ok (t.setV d.toNat act fun _ => m).settled.advance

end Sys2Proof.Machine
end

