-- ==== Sys2Proof/Machine/Atomics.lean ====
section
/-!
DEFINITION. Atomics at their homes (R312 to R317).
-/
namespace Sys2Proof.Machine

/-- The policy rule of an atomic instruction (R314). -/
def atomRule (orders : List Nat) (atop : Nat → Bool) : PolicyRule := { segs := [0, 1], orders := orders, atop := atop }

/-- ATOP names an operation (R313). -/
def atopOk (n : Nat) : Bool := decide (1 ≤ n) && decide (n ≤ 12)

/-- The atomic-permit fault of a piece: another chip's page without RATOM (R314). -/
def permitFault (s : State) (p : Piece) : Option Exc :=
  match p.leaf with
  | some lf => if p.remote s ∧ !lf.ratom then some (exc 9 0 p.va lf.aperture) else none
  | none => none

/-- An atomic on a poisoned line raises a register-poison fault; it names the operand register (R404). -/
def linePoison (s : State) (d : Reg) (a : LaneAcc) : Option Exc :=
  if a.pieces.any (badPiece s) then some (exc 18 0 0 (s.arch d.toNat % 1024 + a.lane * 65536)) else none

/-- A write that waits on MIGRATING stops its instruction: the warp executes it again (R238). -/
def waitMigrating (ps : List Piece) (s : State) : Except Stop Unit :=
  match migrate ps s with
  | none => .ok ()
  | some (.ok t) => .error (.hold t)
  | some (.error e) => .error e

/-- The checks of an atomic, in the order of R314, all lanes before the next, the wait on a MIGRATING page among them,
then what the peer refuses. -/
def atomChecked (r : PolicyRule) (d : Reg) (act : Word) (off pol : Nat → Word) (s : State) :
    Except Stop (List LaneAcc) := do
  firstFail act fun l => policyFault r (pol l) l
  firstFail act fun l => segFault s l (polSeg (pol l)) (off l).toNat 4 true
  firstFail act fun l => alignFault (off l).toNat 4
  let as ← resolve s accWrite ((lanesIn act).map fun l =>
    { lane := l, seg := polSeg (pol l), off := (off l).toNat, w := 4, pol := pol l, pieces := [] })
  let first (f : LaneAcc → Option Exc) : Except Stop Unit :=
    match as.findSome? f with
    | some e => failWith e
    | none => .ok ()
  waitMigrating (as.flatMap (·.pieces)) s
  first fun a => a.pieces.findSome? (permitFault s)
  first fun a => a.pieces.findSome? (refusalFault s)
  first (linePoison s d)
  return as

/-- The word at a piece's home. -/
def wordAtPiece (s : State) (p : Piece) : Word := wordOfList ((List.range 4).map (pieceByte s p))

/-- A word is written at a piece's home. -/
def putWord (v : Via) (p : Piece) (w : Word) (s : State) : State := writeLoc v (p.epoch s) p.loc (leBytes 4 w.toNat) s

/-- What a step at the home answers: the new word, if it writes, and flags. -/
abbrev HomeFn := Word → Option Word × Flags

/-- One atomic at its home: the old word and the flags of the operation (R312, R315). -/
def atomStep (f : HomeFn) (a : LaneAcc) (s : State) : (Word × Flags) × State :=
  match a.pieces.head? with
  | none => ((0, 0), s)
  | some p =>
    let v := s.lineVia a.pol false p.va
    let s := reachPiece v p (drainLine p.loc.line s)
    let x := wordAtPiece s p
    let r := f x
    let s := usePiece (if r.1.isSome then accWrite else accRead) p s
    ((x, r.2), match r.1 with | some w => putWord v p w s | none => s)

/-- The lanes' atomics in ascending order (R316). -/
def atomSteps (f : Nat → HomeFn) (as : List LaneAcc) (s : State) : List (Nat × Word × Flags) × State :=
  as.foldl (fun r a =>
    let q := atomStep (f a.lane) a r.2
    (r.1 ++ [(a.lane, q.1)], q.2)) ([], s)

/-- A lane's piece is homed on a failed peer. -/
def LaneAcc.failed (s : State) (a : LaneAcc) : Bool := a.pieces.any fun p => p.remote s && s.failedPeer (p.chip s)

/-- An atomic that returns a word: waits on silent peers, releases, is performed, acquires. Lanes to
a failed peer raise the peer-failure fault once the other lanes have been performed; whole names the lanes of an
instruction whose one request stands for all of them (R316, R317). -/
def atomPerform (i : Instr) (whole : Option Word) (as : List LaneAcc) (f : Nat → HomeFn)
    (k : List (Nat × Word × Flags) → Word → State → State) (s : State) : Except Stop State :=
  let silent := silentHomes s (as.flatMap (·.pieces))
  if silent ≠ [] then .ok (waitPeers true silent s)
  else if strongWaits as s then .ok s.waits
  else
    releasing as s fun s =>
      let good := as.filter fun a => !a.failed s
      let bad := as.filter fun a => a.failed s
      let r := atomSteps f good s
      let t := acquireOf good r.2
      match bad.head?.bind fun a => a.pieces.findSome? (failureFault s) with
      | none => .ok (k r.1 s.lanes t).settled
      | some e =>
        let m := whole.getD (maskList (bad.map (·.lane)))
        let u := k r.1 (s.lanes &&& ~~~m) t
        .ok (raise (wordOf i) m e { u.settled with lanes := m })

/-- Old words and flags go to the lanes that were performed, and the lanes of a mask move on. -/
def atomResult (d : Reg) (rs : List (Nat × Word × Flags)) (go : Word) (s : State) : State :=
  let m := maskList (rs.map (·.1))
  ((s.setV d.toNat m fun l => ((amGet rs l).map (·.1)).getD 0).orFlags m fun l => ((amGet rs l).map (·.2)).getD 0).setPcs go
    fun l => s.frame.pcs.getD l 0 + 4

/-- ATOM (R315). -/
def execAtom (d a b : Reg) (g : Guard) (s : State) : Out :=
  insn (.atom d a b g) s fun act => do
    let as ← atomChecked (atomRule [0, 1, 2, 3] atopOk) d act (s.v a.toNat) (s.v b.toNat) s
    atomPerform (.atom d a b g) none as (fun l x =>
      let r := atomOp (polAtop (s.v b.toNat l)) x (s.v d.toNat l)
      (some r.1, r.2)) (atomResult d) s

/-- ATOMC (R315). -/
def execAtomc (d a b : Reg) (g : Guard) (s : State) : Out :=
  insn (.atomc d a b g) s fun act => do
    let as ← atomChecked (atomRule [0, 1, 2, 3] fun n => n == 0) d act (s.v a.toNat) (s.v b.toNat) s
    atomPerform (.atomc d a b g) none as (fun l x =>
      (if x = s.v d.toNat l then some (s.v (d.toNat + 1) l) else none, 0)) (atomResult d) s

/-- A RED's lane: plain to a peer's RC or UO page gathers in the write-combining buffer; to a failed peer it is lost
(R316, R331). -/
def redLane (d b : Reg) (s0 : State) (a : LaneAcc) (s : State) : State :=
  let op := polAtop (s0.v b.toNat a.lane)
  let y := s0.v d.toNat a.lane
  match a.pieces.head? with
  | none => s
  | some p =>
    match p.loc, p.leaf with
    | .mem x, some lf =>
      if p.remote s then
        let e : PWrite := { s.newWrite a.lane p a.pol with bytes := leBytes 4 y.toNat, op := some op }
        let s := dropCopy (lineOf x) (usePiece accWrite p s)
        if s.failedPeer lf.aperture then loseWrite s.warp.uid lf.aperture s
        else if pieceOrder a.pol p = 0 ∧ !p.so then bufferWrite e s
        else sendWrite e (drainLine p.loc.line s)
      else (atomStep (fun w => (some (atomOp op w y).1, 0)) a s).2
    | _, _ => (atomStep (fun w => (some (atomOp op w y).1, 0)) a s).2

/-- RED (R315, R316): flags are recorded nowhere. -/
def execRed (d a b : Reg) (g : Guard) (s : State) : Out :=
  insn (.red d a b g) s fun act => do
    let as ← atomChecked (atomRule [0, 2] atopOk) d act (s.v a.toNat) (s.v b.toNat) s
    if strongWaits as s then .ok s.waits
    else releasing as s fun t => .ok ((drainFull (as.foldl (fun u x => redLane d b s x u) t)).settled).advance

/-- The sum of the active lanes' increments below lane l (R317). -/
def sumBelow (s : State) (d : Reg) (act : Word) (l : Nat) : Word :=
  ((lanesIn act).filter (· < l)).foldl (fun x j => x + s.v d.toNat j) 0

/-- AGGINC (R317): one atomic for the warp's increments; each lane receives its slot. -/
def execAgginc (d a b : Reg) (g : Guard) (s : State) : Out :=
  insn (.agginc d a b g) s fun act =>
    if act = 0 then .ok s.advance
    else do
      let as ← atomChecked (atomRule [0, 1, 2, 3] fun n => n == 0) d (lowMask act) (s.v a.toNat) (s.v b.toNat) s
      atomPerform (.agginc d a b g) (some act) as (fun _ x => (some (x + sumBelow s d act 32), 0))
        (fun rs go t =>
          match rs.head? with
          | some r =>
            (t.setV d.toNat act fun l => r.2.1 + sumBelow s d act l).setPcs s.lanes fun l => s.frame.pcs.getD l 0 + 4
          | none => t.setPcs go fun l => s.frame.pcs.getD l 0 + 4) s

end Sys2Proof.Machine
end

