-- ==== Sys2Proof/Machine/Transact.lean ====
section
/-!
DEFINITION. Transactions: open, close, branch, retry and query (R263 to R276), sleep and wake (R272 to R274), and the
deliveries of aborts and wakes to a warp.
-/
namespace Sys2Proof.Machine

/-- The issuing warp's transaction state is changed. -/
def State.updTx (g : Tx → Tx) (s : State) : State := s.updFrame fun f => { f with tx := g f.tx }

/-- A TXB in a converged warp outside a transaction starts an attempt. A TXB at another address than the last aborted
one, or after an end that was not CONFLICT, starts a new run (R271, R275). -/
def startTx (target : Word) (s : State) : State :=
  s.updTx fun t =>
    let again := t.run == some s.pc
    { t with
      cause := 0
      active := true
      altNo := 0
      user := 0
      conflicts := if again then t.conflicts else 0
      target := target
      txb := s.pc
      run := none
      age := if again then t.age else (s.part.tick, s.core.id, s.warp.slot)
      rset := []
      wset := []
      writes := []
      homes := []
      clears := []
      scope := 0
      alts := []
      pending := false
      backoff := none }

/-- TXB (R275). The warp's own stores in flight, and those its group has released to it, are performed first, so that a
tracked load finds them at their homes (R324, R327). A TXB in a warp that is not converged ends the run and keeps the
rest of the status (R271, R275). -/
def execTxb (i : BitVec 21) (s : State) : Out :=
  insn (.txb i) s fun _ =>
    let target := s.pc + 4 + brOffset i
    if s.frame.tx.active then .error (.abort 7 0)
    else if !s.converged then .ok ((s.updTx fun t => { t with cause := 8, run := none }).setPcs s.lanes fun _ => target)
    else .ok (startTx target (drainWhere (fun e => e.observed s && e.isLocal s) (drainOwn s))).advance

/-- A tag of a group is cleared: status, and with nothing outstanding its DONE bit and shadows (R262). -/
def clearTag (g n : Nat) (s : State) : State :=
  let tag := (s.groupOf g).tags.getD n { out := 0, done := false, err := false, code := 0, cflags := 0 }
  let t := s.updGroup g fun x => { x with tags := x.tags.zipIdx.map fun p =>
    if p.2 = n then
      { p.1 with err := false, code := 0, cflags := 0, done := p.1.done && p.1.out != 0 }
    else p.1 }
  if tag.out = 0 then
    t.updCore (s.groupOf g).core fun c => { c with shadows := c.shadows.filter fun b => !(b.group == g && b.tag == n) }
  else t

/-- TAGCLR on the tags of a mask; the tag pseudo-line is written (R255, R262). -/
def clearTags (g : Nat) (m : DWord) (s : State) : State :=
  let ns := (List.range (s.groupOf g).tags.length).filter fun n => m.getLsbD n
  touchLine (.tags g) (ns.foldl (fun t n => clearTag g n t) s)

/-- Commit: every write becomes visible in one step under the key it was made with, with the deferred tag clears; the
commit acquires and releases at chip scope (R262, R268). -/
def commitTx (s : State) : State :=
  let tx := s.frame.tx
  let s := s.updTx fun t =>
    { t with cause := 0, active := false, conflicts := 0, user := 0, run := none, rset := [], wset := [], writes := [],
             homes := [], clears := [], scope := 0, alts := [], pending := false }
  let s := acquire 3 s
  let s := tx.writes.reverse.foldl (fun t w =>
    let home := match w.1 with
      | .mem a => amGet tx.homes (lineOf a)
      | .scratch _ _ => none
    writeLoc ((home.map (·.1)).getD (t.viaOf t.job none)) (home.bind (·.2)) w.1 [w.2] t) s
  tx.clears.reverse.foldl (fun t m => clearTags s.group.uid m t) s

/-- A transaction-state fault outside a transaction (R275). -/
def needTx (s : State) : Except Stop Unit := if s.frame.tx.active then .ok () else failWith (exc 19 1)

/-- TXE (R275): the stores in flight that the commit releases are performed first, at the widest scope at which a tracked
store releases or at chip scope, and one that meets the sets of the attempt aborts it; a CONFLICT decided and not yet
delivered is taken instead (R266, R267, R268, R336). -/
def execTxe (s : State) : Out :=
  insn .txe s fun _ => do
    needTx s
    let t ← releaseFirst (max 3 s.frame.tx.scope) s
    if t.frame.tx.pending then return abortTx 1 0 t else return (commitTx t).settled.advance

/-- ORELSE (R272, R275). -/
def execOrelse (i : BitVec 21) (s : State) : Out :=
  insn (.orelse i) s fun _ => do
    needTx s
    if 4 ≤ s.frame.tx.alts.length then .error (.abort 7 0)
    else
      return (s.updTx fun t => { t with alts :=
        { target := s.pc + 4 + brOffset i, writes := t.writes, homes := t.homes, wset := t.wset
          clears := t.clears, scope := t.scope } :: t.alts }).advance

/-- The entries the sleep sets of a core's resident warps hold in its wake table (R273). -/
def wakeEntries (s : State) : Nat :=
  ((s.allWarps.filter fun w => w.asleep &&
      (let g := s.groupOf w.group
       (g.status == .resident || g.status == .draining) && g.core == s.core.id)).map fun w => w.sleepSet.length).sum

/-- A warp gives up its watches (R273). -/
def dropWatches (uid : Nat) (s : State) : State := { s with watches := s.watches.filter fun w => w.2 != uid }

/-- The home slice of a line of this device's memory, as a job of the issuing warp's partition reaches it (R218). -/
def watchSlice (s : State) (line : Nat) : Option Nat :=
  (homeDie (s.viaOf s.job none) (line * 128 % 2 ^ 48)).map fun d => homeSlice d (line * 128 % 2 ^ 48)

/-- A warp's watch enters the directory of the line's home slice; a full directory of 8192 drops its oldest watch, whose
warp is first sent a wake (R274). -/
def armWatch (uid line : Nat) (s : State) : State :=
  let mates := s.watches.filter fun w => watchSlice s w.1 == watchSlice s line
  let s : State := match mates with
    | [] => s
    | old :: _ =>
      if mates.length < 8192 then s
      else { s.updWarp old.2 (fun w => { w with woken := true }) with watches := s.watches.filter (· ≠ old) }
  { s with watches := s.watches ++ [(line, uid)] }

/-- A warp arms a watch at the home slice of every line of global memory it sleeps on; scratchpad lines and the tag
pseudo-line are watched in the core (R273). -/
def armWatches (uid : Nat) (lines : List Line) (s : State) : State :=
  lines.foldl (fun t ln => match ln with | .mem n => armWatch uid n t | _ => t) s

/-- The warp restarts at its TXB with WOKEN (R273). -/
def restartWoken (w : Warp) : Warp :=
  { w with
    asleep := false
    sleepSet := []
    woken := false
    frame := { w.frame with
      tx := { w.frame.tx with cause := 10 }
      pcs := lanesOf fun l => if w.frame.live.getLsbD l then w.frame.tx.txb else w.frame.pcs.getD l 0 } }

/-- The attempt ends in RETRY: discarded, the warp sleeps on the lines it read; a full wake table restarts it at once
(R272, R274). -/
def sleepTx (s : State) : State :=
  let tx := s.frame.tx
  let s := s.updFrame fun f =>
    { f with
      tx := { (tx.aborted 0 0 s.core.cycle) with cause := 0 }
      pcs := lanesOf fun l => if f.live.getLsbD l then tx.txb else f.pcs.getD l 0 }
  if wakeEntries s + tx.rset.length ≤ 1024 then
    armWatches s.warp.uid tx.rset { s with warp := { s.warp with asleep := true, sleepSet := tx.rset, woken := false } }
  else { s with warp := restartWoken s.warp }

/-- RETRY (R272, R276). -/
def execRetry (g : Guard) (s : State) : Out :=
  insn (.retry g) s fun _ => do
    needTx s
    if s.frame.tx.pending then .error (.abort 1 0)
    else
      match s.frame.tx.alts with
      | a :: rest =>
        return (s.updTx fun t =>
          { t with alts := rest, writes := a.writes, homes := a.homes, wset := a.wset, clears := a.clears, scope := a.scope
                   altNo := t.altNo + 1 }).setPcs
          s.frame.live fun _ => a.target
      | [] => return sleepTx s

/-- TXA (R276). -/
def execTxa (a : Reg) (g : Guard) (s : State) : Out :=
  insn (.txa a g) s fun _ => do
    needTx s
    .error (.abort 6 ((s.v a.toNat ((lowest s.frame.live).getD 0)).toNat % 256))

/-- TXQ (R270, R276). -/
def execTxq (d : Reg) (g : Guard) (s : State) : Out :=
  plain (.txq d g) s fun act => s.setV d.toNat act fun _ => s.frame.tx.status

/-- Group and core in the issuing places, whatever warp stands there. -/
def State.focusGroup (uid : Nat) (s : State) : State :=
  let s := if s.group.uid = uid then s
    else
      match s.groups.find? fun g => g.uid == uid with
      | none => s
      | some g => { s with group := g, groups := s.group :: s.groups.filter fun x => x.uid != uid }
  if s.core.id = s.group.core then s
  else { s with core := s.coreOf s.group.core, cores := s.core :: s.cores.filter fun c => c.id != s.group.core }

/-- The issuing place taken by another warp, with its group and core. -/
def State.focus (uid : Nat) (s : State) : State :=
  if s.warp.uid = uid then s.focusGroup s.warp.group
  else
    match s.warps.find? fun w => w.uid == uid with
    | none => s
    | some w => ({ s with warp := w, warps := s.warp :: s.warps.filter fun x => x.uid != uid } : State).focusGroup w.group

/-- WARP_WAKE: a wake reaches a sleeping warp, which restarts at its TXB (R273). Wakes may be spurious (R274). -/
def execWarpWake (uid : Nat) (s : State) : Out :=
  let w := s.warpOf uid
  .next (if w.asleep then dropWatches uid (s.updWarp uid restartWoken) else s)

/-- TX_ABORT_DELIVER: an abort decided at a home reaches its warp (R267, R269). -/
def execTxAbortDeliver (uid : Nat) (s : State) : Out :=
  let w := s.warpOf uid
  if w.frame.tx.active && w.frame.tx.pending then .next (abortTx 1 0 (s.focus uid)) else .next s

/-- CONFLICT_BACKOFF_END: the wait after a CONFLICT abort is over (R271). -/
def execConflictBackoffEnd (uid : Nat) (s : State) : Out :=
  let c := s.coreOf (s.groupOf (s.warpOf uid).group).core
  .next (s.updWarp uid fun w =>
    match w.frame.tx.backoff with
    | some t => if t ≤ c.cycle then { w with frame := { w.frame with tx := { w.frame.tx with backoff := none } } } else w
    | none => w)

end Sys2Proof.Machine
end

