-- ==== Sys2Proof/Machine/Objects.lean ====
section
/-!
DEFINITION. Objects that the device updates in one step at their home: phasers (R278 to R282) and pipeline queues
(R114, R121).
-/
namespace Sys2Proof.Machine

/-- n bytes of an object at its home, as the transaction sees them inside one. -/
def objRead (s : State) (p : Piece) (o n : Nat) : List Byte :=
  (List.range n).map fun i => if s.frame.tx.active then txByte s p (o + i) else pieceByte s p (o + i)

/-- Bytes of an object are written at its home, and the core's copy of the line takes them; inside a transaction they
wait for its commit. -/
def objWrite (p : Piece) (o : Nat) (bs : List Byte) (s : State) : State :=
  if s.frame.tx.active then txWrite (s.viaOf s.job none) p o bs s
  else
    let s := match p.loc with
      | .mem a => dropCopy (lineOf a) s
      | .scratch _ _ => s
    writeLoc (s.viaOf s.job none) (p.epoch s) (p.loc.plus o) bs s

/-- The issuing core's writes in flight to a piece's line are performed first (R324). -/
def drainPiece (p : Piece) (s : State) : State := drainLine p.loc.line s

/-- Reading and writing at a home. -/
def accRw : Acc := { read := true, write := true, exec := false, slab := false }

/-- The fields of a phaser object (R278). -/
structure Phaser where
  phase : Word
  sig : Nat
  wait : Nat
  arr : Nat
  scope : Bool
  psig : Int
  pwait : Int
  ok : Bool
  deriving DecidableEq, Repr

/-- A 16-bit two's-complement value. -/
def sInt16 (n : Nat) : Int := if n < 32768 then n else (n : Int) - 65536

/-- A phaser read from its 32 bytes; ok says that LIVE is 1, the zero fields are 0 and SCOPE suits the segment. -/
def phaserOf (bs : List Byte) (scratch : Bool) : Phaser :=
  let w2 := fieldB bs 8 4
  let w3 := fieldB bs 12 4
  { phase := BitVec.ofNat 32 (fieldB bs 0 4)
    sig := fieldB bs 4 2
    wait := fieldB bs 6 2
    arr := w2 % 65536
    scope := w3.testBit 1
    psig := sInt16 (fieldB bs 16 2)
    pwait := sInt16 (fieldB bs 18 2)
    ok := w2 / 65536 == 0 && w3 / 4 == 0 && w3.testBit 0 && fieldB bs 20 12 == 0 && !(scratch && w3.testBit 1) }

/-- The 32 bytes of a phaser. -/
def Phaser.bytes (p : Phaser) : List Byte :=
  leBytes 4 p.phase.toNat ++ leBytes 2 p.sig ++ leBytes 2 p.wait ++ leBytes 4 p.arr ++
    leBytes 4 (1 + (if p.scope then 2 else 0)) ++ leBytes 2 (p.psig % 65536).toNat ++ leBytes 2 (p.pwait % 65536).toNat ++
    leBytes 12 0

/-- The phase advances (R280). -/
def Phaser.advance (p : Phaser) : Phaser :=
  { p with phase := p.phase + 1, arr := 0, sig := ((p.sig : Int) + p.psig).toNat, wait := ((p.wait : Int) + p.pwait).toNat,
           psig := 0, pwait := 0 }

/-- One more arrival, which may advance the phaser (R280). -/
def Phaser.arrive (p : Phaser) : Phaser :=
  let q := { p with arr := (p.arr + 1) % 65536 }
  if q.arr = q.sig then q.advance else q

/-- Counts stay in 0 to 0xFFFF (R279, R281). -/
def Phaser.inRange (p : Phaser) : Bool :=
  let ok (n : Int) : Bool := decide (0 ≤ n) && decide (n ≤ 65535)
  ok p.sig && ok p.wait && ok ((p.sig : Int) + p.psig) && ok ((p.wait : Int) + p.pwait)

/-- A PH operation on an object: the phase number returned and the object after, or a phaser detail. -/
abbrev PhFn := Nat → Phaser → Except Nat (Word × Phaser)

/-- The range check of R281 on an update. -/
def phCheck (r : Word) (q after : Phaser) : Except Nat (Word × Phaser) := if q.inRange then .ok (r, after) else .error 3

/-- PHREG's step (R281). -/
def phReg : PhFn := fun mode p =>
  let s := mode % 2
  let w := mode / 2
  if p.sig = 0 then
    let q := { p with sig := p.sig + s, wait := p.wait + w }
    phCheck p.phase q q
  else
    let q := { p with psig := p.psig + s, pwait := p.pwait + w }
    phCheck (p.phase + 1) q q

/-- PHDROP's step (R281). -/
def phDrop : PhFn := fun mode p =>
  let s := mode % 2
  let w := mode / 2
  let q := { p with psig := p.psig - s, pwait := p.pwait - w }
  phCheck (p.phase + 1) q (if s = 1 then q.arrive else q)

/-- PHARR's step (R281): an advance that would take a count out of range changes nothing. -/
def phArr : PhFn := fun _ p =>
  if p.sig = 0 then .error 2
  else if (p.arr + 1) % 65536 = p.sig then phCheck p.phase p p.arrive
  else .ok (p.phase, p.arrive)

/-- The operand word of a PH instruction is laid out as R279; counts says that MODE names members. -/
def phWordOk (x : Word) (counts : Bool) : Bool :=
  bits x.toNat 3 2 == 0 && (if counts then bits x.toNat 1 0 != 0 else bits x.toNat 1 0 == 0)

/-- A phaser fault, naming the object's offset (R279, R361). -/
def phFault (x : Word) (d : Nat) : Exc := exc 20 d (x.toNat / 32 * 32)

/-- The object of an operand word: its piece, after the checks of R279 in order: the word, segment and translation, the
page, the object; the core's stores in flight to the object are performed before it is read (R324). -/
def phObject (x : Word) (counts : Bool) (acc : Acc) (l : Nat) (s : State) : Except Stop (Piece × Phaser × State) := do
  if !phWordOk x counts then failWith (phFault x 1) else pure ()
  let seg := if x.getLsbD 4 then 0 else 1
  let o := x.toNat / 32 * 32
  match segFault s l seg o 32 acc.write with
  | some e => failWith e
  | none => pure ()
  let ps ← piecesOf s acc l seg o 32
  match ps with
  | [p] =>
    if (match p.leaf with | some lf => lf.order == 2 || p.remote s | none => false) then failWith (phFault x 4)
    else
      let t := drainPiece p s
      let ph := phaserOf (objRead t p 0 32) (seg == 1)
      if s.frame.tx.active && p.host s then .error (.abort 4 0)
      else if ph.ok then return (p, ph, t) else failWith (phFault x 1)
  | _ => failWith { (phFault x 1) with cls := 4, detail := 0, addr := BitVec.ofNat 64 o }

/-- The scope of a phaser's arrivals and reads: group or chip (R278). -/
def Phaser.scopeCode (p : Phaser) : Nat := if p.scope then 3 else 1

/-- An update of a phaser (R280, R281). -/
def phExec (i : Instr) (d a : Reg) (counts : Bool) (f : PhFn) (s : State) : Out :=
  insn i s fun act =>
    match lowest act with
    | none => .ok s.advance
    | some l => do
      let x := s.v a.toNat l
      let (p, ph, s) ← phObject x counts accRw l s
      match f (bits x.toNat 1 0) ph with
      | .error det => failWith (phFault x det)
      | .ok _ =>
        match migrate [p] s with
        | some r => r
        | none => do
          let s ← if s.frame.tx.active then trackAll false [p.loc.line] s else .ok s
          let s ← if s.frame.tx.active then trackAll true [p.loc.line] s else .ok s
          let t := usePiece accWrite p (release ph.scopeCode s).1
          match f (bits x.toNat 1 0) (phaserOf (objRead t p 0 32) false) with
          | .error det => failWith (phFault x det)
          | .ok r => return ((objWrite p 0 r.2.bytes t).setV d.toNat act fun _ => r.1).settled.advance

/-- PHREG (R281). -/
def execPhreg (d a : Reg) (g : Guard) (s : State) : Out := phExec (.phreg d a g) d a true phReg s
/-- PHDROP (R281). -/
def execPhdrop (d a : Reg) (g : Guard) (s : State) : Out := phExec (.phdrop d a g) d a true phDrop s
/-- PHARR (R281). -/
def execPharr (d a : Reg) (g : Guard) (s : State) : Out := phExec (.pharr d a g) d a false phArr s

/-- PHRD (R281): an acquire at SCOPE. -/
def execPhrd (d a : Reg) (g : Guard) (s : State) : Out :=
  insn (.phrd d a g) s fun act =>
    match lowest act with
    | none => .ok s.advance
    | some l => do
      let x := s.v a.toNat l
      let (p, ph, s) ← phObject x false accRead l s
      let s ← if s.frame.tx.active then trackAll false [p.loc.line] s else .ok s
      return ((acquire ph.scopeCode (usePiece accRead p s)).setV d.toNat act fun _ => ph.phase).advance

-- Pipeline queues

/-- A queue header's fields (R114). -/
structure QHead where
  head : Nat
  tail : Nat
  array : Nat
  cap : Nat
  qctl : Nat
  deriving DecidableEq, Repr

/-- A queue header read from its 64 bytes. -/
def qheadOf (bs : List Byte) : QHead :=
  { head := fieldB bs 0 8, tail := fieldB bs 8 8, array := fieldB bs 16 8, cap := fieldB bs 24 4, qctl := fieldB bs 28 4 }

/-- CLOSED (R114). -/
def QHead.closed (h : QHead) : Bool := h.qctl.testBit 16

/-- A piece of a queue, whose n bytes must stand outside the stack regions of the job's live launches (R210). -/
def queuePiece (acc : Acc) (va n : Nat) (s : State) : Except Stop Piece :=
  if (List.range n).any fun i => inForeignStack s s.group.job s.ownStacks (va + i) then failWith (exc 5 4 va)
  else pieceAt s acc va n

/-- The header of a queue of the issuing launch's pipeline (R121). -/
def queueHead (q : Nat) (s : State) : Except Stop Piece :=
  let gr := s.graphOf s.launch.graph
  if !gr.pipeline ∨ s.launch.node.isNone ∨ gr.qcount ≤ q then failWith (exc 12 1)
  else queuePiece accRw (gr.qtab + 64 * q) 64 s

/-- The item slots that k items from count c take. -/
def itemSlots (h : QHead) (c k : Nat) (acc : Acc) (s : State) : Except Stop (List Piece) :=
  (List.range k).mapM fun i => queuePiece acc (h.array + 4 * ((c + i) % h.cap)) 4 s

/-- Header and item lines join both sets of a transaction, which admits none on a UO page, of another chip or of host
memory (R121, R264, R342, R358). -/
def trackQueue (ps : List Piece) (s : State) : Except Stop State :=
  if s.frame.tx.active && ps.any (Piece.txRefused s) then .error (.abort 4 0)
  else if s.frame.tx.active then
    match trackAll false (distinct (ps.map fun p => p.loc.line)) s with
    | .ok t => trackAll true (distinct (ps.map fun p => p.loc.line)) t
    | .error e => .error e
  else .ok s

/-- A queue operation's checks and locks: header, the slots of the k items it moves, MIGRATING, tracking, ordering. -/
def queueOpen (q : Nat) (take : Bool) (n : Nat) (s : State)
    (k : Piece → QHead → List Piece → Nat → State → State) : Except Stop State := do
  let hp ← queueHead q s
  let s := drainPiece hp s
  let h := qheadOf (objRead s hp 0 64)
  let moved := if take then min n ((h.tail - h.head) % 2 ^ 64) else min n (h.cap - (h.tail - h.head) % 2 ^ 64)
  let slots ← itemSlots h (if take then h.head else h.tail) moved (if take then accRead else accRw) s
  match migrate (if take then [hp] else hp :: slots) s with
  | some r => r
  | none => do
    let s ← trackQueue (hp :: slots) s
    let s := if take then s else (release 3 s).1
    let s := usePiece (if moved = 0 then accRead else accWrite) hp (drainPiece hp s)
    let s := slots.foldl (fun t p => usePiece (if take then accRead else accWrite) p (drainPiece p t)) s
    return (k hp h slots moved s).settled.advance

/-- QPUT: lanes in ascending order while there is room; p is set in the lanes that found the queue full (R121). -/
def execQput (p : Pred) (a : Reg) (q : BitVec 6) (g : Guard) (s : State) : Out :=
  insn (.qput p a q g) s fun act =>
    if act = 0 then .ok s.advance
    else
      queueOpen q.toNat false (lanesIn act).length s fun hp h slots moved t =>
        let t := ((lanesIn act).zip slots).foldl (fun t x => objWrite x.2 0 (leBytes 4 (s.v a.toNat x.1).toNat) t) t
        let t := if moved = 0 then t else objWrite hp 8 (leBytes 8 (h.tail + moved)) t
        t.setPred p.toNat act (maskList ((lanesIn act).drop moved))

/-- QTAKE: lanes in ascending order while there are items; p is set in the lanes that found none, which receive CLOSED
(R121). -/
def execQtake (d : Reg) (p : Pred) (q : BitVec 6) (g : Guard) (s : State) : Out :=
  insn (.qtake d p q g) s fun act =>
    if act = 0 then .ok s.advance
    else
      queueOpen q.toNat true (lanesIn act).length s fun hp h slots moved t =>
        let got := ((lanesIn act).zip slots).map fun x => (x.1, wordOfList (objRead t x.2 0 4))
        let t := if moved = 0 then t else objWrite hp 0 (leBytes 8 (h.head + moved)) t
        let t := t.setV d.toNat act fun l => (amGet got l).getD (if h.closed then 1 else 0)
        (acquire 3 t).setPred p.toNat act (maskList ((lanesIn act).drop moved))

end Sys2Proof.Machine
end

