-- ==== Sys2Proof/Machine/Tensor.lean ====
section
/-!
DEFINITION. Tensors by handle: shape records and the record cache (R78 to R89), sharding entries (R102, R103, R229,
R240), tiles and elements (R84, R85), reads and writes that the device makes on a tensor's behalf, the slab index and
its rings (R100, R101), decoding a tile and re-encoding one (R302, R305 to R307).
-/
namespace Sys2Proof.Machine

/-- A tile or element address as its operands hold it: handle and I3, then two coordinates and I2 (R86, R225). -/
structure Quad where
  q0 : Word
  c0 : Word
  c1 : Word
  c2 : Word
  deriving DecidableEq, Repr

/-- The handle of an address. -/
def Quad.handle (q : Quad) : Nat := q.q0.toNat % 2 ^ 20
/-- I3 of an address. -/
def Quad.i3 (q : Quad) : Nat := q.q0.toNat / 2 ^ 20

/-- The quad at register operand a in a lane. -/
def State.quad (s : State) (a l : Nat) : Quad := { q0 := s.v a l, c0 := s.v (a + 1) l, c1 := s.v (a + 2) l, c2 := s.v (a + 3) l }

/-- A fault that names a tile or element (R361, R362). -/
def Quad.fault (q : Quad) (cls detail : Nat) (addr : Nat := 0) (aux : Nat := 0) : Exc :=
  { exc cls detail addr aux with handle := q.q0, tc0 := q.c0, tc1 := q.c1, i2 := q.c2 }

/-- The coordinate of an element address. -/
def Quad.element (q : Quad) : List Nat := [q.c0.toNat, q.c1.toNat, q.c2.toNat, q.i3]
/-- The coordinate of a tile's first element. -/
def Quad.tile (q : Quad) : List Nat := [32 * q.c0.toNat, 32 * q.c1.toNat, q.c2.toNat, q.i3]

/-- Who accesses memory on a tensor's behalf: the launch whose stacks it may reach (R210), and the copy of the issuing
core, for an engine. -/
structure Who where
  own : Option Nat
  copy : Option Nat
  /-- the segment code a segment fault of it names -/
  seg : Nat := 5
  /-- the POLICY of the record it acts under (R83) -/
  pol : Option Word := none
  /-- that word is an instruction's own, which stands in for POLICY (R83) -/
  word : Bool := false
  /-- its loads are a boosted group's (R154) -/
  boost : Bool := false
  /-- a unit's write has waited on MIGRATING for 20 000 cycles (R238) -/
  late : Bool := false
  /-- it translates through the TLBs of the issuing core (R236); a unit outside the cores walks -/
  core : Bool := true
  deriving DecidableEq, Repr

/-- How an access reaches its home slices: under a policy word with the class of its thresholds, and keep for a boosted
group's load without the non-temporal bit (R83, R154, R215). -/
def Who.via (w : Who) (s : State) (load : Bool) (j : Job) (va : Nat) : Via :=
  s.viaOf j (if load && w.boost && !((w.pol.map polNt).getD false) then some .keep
    else w.pol.map fun p => evictClass (bits p.toNat 23 16) (bits p.toNat 31 24) va)

/-- The issuing warp. -/
def State.who (s : State) : Who := { own := s.ownStacks, copy := none }

/-- The issuing warp as it loads elements and tiles: the urgency boost places what it reads (R154). -/
def State.loader (s : State) : Who := { s.who with boost := s.group.boost }

/-- An instruction acts under a policy word of its own (R83). -/
def Who.on (w : Who) (p : Word) : Who := { w with pol := some p, word := true }

/-- The operation does not go on yet: the warp executes its instruction again; an engine only waits. -/
def Who.hold (w : Who) (s : State) : Stop := .hold (if w.copy.isSome then s else s.waits)

/-- The warp or copy on whose behalf an encoder works (R305). -/
def Who.agent (w : Who) (s : State) : Nat := w.copy.getD s.warp.uid

/-- The pieces of n bytes at an address of a job (R229, R230): through the TLBs for a job of this device (R236). -/
def devPieces (w : Who) (s : State) (j : Job) (acc : Acc) (a n : Nat) : Except Stop (List Piece) :=
  let own := decide (j.chip = s.node.chip)
  if own ∧ ((List.range n).any fun i => inForeignStack s j.uid w.own (a + i)) then
    failWith (exc 5 4 a w.seg)
  else
    (splitLines a n).mapM fun p =>
      match (if own && w.core then translate s j p.1 acc else (walk s j p.1 acc).map (·.leaf)) with
      | .error f => failWith (excXlate f p.1)
      | .ok lf =>
        .ok { loc := .mem (memKey lf.aperture (lf.phys p.1)), n := p.2, va := p.1, leaf := some lf, through := some j.uid
              cached := own && w.core }

/-- Every peer that pieces lie on answers: refusals (R355), failures (R333), and a wait on a silent peer. -/
def peersReady (w : Who) (s : State) (ps : List Piece) : Except Stop Unit :=
  match ps.findSome? (refusalFault s), ps.findSome? (failureFault s),
      ps.find? (fun p => p.remote s && s.silentPeer (p.chip s)) with
  | some e, _, _ => failWith e
  | none, some e, _ => failWith e
  | none, none, some p => .error (if w.copy.isSome then .hold s else .hold (waitPeer (p.chip s) s))
  | none, none, none => .ok ()

/-- The bytes of pieces at their homes. -/
def pieceBytes (s : State) (ps : List Piece) : List Byte := ps.flatMap fun p => (List.range p.n).map (pieceByte s p)

/-- Translations of pieces are used (R237). -/
def touchPieces (acc : Acc) (ps : List Piece) (s : State) : State := ps.foldl (fun t p => usePiece acc p t) s

/-- Bytes read for a job, whether a line of them is poisoned, and the state after. An instruction's read of host memory
aborts its transaction (R358). -/
def devRead (w : Who) (j : Job) (acc : Acc) (a n : Nat) (s : State) : Except Stop (List Byte × Bool × State) := do
  let ps ← devPieces w s j acc a n
  if w.copy.isNone && s.frame.tx.active && ps.any (Piece.host s) then .error (.abort 4 0) else pure ()
  peersReady w s ps
  return (pieceBytes s ps, ps.any (badPiece s),
    ps.foldl (fun t p => reachPiece (w.via s true j p.va) p t) (touchPieces acc ps s))

/-- A little-endian value read for a job. -/
def devNat (w : Who) (j : Job) (acc : Acc) (a n : Nat) (s : State) : Except Stop (Nat × State) :=
  (devRead w j acc a n s).map fun r => (leNat r.1, r.2.2)

/-- A write through a MIGRATING page waits; past 20 000 cycles it fails with detail 8 (R238). -/
def migrateFor (w : Who) (ps : List Piece) (s : State) : Except Stop Unit :=
  match w.copy with
  | none =>
    match migrate ps s with
    | none => .ok ()
    | some (.ok t) => .error (.hold t)
    | some (.error e) => .error e
  | some c =>
    match ps.find? fun p => (p.leaf.map (·.migrating)).getD false with
    | none => .ok ()
    | some p =>
      let failed : Except Stop Unit := failWith (excXlate (migratingAt s ((p.through.map s.jobOf).getD s.job) p.va) p.va)
      if w.late then failed
      else
      match (s.core.copies.find? fun x => x.uid == c).bind (·.migSince) with
      | some t => if t + 20000 ≤ s.core.cycle then failed else .error (.hold s)
      | none =>
        .error (.hold { s with core := { s.core with copies := s.core.copies.map fun x =>
          if x.uid = c then { x with migSince := some s.core.cycle } else x } })

/-- An operation of a unit outside the cores that may wait on a MIGRATING page since a cycle: past 20 000 cycles it runs as
late. Answers with the cycle since which it waits on such a page, where it does (R238). -/
def runLate {α : Type} (since : Option Nat) (now : Nat) (f : Bool → Except Stop α) : Except Stop α × Option Nat :=
  if since.any fun t => decide (t + 20000 ≤ now) then (f true, since)
  else
    match f false, f true with
    | .error (.hold t), .error (.fault e) =>
      (.error (.hold t), if e.cls = 7 ∧ e.detail = 8 then some (since.getD now) else none)
    | r, _ => (r, none)

/-- Bytes written for a job, performed at their homes; a core's own copies of the lines take what it writes. -/
def writePieces (w : Who) (ps : List Piece) (bs : List Byte) (s : State) : State :=
  (ps.foldl (fun (r : State × List Byte) p =>
    let t := usePiece accWrite p r.1
    let v := w.via t false ((p.through.map t.jobOf).getD t.job) p.va
    let u := writeLoc v (p.epoch t) p.loc (r.2.take p.n) t
    (if w.core then patchPlace p.loc (r.2.take p.n) u else u, r.2.drop p.n)) (s, bs)).1

/-- Bytes written for a job at an address. -/
def devWrite (w : Who) (j : Job) (acc : Acc) (a : Nat) (bs : List Byte) (s : State) : Except Stop State := do
  let ps ← devPieces w s j acc a bs.length
  migrateFor w ps s
  peersReady w s ps
  return writePieces w ps bs s

-- Shape records

/-- The fields of a record's 128 bytes; an extent at or above the rank reads as 1 (R79 to R81). -/
def shapeOf (bs : List Byte) : Shape :=
  let c := fieldB bs 0 4
  { kind := bits c 3 0, rank := bits c 5 4 + 1, storage := bits c 7 6, gen := bits c 31 16
    policy := BitVec.ofNat 32 (fieldB bs 4 4)
    base := fieldB bs 8 8
    ext := (List.range 4).map fun k => if bits c 5 4 < k then 1 else fieldB bs (0x10 + 4 * k) 4
    stride := 1 :: (List.range 3).map fun k => fieldB bs (0x20 + 4 * k) 4
    index := fieldB bs 0x30 8, freering := fieldB bs 0x38 8, reclaim := fieldB bs 0x40 8, shard := fieldB bs 0x48 4
    codebook := fieldB bs 0x50 8 }

/-- Bytes of an element of a kind, 1 for kinds narrower than 8 bits. -/
def kindBytes (k : Nat) : Nat := max 1 (kindWidth k / 8)

/-- The default policy word of a record is well laid out (R83). -/
def tensorPolicyOk (p : Word) : Bool :=
  polSeg p == 0 && polOrder p == 0 && decide (polScope p < 6) && polAtop p == 0

/-- The first check of R82 that a record's bytes fail. R82 gives its rows no order; where a record breaks several, the
lowest detail is reported: DESIGN CHOICE, log entry 45. -/
def shapeBad (j : Job) (bs : List Byte) : Option Nat :=
  let r := shapeOf bs
  let c := fieldB bs 0 4
  let raw (k : Nat) : Nat := fieldB bs (0x10 + 4 * k) 4
  let strides0 : Bool := fieldB bs 0x20 12 == 0
  if r.storage = 2 ∧ j.shCount ≤ r.shard then some 1
  else if r.storage = 3 ∨ (r.storage = 1 ∧ (r.kind < 2 ∨ 7 < r.kind)) ∨
      (List.range 4).any (fun k => decide (k < r.rank) && raw k == 0) ∨
      (r.storage ≠ 0 ∧ r.rank = 4 ∧ 4096 < raw 3) then some 2
  else if bits c 15 8 ≠ 0 ∨ !(tensorPolicyOk r.policy) ∨
      (List.range 4).any (fun k => decide (r.rank ≤ k) && raw k != 0) ∨
      fieldB bs 0x2C 4 ≠ 0 ∨ fieldB bs 0x4C 4 ≠ 0 ∨ fieldB bs 0x58 40 ≠ 0 ∨
      (if r.storage = 0 then
        r.base % kindBytes r.kind ≠ 0 ∨ r.index ≠ 0 ∨ r.freering ≠ 0 ∨ r.reclaim ≠ 0 ∨ r.shard ≠ 0
      else if r.storage = 1 then
        r.base % 32 ≠ 0 ∨ !strides0 ∨ r.index % 8 ≠ 0 ∨ r.freering % 64 ≠ 0 ∨ r.reclaim % 64 ≠ 0 ∨ r.shard ≠ 0
      else r.base ≠ 0 ∨ !strides0 ∨ r.index ≠ 0 ∨ r.freering ≠ 0 ∨ r.reclaim ≠ 0) ∨
      (if r.kind = 7 ∧ r.storage ≠ 2 then r.codebook % 32 ≠ 0 else r.codebook ≠ 0) then some 3
  else none

/-- Bytes held under a job and a number, in a list of them. -/
def keptBytes (rs : List CachedRecord) (job n : Nat) : Option (List Byte) :=
  (rs.find? fun r => r.job == job && r.handle == n).map (·.bytes)

/-- The bytes of a record, from the core's record cache or from its home (R87). Only own jobs' records are cached. DESIGN
CHOICE: on replacement the record that was filled longest ago leaves; R88 names none: log entry 78. The bytes of a
poisoned line are used as they stand: log entry 49. -/
def recordBytes (w : Who) (j : Job) (h : Nat) (s : State) : Except Stop (List Byte × State) :=
  match (if j.chip = s.node.chip then keptBytes s.core.records j.uid h else none) with
  | some bs => .ok (bs, s)
  | none => do
    let r ← devRead w j accRead (j.recBase + 128 * h) 128 s
    let t := r.2.2
    return (r.1, if j.chip = s.node.chip then
      { t with core := { t.core with records := { job := j.uid, handle := h, bytes := r.1 } :: t.core.records.take 63 } }
      else t)

/-- The record as the issuing warp's instruction has used it, where it has waited since, or as it uses it now and keeps
it while it waits: no operation reads a record twice (R87). -/
def usedRecord (w : Who) (j : Job) (h : Nat) (s : State) : Except Stop (List Byte × State) :=
  match (if w.copy.isNone then keptBytes s.warp.hold.records j.uid h else none) with
  | some bs => .ok (bs, s)
  | none => do
    let (bs, t) ← recordBytes w j h s
    let keep (x : Hold) : Hold := { x with records := { job := j.uid, handle := h, bytes := bs } :: x.records }
    return (bs, if w.copy.isNone then { t with warp := { t.warp with hold := keep t.warp.hold } } else t)

/-- A use of a record (R78, R82, R87). -/
def useRecord (w : Who) (q : Quad) (j : Job) (h : Nat) (s : State) : Except Stop (Shape × State) :=
  if j.recCount ≤ h then failWith (q.fault 12 1)
  else do
    let (bs, t) ← usedRecord w j h s
    match shapeBad j bs with
    | some d => failWith (q.fault 12 d)
    | none => return (shapeOf bs, t)

/-- A coordinate lies inside the extents (R85). -/
def Shape.holds (r : Shape) (coord : List Nat) : Bool :=
  (coord.zip r.ext).all fun p => decide (p.1 < p.2)

/-- T0 and T1: tiles across and down (R85). -/
def Shape.tilesOf (r : Shape) (k : Nat) : Nat := (r.ext.getD k 1 + 31) / 32

/-- The tile number of the tile that holds a coordinate (R85). -/
def Shape.tileNumber (r : Shape) (c : List Nat) : Nat :=
  c.getD 0 0 / 32 + r.tilesOf 0 * (c.getD 1 0 / 32 + r.tilesOf 1 * (c.getD 2 0 + r.ext.getD 2 1 * c.getD 3 0))

/-- A sharding entry (R102). -/
structure ShardEntry where
  gen : Nat
  grid : List Nat
  sext : List Nat
  slots : List Nat
  zeros : Bool
  deriving DecidableEq, Repr

/-- The fields of a sharding entry's bytes; zeros says that the fields shown as zero are zero. -/
def shardOf (bs : List Byte) : ShardEntry :=
  let g := fieldB bs 0 4
  { gen := bits g 31 16
    grid := (List.range 4).map fun k => bits g (4 * k + 3) (4 * k) + 1
    sext := (List.range 4).map fun k => fieldB bs (8 + 4 * k) 4
    slots := (List.range 24).map fun k => fieldB bs (0x20 + 4 * k) 4
    zeros := fieldB bs 4 4 == 0 && fieldB bs 0x18 8 == 0 &&
      (List.range 24).all fun k => decide (fieldB bs (0x20 + 4 * k) 4 < 2 ^ 24) }

/-- The shards of an entry. -/
def ShardEntry.count (e : ShardEntry) : Nat := e.grid.foldl (· * ·) 1

/-- The parts of R102 that need no record. -/
def ShardEntry.alone (e : ShardEntry) (node : Nat) : Bool :=
  decide (e.count ≤ 24) && (e.slots.drop e.count).all (· == 0) && e.slots.all fun x => decide (x % 16 < node)

/-- The entry is valid for a record (R102); a non-zero field shown as zero makes it invalid (R5, DEDUCED). -/
def ShardEntry.valid (e : ShardEntry) (r : Shape) (node : Nat) : Bool :=
  e.alone node && e.zeros &&
    ((List.range 4).all fun k =>
      let x := e.sext.getD k 0
      if k < r.rank then x != 0 && e.grid.getD k 0 == (r.ext.getD k 1 + x - 1) / x else e.grid.getD k 0 == 1 && x == 0) &&
    e.sext.getD 0 0 % 32 == 0 && e.sext.getD 1 0 % 32 == 0

/-- Where a coordinate of a sharded tensor lies: owning chip, local handle, local coordinate, local extents and the
entry's generation (R103). -/
structure Shard where
  chip : Nat
  handle : Nat
  coord : List Nat
  ext : List Nat
  gen : Nat
  deriving DecidableEq, Repr

/-- The shard of a coordinate under a valid entry (R103). -/
def ShardEntry.shard (e : ShardEntry) (r : Shape) (coord : List Nat) : Shard :=
  let x (k : Nat) : Nat := e.sext.getD k 0
  let j (k : Nat) : Nat := if k < r.rank then coord.getD k 0 / x k else 0
  let g (k : Nat) : Nat := e.grid.getD k 1
  let slot := e.slots.getD (j 0 + g 0 * (j 1 + g 1 * (j 2 + g 2 * j 3))) 0
  { chip := slot % 16
    handle := slot / 16 % 2 ^ 20
    coord := (List.range 4).map fun k => if k < r.rank then coord.getD k 0 % x k else 0
    ext := (List.range 4).map fun k => if k < r.rank then min (x k) (r.ext.getD k 1 - j k * x k) else 1
    gen := e.gen }

/-- The bytes of a sharding entry as an access captures it; an instruction that waits keeps what it captured, which
stands though the entry closes (R240). -/
def captureEntry (w : Who) (j : Job) (k : Nat) (s : State) : Except Stop (List Byte × State) :=
  match (if w.copy.isNone then keptBytes s.warp.hold.entries j.uid k else none) with
  | some bs => .ok (bs, s)
  | none =>
    let a := j.shBase + 128 * k
    if j.closed.contains k then failWith (exc 7 7 a)
    else do
      let (bs, _, t) ← devRead w j accRead a 128 s
      let keep (x : Hold) : Hold := { x with entries := { job := j.uid, handle := k, bytes := bs } :: x.entries }
      return (bs, if w.copy.isNone then { t with warp := { t.warp with hold := keep t.warp.hold } } else t)

/-- A use of a sharded record's entry (R102, R240). -/
def useShard (w : Who) (q : Quad) (j : Job) (r : Shape) (coord : List Nat) (s : State) : Except Stop (Shard × State) := do
  let (bs, t) ← captureEntry w j r.shard s
  let e := shardOf bs
  if e.valid r s.node.size then return (e.shard r coord, t) else failWith (q.fault 12 5)

/-- A tile or element resolved to its owner: the owner's job, local handle, record and coordinate (R229). -/
structure Target where
  job : Job
  handle : Nat
  shape : Shape
  coord : List Nat
  /-- the sharding entry captured, by job and number (R240) -/
  entry : Option (Nat × Nat) := none
  deriving DecidableEq, Repr

/-- The counterpart of a job on a peer (R229). -/
def State.counterpart (s : State) (j : Job) (chip : Nat) : Option Job :=
  s.jobs.find? fun k => k.chip == chip && k.part == j.part && k.jobno == j.jobno

/-- An owning peer answers: one that has failed raises peer failure; one that is silent is waited for; one that holds no
partition of the requester's number refuses (R316, R333, R355). -/
def ownerReady (w : Who) (chip : Nat) (s : State) : Except Stop Unit :=
  if chip = s.node.chip then .ok ()
  else if s.failedPeer chip then
    failWith (exc 10 (if w.copy.isSome ∨ chip ∈ s.warp.hold.atPeer then 2 else 1) 0 chip)
  else if s.silentPeer chip then .error (if w.copy.isSome then .hold s else .hold (waitPeer chip s))
  else if (s.peerOf chip).all fun p => !(p.parts.any fun x => x.1 == s.job.part) then failWith (exc 11 1 0 chip)
  else .ok ()

/-- The local record of a shard, checked against it (R103). -/
def localRecord (w : Who) (q : Quad) (j : Job) (r : Shape) (h : Shard) (s : State) : Except Stop (Target × State) :=
  match useRecord w q j h.handle s with
  | .error (.fault e) => if e.cls = 12 then failWith (q.fault 12 6) else failWith e
  | .error e => .error e
  | .ok (lr, t) =>
    if lr.storage ≤ 1 ∧ lr.kind = r.kind ∧ lr.rank = r.rank ∧ lr.ext = h.ext then
      .ok ({ job := j, handle := h.handle, shape := lr, coord := h.coord }, t)
    else failWith (q.fault 12 6)

/-- A coordinate of a handle resolved (R229). pre is a check of the instruction's own on the record. -/
def resolveAt (w : Who) (j : Job) (q : Quad) (coord : List Nat) (pre : Shape → Option Nat) (s : State) :
    Except Stop (Target × State) := do
  let (r, s) ← useRecord w q j q.handle s
  if !r.holds coord then failWith (q.fault 12 4)
  else
    match pre r with
    | some d => failWith (q.fault 12 d)
    | none =>
      if r.storage ≠ 2 then return ({ job := j, handle := q.handle, shape := r, coord := coord }, s)
      else do
        let (h, s) ← useShard w q j r coord s
        ownerReady w h.chip s
        let owner := if h.chip = s.node.chip then some j else s.counterpart j h.chip
        match owner with
        | none => failWith (exc 7 9)
        | some cj => (localRecord w q cj r h s).map fun x => ({ x.1 with entry := some (j.uid, r.shard) }, x.2)

/-- The tile number of a target. -/
def Target.number (t : Target) : Nat := t.shape.tileNumber t.coord

/-- A position of the target's tile is overhang (R85). -/
def Target.overhang (t : Target) (pos : Nat) : Bool :=
  decide (t.shape.ext.getD 0 1 ≤ t.coord.getD 0 0 / 32 * 32 + pos % 32) ||
    decide (t.shape.ext.getD 1 1 ≤ t.coord.getD 1 0 / 32 * 32 + pos / 32)

/-- The position of the target's coordinate in its tile (R85). -/
def Target.pos (t : Target) : Nat := 32 * (t.coord.getD 1 0 % 32) + t.coord.getD 0 0 % 32

-- Dense elements

/-- The element offset of a coordinate, formed in 64 bits (R84). -/
def Shape.offset (r : Shape) (c : List Nat) : Nat := ((c.zip r.stride).map fun p => p.1 * p.2).sum % 2 ^ 64

/-- The byte address of element offset e, and whether it is the upper nibble of its byte (R58, R84). -/
def Shape.address (r : Shape) (e : Nat) : Nat × Bool :=
  if 8 ≤ kindWidth r.kind then (r.base + e * kindBytes r.kind, false)
  else if kindWidth r.kind = 6 then (r.base + e, false)
  else (r.base + e / 2, e % 2 == 1)

/-- The pattern of an element in the bytes read for it (R58). -/
def Shape.pattern (r : Shape) (high : Bool) (bs : List Byte) : Nat :=
  let x := leNat bs
  if kindWidth r.kind = 4 then (if high then x / 16 % 16 else x % 16) else x % 2 ^ kindWidth r.kind

/-- The bytes stored for an element's pattern over the byte that was there (R58). -/
def Shape.stored (r : Shape) (high : Bool) (old : Byte) (p : Nat) : List Byte :=
  if kindWidth r.kind = 4 then [BitVec.ofNat 8 (if high then p % 16 * 16 + old.toNat % 16 else old.toNat / 16 * 16 + p % 16)]
  else leBytes (kindBytes r.kind) p

/-- An engine or an instruction without a policy word of its own acts on a target under the POLICY of its record (R83). -/
def Who.under (w : Who) (t : Target) : Who := if w.word then w else { w with pol := some t.shape.policy }

/-- The scope at which a target's index entry is published and decoded: that of its record's POLICY, and never narrower
than chip (R305, R309, R330). -/
def Target.scope (t : Target) : Nat := max 3 (polScope t.shape.policy)

/-- A dense element's pattern, whether its line is poisoned, and the state after. -/
def denseRead (w : Who) (t : Target) (c : List Nat) (s : State) : Except Stop (Nat × Bool × State) := do
  let a := t.shape.address (t.shape.offset c)
  let r ← devRead (w.under t) t.job accRead a.1 (kindBytes t.shape.kind) s
  return (t.shape.pattern a.2 r.1, r.2.1, r.2.2)

/-- The codebook at the record's CODEBOOK (R62). -/
def bookOf (w : Who) (t : Target) (s : State) : Except Stop (List (BitVec 16) × State) :=
  if t.shape.kind ≠ 7 then .ok ([], s)
  else (devRead (w.under t) t.job accRead t.shape.codebook 32 s).map fun r =>
    ((List.range 16).map fun i => BitVec.ofNat 16 (fieldB r.1 (2 * i) 2), r.2.2)

-- Slab storage

/-- A seam decoder's or the encoder's read. -/
def accSlab : Acc := { read := true, write := false, exec := false, slab := true }
/-- The encoder's write. -/
def accSlabW : Acc := { read := false, write := true, exec := false, slab := true }

/-- The address of a target's index entry (R100). -/
def Target.entryAt (t : Target) : Nat := t.shape.index + 8 * t.number

/-- OFFSET of an index entry or descriptor. -/
def entOff (e : Nat) : Nat := bits e 63 28
/-- LEN of an index entry or descriptor. -/
def entLen (e : Nat) : Nat := bits e 27 16
/-- An index entry or descriptor (R100, R101). -/
def entOf (off len : Nat) : Nat := off * 2 ^ 28 + len * 2 ^ 16 + 1

/-- The first sector's address of an entry's run. -/
def Target.slabAt (t : Target) (e : Nat) : Nat := t.shape.base + 32 * entOff e

/-- A target's slab under an entry: none where VALID is 0, else its bytes and whether a line of them is poisoned. -/
def slabBytes (w : Who) (t : Target) (e : Nat) (s : State) : Except Stop (Option (List Byte × Bool) × State) :=
  if !e.testBit 0 then .ok (none, s)
  else (devRead (w.under t) t.job accSlab (t.slabAt e) (32 * entLen e) s).map fun r => (some (r.1, r.2.1), r.2.2)

/-- A target's entry and, with VALID, its slab's bytes; a reader of a tile with a slab waits while PENDING is set (R100,
R304, R305). It acquires what the tile's last encoder released (R309, R330). -/
def slabRead (w : Who) (t : Target) (s : State) : Except Stop (Nat × Option (List Byte × Bool) × State) := do
  let (e, s) ← devNat (w.under t) t.job accSlab t.entryAt 8 s
  if e.testBit 0 ∧ e.testBit 1 then .error (w.hold s)
  else (slabBytes w t e (if w.core then acquire t.scope s else s)).map fun r => (e, r.1, r.2)

/-- The decode fault of a tile (R94, R302). -/
def decodeExc (q : Quad) (addr : Nat) (f : DecFail) : Exc :=
  { q.fault 13 f.cause addr with bitoff := BitVec.ofNat 32 f.off, seam := f.seam }

/-- A slab's bytes decoded: none where there is no slab, else the tile and header word 0. -/
def decodeBytes (ts : Tables) (q : Quad) (t : Target) (e : Nat) (b : Option (List Byte × Bool)) :
    Except Stop (Option (Tile × Nat)) :=
  match b with
  | none => .ok none
  | some (bs, bad) =>
    match decodeSlab ts t.shape.kind (entLen e) bad bs with
    | .error f => failWith (decodeExc q (t.slabAt e) f)
    | .ok x => .ok (some (x, slabWord bs 0))

/-- A slab target decoded: none where VALID is 0, else the tile and header word 0. -/
def decodeAt (w : Who) (ts : Tables) (q : Quad) (t : Target) (s : State) :
    Except Stop (Nat × Option (Tile × Nat) × State) := do
  let (e, b, s) ← slabRead w t s
  let x ← decodeBytes ts q t e b
  return (e, x, s)

/-- What the encoder is to leave in a tile: a slab's bytes, no slab, or a tile to encode with a slot and a seam count
(R250, R306). -/
inductive SlabNew where
  | raw (bytes : List Byte)
  | gone
  | code (t : Tile) (slot seams : Nat)
  deriving DecidableEq, Repr

/-- Overhang positions hold symbol 0 (R85, R306). -/
def Target.trim (t : Target) (x : Tile) : Tile :=
  { x with syms := x.syms.zipIdx.map fun p => if t.overhang p.2 then 0 else p.1 }

/-- The slab-space fault of a tile with the length it needs (R307). -/
def spaceExc (q : Quad) (detail len : Nat) : Exc := q.fault 14 detail 0 len

/-- HEAD, TAIL, ARRAY and CAP of a ring (R101). A header that breaks R101's table is used as it stands, unchecked:
DESIGN CHOICE, log entry 46. -/
def ringHead (w : Who) (j : Job) (a : Nat) (s : State) : Except Stop ((Nat × Nat × Nat × Nat) × State) := do
  let r ← devRead w j accSlab a 32 s
  return ((fieldB r.1 0 8, fieldB r.1 8 8, fieldB r.1 16 8, fieldB r.1 24 4), r.2.2)

/-- A descriptor pushed onto the reclaim ring: the descriptor, then TAIL (R101). -/
def ringPush (w : Who) (t : Target) (d : Nat) (s : State) : Except Stop State := do
  let ((_, tail, array, cap), s) ← ringHead w t.job t.shape.reclaim s
  let s ← devWrite w t.job accSlabW (array + 8 * (tail % cap)) (leBytes 8 d) s
  devWrite w t.job accSlabW (t.shape.reclaim + 8) (leBytes 8 (tail + 1)) s

/-- Descriptors pushed in order. -/
def ringPushAll (w : Who) (t : Target) : List Nat → State → Except Stop State
  | [], s => .ok s
  | d :: ds, s => do
    let s ← ringPush w t d s
    ringPushAll w t ds s

/-- The first descriptor among counts c to c + n − 1 that holds a run of at least k sectors: its count and itself. -/
def scanFree (w : Who) (t : Target) (array cap k : Nat) : Nat → Nat → State → Except Stop (Option (Nat × Nat) × State)
  | 0, _, s => .ok (none, s)
  | n + 1, c, s => do
    let (d, s) ← devNat w t.job accSlab (array + 8 * (c % cap)) 8 s
    if d.testBit 0 ∧ k ≤ entLen d then return (some (c, d), s) else scanFree w t array cap k n (c + 1) s

/-- HEAD moved past leading descriptors whose VALID is 0 (R101). -/
def passHead (w : Who) (t : Target) (array cap : Nat) : Nat → Nat → State → Except Stop (Nat × State)
  | 0, c, s => .ok (c, s)
  | n + 1, c, s => do
    let (d, s) ← devNat w t.job accSlab (array + 8 * (c % cap)) 8 s
    if d.testBit 0 then return (c, s) else passHead w t array cap n (c + 1) s

/-- A run of at least k sectors taken from the free-run ring (R101, R306 step 5). -/
def takeRun (w : Who) (q : Quad) (t : Target) (k : Nat) (s : State) : Except Stop (Nat × State) := do
  let ((head, tail, array, cap), s) ← ringHead w t.job t.shape.freering s
  match ← scanFree w t array cap k (min 8 (tail - head)) head s with
  | (none, _) => failWith (spaceExc q 1 k)
  | (some (c, d), s) => do
    let s ← devWrite w t.job accSlabW (array + 8 * (c % cap)) (leBytes 8 (d - 1)) s
    let (h, s) ← passHead w t array cap (min cap (tail - head)) head s
    if h = head then return (d, s) else do
      let s ← devWrite w t.job accSlabW t.shape.freering (leBytes 8 h) s
      return (d, s)

/-- Steps 4 and 5 of R306: the slab goes into its old run or another; the new entry, and the runs to reclaim. -/
def placeSlab (w : Who) (q : Quad) (t : Target) (e : Nat) (bs : List Byte) (s : State) :
    Except Stop (Nat × List Nat × State) := do
  let k := bs.length / 32
  let old := e.testBit 0
  let (off, run, freed, s) ← (if old ∧ k ≤ entLen e then .ok (entOff e, entLen e, [], s)
    else do
      let (d, s) ← takeRun w q t k s
      return (entOff d, entLen d, (if old then [entOf (entOff e) (entLen e)] else []), s) :
    Except Stop (Nat × Nat × List Nat × State))
  let n := if k + 2 ≤ run then k else run
  let s ← devWrite w t.job accSlabW (t.shape.base + 32 * off) (padSlab bs n) s
  return (entOf off n, freed ++ (if k + 2 ≤ run then [entOf (off + k) (run - k)] else []), s)

/-- An operation that must wait waits with nothing of it done: of the state it had reached only the waits it began are
kept. -/
def keepWait {α : Type} (base : State) : Except Stop α → Except Stop α
  | .error (.hold t) => .error (.hold { base with warp := t.warp, core := { base.core with copies := t.core.copies } })
  | r => r

/-- The encoder's work with PENDING held: the old slab is decoded, the new one made and placed, runs are reclaimed, and
the new entry, with PENDING clear, is published (R306, R307). A symbol with no code is reported whatever the rings hold
(R382). -/
def encodeHeld (w : Who) (ts : Tables) (q : Quad) (t : Target) (mk : Option (Tile × Nat) → SlabNew × List Flags)
    (e : Nat) (eps : List Piece) (s : State) : Except Stop (List Flags × State) := do
  let (b, s) ← slabBytes w t e (if w.core then acquire t.scope s else s)
  let old ← decodeBytes ts q t e b
  let (new, fl) := mk old
  let ((rhead, rtail, _, rcap), s) ← ringHead w t.job t.shape.reclaim s
  let made : Option (List Byte) := match new with
    | .raw bs => some bs
    | .gone => some []
    | .code x slot seams => encodeSlab ts t.shape.kind slot seams (t.trim x)
  match made with
  | none => failWith (spaceExc q 3 0)
  | some bs =>
    if rcap < rtail - rhead + 2 then failWith (spaceExc q 2 (bs.length / 32))
    else do
      let (e', freed, s) ← (if bs = [] then
          .ok (0, (if e.testBit 0 then [entOf (entOff e) (entLen e)] else []), s)
        else placeSlab w q t e bs s : Except Stop (Nat × List Nat × State))
      let s ← ringPushAll w t freed s
      return (fl, writePieces w eps (leBytes 8 e') s)

/-- An encoder takes an index entry: it waits while another holds PENDING, then sets it (R305). Answers the entry without
PENDING. -/
def claimEntry (w : Who) (eps : List Piece) (s : State) : Except Stop (Nat × Nat × State) :=
  let e := leNat (pieceBytes s eps)
  let at_ := match eps.head?.map (·.loc) with | some (.mem a) => a | _ => 0
  if e.testBit 1 then
    if (at_, w.agent s) ∈ s.rewrites then .ok (e - 2, at_, s) else .error (w.hold s)
  else
    let s := writePieces w eps (leBytes 8 (e + 2)) s
    .ok (e, at_, { s with rewrites := (at_, w.agent s) :: s.rewrites })

/-- A tile re-encoded under its entry's PENDING bit (R305 to R307). mk forms the new slab from the old tile and header
word. A wait on a MIGRATING page or a silent peer leaves PENDING held, and nothing else changed. Every decode of the
model is one step, so that no reader is registered between two of them. -/
def encodeAt (w0 : Who) (ts : Tables) (q : Quad) (t : Target) (mk : Option (Tile × Nat) → SlabNew × List Flags)
    (s : State) : Except Stop (List Flags × State) := do
  let w := w0.under t
  let eps ← devPieces w s t.job { accSlabW with read := true } t.entryAt 8
  migrateFor w eps s
  peersReady w s eps
  let (e, at_, s) ← claimEntry w eps s
  let (fl, u) ← keepWait s (encodeHeld w ts q t mk e eps s)
  return (fl, { u with rewrites := u.rewrites.filter fun r => r.1 != at_ })

end Sys2Proof.Machine
end

