-- ==== Sys2Proof/Machine/TensorOps.lean ====
section
/-!
DEFINITION. Instructions on tensors: TLD and TST (R225, R226), TQRY (R104), CTLOAD and CTINV (R98, R99), RECFENCE (R89),
SHFENCE (R241), ZLD, ZST, ZQRY and ZVER (R304, R308, R310).
-/
namespace Sys2Proof.Machine

/-- TLD's policy word: segment 5, plain, acquire or volatile (R214). -/
def tldRule : PolicyRule := { segs := [5], orders := [0, 1, 4], atop := fun n => n == 0 }
/-- TST's policy word: segment 5, plain, release or volatile. -/
def tstRule : PolicyRule := { segs := [5], orders := [0, 2, 4], atop := fun n => n == 0 }

/-- Lanes resolved in ascending order. -/
def resolveLanes (coord : Quad → List Nat) (q : Nat → Quad) (pre : Shape → Option Nat) :
    List Nat → State → Except Stop (List (Nat × Target) × State)
  | [], s => .ok ([], s)
  | l :: ls, s => do
    let (t, s) ← resolveAt s.who s.job (q l) (coord (q l)) pre s
    let (ts, s) ← resolveLanes coord q pre ls s
    return ((l, t) :: ts, s)

/-- The pieces of a dense element. -/
def elemPieces (t : Target) (acc : Acc) (s : State) : Except Stop (List Piece) :=
  let a := (t.shape.address (t.shape.offset t.coord)).1
  let n := kindBytes t.shape.kind
  if t.job.uid = s.group.job then
    if (List.range n).any fun i => inForeignStack s s.group.job s.ownStacks (a + i) then failWith (exc 5 4 a 5)
    else (splitLines a n).mapM fun p => pieceAt s acc p.1 p.2
  else devPieces s.who s t.job acc a n

/-- The accesses of the lanes whose element is dense; a lane with a slab element has no piece. -/
def elemAccs (acc : Target → Acc) (ts : List (Nat × Target)) (pol : Nat → Word) (s : State) : Except Stop (List LaneAcc) :=
  ts.mapM fun t => do
    let ps ← if t.2.shape.storage = 0 then elemPieces t.2 (acc t.2) s else .ok []
    return { lane := t.1, seg := 5, off := (t.2.shape.address (t.2.shape.offset t.2.coord)).1,
             w := kindBytes t.2.shape.kind, pol := pol t.1, pieces := ps }

/-- What tells one tile from another: job, handle and tile number. -/
def Target.key (t : Target) : Nat × Nat × Nat := (t.job.uid, t.handle, t.number)

/-- The distinct slab tiles of lanes, each with its first lane. -/
def slabTiles (ts : List (Nat × Target)) : List (Nat × Target) :=
  (ts.filter fun t => t.2.shape.storage == 1).foldl
    (fun acc t => if acc.any fun u => u.2.key == t.2.key then acc else acc ++ [t]) []

/-- A decoded tile with the codebook of its record. -/
abbrev Decoded := (Nat × Nat × Nat) × Option Tile × List (BitVec 16)

/-- Each distinct slab tile decoded once, under the policy word of the first lane that names it (R83, R226). DESIGN
CHOICE: of the words of lanes that share a decode, the lowest lane's counts: log entry 79. -/
def decodeLanes (q : Nat → Quad) (pol : Nat → Word) : List (Nat × Target) → State → Except Stop (List Decoded × State)
  | [], s => .ok ([], s)
  | (l, t) :: ts, s => do
    let w := s.loader.on (pol l)
    let (_, x, s) ← decodeAt w s.group.tables (q l) t s
    let (book, s) ← bookOf w t s
    let (ds, s) ← decodeLanes q pol ts s
    return ((t.key, x.map (·.1), book) :: ds, s)

/-- What TLD delivers for a dense element (R57, R225). -/
def denseValue (t : Target) (book : List (BitVec 16)) (p : Nat) : Word :=
  let k := t.shape.kind
  if k ≤ 1 ∨ k = 8 ∨ k = 15 then BitVec.ofNat 32 p
  else if k ≤ 7 then BitVec.ofNat 32 (deliver 8 0 false 0 (symbolPattern k book p) none).1
  else intWord k (intOf k (BitVec.ofNat 32 p))

/-- What TLD delivers for a slab element: symbol × row scale rounded to FP32 (R63, R225). DESIGN CHOICE: a CB4 element's
product, for which R225 says only 'as FP32', is rounded as the other alphabets' is: RN, saturate 0, with its flags: log
entry 77. -/
def slabValue (t : Target) (d : Option Decoded) : Word × Flags :=
  match d with
  | some (_, some x, book) =>
    let r := deliver 8 0 false 0 (symbolPattern t.shape.kind book (x.syms.getD t.pos 0)) (some (x.scales.getD (t.pos / 32) 0))
    (BitVec.ofNat 32 r.1, r.2)
  | _ => (0, 0)

/-- The codebooks of dense CB4 lanes, by lane. -/
def denseBooks (pol : Nat → Word) :
    List (Nat × Target) → State → Except Stop (List (Nat × List (BitVec 16)) × State)
  | [], s => .ok ([], s)
  | (l, t) :: ts, s => do
    let (b, s) ← if t.shape.storage = 0 then bookOf (s.loader.on (pol l)) t s else .ok ([], s)
    let (bs, s) ← denseBooks pol ts s
    return ((l, b) :: bs, s)

/-- The widest scope at which the tiles' index entries are published (R305). -/
def policyScope (ts : List (Nat × Target)) : Nat := ts.foldl (fun m t => max m t.2.scope) 3

/-- TLD (R225, R226). -/
def execTld (d a b : Reg) (g : Guard) (s : State) : Out :=
  insn (.tld d a b g) s fun act => do
    let q := s.quad a.toNat
    let pol := s.v b.toNat
    firstFail act fun l => policyFault tldRule (pol l) l
    let (ts, t) ← resolveLanes Quad.element q (fun _ => none) (lanesIn act) s
    let as ← elemAccs (fun _ => accRead) ts pol t
    let as ← admitted as t
    let (books, t) ← denseBooks pol ts t
    let (ds, t) ← decodeLanes q pol (slabTiles ts) t
    performLoads as t fun rs u =>
      let val (l : Nat) : Word × Flags :=
        match amGet ts l with
        | none => (0, 0)
        | some x =>
          if x.shape.storage = 1 then slabValue x (ds.find? fun y => y.1 == x.key)
          else
            (denseValue x ((amGet books l).getD [])
              (x.shape.pattern (x.shape.address (x.shape.offset x.coord)).2 (bytesFor rs l)), 0)
      ((u.setVP d.toNat act (poisonOf rs 0) fun l => (val l).1).orFlags act fun l => (val l).2).advance

/-- What TST stores for a value of FP32 or of the element's width: the pattern and the flags (R225). -/
def tstPattern (t : Target) (x : Word) : Nat × Flags :=
  let k := t.shape.kind
  if 2 ≤ k ∧ k ≤ 6 then toSymbol k 0 0 (8, x.toNat) none 127
  else (x.toNat % 2 ^ kindWidth k, 0)

/-- One dense lane of TST stored; an element of 4 bits is a read-modify-write of its byte (R226). -/
def storeElem (t : Target) (a : LaneAcc) (p : Nat) (s : State) : State :=
  let high := (t.shape.address (t.shape.offset t.coord)).2
  if kindWidth t.shape.kind = 4 then
    let s := a.pieces.foldl (fun u p => drainPiece p u) s
    let old := (pieceBytes s a.pieces).getD 0 0
    storeLane { a with pol := a.pol ||| (if polOrder a.pol = 0 then 0x20 else 0) } (t.shape.stored high old p) s
  else storeLane a (t.shape.stored high 0 p) s

/-- A tile that has no slab: symbol 0 and scale 2^0 throughout (R308). -/
def Tile.empty : Tile := { syms := List.replicate 1024 0, scales := List.replicate 32 127 }

/-- The slot and seam count that TST's re-encoding uses: those of the old slab; where there is none the spec names
neither, and a free value decides among those usable (R226). -/
def tstFormat (ts : Tables) (kind : Nat) (old : Option (Tile × Nat)) (n : Nat) : Nat × Nat :=
  match old with
  | some (_, w0) => (bits w0 15 12, bits w0 18 16 + 1)
  | none =>
    let f := Config.freshSlab n
    (if (slotTable ts f.1 kind).isSome then f.1 else 15, 2 ^ (f.2 % 4))

/-- TST's new tile: the lanes' elements replaced, the highest lane winning (R225, R226). -/
def tstMake (ts : Tables) (kind : Nat) (els : List (Nat × Nat × Word)) (n : Nat) (old : Option (Tile × Nat)) :
    SlabNew × List Flags :=
  let x := (old.map (·.1)).getD Tile.empty
  let rs := els.map fun e => (e.2.1, toSymbol kind 0 0 (8, e.2.2.toNat) none (x.scales.getD (e.2.1 / 32) 127))
  let f := tstFormat ts kind old n
  (.code { x with syms := rs.foldl (fun ss r => ss.set r.1 r.2.1) x.syms } f.1 f.2, rs.map (·.2.2))

/-- The slab tiles of TST re-encoded one after another, in the order of their first lanes; a wait on one leaves none of
those before it rewritten. -/
def tstSlabs (q : Nat → Quad) (pol v : Nat → Word) (all : List (Nat × Target)) :
    List (Nat × Target) → State → Except Stop (List (Nat × Flags) × State)
  | [], s => .ok ([], s)
  | (l, t) :: ts, s => do
    let s₀ := s
    let els := (all.filter fun x => x.2.shape.storage == 1 && x.2.key == t.key).map fun x => (x.1, x.2.pos, v x.1)
    let (fl, s) ← encodeAt (s.who.on (pol l)) s.group.tables (q l) t (tstMake s.group.tables t.shape.kind els s.free) s
    let (rest, s) ← keepWait s₀ (tstSlabs q pol v all ts { s with free := s.free + 1 })
    return ((els.map (·.1)).zip fl ++ rest, s)

/-- TST (R225, R226). -/
def execTst (d a b : Reg) (g : Guard) (s : State) : Out :=
  insn (.tst d a b g) s fun act => do
    let q := s.quad a.toNat
    let pol := s.v b.toNat
    let v := s.v d.toNat
    firstFail act fun l => policyFault tstRule (pol l) l
    let (ts, t) ← resolveLanes Quad.element q (fun r => if r.kind = 7 then some 2 else none) (lanesIn act) s
    let nib (x : Target) : Bool := kindWidth x.shape.kind == 4
    let as ← elemAccs (fun x => if nib x then accRw else accWrite) ts pol t
    let as ← admitted as t
    do
      peersReady t.who t ((as.filter fun x => ((amGet ts x.lane).map nib).getD false).flatMap (·.pieces))
      migrateFor t.who (as.flatMap (·.pieces)) t
      if strongWaits as t then .error (.hold t.waits) else pure ()
      let scope := if (slabTiles ts).isEmpty then releaseScope as
        else some (max (policyScope (slabTiles ts)) ((releaseScope as).getD 3))
      let t ← match scope with
        | none => Except.ok t
        | some sc => releaseFirst sc t
      let (fl, t) ← tstSlabs q pol v ts (slabTiles ts) t
      let t := drainFull (drainLines (orderedLines as) (as.foldl (fun u x =>
        match amGet ts x.lane with
        | some y => if y.shape.storage = 0 then storeElem y x (tstPattern y (v x.lane)).1 u else u
        | none => u) t))
      let flag (l : Nat) : Flags :=
        match amGet ts l with
        | some y => if y.shape.storage = 0 then (tstPattern y (v l)).2 else ((fl.find? fun x => x.1 == l).map (·.2)).getD 0
        | none => 0
      return (t.orFlags act flag).settled.advance

/-- The result quad of TQRY in a lane (R104). -/
def tqryAt (q : Quad) (s : State) : Except Stop ((Word × Word × Word × Word) × State) := do
  let (r, s) ← useRecord s.who q s.job q.handle s
  if !r.holds q.tile then failWith (q.fault 12 4)
  else do
    let (h, s) ← (if r.storage = 2 then useShard s.who q s.job r q.tile s
      else .ok ({ chip := s.node.chip, handle := q.handle, coord := q.tile, ext := r.ext, gen := 0 }, s) :
      Except Stop (Shard × State))
    let n := ({ r with ext := h.ext } : Shape).tileNumber h.coord
    let own := if h.chip = s.node.chip then 16 else 0
    return ((BitVec.ofNat 32 (bits n 47 32 * 65536 + own + h.chip % 16), BitVec.ofNat 32 h.handle, BitVec.ofNat 32 n,
      BitVec.ofNat 32 (r.gen * 65536 + h.gen)), s)

/-- Lanes' results gathered in ascending order. -/
def gather {α : Type} (f : Nat → State → Except Stop (α × State)) : List Nat → State → Except Stop (List (Nat × α) × State)
  | [], s => .ok ([], s)
  | l :: ls, s => do
    let (x, s) ← f l s
    let (xs, s) ← gather f ls s
    return ((l, x) :: xs, s)

/-- TQRY (R104). -/
def execTqry (d a : Reg) (g : Guard) (s : State) : Out :=
  insn (.tqry d a g) s fun act => do
    let (rs, t) ← gather (fun l t => tqryAt (s.quad a.toNat l) t) (lanesIn act) s
    return (t.setBlock d.toNat act 4 fun k l =>
      match amGet rs l with
      | some (x, y, z, w) => [x, y, z, w].getD k 0
      | none => 0).settled.advance

/-- CTLOAD's load word is laid out as its table gives (R98). -/
def loadWordOk (w : Nat) (book : Bool) : Bool :=
  w / 32 == 0 && [0, 1, 3].contains (bits w 4 2) && (if book then w % 4 == 0 else w % 4 != 3)

/-- The policy word of CTLOAD's read: plain, group scope, and T1 and T2 of the normal class, which the rule does not give
(R98); DESIGN CHOICE, log entry 48. -/
def ctPolicy (seg : Nat) : Word := BitVec.ofNat 32 (0xFF000040 + seg)

/-- CTLOAD (R98): put sets the slot from the bytes, or refuses them. The bytes of a poisoned line are loaded as they
stand, for R404 says nothing of CTLOAD: DESIGN CHOICE, log entry 49. -/
def ctload (i : Instr) (a b : Reg) (book : Bool) (put : List Byte → Option (Group → Group)) (s : State) : Out :=
  insn i s fun act =>
    match lowest act with
    | none => .ok s.advance
    | some l => do
      let w := (s.v b.toNat l).toNat
      let o := (s.v a.toNat l).toNat
      let n := if book then 32 else [8, 32, 128].getD (w % 4) 0
      if !loadWordOk w book ∨ o % 8 ≠ 0 then failWith (exc 12 3)
      else
        match segFault s l (bits w 4 2) o n false with
        | some e => failWith e
        | none => do
          let ps ← piecesOf s accRead l (bits w 4 2) o n
          peersReady s.who s ps
          let t := ps.foldl (fun t p => drainPiece p t) s
          let r := loadLane { lane := l, seg := bits w 4 2, off := o, w := n, pol := ctPolicy (bits w 4 2), pieces := ps } t
          match put r.1.1 with
          | none => failWith (exc 12 7)
          | some f => return ({ r.2 with group := f r.2.group }).settled.advance

/-- CTLOAD.ct (R98). -/
def execCtloadCt (slot : BitVec 3) (a b : Reg) (g : Guard) (s : State) : Out :=
  ctload (.ctloadCt slot a b g) a b false (fun bs =>
    if tableOk (tableOf bs) then some fun x => { x with tables := x.tables.set slot.toNat (some (tableOf bs)) } else none) s

/-- CTLOAD.cb (R98). -/
def execCtloadCb (slot : BitVec 3) (a b : Reg) (g : Guard) (s : State) : Out :=
  ctload (.ctloadCb slot a b g) a b true (fun bs =>
    let book : List (BitVec 16) := (List.range 16).map fun i => BitVec.ofNat 16 (fieldB bs (2 * i) 2)
    some fun x => { x with books := x.books.set slot.toNat (some book) }) s

/-- The valid mask of a group's slots, laid out as CTINV's mask (R99). -/
def slotMask (g : Group) : Nat :=
  ((List.range 8).map fun k => (if (g.tables.getD k none).isSome then 2 ^ k else 0) +
    (if (g.books.getD k none).isSome then 2 ^ (8 + k) else 0)).sum

/-- Slots of a mask cleared. -/
def clearSlots {α : Type} (m : Nat) (xs : List (Option α)) : List (Option α) :=
  xs.zipIdx.map fun p => if m.testBit p.2 then none else p.1

/-- CTINV (R99). -/
def execCtinv (d a : Reg) (g : Guard) (s : State) : Out :=
  insn (.ctinv d a g) s fun act =>
    match lowest act with
    | none => .ok s.advance
    | some l =>
      let m := (s.v a.toNat l).toNat
      if m / 65536 ≠ 0 then failWith (exc 12 3)
      else
        let old := slotMask s.group
        let t : State := { s with group := { s.group with
          tables := clearSlots m s.group.tables, books := clearSlots (m / 256) s.group.books } }
        .ok (t.setV d.toNat act fun _ => BitVec.ofNat 32 old).advance

/-- A record leaves every core's cache (R89). -/
def Core.dropRecords (job : Nat) (hs : List Nat) (c : Core) : Core :=
  { c with records := c.records.filter fun r => !(r.job == job && hs.contains r.handle) }

/-- RECFENCE (R89). -/
def execRecfence (a : Reg) (g : Guard) (s : State) : Out :=
  insn (.recfence a g) s fun act =>
    if act = 0 then .ok s.advance
    else do
      let h (l : Nat) : Nat := (s.v a.toNat l).toNat
      firstFail act fun l =>
        let e (d : Nat) : Option Exc := some { exc 12 d with handle := BitVec.ofNat 32 (h l % 2 ^ 20) }
        if 2 ^ 20 ≤ h l then e 3 else if s.job.recCount ≤ h l then e 1 else none
      let t ← releaseFirst 3 s
      return (t.mapCores (Core.dropRecords s.group.job ((lanesIn act).map h))).settled.advance

/-- Every write in flight of every core is performed, and what reads the reopened entry later sees it: no core keeps an
older copy of a line (R240 phase 3, R330). -/
def settleWrites (s : State) : State := (drainCores (fun _ => true) s).mapCores fun c => { c with l1 := [] }

/-- The jobs across the node that hold a counterpart of the issuing warp's job, its own among them (R229). -/
def counterparts (s : State) : List Job :=
  s.jobs.filter fun j => j.part == s.job.part && j.jobno == s.job.jobno

/-- The counterparts whose chips have not failed. -/
def liveCounterparts (s : State) : List Job := (counterparts s).filter fun j => j.chip == s.node.chip || !(s.failedPeer j.chip)

/-- An entry is closed on every chip that holds a live counterpart (R240 phase 2). -/
def closeEntry (k : Nat) (s : State) : State :=
  let us := (liveCounterparts s).map (·.uid)
  { s with
    jobs := s.jobs.map fun j => if us.contains j.uid then { j with closed := k :: j.closed.filter (· != k) } else j
    warp := { s.warp with resharding := k :: s.warp.resharding.filter (· != k) } }

/-- An instruction that waits, a copy or an operand intake in flight captured an entry of one of the jobs (R240
phase 3). -/
def captured (s : State) (us : List Nat) (k : Nat) : Bool :=
  let kept (h : Hold) : Bool := h.entries.any fun e => us.contains e.job && e.handle == k
  let parked (f : Frame) : Bool := f.parked.any fun p => kept p.2
  (s.allWarps.any fun w => kept w.hold || parked w.frame || w.saved.any parked) ||
  let holds (t : TileRef) : Bool := match t.entry with | some e => us.contains e.1 && e.2 == k | none => false
  (s.core :: s.cores).any fun c =>
    (c.copies.any fun x => x.tiles.any fun t => t.1.any holds || t.2.any holds) ||
      (c.engine.intake.any fun i => i.refs.any holds)

/-- Where a counterpart table's entry stands; a page that migrates is waited for (R238, R240 phase 4). -/
def entryPieces (k : Nat) (j : Job) (s : State) : Except Stop (List Piece) := do
  let ps ← devPieces s.who s j accWrite (j.shBase + 128 * k) 128
  migrateFor s.who ps s
  return ps

/-- One entry changed on every live counterpart, and opened again; a failed peer's entry stays closed, and an event names
it (R240 phase 4, R241). -/
def reshard (k : Nat) (bs : List Byte) (s : State) : Except Stop State := do
  let live := liveCounterparts s
  let places ← live.mapM fun j => entryPieces k j s
  let t := places.foldl (fun t ps => writePieces s.who ps bs t) s
  let us := live.map (·.uid)
  let t : State := { t with
    jobs := t.jobs.map fun j => if us.contains j.uid then { j with closed := j.closed.filter (· != k) } else j
    warp := { t.warp with resharding := t.warp.resharding.filter (· != k) } }
  let failed := (counterparts s).filter fun j => !(us.contains j.uid)
  if failed.isEmpty then return t
  else
    let t := failed.foldl (fun t j => t.updJob j.uid fun x => { x with closed := k :: x.closed.filter (· != k) }) t
    return postEvent 13 s.job.part s.job.jobno (k, (failed.map fun j => 2 ^ j.chip).sum, 0, 0) t

/-- The entry that a lane of SHFENCE names, read after the release: checked in the lane's turn (R241, R364). -/
def shfenceEntry (k : Nat) (s : State) : Except Stop (List Byte × State) :=
  if s.job.shCount ≤ k then failWith (exc 12 1)
  else do
    let r ← devRead s.who s.job accRead (s.job.shBase + 128 * k) 128 s
    if (shardOf r.1).alone s.node.size then return (r.1, r.2.2) else failWith (exc 12 5)

/-- SHFENCE (R240, R241): release; the lanes' checks; the entries closed; a wait for what captured them; then all of them
changed in one step. An entry that another warp is changing is waited for. -/
def execShfence (a : Reg) (g : Guard) (s : State) : Out :=
  insn (.shfence a g) s fun act =>
    if act = 0 then .ok s.advance
    else do
      let k (l : Nat) : Nat := (s.v a.toNat l).toNat
      let t ← releaseFirst 4 s
      let (es, t) ← gather (fun l t => shfenceEntry (k l) t) (lanesIn act) t
      if (liveCounterparts t).any fun j => j.chip != t.node.chip && t.silentPeer j.chip then .error (.hold t.waits)
      else
        let ks := distinct ((lanesIn act).map k)
        if ks.any fun n => t.job.closed.contains n && !(t.warp.resharding.contains n) then .error (.hold t.waits)
        else do
          let t := settleWrites (ks.foldl (fun u n => closeEntry n u) t)
          if ks.any (captured t ((counterparts t).map (·.uid))) then .error (.hold t.waits)
          else do
            let u ← keepWait t (ks.foldlM (fun u n =>
              reshard n (((es.find? fun e => k e.1 == n).map (·.2)).getD []) u) t)
            return u.settled.advance

-- Slabs

/-- ZLD's delivery word: the row of R71 it breaks before its record is read (R304). -/
def deliveryBad (w : Nat) : Option Nat :=
  if bits w 31 11 ≠ 0 then some 1
  else if !([0, 1, 8].contains (bits w 3 0)) then some 2
  else if 5 < bits w 6 4 then some 3
  else none

/-- A tile as ZLD sees it: for each position its pattern with its scale, or none for +0, and whether its line is
poisoned. -/
abbrev TileView := List (Option ((Nat × Nat) × Option Nat) × Bool)

/-- A dense tile's elements, position by position (R85, R304). -/
def denseView (w : Who) (t : Target) (book : List (BitVec 16)) : List Nat → State → Except Stop (TileView × State)
  | [], s => .ok ([], s)
  | p :: ps, s => do
    let (x, s) ← (if t.overhang p then .ok ((none, false), s)
      else do
        let c := [t.coord.getD 0 0 / 32 * 32 + p % 32, t.coord.getD 1 0 / 32 * 32 + p / 32, t.coord.getD 2 0, t.coord.getD 3 0]
        let (v, bad, s) ← denseRead w t c s
        return ((some (symbolPattern t.shape.kind book v, none), bad), s) :
      Except Stop ((Option ((Nat × Nat) × Option Nat) × Bool) × State))
    let (xs, s) ← denseView w t book ps s
    return (x :: xs, s)

/-- A slab tile's elements, position by position (R63, R85). -/
def slabView (t : Target) (book : List (BitVec 16)) (x : Option Tile) : TileView :=
  (List.range 1024).map fun p =>
    match x with
    | some y =>
      if t.overhang p then (none, false)
      else (some (symbolPattern t.shape.kind book (y.syms.getD p 0), some (y.scales.getD (p / 32) 0)), false)
    | none => (none, false)

/-- Column l of a tile delivered row after row: results with flags, and the generator after (R67, R304). -/
def deliverColumn (dk mode : Nat) (sat : Bool) (x : TileView) (l : Nat) (st : Word) : List (Nat × Flags) × Word :=
  (List.range 32).foldl (fun r i =>
    let st := if mode = 5 then rsNext r.2 else r.2
    let y := match (x.getD (32 * i + l) (none, false)).1 with
      | none => roundFloat dk mode sat (st.toNat / 65536) (.fin false 0 0)
      | some e => deliver dk mode sat (st.toNat / 65536) e.1 e.2
    (r.1 ++ [y], st)) ([], st)

/-- ZLD (R304). -/
def execZld (d a b : Reg) (g : Guard) (s : State) : Out :=
  insn (.zld d a b g) s fun act =>
    match lowest act with
    | none => .ok s.advance
    | some l => do
      let q := s.quad a.toNat l
      let w := (s.v b.toNat l).toNat
      match deliveryBad w with
      | some det => failWith (exc 15 det 0 l)
      | none => do
        let t := (release 3 s).1
        let (x, t) ← resolveAt t.who t.job q q.tile (fun _ => none) t
        let k := x.shape.kind
        let cb := bits w 10 8
        if k < 7 ∧ cb ≠ 0 then failWith (exc 15 4 0 l)
        else if 7 < k then failWith (q.fault 12 2)
        else if k = 7 ∧ (s.group.books.getD cb none).isNone then failWith (q.fault 12 7)
        else do
          let book := (s.group.books.getD cb none).getD []
          let (view, t) ← (if x.shape.storage = 0 then denseView t.loader x book (List.range 1024) t
            else do
              let (_, y, t) ← decodeAt t.loader t.group.tables q x t
              return (slabView x book (y.map (·.1)), t) : Except Stop (TileView × State))
          let dk := bits w 3 0
          let mode := bits w 6 4
          let cols := lanesOf fun l => deliverColumn dk mode (w.testBit 7) view l (s.frame.rs.getD l 0)
          let y (l r : Nat) : Nat := (((cols.getD l ([], 0)).1).getD r (0, 0)).1
          let bad (r : Nat) : Word := maskOf fun l => (view.getD (32 * r + l) (none, false)).2
          let t := if dk = 8 then
              (List.range 32).foldl (fun t r => t.setVP (d.toNat + r) act (bad r) fun l => BitVec.ofNat 32 (y l r)) t
            else
              (List.range 16).foldl (fun t r => t.setVP (d.toNat + r) act (bad (2 * r) ||| bad (2 * r + 1)) fun l =>
                BitVec.ofNat 32 (y l (2 * r) % 65536 + y l (2 * r + 1) % 65536 * 65536)) t
          let t := t.orFlags act fun l => ((cols.getD l ([], 0)).1).foldl (fun f r => f ||| r.2) 0
          let t := t.updFrame fun f =>
            { f with rs := lanesOf fun l => if act.getLsbD l then (cols.getD l ([], 0)).2 else f.rs.getD l 0 }
          return t.settled.advance

/-- ZST's encode word: the row of R71 it breaks (R308). -/
def encodeBad (w : Nat) : Option Nat :=
  if bits w 31 24 ≠ 0 ∨ bits w 19 19 ≠ 0 ∨ bits w 7 5 ≠ 0 then some 1
  else if !([0, 1, 8].contains (bits w 11 8)) then some 2
  else if 5 < bits w 14 12 then some 3
  else if !([0, 1, 3, 7].contains (bits w 18 16)) ∨ (8 ≤ bits w 23 20 ∧ bits w 23 20 ≠ 15) then some 5
  else none

/-- ZST's new tile: row ROW from the active lanes' values, other columns re-rounded when the scale changes (R308). -/
def zstMake (t : Target) (w : Nat) (act : Word) (v rs : Nat → Word) (old : Option (Tile × Nat)) : SlabNew × List Flags :=
  let x := (old.map (·.1)).getD Tile.empty
  let k := t.shape.kind
  let row := bits w 4 0
  let mode := bits w 14 12
  let sk := bits w 11 8
  let was := x.scales.getD row 127
  let src (c : Nat) : (Nat × Nat) × Option Nat :=
    if act.getLsbD c then ((sk, (v c).toNat % 2 ^ kindWidth sk), none) else ((k, x.syms.getD (32 * row + c) 0), some was)
  let e := if w.testBit 15 then newScale k (lanesOf fun c => elementValue (src c).1 (src c).2) else was
  let out (c : Nat) : Nat × Flags :=
    if act.getLsbD c then toSymbol k mode (rsBits (rs c)) (src c).1 none e
    else if e = was then (x.syms.getD (32 * row + c) 0, 0)
    else ((toSymbol k (if mode = 5 then 0 else mode) 0 (src c).1 (src c).2 e).1, 0)
  let syms := (List.range 32).foldl (fun ss c => ss.set (32 * row + c) (out c).1) x.syms
  (.code { syms := syms, scales := x.scales.set row e } (bits w 23 20) (bits w 18 16 + 1),
    lanesOf fun c => (out c).2)

/-- ZST (R308). -/
def execZst (d a b : Reg) (g : Guard) (s : State) : Out :=
  insn (.zst d a b g) s fun act =>
    match lowest act with
    | none => .ok s.advance
    | some l => do
      let q := s.quad a.toNat l
      let w := (s.v b.toNat l).toNat
      match encodeBad w with
      | some det => failWith (exc 15 det 0 l)
      | none => do
        let (x, t) ← resolveAt s.who s.job q q.tile (fun _ => none) s
        if x.shape.storage ≠ 1 ∨ x.shape.kind = 7 then failWith (q.fault 12 2)
        else do
          let t ← releaseFirst x.scope t
          let (fl, t) ← encodeAt t.who t.group.tables q x
            (zstMake x w act (s.v d.toNat) (fun c => s.frame.rs.getD c 0)) t
          let t := t.orFlags act fun c => fl.getD c 0
          return (if bits w 14 12 = 5 then t.stepRs act else t).settled.advance

/-- ZQRY and ZVER resolve a lane's slab tile (R310). -/
def slabTarget (q : Quad) (s : State) : Except Stop (Target × State) := do
  let (x, t) ← resolveAt s.who s.job q q.tile (fun _ => none) s
  if x.shape.storage = 1 then return (x, t) else failWith (q.fault 12 2)

/-- ZQRY's result in a lane (R310). -/
def zqryAt (q : Quad) (s : State) : Except Stop (DWord × State) := do
  let (x, t) ← slabTarget q s
  (devNat t.who x.job accSlab x.entryAt 8 t).map fun r => (BitVec.ofNat 64 r.1, r.2)

/-- ZVER's result in a lane (R310). -/
def zverAt (q : Quad) (s : State) : Except Stop (DWord × State) := do
  let (x, t) ← slabTarget q s
  let (e, b, t) ← slabRead t.who x t
  let (cause, seam, off) := match b with
    | none => (6, 0, 0)
    | some (bs, bad) =>
      match decodeSlab t.group.tables x.shape.kind (entLen e) bad bs with
      | .ok _ => (0, 0, 0)
      | .error f => (f.cause, f.seam, f.off)
  return (BitVec.ofNat 64 (cause + seam * 16 + off * 2 ^ 32), t)

/-- ZQRY (R310): an acquire at chip scope. -/
def execZqry (d a : Reg) (g : Guard) (s : State) : Out :=
  insn (.zqry d a g) s fun act => do
    let (rs, t) ← gather (fun l t => zqryAt (s.quad a.toNat l) t) (lanesIn act) (release 3 s).1
    return ((acquire (if act = 0 then 0 else 3) t).setPair d.toNat act fun l => (amGet rs l).getD 0).settled.advance

/-- ZVER (R310): its decodes acquire as ZLD's do. -/
def execZver (d a : Reg) (g : Guard) (s : State) : Out :=
  insn (.zver d a g) s fun act => do
    let (rs, t) ← gather (fun l t => zverAt (s.quad a.toNat l) t) (lanesIn act) (release 3 s).1
    return ((acquire (if act = 0 then 0 else 3) t).setPair d.toNat act fun l => (amGet rs l).getD 0).settled.advance

end Sys2Proof.Machine
end

