-- ==== Sys2Proof/Machine/Matrix.lean ====
section
/-!
DEFINITION. The matrix engine: command blocks (R286, R287), presentation and acceptance of collectives (R288 to R292),
intake (R293, R295), accumulation (R72, R73), drains (R296, R297), MRD and MWR (R298), and its events.
-/
namespace Sys2Proof.Machine

/-- A command block (R286, R287). -/
structure Cmd where
  ctl : Nat
  pmask : Nat
  addr : Nat
  tile : Quad
  m : Nat
  n : Nat
  k : Nat
  z : Nat
  stride : Nat
  fmt : Word
  maxAddr : Nat
  flagAddr : Nat
  deriving DecidableEq, Repr

/-- The fields of a command block's 64 bytes. -/
def cmdOf (bs : List Byte) : Cmd :=
  let w (o : Nat) : Word := BitVec.ofNat 32 (fieldB bs o 4)
  { ctl := fieldB bs 0 4, pmask := fieldB bs 4 4, addr := fieldB bs 8 8
    tile := { q0 := w 0x10, c0 := w 0x14, c1 := w 0x18, c2 := w 0x1C }
    m := fieldB bs 0x20 2, n := fieldB bs 0x22 2, k := fieldB bs 0x24 2, z := fieldB bs 0x26 2
    stride := fieldB bs 0x28 4, fmt := w 0x2C, maxAddr := fieldB bs 0x30 8, flagAddr := fieldB bs 0x38 8 }

/-- ACC of a block. -/
def Cmd.acc (c : Cmd) : Nat := c.ctl % 2
/-- TEAM of a block. -/
def Cmd.team (c : Cmd) : Bool := c.ctl.testBit 2
/-- BYTILE of a block. -/
def Cmd.byTile (c : Cmd) : Bool := c.ctl.testBit 3
/-- DSEG of a block: the destination is scratchpad. -/
def Cmd.dseg (c : Cmd) : Bool := c.ctl.testBit 8
/-- MAXEN of a block. -/
def Cmd.maxEn (c : Cmd) : Bool := c.ctl.testBit 9
/-- FLAGEN of a block. -/
def Cmd.flagEn (c : Cmd) : Bool := c.ctl.testBit 15
/-- CLR of a block. -/
def Cmd.clr (c : Cmd) : Bool := c.ctl.testBit 16
/-- TAGEN of a block. -/
def Cmd.tagEn (c : Cmd) : Bool := c.ctl.testBit 17
/-- SCOPE of a block. -/
def Cmd.scope (c : Cmd) : Nat := bits c.ctl 14 12
/-- TAG of a block. -/
def Cmd.tag (c : Cmd) : Nat := bits c.ctl 23 18

/-- The zero fields of a block are zero, for function code fn: 0 MLDS, 2 MSTR, 3 MDRN (R286, R287, R289). -/
def Cmd.zerosOk (c : Cmd) (fn : Nat) : Bool :=
  bits c.ctl 31 24 == 0 && bits c.ctl 11 10 == 0 && bits c.ctl 7 4 == 0 && bits c.ctl 1 1 == 0 && c.z == 0 &&
    !((fn == 0 || fn == 2) && !c.byTile && c.addr / 2 ^ 32 != 0)

/-- The rows and columns of the result that a member owns start here (R292). -/
def Cmd.rowFrom (c : Cmd) (g : Group) : Nat := if c.team then 128 * (g.rank / 2) else 0
/-- The columns a member owns start here. -/
def Cmd.colFrom (c : Cmd) (g : Group) : Nat := if c.team then 128 * (g.rank % 2) else 0
/-- A member's share of the rows (R292). -/
def Cmd.rows (c : Cmd) (g : Group) : Nat := if c.team then min 128 (c.m - c.rowFrom g) else c.m
/-- A member's share of the columns (R292). -/
def Cmd.cols (c : Cmd) (g : Group) : Nat := if c.team then min 128 (c.n - c.colFrom g) else c.n

/-- Bytes of n elements of a kind in dense memory, rounded up to a whole byte (R58, R293). -/
def rowBytes (kind n : Nat) : Nat :=
  if 8 ≤ kindWidth kind then n * kindBytes kind else if kindWidth kind = 6 then n else (n + 1) / 2

/-- K_max of a kind of B (R285). -/
def kMax (kind : Nat) : Nat := if kind ≤ 1 then 128 else if kind ≤ 5 then 256 else 512

/-- A format word's kinds (R70). -/
def fmtA (f : Word) : Nat := bits f.toNat 3 0
/-- BKIND of a format word. -/
def fmtB (f : Word) : Nat := bits f.toNat 7 4
/-- DKIND of a format word. -/
def fmtD (f : Word) : Nat := bits f.toNat 11 8

/-- The row of R71 a format word breaks. -/
def fmtBad (f : Word) : Option Nat :=
  let n := f.toNat
  if bits n 31 23 ≠ 0 ∨ bits n 19 19 ≠ 0 then some 1
  else if 7 < fmtA f ∨ 7 < fmtB f ∨ fmtD f = 7 ∨ 8 < fmtD f then some 2
  else if 5 < bits n 14 12 then some 3
  else if (bits n 18 16 ≠ 0 ∧ fmtA f ≠ 7) ∨ (bits n 22 20 ≠ 0 ∧ fmtB f ≠ 7) then some 4
  else none

-- Presentation

/-- A warp reaches a collective: checked on its own, it becomes presented (R288). While another group holds the engine
the instruction is not ready (R284). -/
def mxExec (i : Instr) (fn : Nat) (a b : Reg) (s : State) : Out :=
  insn i s fun act =>
    match s.core.engine.owner with
    | some o => if o = s.group.uid then body act else .error (.hold s.waits)
    | none => body act
where
  /-- The warp's own checks, and its presentation. -/
  body (act : Word) : Except Stop State :=
    let o := (s.v a.toNat ((lowest act).getD 0)).toNat
    if !s.converged then failWith (exc 16 4)
    else if o % 64 ≠ 0 ∨ s.group.scratchLen < o + 64 then failWith (exc 16 1)
    else if (cmdOf (s.scratch s.group.uid o 64)).pmask / 2 ^ s.group.warps ≠ 0 then failWith (exc 16 3)
    else
      .ok { s with warp := { s.warp with
        run := .presented
        present := some { fn := fn, block := o, lanes := act, fmts := lanesOf (s.v b.toNat), since := s.core.cycle,
                          word := wordOf i, accepted := false } } }

/-- MLDS (R288, R295). -/
def execMlds (a b : Reg) (s : State) : Out := mxExec (.mlds a b) 0 a b s
/-- MSWP (R288, R295). -/
def execMswp (a b : Reg) (s : State) : Out := mxExec (.mswp a b) 1 a b s
/-- MSTR (R288, R295). -/
def execMstr (a b : Reg) (s : State) : Out := mxExec (.mstr a b) 2 a b s
/-- MDRN (R288, R296). -/
def execMdrn (a b : Reg) (s : State) : Out := mxExec (.mdrn a b) 3 a b s
/-- MZERO (R288, R295). -/
def execMzero (a b : Reg) (s : State) : Out := mxExec (.mzero a b) 4 a b s

-- The engine

/-- An element's place in an engine's accumulators. -/
def accKey (set m n : Nat) : Nat := set * 16384 + m * 128 + n

/-- An accumulator element; an unlisted one is +0. -/
def Engine.get (e : Engine) (set m n : Nat) : Word := (amGet e.acc (accKey set m n)).getD 0

/-- An accumulator element written. -/
def Engine.put (set m n : Nat) (x : Word) (e : Engine) : Engine :=
  { e with acc := if x = 0 then amDel (accKey set m n) e.acc else amPut (accKey set m n) x e.acc }

/-- Flags gathered in an accumulator set's flag word. -/
def Engine.orFlags (set : Nat) (f : Flags) (e : Engine) : Engine :=
  if set = 0 then { e with flags0 := e.flags0 ||| f } else { e with flags1 := e.flags1 ||| f }

/-- An accumulator set's flag word. -/
def Engine.flagWord (e : Engine) (set : Nat) : Flags := if set = 0 then e.flags0 else e.flags1

/-- MZERO: a set becomes +0 with a clear flag word (R295). -/
def Engine.zero (set : Nat) (e : Engine) : Engine :=
  let e := { e with acc := e.acc.filter fun p => p.1 / 16384 != set }
  if set = 0 then { e with flags0 := 0 } else { e with flags1 := 0 }

/-- MZEROs whose turn has come take effect (R294). -/
def Engine.runZeros : List MxWork → Engine → Engine
  | .zero a :: rest, e => Engine.runZeros rest (e.zero a)
  | ws, e => { e with work := ws }

/-- Accepted work is queued behind what was accepted before it (R294). -/
def Engine.accept (w : MxWork) (e : Engine) : Engine := Engine.runZeros (e.work ++ [w]) e

/-- The work at the head is complete. -/
def Engine.pop (e : Engine) : Engine := Engine.runZeros e.work.tail e

/-- Work on an accumulator set. -/
def MxWork.on (set : Nat) : MxWork → Bool
  | .stream a _ _ _ => a == set
  | .drain b _ _ _ _ _ => (cmdOf b).acc == set
  | .zero a => a == set

/-- Accepted work on a set is not complete. -/
def Engine.busyOn (e : Engine) (set : Nat) : Bool :=
  e.work.any (MxWork.on set) || (match e.intake with | some k => k.fn == 2 && (cmdOf k.block).acc == set | none => false)

/-- A group takes a free engine: planes empty, accumulators +0 (R283, R284). -/
def takeEngine (g : Group) (s : State) : State :=
  s.updCore g.core fun c =>
    if c.engine.owner = some g.uid then c else { c with engine := { Engine.empty with owner := some g.uid } }

/-- The engine generator of a core as it starts on a launch's seed (R68). -/
def engineSeed (seed : Word) (core : Nat) : Word :=
  let x := seed ^^^ BitVec.ofNat 32 (core * 65536)
  if x = 0 then 1 else x

/-- The next n outputs of a generator: 16 bits each, and its state after (R67). -/
def rsOutputs : Nat → Word → List Nat × Word
  | 0, x => ([], x)
  | n + 1, x =>
    let r := rsOutputs n (rsNext x)
    (rsBits x :: r.1, r.2)

/-- n elements take outputs at hand, each one that pick names; and what is left. -/
def takeOutputs (pick : Nat → Nat) : Nat → List Nat → List Nat × List Nat
  | 0, pool => ([], pool)
  | n + 1, pool =>
    let k := pick n % pool.length
    let r := takeOutputs pick n (pool.eraseIdx k)
    (pool.getD k 0 :: r.1, r.2)

/-- The focused core's engine generator draws for n elements of the focused group: seeded from the launch's seed at the
first draw for another launch, its outputs taken in an order that the device does not fix (R67, R68; log entry 6). -/
def engineDraws (n : Nat) (s : State) : List Nat × State :=
  let c := s.core
  let fresh := decide (c.rngLaunch ≠ s.group.launch)
  let ahead := if fresh then [] else c.ahead
  let out := rsOutputs (n + Config.engineAhead s.free - ahead.length) (if fresh then engineSeed s.launch.seed c.id else c.rng)
  let r := takeOutputs (fun i => Config.engineDraw (s.free + i)) n (ahead ++ out.1)
  (r.1, { s with
    core := { s.core with rng := out.2, rngLaunch := s.group.launch, ahead := r.2 }
    free := s.free + n + 1 })

/-- The engine of a core is free for a group. -/
def engineFor (s : State) (g : Group) : Bool :=
  match (s.coreOf g.core).engine.owner with
  | some o => o == g.uid
  | none => true

/-- An engine's accesses. -/
def engineWho : Who := { own := none, copy := some 0 }

/-- The accesses of a unit that stands outside the cores. -/
def unitWho : Who := { own := none, copy := some 0, core := false }

-- Acceptance

/-- The groups a collective spans, in rank order: members that have completed take no part (R288, R292; log entry 50). -/
def membersOf (s : State) (g : Group) (team : Bool) : List Group :=
  if team then
    (List.range g.teamSize).filterMap fun r =>
      s.allGroups.find? fun x => x.launch == g.launch && x.team == g.team && x.rank == r && x.status != .completed
  else [g]

/-- The presented warps of a group whose collective is not accepted, in warp order. -/
def presentedOf (s : State) (g : Group) : List Warp :=
  (List.range g.warps).filterMap fun n => s.allWarps.find? fun w =>
    w.group == g.uid && w.id == n && w.run == .presented && (match w.present with | some p => !p.accepted | none => false)

/-- A warp's presentation; a warp that is not presented names no block. -/
def Warp.presented (w : Warp) : Present :=
  w.present.getD { fn := 0, block := 0, lanes := 0, fmts := [], since := 0, word := 0, accepted := false }

/-- The warp that presented first: its block holds PMASK (R288). -/
def firstPresented (ws : List Warp) : Option Warp :=
  ws.foldl (fun b w => match b with
    | none => some w
    | some x => if w.presented.since < x.presented.since then some w else some x) none

/-- The block of a warp's presentation. -/
def blockOf (s : State) (w : Warp) : List Byte := s.scratch w.group w.presented.block 64

/-- A warp of a group counts as presented: presented, or ended (R288). -/
def countsPresented (s : State) (g : Group) (n : Nat) : Bool :=
  ((presentedOf s g).any fun w => w.id == n) ||
    !(s.allWarps.any fun w => w.group == g.uid && w.id == n && w.run != .ended)

/-- Every warp in PMASK of every member has presented (R288). -/
def allPresented (s : State) (ms : List Group) (pmask : Nat) : Bool :=
  ms.all fun g => (List.range 32).all fun n => !pmask.testBit n || countsPresented s g n

/-- The first differing format word in order of rank, warp and lane (R291). -/
def formatVote (ws : List Warp) : Except Exc Word :=
  let all := ws.flatMap fun w => (lanesIn w.presented.lanes).map fun l => (w.id, l, w.presented.fmts.getD l 0)
  match all with
  | [] => .ok 0
  | (_, _, f) :: rest =>
    match rest.find? fun x => x.2.2 != f with
    | some x => .error (exc 17 0 (f.toNat + x.2.1 * 2 ^ 32 + x.1 * 2 ^ 37) x.2.2.toNat)
    | none => .ok f

/-- Rows, columns, kind and first byte of a member's dense operand or drain destination (R292, R293). -/
structure Span where
  rows : Nat
  cols : Nat
  kind : Nat
  start : Nat
  deriving DecidableEq, Repr

/-- The dense span of a member (R292). -/
def spanOf (fn : Nat) (c : Cmd) (f : Word) (g : Group) (k : Nat) : Span :=
  if fn = 0 then { rows := k, cols := c.cols g, kind := fmtB f, start := c.addr + rowBytes (fmtB f) (c.colFrom g) }
  else if fn = 2 then { rows := c.rows g, cols := k, kind := fmtA f, start := c.addr + c.rowFrom g * c.stride }
  else
    { rows := c.rows g, cols := c.cols g, kind := fmtD f
      start := c.addr + c.rowFrom g * c.stride + rowBytes (fmtD f) (c.colFrom g) }

/-- A span is empty: it has no address (R292). -/
def Span.none (x : Span) : Bool := x.rows == 0 || x.cols == 0

/-- The byte past the last of a span that is not empty. -/
def Span.stop (x : Span) (stride : Nat) : Nat := x.start + (x.rows - 1) * stride + rowBytes x.kind x.cols

/-- The limits of R289 step 5 for one member: detail 3 (R285, R287, R292, R293, R295, R296). A drain's TAG is checked
whether or not TAGEN is set, as R296 lists it. -/
def limitsOk (s : State) (fn : Nat) (c : Cmd) (f : Word) (g : Group) : Bool :=
  let e := (s.coreOf g.core).engine
  let mTop := if c.team then 128 * ((g.teamSize + 1) / 2) else 128
  let nTop := if c.team then 256 else 128
  let mOk := decide (1 ≤ c.m ∧ c.m ≤ mTop)
  let nOk := decide (1 ≤ c.n ∧ c.n ≤ nTop)
  let x := spanOf fn c f g c.k
  let strideOk := decide (rowBytes x.kind x.cols ≤ c.stride)
  match fn with
  | 0 => nOk && decide (1 ≤ c.k ∧ c.k ≤ kMax (fmtB f)) && (c.byTile || strideOk)
  | 2 =>
    let held := e.owner == some g.uid
    mOk && held && e.active.k != 0 && c.k == e.active.k && fmtB f == e.active.kind && (c.byTile || strideOk)
  | 3 => mOk && nOk && decide (1 ≤ c.scope ∧ c.scope ≤ 5) && decide (c.tag < g.tags.length)
  | _ => true

/-- n bytes at an address lie in the segment a drain writes: the scratchpad, or the participants' global segment. -/
def drainInside (g : Group) (seg : DWord × DWord) (dseg : Bool) (a stop : Nat) : Bool :=
  if dseg then decide (stop ≤ g.scratchLen) else decide (seg.1.toNat ≤ a) && decide (stop ≤ seg.2.toNat)

/-- The addresses of R289 step 5 for one member: detail 1 (R286, R296). The alignment of MAXADDR and FLAGADDR is checked
always, their segment where the merge is enabled (log entry 51). -/
def addressesOk (fn : Nat) (c : Cmd) (f : Word) (g : Group) (seg : DWord × DWord) : Bool :=
  let x := spanOf fn c f g c.k
  match fn with
  | 3 =>
    c.addr % kindBytes x.kind == 0 && c.stride % kindBytes x.kind == 0 && c.maxAddr % 4 == 0 && c.flagAddr % 4 == 0 &&
      (x.none || drainInside g seg c.dseg x.start (x.stop c.stride)) &&
      (!c.maxEn || drainInside g seg c.dseg c.maxAddr (c.maxAddr + 4)) &&
      (!c.flagEn || drainInside g seg c.dseg c.flagAddr (c.flagAddr + 4))
  | 0 | 2 => c.byTile || (c.addr % kindBytes x.kind == 0 && (x.none || decide (x.stop c.stride ≤ g.scratchLen)))
  | _ => true

/-- The operand's kind and codebook slot for an intake. -/
def operandKind (fn : Nat) (f : Word) : Nat × Nat :=
  if fn = 0 then (fmtB f, bits f.toNat 22 20) else (fmtA f, bits f.toNat 18 16)

/-- Step 6 of R289 for one member: detail 7. -/
def kindsOk (s : State) (fn : Nat) (c : Cmd) (f : Word) (g : Group) : Bool :=
  let k := operandKind fn f
  if fn = 0 ∨ fn = 2 then
    (k.1 != 7 || (g.books.getD k.2 none).isSome) &&
      (!c.byTile ||
        let t := s.focusGroup g.uid
        match useRecord engineWho c.tile (t.jobOf g.job) c.tile.handle t with
        | .ok r => r.1.kind == k.1
        | .error _ => true)
  else true

/-- The checks of R289 from step 2 on over the members, with the agreed format word. -/
def blockCheck (s : State) (fn : Nat) (c : Cmd) (f : Word) (ms : List Group) (seg : DWord × DWord) (lane : Nat)
    (team : Bool) : Option Exc :=
  if !c.zerosOk fn ∨ (c.team ∧ (!team ∨ ms.any fun g => decide (g.teamSize < 2))) then some (exc 16 2)
  else
    match fmtBad f with
    | some d => some (exc 15 d 0 lane)
    | none =>
      if !(ms.all (limitsOk s fn c f)) then some (exc 16 3)
      else if !(ms.all fun g => addressesOk fn c f g seg) then some (exc 16 1)
      else if !(ms.all (kindsOk s fn c f)) then some (exc 16 7)
      else none

/-- A warp resumes past its collective: every lane moves to the next word. -/
def Warp.retire (w : Warp) : Warp :=
  { w with
    run := .running
    present := none
    frame := { w.frame with pcs := lanesOf fun l =>
      if w.presented.lanes.getLsbD l then w.frame.pcs.getD l 0 + 4 else w.frame.pcs.getD l 0 } }

/-- Warps resume past their collective: an issue of each, which its group's progress counts (R154, R156). -/
def retireAll (ws : List Warp) (s : State) : State :=
  ws.foldl (fun t w =>
    let u := t.focus w.uid
    pushWindow [] { u with group := { u.group with progress := u.group.progress + 1 }, warp := u.warp.retire }) s

/-- A fault of a collective, precise in each of its warps (R290). -/
def faultAll (e : Exc) (ws : List Warp) (s : State) : State :=
  ws.foldl (fun t w =>
    let u := t.focus w.uid
    raise w.presented.word w.presented.lanes e
      { u with lanes := w.presented.lanes, warp := { u.warp with run := .running, present := none } }) s

/-- A copy or drain is counted under a tag (R255). -/
def tagStart (g t : Nat) (s : State) : State :=
  s.updGroup g fun x => { x with tags := x.tags.zipIdx.map fun p =>
    if p.2 = t then { p.1 with out := p.1.out + 1, done := false } else p.1 }

/-- A copy or drain counted under a tag ends with a status (R255). Setting DONE writes the tag pseudo-line. -/
def tagEnd (g t status : Nat) (s : State) : State :=
  let was := ((s.groupOf g).tags.getD t { out := 0, done := false, err := false, code := 0, cflags := 0 }).out
  let u := s.updGroup g fun x => { x with tags := x.tags.zipIdx.map fun p =>
    if p.2 = t then
      { p.1 with
        out := p.1.out - 1
        done := p.1.done || p.1.out == 1
        code := if status = 0 then p.1.code else status
        err := p.1.err || (status != 0 && status != 11) }
    else p.1 }
  if was = 1 then touchLine (.tags g) u else u

/-- The tiles of an intake by tile, in intake order: the K block index varies fastest (R292, R293, R295). -/
def intakeTiles (k : Intake) (g : Group) : List Quad :=
  let c := cmdOf k.block
  let up (n : Nat) : Nat := (n + 31) / 32
  let at' (i j : Nat) : Quad := { c.tile with c0 := c.tile.c0 + BitVec.ofNat 32 i, c1 := c.tile.c1 + BitVec.ofNat 32 j }
  let outer := if k.fn = 0 then up (c.cols g) else up (c.rows g)
  let off := if k.fn = 0 then c.colFrom g / 32 else c.rowFrom g / 32
  if !c.byTile then []
  else (List.range outer).flatMap fun o => (List.range (up c.k)).map fun i =>
    if k.fn = 0 then at' (off + o) i else at' i (off + o)

/-- A resolved tile as an operation in flight keeps it. -/
def Target.ref (t : Target) : TileRef :=
  { job := t.job.uid, handle := t.handle, shape := t.shape, coord := t.coord, entry := t.entry }

/-- The target an operation in flight kept. -/
def TileRef.target (t : TileRef) (s : State) : Target :=
  { job := s.jobOf t.job, handle := t.handle, shape := t.shape, coord := t.coord, entry := t.entry }

/-- Tiles resolved for an engine of the focused group (R87, R229). -/
def resolveRefs : List Quad → State → Except Stop (List TileRef × State)
  | [], s => .ok ([], s)
  | q :: qs, s => do
    let (t, s) ← resolveAt engineWho s.job q q.tile (fun _ => none) s
    let (rest, s) ← resolveRefs qs s
    return (t.ref :: rest, s)

/-- The intake of an MLDS or MSTR of a group starts: its record and slots are used now, and not read again (R87, R97). -/
def startIntake (fn : Nat) (block : List Byte) (o : Nat) (f : Word) (copy : Option Nat) (g : Group) (s : State) :
    Except Stop State := do
  let k : Intake :=
    { fn := fn, block := block, offset := o, fmt := f, tiles := [], waiting := false, copy := copy, refs := []
      tables := g.tables, books := g.books }
  let (refs, s) ← resolveRefs (intakeTiles k g) (s.focusGroup g.uid)
  return s.updCore g.core fun c => { c with engine := { c.engine with intake := some { k with refs := refs } } }

/-- An accepted collective takes its place in each member's engine (R294 to R296). -/
def acceptIn (fn : Nat) (block : List Byte) (o : Nat) (f : Word) (warp : Nat) (g : Group) (s : State) : Except Stop State :=
  let c := cmdOf block
  let s := takeEngine g s
  let upd (h : Engine → Engine) : State := s.updCore g.core fun x => { x with engine := h x.engine }
  match fn with
  | 1 => .ok (upd fun e => { e with active := e.shadow, shadow := e.active })
  | 4 => .ok (upd (Engine.accept (.zero c.acc)))
  | 3 =>
    let t := upd (Engine.accept (.drain block f o 0 warp none))
    .ok (if c.tagEn then tagStart g.uid c.tag t else t)
  | _ => startIntake fn block o f none g s

/-- The block of a warp's presentation spans its team. -/
def spansTeam (s : State) (w : Warp) : Bool := (cmdOf (blockOf s w)).team

/-- The members of the collective that a group's presented warps form, and the first warp to present in it, of the whole
team under TEAM: its block gives PMASK (R288). -/
def formed (s : State) (g : Group) : Option (List Group × Warp) :=
  match firstPresented (presentedOf s g) with
  | none => none
  | some w =>
    if spansTeam s w && decide (2 ≤ g.teamSize) then
      let ms := membersOf s g true
      (firstPresented ((ms.flatMap (presentedOf s)).filter (spansTeam s))).map fun v => (ms, v)
    else some ([g], w)

/-- The collective that a group's presented warps form, if every warp it needs has presented: its members, its
participants in order of rank and warp, and the block (R288). -/
def collective (s : State) (g : Group) : Option (List Group × List Warp × List Byte) :=
  match formed s g with
  | none => none
  | some (ms, w) =>
    let bs := blockOf s w
    if allPresented s ms (cmdOf bs).pmask then some (ms, ms.flatMap (presentedOf s), bs) else none

/-- The participants agree: function codes, block offsets, PMASK, and across members the block bytes (R289 step 1). -/
def participantsAgree (s : State) (ws : List Warp) (bs : List Byte) : Bool :=
  match ws with
  | [] => false
  | v :: _ => ws.all fun w =>
    w.presented.fn == v.presented.fn && w.presented.block == v.presented.block && (cmdOf bs).pmask.testBit w.id &&
      blockOf s w == bs

/-- The warp whose number a member's share of a collective is under: its first participant (R365). -/
def shareWarp (ws : List Warp) (g : Group) : Nat :=
  (((ws.find? fun w => w.group == g.uid).orElse fun _ => ws.head?).map (·.id)).getD 0

/-- COLLECTIVE_ACCEPT: a collective every warp of which has presented is checked, and accepted or faulted (R288 to
R292, R295, R296). An intake in progress, another group's hold of an engine, or a silent peer delays it: an intake
follows every earlier store of its participants (R293), a drain at node or system scope releases them. A descriptor fault
of an operand's tile is raised as its record is used. -/
def execCollectiveAccept (uid : Nat) (s : State) : Out :=
  match collective s (s.groupOf uid) with
  | none => .next s
  | some (ms, ws, bs) =>
    let c := cmdOf bs
    let v := ws.headD Warp.idle
    let fn := v.presented.fn
    if ms.any (fun g => !engineFor s g || (s.coreOf g.core).engine.intake.isSome) then .next s
    else if !participantsAgree s ws bs then .next (faultAll (exc 16 5) ws s)
    else if !c.zerosOk fn ∨ (c.team ∧ (s.groupOf uid).teamSize < 2) then .next (faultAll (exc 16 2) ws s)
    else
      match formatVote ws with
      | .error e => .next (faultAll e ws s)
      | .ok f =>
        match blockCheck s fn c f ms (v.frame.segs.getD 0 (0, 0)) ((lowest v.presented.lanes).getD 0) true with
        | some e => .next (faultAll e ws s)
        | none =>
          let t := if fn = 0 ∨ fn = 2 ∨ fn = 3 then drainCores (fun _ => true) s else s
          if (fn = 0 ∨ fn = 2 ∨ (fn = 3 ∧ !c.dseg ∧ 4 ≤ c.scope)) ∧
              ((t.core :: t.cores).any fun k => k.pend.any fun e => ws.any fun w => w.uid == e.warp) then .next t
          else
            match ms.foldlM (fun u g => acceptIn fn bs v.presented.block f (shareWarp ws g) g u) t with
            | .error (.fault e) => .next (faultAll e ws s)
            | .error _ => .next s
            | .ok t =>
              if fn = 0 ∨ fn = 2 then
                .next (ws.foldl (fun u w => u.updWarp w.uid fun x =>
                  { x with present := x.present.map fun p => { p with accepted := true } }) t)
              else .next (retireAll ws t)

/-- COLLECTIVE_TIMEOUT: a collective not accepted within 2^20 cycles of its first presentation (R288). -/
def execCollectiveTimeout (uid : Nat) (s : State) : Out :=
  let g := s.groupOf uid
  match formed s g with
  | none => .next s
  | some (ms, w) =>
    if w.presented.since + 2 ^ 20 ≤ (s.coreOf g.core).cycle then
      .next (faultAll (exc 16 6) (ms.flatMap (presentedOf s)) s)
    else .next s

-- Intake

/-- The warps of a collective whose intake a core carries out: accepted presentations of the group, or of its team. -/
def intakeWarps (s : State) (k : Intake) (g : Group) : List Warp :=
  if k.copy.isSome then []
  else
    (membersOf s g (cmdOf k.block).team).flatMap fun x => (List.range x.warps).filterMap fun n => s.allWarps.find? fun w =>
      w.group == x.uid && w.id == n && (match w.present with | some p => p.accepted | none => false)

/-- A group stands on a core and holds its engine: a saved group has left its old core's engine to others (R284). -/
def State.engaged (s : State) (g : Group) : Bool := g.onCore && (s.coreOf g.core).engine.owner == some g.uid

/-- The groups that carry out an intake, each on its own core's engine: the group of a follow-on command, or the members
of a collective (R292). -/
def intakeGroups (s : State) (k : Intake) (g : Group) : List Group :=
  (if k.copy.isSome then [g] else membersOf s g (cmdOf k.block).team).filter s.engaged

/-- The intakes of a collective are given up on every member's core. -/
def dropIntakes (k : Intake) (g : Group) (s : State) : State :=
  (intakeGroups s k g).foldl
    (fun t x => t.updCore x.core fun c => { c with engine := { c.engine with intake := none } }) s

/-- An intake fails: precisely in each warp of the collective (R290); nothing reaches a plane or an accumulator. A
follow-on command's failure is left to its copy, which reads its fault. -/
def failIntake (k : Intake) (g : Group) (e : Exc) (s : State) : State :=
  faultAll e (intakeWarps s k g) (dropIntakes k g s)

/-- The values of a tile as an operand: row by row, overhang +0 (R85, R293). -/
def viewRows (v : TileView) : List (List Num) :=
  (List.range 32).map fun r => (List.range 32).map fun c =>
    match (v.getD (32 * r + c) (none, false)).1 with
    | some e => elementValue e.1 e.2
    | none => .fin false 0 0

/-- One tile of an intake read and, for slab storage, decoded, under the slots as the intake started (R293, R302). -/
def intakeTile (k : Intake) (q : Quad) (r : TileRef) (s : State) : Except Stop (List (List Num) × State) := do
  let t := r.target s
  let kind := operandKind k.fn k.fmt
  let book := (k.books.getD kind.2 none).getD []
  if t.shape.kind ≠ kind.1 then failWith (exc 16 7)
  else if t.shape.storage = 0 then do
    let (v, s) ← denseView engineWho t book (List.range 1024) s
    return (viewRows v, s)
  else do
    let (_, x, s) ← decodeAt engineWho k.tables q t s
    return (viewRows (slabView t book (x.map (·.1))), s)

/-- A change to a core's intake. -/
def Core.updIntake (f : Intake → Intake) (c : Core) : Core := { c with engine := { c.engine with intake := c.engine.intake.map f } }

/-- The members whose intakes read the same tiles as a member's: those of its column of ranks for B, of its row for A, in
rank order (R292). -/
def sharers (s : State) (k : Intake) (g : Group) : List Group :=
  (intakeGroups s k g).filter fun x => intakeTiles k x == intakeTiles k g

/-- TAG of a copy's record (R245). -/
def Copy.tag (c : Copy) : Nat := fieldB c.record 1 1

/-- The copy leaves the focused core, and its tag takes the status (R255). A tile it was rewriting is left unchanged. -/
def endCopy (c : Copy) (status : Nat) (s : State) : State :=
  let t := dropRewrites c.uid s
  tagEnd c.group c.tag status { t with core := { t.core with copies := t.core.copies.filter fun x => x.uid != c.uid } }

/-- A copy of the focused core ends with a fault: its status, and a record (R255, R365). -/
def failCopy (c : Copy) (status engine : Nat) (e : Exc) (s : State) : State :=
  engineFault c.group c.warp
    (engineRecord (s.groupOf c.group) c.warp engine c.tag { e with word := some (BitVec.ofNat 32 c.offset) }) (endCopy c status s)

/-- A copy of the focused core completes: its tag, then its barrier (R256). -/
def finishCopy (c : Copy) (count : Nat) (s : State) : State :=
  let t := endCopy c 0 s
  if (fieldB c.record 2 2).testBit 4 then
    let bar := fieldB c.record 4 4
    scratchWrite c.group bar (leBytes 8 (leNat (t.scratch c.group bar 8) + count)) t
  else t

/-- The copy whose follow-on command failed ends with status 10 (R255, R299). -/
def followFault (uid : Nat) (e : Exc) (s : State) : State :=
  match s.core.copies.find? fun x => x.uid == uid with
  | none => s
  | some c => failCopy c 10 1 e s

/-- The next tile of the focused core's intake, for every member that needs it: it is fetched and decoded once, and the
cores it goes to acquire what its encoder released (R292, R309). -/
def decodeNext (k : Intake) (q : Quad) (r : TileRef) (s : State) : State :=
  let cores := (sharers s k s.group).map (·.core)
  match intakeTile k q r s with
  | .ok (rows, t) => cores.foldl (fun u c => u.updCore c fun x =>
      Core.updIntake (fun y => { y with tiles := y.tiles ++ [rows] }) { x with l1 := [] }) t
  | .error (.fault e) =>
    match k.copy with
    | none => failIntake k s.group e s
    | some c => followFault c e (dropIntakes k s.group s)
  | .error _ => cores.foldl (fun u c => u.updCore c (Core.updIntake fun x => { x with waiting := true })) s

/-- SEAM_DECODE: the decoders deliver the next tile of a core's intake; a tile that is PENDING makes the intake wait
(R301, R302, R305). A tile that several members need is decoded under the slots of the lowest-ranked (log entry 52). -/
def execSeamDecode (core : Nat) (s : State) : Out :=
  match (s.coreOf core).engine.owner, (s.coreOf core).engine.intake with
  | some o, some k0 =>
    let lead := (sharers s k0 (s.groupOf o)).headD (s.groupOf o)
    let t := s.focusGroup lead.uid
    match t.core.engine.intake with
    | some k =>
      match (intakeTiles k t.group)[k.tiles.length]?, k.refs[k.tiles.length]? with
      | some q, some r => if k.waiting then .next s else .next (decodeNext k q r t)
      | _, _ => .next s
    | none => .next s
  | _, _ => .next s

/-- DECODER_PENDING_WAKE: a waiting decode is woken (R305). -/
def execDecoderPendingWake (core : Nat) (s : State) : Out :=
  match (s.coreOf core).engine.owner, (s.coreOf core).engine.intake with
  | some o, some k =>
    .next ((sharers s k (s.groupOf o)).foldl
      (fun t g => t.updCore g.core (Core.updIntake fun x => { x with waiting := false })) s)
  | _, _ => .next s

/-- The value of element i of a dense row (R58, R62). -/
def denseNum (kind : Nat) (book : List (BitVec 16)) (bs : List Byte) (i : Nat) : Num :=
  let p :=
    if 8 ≤ kindWidth kind then fieldB bs (i * kindBytes kind) (kindBytes kind)
    else if kindWidth kind = 6 then fieldB bs i 1 % 64
    else if i % 2 = 0 then fieldB bs (i / 2) 1 % 16 else fieldB bs (i / 2) 1 / 16
  valueOf (symbolPattern kind book p).1 (symbolPattern kind book p).2

/-- The rows of a dense operand in the group's scratchpad (R293). -/
def denseRows (s : State) (k : Intake) (g : Group) : List (List Num) :=
  let c := cmdOf k.block
  let x := spanOf k.fn c k.fmt g c.k
  let book := (k.books.getD (operandKind k.fn k.fmt).2 none).getD []
  (List.range x.rows).map fun r =>
    let bs := s.scratch g.uid (x.start + r * c.stride) (rowBytes x.kind x.cols)
    (List.range x.cols).map (denseNum x.kind book bs)

/-- The rows of an operand by tile: row r and column i of the share (R293). -/
def tileRows (k : Intake) (g : Group) : List (List Num) :=
  let c := cmdOf k.block
  let nk := (c.k + 31) / 32
  let x := spanOf k.fn c k.fmt g c.k
  (List.range x.rows).map fun r => (List.range x.cols).map fun i =>
    let n := if k.fn = 0 then i / 32 * nk + r / 32 else r / 32 * nk + i / 32
    (((k.tiles.getD n []).getD (r % 32) []).getD (i % 32) (.fin false 0 0))

/-- A member's intake has read and decoded every operand byte. -/
def intakeReady (s : State) (g : Group) : Bool :=
  match (s.coreOf g.core).engine.intake with
  | some k => k.tiles.length == (intakeTiles k g).length
  | none => false

/-- A member's intake delivers: the shadow plane, or rows for the array (R295). -/
def deliverIntake (g : Group) (s : State) : State :=
  match (s.coreOf g.core).engine.intake with
  | none => s
  | some k =>
    let c := cmdOf k.block
    let rows := if c.byTile then tileRows k g else denseRows s k g
    s.updCore g.core fun x =>
      let e := { x.engine with intake := none }
      { x with engine :=
        if k.fn = 0 then { e with shadow := { k := c.k, n := c.cols g, kind := fmtB k.fmt, rows := rows } }
        else e.accept (.stream c.acc rows e.active 0) }

/-- INTAKE_COMPLETE: an MLDS or MSTR whose operand has arrived on every member's core retires (R294, R295). A follow-on
command's copy goes on to its completion. -/
def execIntakeComplete (core : Nat) (s : State) : Out :=
  match (s.coreOf core).engine.owner, (s.coreOf core).engine.intake with
  | some o, some k =>
    let g := s.groupOf o
    let ms := intakeGroups s k g
    if ms.all (intakeReady s) then
      let ws := intakeWarps s k g
      let t := ms.foldl (fun u x => deliverIntake x u) s
      let t := match k.copy with
        | some c => t.updCore core fun x => { x with copies := x.copies.map fun y =>
            if y.uid = c then { y with followed := true, following := false } else y }
        | none => t
      .next (retireAll ws t)
    else .next s
  | _, _ => .next s

-- Accumulation

/-- The sum of one chunk of products, rounded once to FP32 (R72, R73). -/
def chunkSum (a b : List Num) : Nat × Flags :=
  let ps := (a.zip b).map fun x => x.1.mul x.2
  let inf (n : Bool) : Bool := ps.any fun p => match p with | .inf m => m == n | _ => false
  if ps.any Num.isNaN || (inf true && inf false) then (0x7FC00000, fInvalid)
  else if inf true then (0xFF800000, 0)
  else if inf false then (0x7F800000, 0)
  else roundFloat 8 0 false 0 (Num.sum (if ps.length < 32 then ps ++ [.fin false 0 0] else ps))

/-- One element after one chunk (R72). -/
def accumulate (row : List Num) (col : List Num) (x : Word) : Word × Flags :=
  let c := chunkSum row col
  let r := addK 8 x.toNat c.1
  (BitVec.ofNat 32 r.1, c.2 ||| r.2)

/-- Chunk number n of a stream added to every element of its region. -/
def streamChunk (a : Nat) (rows : List (List Num)) (p : Plane) (n : Nat) (e : Engine) : Engine :=
  rows.zipIdx.foldl (fun e r =>
    (List.range p.n).foldl (fun e j =>
      let col := ((p.rows.drop (32 * n)).take 32).map fun b => b.getD j (.fin false 0 0)
      let x := accumulate ((r.1.drop (32 * n)).take 32) col (e.get a r.2 j)
      (e.put a r.2 j x.1).orFlags a x.2) e) e

/-- MSTR_BACKGROUND: the array adds the next 32-element chunk of the MSTR at the head of a core's work (R72, R295). -/
def execMstrBackground (core : Nat) (s : State) : Out :=
  .next (s.updCore core fun c =>
    match c.engine.work with
    | .stream a rows p n :: rest =>
      let e := streamChunk a rows p n c.engine
      { c with engine := if p.k ≤ 32 * (n + 1) then e.pop else { e with work := .stream a rows p (n + 1) :: rest } }
    | _ => c)

-- Drains

/-- One element converted for a drain, w its draw of RS (R68, R296). -/
def drainElem (f : Word) (w : Nat) (x : Word) : Nat × Flags :=
  let dk := fmtD f
  if dk = 8 then (x.toNat, 0)
  else if isNaNPat (fmtOf 8) x.toNat then nanTo dk 8 x.toNat
  else roundFloat dk (bits f.toNat 14 12) (f.getLsbD 15) w (valueOf 8 x.toNat)

/-- A drain draws for its elements: their kind is narrower than FP32, and the mode is RS. -/
def drainDraws (f : Word) : Bool := fmtD f != 8 && bits f.toNat 14 12 == 5

/-- The patterns of one row of a drain in order, with their flags; ws are the draws of its elements (R68). -/
def drainRow (f : Word) (e : Engine) (set m n : Nat) (ws : List Nat) : List (Nat × Flags) :=
  (List.range n).map fun j => drainElem f (ws.getD j 0) (e.get set m j)

/-- Patterns of a kind packed as R58 over the bytes that were there: a nibble that is not named keeps its value (R297). -/
def packRow (kind : Nat) (ps : List Nat) (old : List Byte) : List Byte :=
  if kindWidth kind = 4 then
    (List.range ((ps.length + 1) / 2)).map fun i =>
      let hi := if 2 * i + 1 < ps.length then ps.getD (2 * i + 1) 0 % 16 else (old.getD i 0).toNat / 16
      BitVec.ofNat 8 (ps.getD (2 * i) 0 % 16 + 16 * hi)
  else ps.flatMap fun p => leBytes (kindBytes kind) p

/-- The places of n bytes of a drain's destination or merge word. -/
def drainPieces (dseg : Bool) (a n : Nat) (acc : Acc) (s : State) : Except Stop (List Piece) :=
  if dseg then .ok ((splitLines a n).map fun p => { loc := .scratch s.group.uid p.1, n := p.2, va := p.1, leaf := none })
  else devPieces engineWho s s.job acc a n

/-- The drain at the head of the focused core's work begins to wait on a MIGRATING page (R238). -/
def waitDrain (s : State) : State :=
  { s with core := { s.core with engine := { s.core.engine with work := match s.core.engine.work with
    | .drain b f o r w since :: rest => .drain b f o r w (some (since.getD s.core.cycle)) :: rest
    | ws => ws } } }

/-- Pieces under a drain's next access that lie on a MIGRATING page: it waits; past 20 000 cycles it fails (R238). -/
def drainMigrates (ps : List Piece) (since : Option Nat) (s : State) : Except Stop Unit :=
  match ps.find? fun p => (p.leaf.map (·.migrating)).getD false with
  | none => .ok ()
  | some p =>
    if since.any fun t => decide (t + 20000 ≤ s.core.cycle) then failWith (excXlate (migratingAt s s.job p.va) p.va)
    else .error (.hold (waitDrain s))

/-- The head of the focused core's work has gone on to a row, or to the merges after the last row. -/
def drainAt (b : List Byte) (f : Word) (o row warp : Nat) (s : State) : State :=
  { s with core := { s.core with engine := { s.core.engine with
    work := .drain b f o row warp none :: s.core.engine.work.tail } } }

/-- A drain's merge: the 32-bit word at an address is replaced in one atomic step by a function of it (R296, R312,
R314). -/
def mergeWord (dseg : Bool) (a : Nat) (since : Option Nat) (f : Nat → Nat) (s : State) : Except Stop State := do
  let ps ← drainPieces dseg a 4 accRw s
  drainMigrates ps since s
  match ps.findSome? (permitFault s) with
  | some e => failWith e
  | none => do
    peersReady engineWho s ps
    return writePieces engineWho ps (leBytes 4 (f (leNat (pieceBytes s ps)))) s

/-- The drain at the head of the focused core ends with a fault: its tag takes status 6, and the fault goes to the
group's record with the block offset (R297). -/
def failDrain (c : Cmd) (o warp : Nat) (e : Exc) (s : State) : State :=
  let t : State := { s with core := { s.core with engine := s.core.engine.pop } }
  let t := if c.tagEn then tagEnd s.group.uid c.tag 6 t else t
  engineFault s.group.uid warp (engineRecord s.group warp 2 0 { e with word := some (BitVec.ofNat 32 o) }) t

/-- The largest magnitude of a drained share (R297). -/
def drainMax (e : Engine) (set m n : Nat) : Nat :=
  ((List.range m).flatMap fun r => (List.range n).map fun j => (e.get set r j).toNat % 2 ^ 31).foldl max 0

/-- The end of a drain: CLR, and DONE (R296). -/
def endDrain (c : Cmd) (s : State) : State :=
  let e := s.core.engine
  let t : State := { s with core := { s.core with engine := (if c.clr then e.zero c.acc else e).pop } }
  if c.tagEn then tagEnd s.group.uid c.tag 0 t else t

/-- The merges of a drain whose rows are written, and its end; stage 1 has the largest magnitude merged. A stop keeps
what was merged (R296, R297). -/
def finishDrain (b : List Byte) (f : Word) (o warp : Nat) (x : Span) (stage : Nat) (since : Option Nat) (s : State) :
    State × Option Stop :=
  let c := cmdOf b
  match (if c.maxEn ∧ stage = 0 then
      mergeWord c.dseg c.maxAddr since (fun y => max y (drainMax s.core.engine c.acc x.rows x.cols)) s
    else .ok s) with
  | .error e => (s, some e)
  | .ok t =>
    let t := if stage = 0 then drainAt b f o (x.rows + 1) warp t else t
    match (if c.flagEn then
        mergeWord c.dseg c.flagAddr (if stage = 0 then none else since) (fun y => y ||| (t.core.engine.flagWord c.acc).toNat) t
      else .ok t) with
    | .error e => (t, some e)
    | .ok u => (endDrain c u, none)

/-- The places of a drain's row line by line, up to the first that cannot be reached. -/
def drainRowLines (dseg : Bool) (acc : Acc) (s : State) : List (Nat × Nat) → List Piece × Option Stop
  | [] => ([], none)
  | p :: rest =>
    match (do
      let ps ← drainPieces dseg p.1 p.2 acc s
      peersReady engineWho s ps
      return ps : Except Stop (List Piece)) with
    | .error e => ([], some e)
    | .ok ps =>
      let r := drainRowLines dseg acc s rest
      (ps ++ r.1, r.2)

/-- A row's places up to a page that is still MIGRATING after 20 000 cycles, which stops it as any page it cannot write
does; until then the whole row waits (R238, R297). -/
def settledPieces (r : List Piece × Option Stop) (since : Option Nat) (s : State) : List Piece × Option Stop :=
  match r.2, drainMigrates r.1 since s with
  | some (.hold t), _ => ([], some (.hold t))
  | _, .error (.hold t) => ([], some (.hold t))
  | _, .error e => (r.1.takeWhile fun p => !((p.leaf.map (·.migrating)).getD false), some e)
  | st, .ok _ => (r.1, st)

/-- One row of the drain at the head of the focused core's work, or its end. A row that meets a page it cannot write
keeps the bytes before that page (R297). -/
def drainStep (b : List Byte) (f : Word) (o row warp : Nat) (since : Option Nat) (s : State) : State × Option Stop :=
  let c := cmdOf b
  let y := spanOf 3 c f s.group c.k
  let x := if y.cols = 0 then { y with rows := 0 } else y
  if x.rows ≤ row then finishDrain b f o warp x (row - x.rows) since s
  else
    let n := rowBytes x.kind x.cols
    let r := settledPieces (drainRowLines c.dseg (if kindWidth x.kind < 8 then accRw else accWrite) s
      (splitLines (x.start + row * c.stride) n)) since s
    match r.2 with
    | some (.hold t) => (s, some (.hold t))
    | st =>
      let (ws, t) := if drainDraws f then engineDraws x.cols s else ([], s)
      let ys := drainRow f t.core.engine c.acc row x.cols ws
      let t := writePieces engineWho r.1 (packRow x.kind (ys.map (·.1)) (pieceBytes t r.1)) t
      let done := (r.1.map (·.n)).sum
      let fl := ys.zipIdx.foldl (fun g y => if rowBytes x.kind (y.2 + 1) ≤ done then g ||| y.1.2 else g) 0
      let t : State := { t with core := { t.core with engine := t.core.engine.orFlags c.acc fl } }
      match st with
      | some e => (t, some e)
      | none => (drainAt b f o (row + 1) warp t, none)

/-- DRAIN_BACKGROUND: the next row of the drain at the head of a core's work, and after the last its merges and DONE
(R296, R297). A write to a silent peer waits. -/
def execDrainBackground (core : Nat) (s : State) : Out :=
  match (s.coreOf core).engine.owner, (s.coreOf core).engine.work with
  | some o, .drain b f off row warp since :: _ =>
    let t := s.focusGroup o
    match drainStep b f off row warp since t with
    | (u, none) => .next u
    | (u, some (.fault e)) => .next (failDrain (cmdOf b) off warp e u)
    | (_, some (.hold u)) => .next u
    | (u, some (.abort _ _)) => .next u
  | _, _ => .next s

-- MRD and MWR

/-- MRD and MWR: not ready while another group holds the engine; selectors checked, earlier work on the sets complete,
the engine taken (R284, R298). -/
def accRows (a : Reg) (act : Word) (s : State) (k : State → State) : Except Stop State := do
  let sel (l : Nat) : Nat := (s.v a.toNat l).toNat
  if !engineFor s s.group then .error (.hold s.waits)
  else do
    firstFail act fun l => if sel l / 256 ≠ 0 then some (exc 16 8) else none
    if act = 0 then return s.advance
    else if (lanesIn act).any (fun l => s.core.engine.busyOn (sel l / 128)) then .error (.hold s.waits)
    else return (k (takeEngine s.group s)).advance

/-- MRD (R298). -/
def execMrd (d a : Reg) (g : Guard) (s : State) : Out :=
  insn (.mrd d a g) s fun act =>
    accRows a act s fun t => t.setBlock d.toNat act 4 fun j l =>
      t.core.engine.get ((s.v a.toNat l).toNat / 128) ((s.v a.toNat l).toNat % 128) (4 * l + j)

/-- Accumulator rows written from the lanes' quads (R298). -/
def writeAcc (act : Word) (sel : Nat → Nat) (v : Nat → Nat → Word) (e : Engine) : Engine :=
  (lanesIn act).foldl (fun e l =>
    (List.range 4).foldl (fun e j => e.put (sel l / 128) (sel l % 128) (4 * l + j) (v j l)) e) e

/-- MWR (R298). -/
def execMwr (d a : Reg) (g : Guard) (s : State) : Out :=
  insn (.mwr d a g) s fun act =>
    accRows a act s fun t =>
      let e := writeAcc act (fun l => (s.v a.toNat l).toNat) (fun j l => s.v (d.toNat + j) l) t.core.engine
      { t with core := { t.core with engine := e } }

end Sys2Proof.Machine
end

