-- ==== Sys2Proof/Machine/Copy.lean ====
section
/-!
DEFINITION. The copy engine and the hoist: copy records and their checks (R245 to R248, R258), what each kind does (R249
to R254), shadows (R259), restarts (R260), reductions at their home (R318, R319), the XK and TAG families (R261, R262),
and the engine's events.
-/
namespace Sys2Proof.Machine

/-- A copy record (R245). -/
structure CopyRec where
  kind : Nat
  tag : Nat
  flags : Nat
  bar : Nat
  src : Nat
  dst : Nat
  rows : Nat
  bpr : Nat
  ss : Nat
  ds : Nat
  s0 : Nat
  s1 : Nat
  s2 : Nat
  s3 : Nat
  follow : Nat
  delivered : Nat
  deriving DecidableEq, Repr

/-- The fields of a copy record's 64 bytes. -/
def copyRecOf (bs : List Byte) : CopyRec :=
  { kind := fieldB bs 0 1, tag := fieldB bs 1 1, flags := fieldB bs 2 2, bar := fieldB bs 4 4, src := fieldB bs 8 8
    dst := fieldB bs 0x10 8, rows := fieldB bs 0x18 4, bpr := fieldB bs 0x1C 4, ss := fieldB bs 0x20 4
    ds := fieldB bs 0x24 4, s0 := fieldB bs 0x28 4, s1 := fieldB bs 0x2C 4, s2 := fieldB bs 0x30 4
    s3 := fieldB bs 0x34 4, follow := fieldB bs 0x38 4, delivered := fieldB bs 0x3C 4 }

/-- ORIGKIND (R246). -/
def CopyRec.orig (r : CopyRec) : Nat := r.flags / 4096
/-- The kind a record performs: its own, or the one it resumes (R260). -/
def CopyRec.does (r : CopyRec) : Nat := if r.kind = 6 then r.orig else r.kind
/-- PUB of a record (R246). -/
def CopyRec.pub (r : CopyRec) : Bool := r.flags.testBit 0
/-- FOLW of a record. -/
def CopyRec.folw (r : CopyRec) : Bool := r.flags.testBit 1
/-- SSCR of a record. -/
def CopyRec.sscr (r : CopyRec) : Bool := r.flags.testBit 2
/-- DSCR of a record. -/
def CopyRec.dscr (r : CopyRec) : Bool := r.flags.testBit 3
/-- BAR of a record. -/
def CopyRec.hasBar (r : CopyRec) : Bool := r.flags.testBit 4
/-- HSRC of a record. -/
def CopyRec.hsrc (r : CopyRec) : Bool := r.flags.testBit 5
/-- HDST of a record. -/
def CopyRec.hdst (r : CopyRec) : Bool := r.flags.testBit 6
/-- SPSCR of a record. -/
def CopyRec.spscr (r : CopyRec) : Bool := r.flags.testBit 7

/-- A copy's record. -/
def Copy.rec' (c : Copy) : CopyRec := copyRecOf c.record

-- UNFOLD (R251)

/-- Byte n of a word. -/
def byteN (x n : Nat) : Nat := x / 256 ^ n % 256

/-- ESIZE of an UNFOLD. -/
def CopyRec.esize (r : CopyRec) : Nat := byteN r.s1 2

/-- The number of patch positions along one dimension (R251). -/
def patches (size before after dil k stride : Nat) : Int :=
  ((size : Int) + before + after - dil * ((k : Int) - 1) - 1) / stride + 1

/-- OH of an UNFOLD. -/
def CopyRec.oh (r : CopyRec) : Int :=
  patches r.rows (byteN r.s2 0) (byteN r.s2 1) (byteN r.s1 0) (byteN r.s0 0) (byteN r.s0 2)

/-- OW of an UNFOLD. -/
def CopyRec.ow (r : CopyRec) : Int :=
  patches (r.bpr / r.esize) (byteN r.s2 2) (byteN r.s2 3) (byteN r.s1 1) (byteN r.s0 1) (byteN r.s0 3)

-- Kinds of CONVERT, CHAIN and REDUCE

/-- The source kind of a converting record, or a reduction's payload kind (R252 to R254). -/
def CopyRec.skind (r : CopyRec) : Nat := bits r.s2 3 0
/-- The destination kind of a converting record. -/
def CopyRec.dkind (r : CopyRec) : Nat := bits r.s2 7 4
/-- The rounding code. -/
def CopyRec.rnd (r : CopyRec) : Nat := bits r.s2 10 8
/-- Saturate. -/
def CopyRec.sat (r : CopyRec) : Bool := r.s2.testBit 11
/-- The spall kind of a CONVERT (R252). -/
def CopyRec.spallKind (r : CopyRec) : Nat := bits r.s2 15 12
/-- The spall of a CONVERT is enabled. -/
def CopyRec.spall (r : CopyRec) : Bool := r.does == 2 && r.s2.testBit 16
/-- The spall's address. -/
def CopyRec.spallAt (r : CopyRec) : Nat := r.s0 + r.s1 * 2 ^ 32
/-- Elements in a row of a converting record. -/
def CopyRec.elems (r : CopyRec) : Nat := r.bpr * 8 / kindWidth r.skind
/-- Operations of a CHAIN (R253). -/
def CopyRec.ops (r : CopyRec) : Nat := bits r.s2 14 12 + 1

/-- Bytes a source row takes. -/
def CopyRec.srcLen (r : CopyRec) : Nat := if r.does = 2 ∨ r.does = 3 ∨ r.does = 4 then rowBytes r.skind r.elems else r.bpr

/-- Rows at the destination of a copy by address. -/
def CopyRec.dstRows (r : CopyRec) : Nat := if r.does = 1 then r.oh.toNat * r.ow.toNat else r.rows

/-- Bytes in a row at the destination. -/
def CopyRec.dstLen (r : CopyRec) : Nat :=
  match r.does with
  | 1 => byteN r.s0 0 * byteN r.s0 1 * r.esize
  | 2 | 3 | 4 => rowBytes r.dkind r.elems
  | _ => r.bpr

/-- A kind code that CONVERT delivers or reads: every kind but CB4. -/
def convKind (k : Nat) : Bool := decide (k ≠ 7)

/-- The specific fields of a record that need no shape record (R248, R251 to R254). -/
def CopyRec.specificOk (r : CopyRec) : Bool :=
  match r.does with
  | 0 =>
    r.s1 / 4096 == 0 && r.s3 / 4096 == 0 && (r.hsrc || (r.s0 == 0 && r.s1 == 0)) && (r.hdst || (r.s2 == 0 && r.s3 == 0))
  | 1 =>
    let k (n : Nat) : Bool := decide (1 ≤ byteN r.s0 n ∧ byteN r.s0 n ≤ 32)
    k 0 && k 1 && byteN r.s0 2 != 0 && byteN r.s0 3 != 0 && byteN r.s1 0 != 0 && byteN r.s1 1 != 0 && byteN r.s1 3 == 0 &&
      [1, 2, 4, 8, 16, 32, 64, 128].contains r.esize &&
      (if r.esize ≤ 4 then r.s3 / 256 ^ r.esize == 0 else r.s3 == 0) && r.bpr % r.esize == 0 &&
      decide (1 ≤ r.oh) && decide (1 ≤ r.ow)
  | 2 =>
    r.s2 / 2 ^ 17 == 0 && convKind r.skind && convKind r.dkind && decide (r.rnd ≤ 5) &&
      (decide (r.spallKind ≤ 6) || r.spallKind == 8) && r.bpr * 8 % kindWidth r.skind == 0 &&
      r.elems * kindWidth r.dkind % 8 == 0 &&
      (!r.spall || (r.elems * kindWidth r.spallKind % 8 == 0 && r.spallAt / 2 ^ (if r.spscr then 32 else 48) == 0))
  | 3 =>
    r.s1 == 0 && r.s3 == 0 && r.s2 / 2 ^ 15 == 0 && (decide (r.skind ≤ 6) || r.skind == 8 || r.skind == 9) &&
      convKind r.dkind && decide (r.rnd ≤ 5) && r.bpr * 8 % kindWidth r.skind == 0 && r.elems * kindWidth r.dkind % 8 == 0
  | 4 =>
    r.s0 / 65536 == 0 && r.s3 == 0 && r.s2 / 2 ^ 12 == 0 && [0, 1, 2, 3, 8].contains r.skind && convKind r.dkind &&
      decide (r.rnd ≤ 5) && r.bpr * 8 % kindWidth r.skind == 0 && r.elems * kindWidth r.dkind % 8 == 0
  | _ => true

/-- Sample bytes of a VENC record. -/
def CopyRec.sample (r : CopyRec) : Nat := if r.s3.testBit 1 then 2 else 1

/-- The fields of a VENC record (R386 to R389). mine says that an encoder belongs to the issuing partition. -/
def CopyRec.vencOk (r : CopyRec) (mine : Nat → Bool) : Bool :=
  let w := r.bpr / r.sample
  let ready (x : Nat) : Bool := bits x 4 4 == 1 && bits x 3 0 == 0
  let cqp := bits r.s3 3 2 == 0
  r.flags % 4096 / 32 == 0 && r.flags % 16 == 0 && r.follow == 0 && r.delivered == 0 && r.src % 64 == 0 && r.dst % 64 == 0 &&
    r.bpr % r.sample == 0 && w % 8 == 0 && decide (128 ≤ w ∧ w ≤ 4096) && r.rows % 8 == 0 &&
    decide (128 ≤ r.rows ∧ r.rows ≤ 2304) && r.ss % 64 == 0 && decide (r.bpr ≤ r.ss) && r.ds % 64 == 0 &&
    decide (r.rows * r.ss ≤ r.ds) && ready r.s0 && (r.s2 == 0 || ready r.s2) &&
    (if cqp then r.s1 == 0 else decide (64 ≤ r.s1 ∧ r.s1 ≤ 200000)) && bits r.s3 31 24 == 0 && bits r.s3 3 2 != 3 &&
    (if cqp then (bits r.s3 0 0 == 0 || decide (bits r.s3 23 16 ≤ 51)) else bits r.s3 23 16 == 0) && mine (bits r.s3 9 6)

/-- The encoders of a partition: two on each of its C-dies (R12, R388). -/
def encoderMine (p : Part) (n : Nat) : Bool := p.dies.contains (n / 2)

/-- An operand's format (R247). -/
def operandOk (x : Nat) (handle scr : Bool) : Bool :=
  if handle then x / 2 ^ 60 == 0 else if scr then x / 2 ^ 32 == 0 else x / 2 ^ 48 == 0

/-- Status 2 of R258, as far as no shape record is needed (R245 to R248). -/
def CopyRec.fieldsOk (r : CopyRec) (p : Part) : Bool :=
  if r.does = 5 then r.vencOk (encoderMine p) && (r.kind == 6 || r.orig == 0) && operandOk r.src false false && operandOk r.dst false false
  else
    bits r.flags 11 8 == 0 && (r.kind == 6 || r.orig == 0) && !(r.hsrc && r.sscr) && !(r.hdst && r.dscr) &&
      (r.does == 0 || !(r.hsrc || r.hdst)) && !(r.pub && r.hdst) && !(r.folw && !r.dscr) &&
      !(r.does == 4 && (r.dscr || r.pub || r.folw)) && decide (1 ≤ r.rows ∧ r.rows ≤ 2 ^ 24) &&
      decide (1 ≤ r.bpr ∧ r.bpr ≤ 2 ^ 24) && operandOk r.src r.hsrc r.sscr && operandOk r.dst r.hdst r.dscr &&
      (r.folw || r.follow == 0) && (r.kind == 6 || r.delivered == 0) && r.specificOk &&
      (r.hsrc || r.hdst || decide (r.dstRows * r.dstLen < 2 ^ 32 ∧ r.delivered ≤ r.dstRows * r.dstLen))

/-- n rows of len bytes with a stride from a scratchpad offset lie within the scratchpad. -/
def rowsInside (scr a rows stride len : Nat) : Bool := decide (a + (rows - 1) * stride + len ≤ scr)

/-- Status 4 of R258, as far as no shape record is needed. -/
def CopyRec.scratchOk (r : CopyRec) (scr : Nat) : Bool :=
  (!r.hasBar || (r.bar % 8 == 0 && decide (r.bar + 8 ≤ scr))) &&
    (!r.folw || (r.follow % 64 == 0 && decide (r.follow + 64 ≤ scr))) &&
    (r.does == 5 || (
      (!r.sscr || r.hdst || rowsInside scr r.src r.rows r.ss r.srcLen) &&
      (!r.dscr || r.hsrc || rowsInside scr r.dst r.dstRows r.ds r.dstLen) &&
      (!(r.spall && r.spscr) || rowsInside scr r.spallAt r.rows r.s3 (rowBytes r.spallKind r.elems)) &&
      (r.does != 3 || (r.s0 % 8 == 0 && decide (r.s0 + 8 * r.ops ≤ scr)))))

/-- The operation block of a CHAIN is laid out as R253. -/
def chainOk (r : CopyRec) (block : List Byte) : Bool :=
  (List.range r.ops).all fun k => decide (fieldB block (8 * k) 4 ≤ 10)

/-- The lowest of statuses 1 to 4 whose check needs no shape record (R258, R261). ORIGKIND above 4 is refused, but for
the RESTART record that R393 writes for a VENC record still held (log entry 53). -/
def CopyRec.early (r : CopyRec) (s : State) (g : Group) (block : List Byte) : Option Nat :=
  if 7 ≤ r.kind ∨ (4 < r.orig ∧ !(r.kind == 6 && r.orig == 5 && r.vencOk (encoderMine s.part))) then some 1
  else if !(r.fieldsOk s.part) ∨ (r.does = 3 ∧ !chainOk r block) then some 2
  else if g.tags.length ≤ r.tag then some 3
  else if !(r.scratchOk g.scratchLen) then some 4
  else none

-- Tiles of handle copies

/-- The quad of tile k of a handle operand (R247, R248, R250). -/
def tileQuad (x i2 i3 k : Nat) : Quad :=
  { q0 := BitVec.ofNat 32 (x % 2 ^ 20 + i3 % 4096 * 2 ^ 20)
    c0 := BitVec.ofNat 32 (x / 2 ^ 20 % 2 ^ 20 + k)
    c1 := BitVec.ofNat 32 (x / 2 ^ 40 % 2 ^ 20)
    c2 := BitVec.ofNat 32 i2 }

/-- The quads of tile k's source and destination. -/
def CopyRec.quads (r : CopyRec) (k : Nat) : Quad × Quad := (tileQuad r.src r.s0 r.s1 k, tileQuad r.dst r.s2 r.s3 k)

/-- A handle operand's tile resolved for the hoist, where the record names one. -/
def resolveTile (on : Bool) (q : Quad) (s : State) : Except Stop (Option TileRef × State) :=
  if !on then .ok (none, s)
  else (resolveAt engineWho s.job q q.tile (fun _ => none) s).map fun r => (some r.1.ref, r.2)

/-- The tiles of a handle copy from tile k on (R87, R250). -/
def resolveTiles (r : CopyRec) : Nat → Nat → State → Except Stop (List (Option TileRef × Option TileRef) × State)
  | 0, _, s => .ok ([], s)
  | n + 1, k, s => do
    let (a, s) ← resolveTile r.hsrc (r.quads k).1 s
    let (b, s) ← resolveTile r.hdst (r.quads k).2 s
    let (rest, s) ← resolveTiles r n (k + 1) s
    return ((a, b) :: rest, s)

/-- Bytes of one row of a tile of a kind. -/
def tileRow (kind : Nat) : Nat := rowBytes kind 32

/-- A pairing of storage kinds and its BPR (R250). -/
def pairOk (r : CopyRec) (p : Option TileRef × Option TileRef) : Bool :=
  let room (stride : Nat) : Bool := r.bpr % 32 == 0 && decide (64 ≤ r.bpr ∧ r.bpr ≤ stride)
  match p with
  | (some a, some b) => a.shape.storage == b.shape.storage && a.shape.kind == b.shape.kind
  | (some a, none) => if a.shape.storage = 0 then r.bpr == tileRow a.shape.kind else room r.ds
  | (none, some b) => if b.shape.storage = 0 then r.bpr == tileRow b.shape.kind else room r.ss
  | (none, none) => true

/-- A handle copy moves dense tiles; bytes it delivers for each (R250). -/
def tileBytes (p : Option TileRef × Option TileRef) : Option Nat :=
  match p with
  | (some a, _) => if a.shape.storage = 0 then some (32 * tileRow a.shape.kind) else none
  | (none, some b) => if b.shape.storage = 0 then some (32 * tileRow b.shape.kind) else none
  | (none, none) => none

/-- Statuses 2 and 4 whose checks need shape records (R247, R250, R258). -/
def lateStatus (r : CopyRec) (scr : Nat) (ts : List (Option TileRef × Option TileRef)) : Option Nat :=
  let rowsOf (p : Option TileRef × Option TileRef) : Nat := if (tileBytes p).isSome then 32 * r.rows else r.rows
  if !(ts.all (pairOk r)) then some 2
  else
    match ts with
    | [] => none
    | p :: _ =>
      if (tileBytes p).any fun n => decide (2 ^ 32 ≤ n * r.rows ∨ r.delivered % n ≠ 0 ∨ n * r.rows < r.delivered) then some 2
      else if (r.sscr && !rowsInside scr r.src (rowsOf p) r.ss r.bpr) || (r.dscr && !rowsInside scr r.dst (rowsOf p) r.ds r.bpr)
        then some 4
      else none

-- Access by a copy

/-- A copy's accesses; a handle copy's stand under the POLICY of its handle's record, of its source's where it has two
(R83). -/
def Copy.who (c : Copy) : Who :=
  { own := none, copy := some c.uid, seg := 0, pol := (c.tiles.head?.bind fun p => p.1.or p.2).map (·.shape.policy) }

/-- Bytes a copy reads by address, whether a line of them is poisoned, and the state after. -/
def copyRead (c : Copy) (scr : Bool) (a n : Nat) (s : State) : Except Stop (List Byte × Bool × State) :=
  if scr then
    .ok (s.scratch s.group.uid a n, (linesOf a n).any (fun l => s.badScratch.contains (s.group.uid, l)), s)
  else devRead c.who s.job accRead a n s

/-- A copy carries poison to the lines of its destination (R404). -/
def poisonPieces (ps : List Piece) (s : State) : State :=
  ps.foldl (fun t p =>
    match p.loc with
    | .scratch g a => { t with badScratch := (linesOf a p.n).foldl (fun b l => if (g, l) ∈ b then b else (g, l) :: b) t.badScratch }
    | .mem a => { t with badLines := (linesOf a p.n).foldl (fun b l => if l ∈ b then b else l :: b) t.badLines }) s

/-- The bytes of a shadow that a copy writes at pieces (R259). -/
def shadowBytes (c : Copy) (ps : List Piece) (bs : List Byte) (bad : Bool) (s : State) : List ShadowByte :=
  let at_ := ps.flatMap fun p => (List.range p.n).map fun i => (p, i)
  (at_.zip bs).map fun x =>
    { group := s.group.uid, tag := c.rec'.tag, copy := c.uid, loc := x.1.1.loc.plus x.1.2, byte := x.2, bad := bad
      job := x.1.1.through.getD s.group.job, va := x.1.1.va + x.1.2, epoch := x.1.1.epoch s }

/-- Bytes a copy writes by address: visible, or in its shadow; a landing is a write of its page (R237, R257, R259). -/
def copyWrite (c : Copy) (scr : Bool) (a : Nat) (bs : List Byte) (bad : Bool) (s : State) : Except Stop State := do
  let ps ← if scr then .ok ((splitLines a bs.length).map fun p =>
      ({ loc := .scratch s.group.uid p.1, n := p.2, va := p.1, leaf := none } : Piece))
    else devPieces c.who s s.job accWrite a bs.length
  migrateFor c.who ps s
  peersReady c.who s ps
  if c.rec'.pub then
    if ps.any (·.remote s) then failWith (exc 23 9)
    else
      let t := touchPieces accWrite ps s
      return { t with core := { t.core with shadows := t.core.shadows ++ shadowBytes c ps bs bad s } }
  else
    let t := writePieces c.who ps bs s
    return if bad then poisonPieces ps t else t

-- Rows by address (R249, R251 to R253)

/-- Patch row p of an UNFOLD (R251). -/
def unfoldRow (c : Copy) (p : Nat) (s : State) : Except Stop (List Byte × Bool × State) :=
  let r := c.rec'
  let e := r.esize
  let cols := r.bpr / e
  let oy := p / r.ow.toNat
  let ox := p % r.ow.toNat
  let pad := leBytes e (if e ≤ 4 then r.s3 else 0)
  let places := (List.range (byteN r.s0 0)).flatMap fun ky => (List.range (byteN r.s0 1)).map fun kx => (ky, kx)
  places.foldlM (fun (acc : List Byte × Bool × State) k => do
    let y : Int := (oy * byteN r.s0 2 : Nat) - (byteN r.s2 0 : Int) + (k.1 * byteN r.s1 0 : Nat)
    let x : Int := (ox * byteN r.s0 3 : Nat) - (byteN r.s2 2 : Int) + (k.2 * byteN r.s1 1 : Nat)
    if 0 ≤ y ∧ y < r.rows ∧ 0 ≤ x ∧ x < cols then do
      let b ← copyRead c r.sscr (r.src + y.toNat * r.ss + x.toNat * e) e acc.2.2
      return (acc.1 ++ b.1, acc.2.1 || b.2.1, b.2.2)
    else return (acc.1 ++ pad, acc.2.1, acc.2.2)) ([], false, s)

/-- The patterns of a row of n elements of a kind (R58). -/
def rowPatterns (kind n : Nat) (bs : List Byte) : List Nat :=
  (List.range n).map fun i =>
    if 8 ≤ kindWidth kind then fieldB bs (i * kindBytes kind) (kindBytes kind)
    else if kindWidth kind = 6 then fieldB bs i 1 % 64
    else if i % 2 = 0 then fieldB bs (i / 2) 1 % 16 else fieldB bs (i / 2) 1 / 16

/-- The spall of an element: what its conversion lost (R252). -/
def spallOf (r : CopyRec) (x y : Word) : Nat × Flags :=
  let a := readKind r.skind x
  let b := readKind r.dkind y
  let inf : Bool := match b with | .inf _ => true | _ => false
  if a.isNaN || b.isNaN || inf then (0, 0) else roundFloat r.spallKind 0 true 0 (a.add b.neg)

/-- One operation of a CHAIN on an FP32 word (R253). -/
def chainOp (op : Nat) (c x : Word) : Word × Flags :=
  let fp (r : Nat × Flags) : Word × Flags := (BitVec.ofNat 32 r.1, r.2)
  match op with
  | 0 => fp (addK 8 x.toNat c.toNat)
  | 1 => fp (mulK 8 x.toNat c.toNat)
  | 2 => fp (minMax32 true x.toNat c.toNat)
  | 3 => fp (minMax32 false x.toNat c.toNat)
  | 4 => nanElse (fun x => x &&& 0x7FFFFFFF) x
  | 5 => nanElse (fun x => x ^^^ 0x80000000) x
  | 6 => special32 (exp2W x) x
  | 7 => special32 (tanhW x) x
  | 8 => special32 (sigmW x) x
  | 9 => special32 rcp32 x
  | _ => special32 sqrt32 x

/-- The operations of a block applied in order. -/
def chainOps (r : CopyRec) (block : List Byte) (x : Word × Flags) : Word × Flags :=
  (List.range r.ops).foldl (fun a k =>
    let y := chainOp (fieldB block (8 * k) 4) (BitVec.ofNat 32 (fieldB block (8 * k + 4) 4)) a.1
    (y.1, a.2 ||| y.2)) x

/-- One element of a converting row: its result, its spall and flags (R252, R253). w is its draw (R68). -/
def convertElem (c : Copy) (w p : Nat) : Nat × Nat × Flags :=
  let r := c.rec'
  let x := BitVec.ofNat 32 p
  let src : Word × Flags := if r.does = 3 then chainOps r c.block (convert r.skind 8 0 false 0 x) else (x, 0)
  let y := convert (if r.does = 3 then 8 else r.skind) r.dkind r.rnd r.sat w src.1
  let sp := if r.spall then spallOf r x y.1 else (0, 0)
  (y.1.toNat, sp.1, src.2 ||| y.2 ||| sp.2)

/-- The bytes of a destination row, its source read: data, spall, flags and poison, and the state after. -/
def rowData (c : Copy) (k : Nat) (s : State) : Except Stop ((List Byte × List Byte × Flags × Bool) × State) := do
  let r := c.rec'
  if r.does = 1 then
    let x ← unfoldRow c k s
    return ((x.1, [], 0, x.2.1), x.2.2)
  else do
    let (bs, bad, s) ← copyRead c r.sscr (r.src + k * r.ss) r.srcLen s
    if r.does = 0 then return ((bs, [], 0, bad), s)
    else
      let (ws, s) := if r.rnd = 5 then engineDraws r.elems s else ([], s)
      let es := (rowPatterns r.skind r.elems bs).zipIdx.map fun p => convertElem c (ws.getD p.2 0) p.1
      return ((packRow r.dkind (es.map (·.1)) [], if r.spall then packRow r.spallKind (es.map (·.2.1)) [] else [],
        es.foldl (fun f e => f ||| e.2.2) 0, bad), s)

/-- One copy of the focused core changed. -/
def State.updCopy (uid : Nat) (f : Copy → Copy) (s : State) : State :=
  { s with core := { s.core with copies := s.core.copies.map fun x => if x.uid = uid then f x else x } }

/-- Flags of a copy reach its tag's status (R252, R258). -/
def tagFlags (g t : Nat) (f : Flags) (s : State) : State :=
  s.updGroup g fun x => { x with tags := x.tags.zipIdx.map fun p =>
    if p.2 = t then { p.1 with cflags := p.1.cflags ||| f } else p.1 }

/-- A copy's current row: its source is read once, before any of the row is written (R249). -/
def currentRow (c : Copy) (k : Nat) (s : State) : Except Stop ((List Byte × List Byte × Flags × Bool) × State) :=
  match c.row with
  | some x => .ok (x, s)
  | none => do
    let (x, s) ← rowData c k s
    return (x, (tagFlags s.group.uid c.tag x.2.2.1 s).updCopy c.uid fun y => { y with row := some x })

/-- The next n bytes of a copy by address land, within its current row (R256). A wait keeps the row that was read and
lands nothing. -/
def landRow (c : Copy) (n : Nat) (s : State) : Except Stop State := do
  let r := c.rec'
  let k := c.landed / r.dstLen
  let o := c.landed % r.dstLen
  let m := min n (r.dstLen - o)
  let ((bs, sp, _, bad), s) ← currentRow c k s
  let t ← keepWait s (do
    let s ← copyWrite c r.dscr (r.dst + k * r.ds + o) ((bs.drop o).take m) bad s
    if r.spall ∧ o + m = r.dstLen then copyWrite { c with record := c.record.set 2 0 } r.spscr (r.spallAt + k * r.s3) sp bad s
    else return s)
  return t.updCopy c.uid fun x =>
    { x with
      landed := x.landed + m
      unit := (x.landed + m) / r.dstLen
      row := if o + m = r.dstLen then none else x.row
      migSince := none }

-- Tiles (R250)

/-- Row r of a dense tile's patterns, overhang read as +0. -/
def denseRow (w : Who) (t : Target) (r : Nat) : Nat → State → Except Stop (List Nat × Bool × State)
  | 0, s => .ok ([], false, s)
  | n + 1, s => do
    let (xs, bad, s) ← denseRow w t r n s
    let p := 32 * r + n
    if t.overhang p then return (xs ++ [0], bad, s)
    else do
      let x ← denseRead w t [t.coord.getD 0 0 / 32 * 32 + n, t.coord.getD 1 0 / 32 * 32 + r, t.coord.getD 2 0, t.coord.getD 3 0] s
      return (xs ++ [x.1], bad || x.2.1, x.2.2)

/-- Row r of a dense tile written; writes to overhang are discarded (R85). -/
def putDenseRow (w : Who) (t : Target) (r : Nat) (bad : Bool) : List (Nat × Nat) → State → Except Stop State
  | [], s => .ok s
  | (n, p) :: rest, s => do
    let s ← (if t.overhang (32 * r + n) then .ok s
      else do
        let a := t.shape.address (t.shape.offset
          [t.coord.getD 0 0 / 32 * 32 + n, t.coord.getD 1 0 / 32 * 32 + r, t.coord.getD 2 0, t.coord.getD 3 0])
        let ps ← devPieces w s t.job (if kindWidth t.shape.kind = 4 then accRw else accWrite) a.1 (kindBytes t.shape.kind)
        migrateFor w ps s
        peersReady w s ps
        let t' := writePieces (w.under t) ps (t.shape.stored a.2 ((pieceBytes s ps).getD 0 0) p) s
        return if bad then poisonPieces ps t' else t' : Except Stop State)
    putDenseRow w t r bad rest s

/-- The slab that a copy takes from an address: its length in bytes once its header passes R250. -/
def slabHeader (kind bpr : Nat) (bs : List Byte) : Option Nat :=
  let w0 := slabWord bs 0
  let n := slabWord bs 2
  if headOk w0 kind && (decide (bits w0 15 12 ≤ 7) || bits w0 15 12 == 15) && decide (2 ≤ n ∧ 32 * n ≤ bpr) then some (32 * n)
  else none

/-- What the kick released to a copy is released further, at the scope of what the copy publishes; at node or sys scope it
waits for what peers owe (R257, R305, R327). -/
def copyRelease (c : Copy) (scope : Nat) (s : State) : Except Stop State :=
  let ours (e : PWrite) : Bool := e.group == c.group && decide (2 ≤ e.shown)
  let t := showWrites (min 3 (scope + 1)) ours (drainWhere (fun e => e.isLocal s || decide (4 ≤ scope)) s)
  if decide (4 ≤ scope) && (t.core.pend.any fun e => ours e && !(e.isLocal t)) then .error (.hold t) else .ok t

/-- The lines of a target's slab carry poison, where it has one (R404). -/
def poisonSlab (c : Copy) (t : Target) (s : State) : Except Stop State := do
  let (e, s) ← devNat c.who t.job accSlab t.entryAt 8 s
  if !e.testBit 0 then return s
  else return poisonPieces (← devPieces c.who s t.job accSlabW (t.slabAt e) (32 * entLen e)) s

/-- A slab handed to the encoder path, and with it the poison of its source (R250, R305, R306, R404). -/
def landSlab (c : Copy) (q : Quad) (t : Target) (bs : List Byte) (bad : Bool) (s : State) : Except Stop State := do
  let s ← copyRelease c t.scope s
  let (_, s) ← encodeAt c.who s.group.tables q t (fun _ => (if bs = [] then .gone else .raw bs, [])) s
  if bad then poisonSlab c t s else return s

/-- The count of a slab copy stays below 2^32 (R247). -/
def countOk (c : Copy) (n : Nat) : Except Stop Unit := if 2 ^ 32 ≤ c.landed + n then failWith (exc 23 2) else .ok ()

/-- The 32 rows of a dense tile copied, n rows still to go (R250). -/
def denseTile (c : Copy) (k : Nat) (src dst : Option Target) : Nat → State → Except Stop State
  | 0, s => .ok s
  | n + 1, s => do
    let s ← denseTile c k src dst n s
    let r := c.rec'
    let row := 32 * k + n
    let kind := ((src.or dst).map (·.shape.kind)).getD 0
    let (ps, bad, s) ← (match src with
      | some t => denseRow c.who t n 32 s
      | none => (copyRead c r.sscr (r.src + row * r.ss) r.bpr s).map fun b => (rowPatterns kind 32 b.1, b.2.1, b.2.2) :
      Except Stop (List Nat × Bool × State))
    match dst with
    | some t => putDenseRow c.who t n bad ((List.range 32).zip ps) s
    | none => copyWrite c r.dscr (r.dst + row * r.ds) (packRow kind ps []) bad s

/-- The next tile of a handle copy (R250). A wait lands nothing of it; a slab tile's PENDING stays held (R306). -/
def landTile (c : Copy) (s : State) : Except Stop State := do
  let r := c.rec'
  let k := c.unit
  let p := c.tiles.getD k (none, none)
  let src := p.1.map fun t => t.target s
  let dst := p.2.map fun t => t.target s
  let q := r.quads k
  let (n, s) ← (match tileBytes p with
    | some n => (keepWait s (denseTile c k src dst 32 s)).map fun t => (n, t)
    | none =>
      match src, dst with
      | some a, some b => do
        let (_, x, s) ← slabRead c.who a s
        let bs := (x.map (·.1)).getD []
        countOk c bs.length
        let s ← landSlab c q.2 b bs ((x.map (·.2)).getD false) s
        return (bs.length, s)
      | some a, none => do
        let (_, x, s) ← slabRead c.who a s
        match x with
        | none => failWith (exc 23 7)
        | some (bs, bad) =>
          if r.bpr < bs.length then failWith (exc 23 7)
          else do
            countOk c bs.length
            let s ← copyWrite c r.dscr (r.dst + k * r.ds) bs bad s
            return (bs.length, s)
      | none, some b => do
        let h ← copyRead c r.sscr (r.src + k * r.ss) 16 s
        match slabHeader b.shape.kind r.bpr h.1 with
        | none => failWith (exc 23 7)
        | some n => do
          countOk c n
          let x ← copyRead c r.sscr (r.src + k * r.ss) n s
          let s ← landSlab c q.2 b x.1 x.2.1 x.2.2
          return (n, s)
      | none, none => .ok (0, s) : Except Stop (Nat × State))
  return s.updCopy c.uid fun x => { x with landed := x.landed + n, unit := x.unit + 1, migSince := none }

/-- Rows or tiles a copy has in all. -/
def Copy.units (c : Copy) : Nat := if c.tiles.isEmpty then c.rec'.dstRows else c.tiles.length

/-- Copies that land bytes: not REDUCE, VENC, held shadow copies or copies that failed at their kick. -/
def Copy.lands (c : Copy) : Bool := c.rec'.does != 4 && c.rec'.does != 5 && !c.held && c.late.isNone

/-- A copy of the focused core. -/
def State.copyOf? (s : State) (uid : Nat) : Option Copy := s.core.copies.find? fun x => x.uid == uid

/-- The next row, or what is left of it, or the next tile. -/
def landUnit (uid : Nat) (s : State) : Except Stop State :=
  match s.copyOf? uid with
  | none => .ok s
  | some c => if c.tiles.isEmpty then landRow c c.rec'.dstLen s else landTile c s

/-- Up to n rows or tiles land; a stop ends the landing with what has landed. -/
def landUnits (uid : Nat) : Nat → State → State × Option Stop
  | 0, s => (s, none)
  | n + 1, s =>
    match landUnit uid s with
    | .ok t => landUnits uid n t
    | .error (.hold t) => (t, some (.hold t))
    | .error e => (s, some e)

-- Ends

/-- The status of a copy that a fault ended (R255, R258). -/
def statusOf (e : Exc) : Nat :=
  match e.cls with
  | 12 => 5
  | 13 => 7
  | 14 => 8
  | 10 => 13
  | 11 => 13
  | 23 => e.detail
  | _ => 6

-- Reductions at their home

/-- The job of a contribution on this device. -/
def reduceJob (s : State) (c : Contribution) : Option Job :=
  s.jobs.find? fun j => j.chip == s.node.chip && j.part == c.part && j.jobno == c.jobno

/-- Two contributions belong to one reduction (R318). -/
def sameReduction (a b : Contribution) : Bool :=
  a.part == b.part && a.jobno == b.jobno && a.number == b.number && a.dst == b.dst

/-- A contribution fits its reduction (R318). -/
def fitsReduction (r : Reduction) (c : Contribution) : Bool :=
  let f := r.first
  c.mask == f.mask && c.payload == f.payload && c.dkind == f.dkind && c.rnd == f.rnd && c.sat == f.sat &&
    c.bytes.length == f.bytes.length && c.mask.getLsbD c.src && !(r.parts.any fun p => p.src == c.src)

/-- The primary port of the home for a chip: the lowest assigned to it (R319, R344). -/
def primaryPort (s : State) (chip : Nat) : Nat :=
  ((s.node.ports.zipIdx.find? fun p => (p.1.map (·.1)) == some chip).map (·.2)).getD (16 + chip)

/-- The contributions in the order of R319: the home's own, then by primary port. -/
def reduceOrder (s : State) (ps : List Contribution) : List Contribution :=
  (ps.filter fun p => p.src == s.node.chip) ++
    (List.range 32).flatMap fun n => ps.filter fun p => p.src != s.node.chip && primaryPort s p.src == n

/-- One element of a reduction (R319). w is the draw of RS. -/
def reduceElem (f : Contribution) (w : Nat) (xs : List Nat) : Nat :=
  let f32 (x : Nat) : Word := (convert f.payload 8 0 false 0 (BitVec.ofNat 32 x)).1
  match xs with
  | [] => 0
  | x :: rest =>
    let acc := rest.foldl (fun a y => BitVec.ofNat 32 (addK 8 a.toNat (f32 y).toNat).1) (f32 x)
    (convert 8 f.dkind f.rnd f.sat w acc).1.toNat

/-- The rows of a reduction's result. -/
def reduceRows (f : Contribution) (parts : List Contribution) (draw : Nat → Nat) : List (List Byte) :=
  let n := f.rowBytes * 8 / kindWidth f.payload
  let rows := f.bytes.length / f.rowBytes
  let of (p : Contribution) (r : Nat) : List Nat := rowPatterns f.payload n (sliceB p.bytes (r * f.rowBytes) f.rowBytes)
  (List.range rows).map fun r =>
    packRow f.dkind ((List.range n).map fun i => reduceElem f (draw (r * n + i) % 65536) (parts.map fun p => (of p r).getD i 0)) []

/-- The rows written at DST, with the poison of a payload (R404). -/
def writeRows (w : Who) (j : Job) (dst stride : Nat) (bad : Bool) : Nat → List (List Byte) → State → Except Stop State
  | _, [], s => .ok s
  | k, r :: rs, s => do
    let ps ← devPieces w s j accWrite (dst + k * stride) r.length
    migrateFor w ps s
    peersReady w s ps
    let s := writePieces w ps r s
    writeRows w j dst stride bad (k + 1) rs (if bad then poisonPieces ps s else s)

/-- A copy of any core takes its place in the focus. -/
def State.focusCopy (core uid : Nat) (s : State) : State :=
  match (s.coreOf core).copies.find? fun x => x.uid == uid with
  | some c => s.focusGroup c.group
  | none => s

/-- The accepted REDUCE copies of this device that belong to a reduction, by core. -/
def reduceCopies (s : State) (f : Contribution) : List (Nat × Copy) :=
  (s.core :: s.cores).flatMap fun k => (k.copies.filter fun c =>
    c.accepted && c.rec'.does == 4 && c.rec'.s1 == f.number && c.rec'.dst == f.dst &&
      (s.jobOf (s.groupOf c.group).job).jobno == f.jobno && (s.jobOf (s.groupOf c.group).job).part == f.part).map fun c => (k.id, c)

/-- The bytes a REDUCE delivers. -/
def CopyRec.total (r : CopyRec) : Nat := r.dstRows * r.dstLen

/-- What a copy's record says of a fault that ended it: peer failure always has detail 2 (R255). -/
def copyExc (e : Exc) : Exc := if e.cls = 10 then { e with detail := 2 } else e

/-- A contributor's copy on this device ends, or the contributor elsewhere is told (R254, R319). -/
def ackReduction (f : Contribution) (status : Nat) (e : Exc) (srcs : List Nat) (s : State) : State :=
  let t := if srcs.contains s.node.chip then
      (reduceCopies s f).foldl (fun u c =>
        let u := (u.focusGroup c.2.group).focusCore c.1
        if status = 0 then finishCopy c.2 c.2.rec'.total u else failCopy c.2 status 1 (copyExc e) u) s
    else s
  { t with out := t.out ++ (srcs.filter (· ≠ s.node.chip)).map fun p =>
      if status = 0 then Output.answer p [] else Output.refusal p status }

/-- Every chip of a reduction's mask has contributed (R319). -/
def Reduction.full (r : Reduction) : Bool :=
  (List.range 16).all fun n => !r.first.mask.getLsbD n || r.parts.any fun p => p.src == n

/-- A chip of a reduction's mask counts as failed and has not contributed (R319). -/
def lostContributor (s : State) (r : Reduction) : Option Nat :=
  (List.range 16).find? fun n =>
    r.first.mask.getLsbD n && n != s.node.chip && (s.partOf r.first.part).failed.getLsbD n && !(r.parts.any fun p => p.src == n)

/-- A reduction leaves its home. -/
def dropReduction (r : Reduction) (s : State) : State :=
  { s with reductions := s.reductions.filter fun x => !(sameReduction x.first r.first) }

/-- A reduction every contributor of which has arrived is computed, written and acknowledged (R319). A MIGRATING page
under DST is waited for, up to 20 000 cycles (R238). -/
def settleReduction (r : Reduction) (s : State) : State :=
  let srcs := r.parts.map (·.src)
  let t := dropReduction r s
  match reduceJob s r.first with
  | none => ackReduction r.first 6 (exc 7 9) srcs t
  | some j =>
    let rows := reduceRows r.first (reduceOrder s r.parts) fun i => Config.engineDraw (s.free + i)
    let q := runLate r.since (s.partOf r.first.part).cycle fun late =>
      writeRows { unitWho with seg := 0, late := late } j r.first.dst r.first.dstride (r.parts.any (·.bad)) 0 rows t
    match q.1 with
    | .ok u => ackReduction r.first 0 (exc 0 0) srcs { u with free := u.free + r.first.bytes.length }
    | .error (.fault e) => ackReduction r.first (statusOf e) e srcs t
    | .error _ => { t with reductions := { r with since := q.2 } :: t.reductions }

/-- Reductions that wait for their DST are tried again (R238). -/
def retryReductions (s : State) : State := (s.reductions.filter Reduction.full).foldl (fun t r => settleReduction r t) s

/-- What becomes of a contribution at its home. -/
inductive Arrival where
  | full
  | refused
  | taken (s : State)

/-- A contribution arrives at its home (R318, R319): it waits where all 256 reductions are in use and it begins
another; one that does not fit its reduction fails alone; a mask chip that has failed ends every contributor's copy. -/
def reduceArrive (c : Contribution) (s : State) : Arrival :=
  let old := s.reductions.find? fun r => sameReduction r.first c
  let r : Reduction := old.getD { first := c, parts := [], since := none }
  if old.isNone && decide (256 ≤ s.reductions.length) then .full
  else if !(fitsReduction r c) then .refused
  else
    let r := { r with parts := r.parts ++ [c] }
    let t : State := { dropReduction r s with reductions := r :: (dropReduction r s).reductions }
    match lostContributor s r with
    | some n => .taken (ackReduction r.first 13 (exc 10 2 0 n) (r.parts.map (·.src)) (dropReduction r s))
    | none => .taken (if r.full then settleReduction r t else t)

/-- A reduction is given up because a contributor failed before its contribution arrived (R319). -/
def failReductions (chip : Nat) (s : State) : State :=
  (s.reductions.filter fun r => lostContributor s r == some chip).foldl (fun t r =>
    ackReduction r.first 13 (exc 10 2 0 chip) (r.parts.map (·.src)) (dropReduction r t)) s

/-- The payload of a REDUCE, row after row, and whether a line of it is poisoned. -/
def reducePayload (c : Copy) : Nat → Nat → State → Except Stop (List Byte × Bool × State)
  | 0, _, s => .ok ([], false, s)
  | n + 1, k, s => do
    let b ← copyRead c c.rec'.sscr (c.rec'.src + k * c.rec'.ss) c.rec'.bpr s
    let r ← reducePayload c n (k + 1) b.2.2
    return (b.1 ++ r.1, b.2.1 || r.2.1, r.2.2)

/-- A REDUCE copy of the focused core sends its contribution (R254). A contribution that its home cannot take yet, or a
silent home, waits; a home whose partition does not take it refuses (R355). -/
def sendReduce (c : Copy) (s : State) : Except Stop State := do
  let r := c.rec'
  let ps ← devPieces c.who s s.job accWrite r.dst 1
  let home := ((ps.head?).map (·.chip s)).getD s.node.chip
  if home ≠ s.node.chip ∧ s.failedPeer home then failWith (exc 10 2 0 home)
  else if home ≠ s.node.chip ∧ s.silentPeer home then .error (.hold s)
  else do
    peersReady c.who s ps
    let (bs, bad, s) ← reducePayload c r.rows 0 s
    let k : Contribution :=
      { src := s.node.chip, jobno := s.job.jobno, part := s.job.part, number := r.s1, dst := r.dst
        mask := BitVec.ofNat 16 r.s0, payload := r.skind, dkind := r.dkind, rnd := r.rnd, sat := r.sat
        rowBytes := r.bpr, dstride := r.ds, bytes := bs, bad := bad }
    let t := s.updCopy c.uid fun x => { x with accepted := true }
    if home = s.node.chip then
      match reduceArrive k t with
      | .taken u => return u
      | .refused => failWith (exc 23 2)
      | .full => .error (.hold s)
    else return { t with out := t.out ++ [.send home k] }

-- Events of the engine

/-- What a landing's stop does to its copy. -/
def landed (c : Copy) (r : State × Option Stop) : State :=
  match r.2 with
  | some (.fault e) => failCopy c (statusOf e) 1 (copyExc e) r.1
  | _ => r.1

/-- COPY_COMPLETE: what is left of a copy lands, and it completes; with a follow-on command it waits for the matrix
engine (R249 to R256). -/
def execCopyComplete (core uid : Nat) (s : State) : Out :=
  match (s.coreOf core).copies.find? fun x => x.uid == uid with
  | none => .next s
  | some c =>
    let t := s.focusGroup c.group
    match c.late with
    | some (cls, det, addr, aux) =>
      let e := exc cls det addr aux
      .next (if c.held then s else failCopy c (statusOf e) 1 (copyExc e) t)
    | none =>
      if c.held ∨ c.rec'.does = 5 ∨ c.accepted then .next s
      else if c.rec'.does = 4 then
        match sendReduce c t with
        | .ok u => .next u
        | .error (.fault e) => .next (failCopy c (statusOf e) 1 (copyExc e) t)
        | .error _ => .next s
      else
        let r := landUnits uid (c.units - c.unit) t
        match r.2, r.1.copyOf? uid with
        | none, some d =>
          if d.rec'.folw ∧ !d.followed then .next r.1 else .next (finishCopy d d.landed r.1)
        | _, _ => .next (landed c r)

/-- FOLLOW_ON_ISSUE: a copy whose bytes have all landed presents its command block to the matrix engine as an MSTR
(R256, R299). It waits while another group holds the engine or an intake is in progress. -/
def execFollowOnIssue (core uid : Nat) (s : State) : Out :=
  match (s.coreOf core).copies.find? fun x => x.uid == uid with
  | none => .next s
  | some c =>
    if !(c.lands && c.rec'.folw && !c.followed && !c.following && decide (c.units ≤ c.unit)) then .next s
    else
      let t := s.focusGroup c.group
      let g := t.group
      if !engineFor t g ∨ t.core.engine.intake.isSome then .next s
      else
        let block := t.scratch g.uid c.rec'.follow 64
        let cmd := cmdOf block
        match blockCheck t 2 cmd cmd.fmt [g] (0, 0) 0 false with
        | some e => .next (failCopy c 10 1 e t)
        | none =>
          match startIntake 2 block c.rec'.follow cmd.fmt (some uid) g (takeEngine g t) with
          | .ok u => .next (u.updCopy uid fun x => { x with following := true })
          | .error (.fault e) => .next (failCopy c 10 1 e t)
          | .error _ => .next s

/-- Rows of a copy at a destination by address: 32 for each dense tile, one for each slab (R250). -/
def Copy.rowsOut (c : Copy) : Nat :=
  match c.tiles with
  | [] => c.rec'.dstRows
  | p :: _ => (if (tileBytes p).isSome then 32 else 1) * c.tiles.length

/-- The lines of a copy's destination (R259). -/
def Copy.lines (c : Copy) : Nat :=
  let r := c.rec'
  (distinct ((List.range c.rowsOut).flatMap fun k => linesOf (r.dst + k * r.ds) r.dstLen)).length

/-- The shadow lines of a core: held by copies that have ended, and taken by those that have started (R259; log entry
54). -/
def shadowHeld (k : Core) : Nat :=
  (distinct ((k.shadows.filter fun b => !(k.copies.any fun c => c.uid == b.copy)).map fun b => b.loc.line)).length +
    ((k.copies.filter fun c => c.rec'.pub && !c.held).map Copy.lines).sum

/-- Copies held by the hoist start in XKICK order, as far as the shadow lines they need leave room (R257, R259). -/
def startHeld : List Copy → Nat → List Copy
  | [], _ => []
  | c :: cs, used =>
    if !c.held then c :: startHeld cs used
    else
      let n := if c.rec'.pub && c.late.isNone then c.lines else 0
      if 0 < n ∧ 8192 < used + n then c :: cs else { c with held := false } :: startHeld cs (used + n)

/-- The first copy that the hoist of a core holds. -/
def firstHeld (k : Core) : Option Copy := k.copies.find? (·.held)

/-- SHADOW_COPY_START: a shadow copy that had no room starts once there is room, and the copies kicked after it (R257,
R259). -/
def execShadowCopyStart (core uid : Nat) (s : State) : Out :=
  .next (s.updCore core fun k =>
    if (firstHeld k).any fun c => c.uid == uid then { k with copies := startHeld k.copies (shadowHeld k) } else k)

/-- SLAB_ENCODE: the encoder rewrites the next destination tile of a copy into slab storage (R250, R305, R306). -/
def execSlabEncode (core uid : Nat) (s : State) : Out :=
  match (s.coreOf core).copies.find? fun x => x.uid == uid with
  | none => .next s
  | some c =>
    let slab : Bool := match (c.tiles.getD c.unit (none, none)).2 with | some t => t.shape.storage == 1 | none => false
    if c.lands && slab && decide (c.unit < c.units) then .next (landed c (landUnits uid 1 (s.focusGroup c.group)))
    else .next s

/-- REDUCE_CONTRIBUTION: a contribution arrives from a peer; a refused one fails with status 2 there (R318, R319). -/
def execReduceContribution (c : Contribution) (s : State) : Out :=
  match reduceArrive c s with
  | .taken t => .next t
  | .refused => .next { s with out := s.out ++ [.refusal c.src 2] }
  | .full => .next s

-- The hoist

/-- The unit a restarted handle copy goes on from: dense tiles by their bytes, slabs by the lengths of the source (R260).
None where DELIVERED is no whole number of tiles. -/
def restartUnit (c : Copy) (d : Nat) (s : State) : Nat → Nat → Nat → Except Stop (Option Nat)
  | 0, k, sum => .ok (if sum = d then some k else none)
  | n + 1, k, sum =>
    if sum = d then .ok (some k)
    else
      match (c.tiles.getD k (none, none)), tileBytes (c.tiles.getD k (none, none)) with
      | _, some b => restartUnit c d s n (k + 1) (sum + b)
      | (some a, _), none => do
        let e ← devNat (c.who.under (a.target s)) (s.jobOf a.job) accSlab (a.target s).entryAt 8 s
        restartUnit c d s n (k + 1) (sum + if e.1.testBit 0 then 32 * entLen e.1 else 0)
      | (none, _), none => do
        let h ← copyRead c c.rec'.sscr (c.rec'.src + k * c.rec'.ss) 16 s
        restartUnit c d s n (k + 1) (sum + 32 * slabWord h.1 2)

/-- An accepted copy starts: its tag, and its place among the core's copies. The hoist holds a shadow copy that has no
room, and every copy kicked behind one it holds (R255, R257, R259). -/
def startCopy (c : Copy) (s : State) : State :=
  let r := c.rec'
  let big : Bool := r.pub && decide (8192 < c.lines)
  let c := { c with
    unit := if c.tiles.isEmpty then c.landed / r.dstLen else c.unit
    late := if big then some (23, 9, 0, 0) else c.late
    held := s.core.copies.any (·.held) || (r.pub && !big && c.late.isNone && decide (8192 < shadowHeld s.core + c.lines)) }
  tagStart c.group r.tag { s with core := { s.core with copies := s.core.copies ++ [c] }, fresh := s.fresh + 1 }

/-- The record a copy is kicked with. -/
def newCopy (s : State) (g : Group) (warp o : Nat) (bs block : List Byte) (tiles : List (Option TileRef × Option TileRef))
    (late : Option (Nat × Nat × Nat × Nat)) : Copy :=
  { uid := s.fresh, group := g.uid, warp := warp, record := bs, offset := o, landed := (copyRecOf bs).delivered, unit := 0
    tiles := tiles, block := block, late := late, followed := false, held := false, accepted := false, following := false
    migSince := none, cflags := 0, row := none }

/-- An address of every page that a frame's planes of luma and of Cb and Cr lie in (R386, R387). -/
def framePages (r : CopyRec) : List Nat :=
  let pages (a n : Nat) : List Nat := (List.range ((a + n - 1) / 4096 - a / 4096 + 1)).map fun k => max a ((a / 4096 + k) * 4096)
  pages r.src ((r.rows - 1) * r.ss + r.bpr) ++ pages (r.src + r.ds) ((r.rows / 2 - 1) * r.ss + r.bpr)

/-- A VENC record's frame, ring header and phasers lie on the issuing device (R389). -/
def vencLocal (r : CopyRec) (s : State) : Bool :=
  let ok (a n : Nat) : Bool := match devPieces engineWho s s.job accRead a n with
    | .ok ps => ps.all fun p => !p.remote s
    | .error _ => true
  let ph (x : Nat) : Bool := ok (s.launch.gbase + x / 32 * 32) 32
  (framePages r).all (fun a => ok a 1) && ok r.dst 64 && ph r.s0 && (r.s2 == 0 || ph r.s2)

/-- The hoist takes the bytes of a record of the focused group, kicked from offset o: its status, with the detail of R82
in bits [11:8] for status 5 (R258, R261). -/
def kickBytes (warp o : Nat) (bs : List Byte) (s : State) : Except Stop (Nat × State) :=
  let g := s.group
  let r := copyRecOf bs
  let block := if r.does = 3 then s.scratch g.uid r.s0 (8 * r.ops) else []
  match r.early s g block with
  | some n => .ok (n, s)
  | none =>
    if r.does = 5 then
      if vencLocal r s then .ok (0, startCopy (newCopy s g warp o bs [] [] none) s) else .ok (2, s)
    else if !(r.hsrc || r.hdst) then .ok (0, startCopy (newCopy s g warp o bs block [] none) s)
    else
      match resolveTiles r r.rows 0 s with
      | .ok (ts, t) =>
        match lateStatus r g.scratchLen ts with
        | some n => .ok (n, s)
        | none =>
          let c := newCopy t g warp o bs block ts none
          if r.kind ≠ 6 then .ok (0, startCopy c t)
          else
            match restartUnit c r.delivered t ts.length 0 0 with
            | .ok (some k) => .ok (0, startCopy { c with unit := k } t)
            | .ok none => .ok (2, s)
            | .error (.fault e) => .ok (0, startCopy { c with late := some (e.cls, e.detail, e.addr.toNat, e.aux.toNat) } t)
            | .error e => .error e
      | .error (.fault e) =>
        if e.cls = 12 then .ok (5 + e.detail % 16 * 256, s)
        else .ok (0, startCopy (newCopy s g warp o bs block [] (some (e.cls, e.detail, e.addr.toNat, e.aux.toNat))) s)
      | .error e => .error e

/-- The hoist takes the record at a scratchpad offset; status 4 where it does not lie in the scratchpad (R258). -/
def kickRecord (warp o : Nat) (s : State) : Except Stop (Nat × State) :=
  if o % 64 ≠ 0 ∨ s.group.scratchLen < o + 64 then .ok (4, s) else kickBytes warp o (s.scratch s.group.uid o 64) s

/-- Records kicked lane by lane. -/
def kickLanes (o : Nat → Nat) : List Nat → State → Except Stop (List (Nat × Nat) × State)
  | [], s => .ok ([], s)
  | l :: ls, s => do
    let (x, s) ← kickRecord s.warp.id (o l) s
    let (xs, s) ← kickLanes o ls s
    return ((l, x) :: xs, s)

/-- XKICK (R261), a release to the copies at group scope (R330): not ready until the core has a free copy slot for each active lane. A lane that must wait makes the
whole instruction wait, with no copy started. -/
def execXkick (d a : Reg) (g : Guard) (s : State) : Out :=
  insn (.xkick d a g) s fun act =>
    if act = 0 then .ok s.advance
    else if 96 < s.core.copies.length + (lanesIn act).length then .error (.hold s.waits)
    else
      let u := (release 1 (drainWhere (fun _ => true) s)).1
      match kickLanes (fun l => (s.v a.toNat l).toNat) (lanesIn act) u with
      | .ok (xs, t) => .ok (t.setV d.toNat act fun l => BitVec.ofNat 32 ((amGet xs l).getD 0)).settled.advance
      | .error (.hold _) => .error (.hold u.waits)
      | .error e => .error e

/-- A copy that R260 lets be rewritten: no REDUCE or VENC that was accepted, and no copy whose follow-on command the
matrix engine has accepted, since a RESTART would present it again (R299, R300). -/
def Copy.rewritable (c : Copy) : Bool := !c.accepted && !c.followed

/-- The RESTART record of a copy (R260). -/
def Copy.restart (c : Copy) : List Byte :=
  let r := c.rec'
  let d := if r.pub ∨ r.does = 4 ∨ r.does = 5 then 0 else c.landed
  [6] ++ leBytes 1 r.tag ++ leBytes 2 (r.flags % 4096 + r.does * 4096) ++ sliceB c.record 4 0x38 ++ leBytes 4 d

/-- Copies of the focused core stopped: shadows discarded, a follow-on's intake and a tile under rewriting given up. -/
def stopCopies (cs : List Copy) (s0 : State) : State :=
  let mine (u : Nat) : Bool := cs.any fun c => c.uid == u
  let s := cs.foldl (fun t c => dropRewrites c.uid t) s0
  { s with core := { s.core with
    copies := s.core.copies.filter fun x => !(mine x.uid)
    shadows := s.core.shadows.filter fun b => !(mine b.copy)
    engine := { s.core.engine with intake := match s.core.engine.intake with
      | some k => if (k.copy.map mine).getD false then none else some k
      | none => none } } }

/-- RESTART records written one after another (R261). -/
def putRestarts (g : Nat) : Nat → List Copy → State → State
  | _, [], s => s
  | o, c :: cs, s => putRestarts g (o + 64) cs (scratchWrite g o c.restart s)

/-- k copies under a tag were rewritten by XCANCEL (R261). -/
def tagCancelled (g t k : Nat) (s : State) : State :=
  let was := ((s.groupOf g).tags.getD t { out := 0, done := false, err := false, code := 0, cflags := 0 })
  let u := s.updGroup g fun x => { x with tags := x.tags.zipIdx.map fun p =>
    if p.2 = t then { p.1 with out := p.1.out - k, done := p.1.done || p.1.out == k, code := if 0 < k then 11 else p.1.code }
    else p.1 }
  if was.out = k then touchLine (.tags g) u else u

/-- XCANCEL (R261). RESTART records of a resumed group that still wait for a copy slot are copies of their tag too. -/
def execXcancel (d a : Reg) (g : Guard) (s : State) : Out :=
  insn (.xcancel d a g) s fun act =>
    match lowest act with
    | none => .ok s.advance
    | some l =>
      let x := (s.v a.toNat l).toNat
      let t := x % 64
      let o := x / 64 * 64
      let out (n : Nat) (u : State) : Except Stop State := .ok (u.setV d.toNat act fun _ => BitVec.ofNat 32 n).advance
      match s.group.tags[t]? with
      | none => out 3 s
      | some tag =>
        if s.group.scratchLen < o + 64 * tag.out then failWith (exc 5 1 o 1)
        else
          let cs := s.core.copies.filter fun c => c.group == s.group.uid && c.rec'.tag == t && c.rewritable
          let all := cs ++ s.group.restarts.filter fun c => c.rec'.tag == t
          let u := putRestarts s.group.uid o all (stopCopies cs s)
          let u := u.updGroup s.group.uid fun x => { x with restarts := x.restarts.filter fun c => c.rec'.tag != t }
          out all.length (tagCancelled s.group.uid t all.length u)

/-- The status word of a tag (R258). -/
def tagWord (c : Core) (g : Group) (n : Nat) : Word :=
  match g.tags[n]? with
  | none => 0
  | some t =>
    let f (b : Bool) (k : Nat) : Nat := if b then 2 ^ k else 0
    BitVec.ofNat 32 (t.cflags.toNat * 2 ^ 18 + f (c.shadows.any fun b => b.group == g.uid && b.tag == n) 17 + f t.err 16 +
      f t.done 15 + t.out % 128 * 256 + t.code % 16)

/-- XSTAT (R261). -/
def execXstat (d a : Reg) (g : Guard) (s : State) : Out :=
  plain (.xstat d a g) s fun act => s.setV d.toNat act fun l => tagWord s.core s.group (s.v a.toNat l).toNat

/-- A mask of tags. -/
def tagNumbers (g : Group) (m : DWord) : List Nat := (List.range g.tags.length).filter fun n => m.getLsbD n

/-- Where a shadow byte becomes visible, and under which key: in the frame its page has now, for the page may have moved
since it landed (R259, R384, R401). -/
def ShadowByte.home (s : State) (b : ShadowByte) : Loc × Option Nat :=
  match b.loc, virtPlace s (s.jobOf b.job) accWrite b.va with
  | .mem _, .ok p => (.mem p.1.addr, p.1.epoch)
  | _, _ => (b.loc, b.epoch)

/-- One shadow byte becomes visible: a write of its page, with the poison it carries (R237, R259, R404). -/
def publishByte (b : ShadowByte) (s : State) : State :=
  let j := s.jobOf b.job
  let h := b.home s
  let t := match b.loc with | .mem _ => touchPage j b.va accWrite s | .scratch _ _ => s
  let t := patchPlace h.1 [b.byte] (writeLoc (t.viaOf j none) h.2 h.1 [b.byte] t)
  if !b.bad then t
  else poisonPieces [{ loc := h.1, n := 1, va := b.va, leaf := none }] t

/-- The pieces under the shadow bytes of a group's tags, one for each line, as a walk finds their pages now (R238). -/
def shadowPieces (g : Nat) (ns : List Nat) (s : State) : List Piece :=
  let bs := s.core.shadows.filter fun b => b.group == g && ns.contains b.tag
  (bs.foldl (fun acc b => if acc.any fun x => x.loc.line == b.loc.line then acc else acc ++ [b]) []).filterMap fun b =>
    match b.loc, walk s (s.jobOf b.job) b.va accWrite with
    | .mem _, .ok w => some { loc := b.loc, n := 1, va := b.va, leaf := some w.leaf, through := some b.job }
    | _, _ => none

/-- Every shadow byte of a group's tags becomes visible in one step (R259). -/
def publish (g : Nat) (ns : List Nat) (s : State) : State :=
  let mine (b : ShadowByte) : Bool := b.group == g && ns.contains b.tag
  (s.core.shadows.filter mine).foldl (fun t b => publishByte b t)
    { s with core := { s.core with shadows := s.core.shadows.filter fun b => !(mine b) } }

/-- PUBLISH (R261): a release at chip scope where it publishes. What it writes waits on a MIGRATING page (R238, R376). -/
def execPublish (d a : Reg) (g : Guard) (s : State) : Out :=
  insn (.publish d a g) s fun act =>
    match lowest act with
    | none => .ok s.advance
    | some l =>
      let ns := tagNumbers s.group (s.pair a.toNat l)
      let tag (f : Tag → Bool) : Bool := ns.any fun n => (s.group.tags[n]?.map f).getD false
      let out (n : Nat) (t : State) : State := (t.setV d.toNat act fun _ => BitVec.ofNat 32 n).settled.advance
      if tag fun x => x.out != 0 then .ok (out 1 s)
      else if tag fun x => x.err then .ok (out 2 s)
      else
        match migrate (shadowPieces s.group.uid ns s) s with
        | some r => r
        | none => .ok (out 0 (publish s.group.uid ns (release 3 s).1))

/-- The DONE bits of a group (R135, R255). -/
def doneMask (g : Group) : DWord :=
  BitVec.ofNat 64 ((g.tags.zipIdx.map fun p => if p.1.done then 2 ^ p.2 else 0).sum)

/-- A test of the tag bitmap: an acquire of the copied bytes at group scope; inside a transaction it puts the pseudo-line
in the read set (R257, R262). -/
def tagTest (i : Instr) (s : State) (f : Word → State → State) : Out :=
  insn i s fun act => do
    let t ← if s.frame.tx.active && act != 0 then track false (.tags s.group.uid) s else .ok s
    return (acquire 1 (f act t)).advance

/-- TAGANY (R262). -/
def execTagany (p : Pred) (a : Reg) (g : Guard) (s : State) : Out :=
  tagTest (.tagany p a g) s fun act t =>
    t.setPred p.toNat act (maskOf fun l => (doneMask s.group &&& s.pair a.toNat l) != 0)

/-- TAGALL (R262). -/
def execTagall (p : Pred) (a : Reg) (g : Guard) (s : State) : Out :=
  tagTest (.tagall p a g) s fun act t =>
    t.setPred p.toNat act (maskOf fun l => (doneMask s.group &&& s.pair a.toNat l) == s.pair a.toNat l)

/-- TAGFF (R262). -/
def execTagff (d a : Reg) (g : Guard) (s : State) : Out :=
  tagTest (.tagff d a g) s fun act t =>
    t.setV d.toNat act fun l => BitVec.ofNat 32
      (((List.range 64).find? fun n => (doneMask s.group &&& s.pair a.toNat l).getLsbD n).getD 64)

/-- TAGCLR (R262): inside a transaction it takes effect at commit. -/
def execTagclr (a : Reg) (g : Guard) (s : State) : Out :=
  insn (.tagclr a g) s fun act =>
    if act = 0 then .ok s.advance
    else
      let m := (lanesIn act).foldl (fun m l => m ||| s.pair a.toNat l) (0 : DWord)
      if s.frame.tx.active then do
        let t ← track false (.tags s.group.uid) s
        let t ← track true (.tags s.group.uid) t
        return (t.updTx fun x => { x with clears := m :: x.clears }).advance
      else .ok (clearTags s.group.uid m s).advance

end Sys2Proof.Machine
end

