-- ==== Sys2Proof/Machine/Lanes.lean ====
section
/-!
DEFINITION. Cross-lane instructions (R197 to R202); FENCEW stands with the memory order.
-/
namespace Sys2Proof.Machine

/-- A shuffle of one form (R198). -/
def shflExec (i : Instr) (form : Nat) (d a b : Reg) (s : State) : Out :=
  plain i s fun act =>
    s.setV d.toNat act fun l =>
      match shflLane form (s.v b.toNat l) act l with
      | some j => s.v a.toNat j
      | none => 0

/-- SHFL.idx (R198). -/
def execShflIdx (d a b : Reg) (g : Guard) (s : State) : Out := shflExec (.shflIdx d a b g) 0 d a b s
/-- SHFL.up (R198). -/
def execShflUp (d a b : Reg) (g : Guard) (s : State) : Out := shflExec (.shflUp d a b g) 1 d a b s
/-- SHFL.dn (R198). -/
def execShflDn (d a b : Reg) (g : Guard) (s : State) : Out := shflExec (.shflDn d a b g) 2 d a b s
/-- SHFL.xor (R198). -/
def execShflXor (d a b : Reg) (g : Guard) (s : State) : Out := shflExec (.shflXor d a b g) 3 d a b s

/-- VOTE.any (R200). -/
def execVoteAny (d a : Pred) (g : Guard) (s : State) : Out :=
  plain (.voteAny d a g) s fun act => s.setPred d.toNat act (if s.pred a &&& act ≠ 0 then BitVec.allOnes 32 else 0)
/-- VOTE.all (R200). -/
def execVoteAll (d a : Pred) (g : Guard) (s : State) : Out :=
  plain (.voteAll d a g) s fun act => s.setPred d.toNat act (if s.pred a &&& act = act then BitVec.allOnes 32 else 0)
/-- VOTE.ballot (R200). -/
def execVoteBallot (d : Reg) (a : Pred) (g : Guard) (s : State) : Out :=
  plain (.voteBallot d a g) s fun act => s.setV d.toNat act fun _ => s.pred a &&& act
/-- VOTE.count (R200). -/
def execVoteCount (d : Reg) (a : Pred) (g : Guard) (s : State) : Out :=
  plain (.voteCount d a g) s fun act => s.setV d.toNat act fun _ => BitVec.ofNat 32 (lanesIn (s.pred a &&& act)).length
/-- MATCH (R200). -/
def execMatchL (d a : Reg) (g : Guard) (s : State) : Out :=
  plain (.matchL d a g) s fun act =>
    s.setV d.toNat act fun l => act &&& maskOf fun j => s.v a.toNat j == s.v a.toNat l

/-- An integer reduction over the source lanes (R201). -/
def redInt (i : Instr) (d a : Reg) (f : Word → Word → Word) (s : State) : Out :=
  plain i s fun act =>
    match (lanesIn act).map (s.v a.toNat) with
    | [] => s
    | x :: xs => s.setV d.toNat act fun _ => xs.foldl f x

/-- One level of the tree of R72: neighbours meet, the lower lane's value as the a operand, and a node with one present
input passes it on; the flags of every node are gathered. -/
def treeLevel (f : Nat → Nat → Nat × Flags) : List (Option Nat) → List (Option Nat) × Flags
  | some x :: some y :: rest =>
    let r := treeLevel f rest
    (some (f x y).1 :: r.1, (f x y).2 ||| r.2)
  | some x :: none :: rest => ((some x) :: (treeLevel f rest).1, (treeLevel f rest).2)
  | none :: y :: rest => (y :: (treeLevel f rest).1, (treeLevel f rest).2)
  | xs => (xs, 0)

/-- The five levels of the tree at distances 1, 2, 4, 8 and 16. -/
def tree (f : Nat → Nat → Nat × Flags) : Nat → List (Option Nat) → List (Option Nat) × Flags
  | 0, xs => (xs, 0)
  | n + 1, xs =>
    let l := treeLevel f xs
    let r := tree f n l.1
    (r.1, l.2 ||| r.2)

/-- A float reduction in the fixed tree (R72, R201). -/
def redFloat (i : Instr) (d a : Reg) (f : Nat → Nat → Nat × Flags) (s : State) : Out :=
  plain i s fun act =>
    let r := tree f 5 (lanesOf fun l => if act.getLsbD l then some (s.v a.toNat l).toNat else none)
    let root := ((r.1.head?.join).getD 0)
    (s.setV d.toNat act fun _ => BitVec.ofNat 32 root).orFlags act fun _ => r.2

/-- REDW.add.s32 (R201). -/
def execRedwAddS32 (d a : Reg) (g : Guard) (s : State) : Out := redInt (.redwAddS32 d a g) d a (· + ·) s
/-- REDW.add.f32 (R72, R201). -/
def execRedwAddF32 (d a : Reg) (g : Guard) (s : State) : Out := redFloat (.redwAddF32 d a g) d a (addK 8) s
/-- REDW.min.s (R201). -/
def execRedwMinS (d a : Reg) (g : Guard) (s : State) : Out :=
  redInt (.redwMinS d a g) d a (fun x y => if x.slt y then x else y) s
/-- REDW.min.n (R201). -/
def execRedwMinN (d a : Reg) (g : Guard) (s : State) : Out :=
  redInt (.redwMinN d a g) d a (fun x y => if x.ult y then x else y) s
/-- REDW.max.s (R201). -/
def execRedwMaxS (d a : Reg) (g : Guard) (s : State) : Out :=
  redInt (.redwMaxS d a g) d a (fun x y => if x.slt y then y else x) s
/-- REDW.max.n (R201). -/
def execRedwMaxN (d a : Reg) (g : Guard) (s : State) : Out :=
  redInt (.redwMaxN d a g) d a (fun x y => if x.ult y then y else x) s
/-- REDW.min.f (R201). -/
def execRedwMinF (d a : Reg) (g : Guard) (s : State) : Out := redFloat (.redwMinF d a g) d a (minMax32 false) s
/-- REDW.max.f (R201). -/
def execRedwMaxF (d a : Reg) (g : Guard) (s : State) : Out := redFloat (.redwMaxF d a g) d a (minMax32 true) s
/-- REDW.and (R201). -/
def execRedwAnd (d a : Reg) (g : Guard) (s : State) : Out := redInt (.redwAnd d a g) d a (· &&& ·) s
/-- REDW.or (R201). -/
def execRedwOr (d a : Reg) (g : Guard) (s : State) : Out := redInt (.redwOr d a g) d a (· ||| ·) s
/-- REDW.xor (R201). -/
def execRedwXor (d a : Reg) (g : Guard) (s : State) : Out := redInt (.redwXor d a g) d a (· ^^^ ·) s

/-- The lanes of a mask up to and including lane l, ascending. -/
def lanesTo (act : Word) (l : Nat) : List Nat := (lanesIn act).filter (· ≤ l)

/-- The inclusive prefix of lane l: its sum and the flags of the additions that form it (R72, R202). -/
def prefixF (s : State) (a : Reg) (act : Word) (l : Nat) : Nat × Flags :=
  match (lanesTo act l).map fun j => (s.v a.toNat j).toNat with
  | [] => (0, 0)
  | x :: xs => xs.foldl (fun p y => ((addK 8 p.1 y).1, p.2 ||| (addK 8 p.1 y).2)) (x, 0)

/-- The integer prefix of the lanes before lane l, and of lane l itself when incl. -/
def prefixI (s : State) (a : Reg) (act : Word) (incl : Bool) (l : Nat) : Word :=
  ((lanesTo act l).filter fun j => incl || j != l).foldl (fun x j => x + s.v a.toNat j) 0

/-- SCANW.incl.s32 (R202). -/
def execScanwInclS32 (d a : Reg) (g : Guard) (s : State) : Out :=
  plain (.scanwInclS32 d a g) s fun act => s.setV d.toNat act (prefixI s a act true)
/-- SCANW.excl.s32 (R202). -/
def execScanwExclS32 (d a : Reg) (g : Guard) (s : State) : Out :=
  plain (.scanwExclS32 d a g) s fun act => s.setV d.toNat act (prefixI s a act false)
/-- SCANW.incl.f32 (R72, R202). -/
def execScanwInclF32 (d a : Reg) (g : Guard) (s : State) : Out :=
  plain (.scanwInclF32 d a g) s fun act =>
    (s.setV d.toNat act fun l => BitVec.ofNat 32 (prefixF s a act l).1).orFlags act fun l => (prefixF s a act l).2
/-- SCANW.excl.f32: shifted by one active lane; the lowest receives −0; each lane keeps the flags of its own prefix
(R72, R202). -/
def execScanwExclF32 (d a : Reg) (g : Guard) (s : State) : Out :=
  plain (.scanwExclF32 d a g) s fun act =>
    (s.setV d.toNat act fun l =>
      match (lanesTo act l).dropLast.getLast? with
      | some j => BitVec.ofNat 32 (prefixF s a act j).1
      | none => 0x80000000).orFlags act fun l => (prefixF s a act l).2

end Sys2Proof.Machine
end

