-- ==== Sys2Proof/Machine/Registers.lean ====
section
/-!
DEFINITION. The special registers, SRD and SWR (R112, R130, R135, R136), and SEGLD (R212).
-/
namespace Sys2Proof.Machine

/-- The tier of a launch's warps (R112, R123). -/
def tierOf (s : State) (l : Launch) : Nat :=
  let j := s.jobOf l.job
  if j.contract && j.admitted then (if j.overrun then 2 else j.tier) else l.tier

/-- Entries of a core's pool that a name may still take: neither live nor withdrawn, name 0 left out (R158, R170). -/
def Core.poolFree (c : Core) : Nat := c.poolSize - 1 - (c.pool.filter fun e => e.live || e.poison != 0).length

/-- Base and limit of a segment as SRD reports them; of the stack segment, the lane's own (R135). -/
def segSeen (s : State) (n l : Nat) : DWord × DWord :=
  if n = 4 then
    let b := stackAddr s l
    (BitVec.ofNat 64 b, BitVec.ofNat 64 (b + if s.warp.level = .handler then 1024 else s.launch.stack))
  else s.seg n

/-- Bits [31:0] or [63:32] of a 64-bit value. -/
def half (high : Bool) (x : DWord) : Word := if high then (x >>> 32).setWidth 32 else x.setWidth 32

/-- What SRD returns to a lane (R135). -/
def specialReg (s : State) (sel l : Nat) : Word :=
  let n (x : Nat) : Word := BitVec.ofNat 32 x
  let p := s.part
  match sel with
  | 0x000 => n l
  | 0x001 => n s.warp.id
  | 0x002 => n s.group.number
  | 0x003 => n (s.group.rank % 8 + (s.group.teamSize - 1) % 8 * 16)
  | 0x004 => n (s.core.id + s.core.id / 36 * 2 ^ 16)
  | 0x005 => n (p.num % 8 + (p.dies.map fun d => 2 ^ d).sum % 256 * 256)
  | 0x006 => n s.job.jobno
  | 0x007 => n (tierOf s s.launch + if s.group.boost then 4 else 0)
  | 0x008 => s.lanes
  | 0x009 => n s.launch.groups
  | 0x00A => n s.frame.winBase
  | 0x00B => n s.warp.allot
  | 0x010 => (s.frame.flags.getD l 0).setWidth 32
  | 0x011 => half false (doneMask s.group)
  | 0x012 => s.frame.stklim
  | 0x013 => s.frame.rs.getD l 0
  | 0x014 => half true (doneMask s.group)
  | 0x020 => n s.core.cycle
  | 0x021 => s.warp.cycHi
  | 0x022 => n p.tick
  | 0x023 => s.warp.tickHi
  | 0x024 => n (s.job.perStart.getD 0)
  | 0x060 => n s.core.wcbage
  | 0x061 => n s.core.poolFree
  | 0x062 => n (l1Bytes s)
  | _ =>
    let q := segSeen s ((sel - 0x40) / 4) l
    half (sel % 2 == 1) (if sel % 4 < 2 then q.1 else q.2)

/-- A read of the low half of a counter latches the high half (R135). -/
def latch (sel : Nat) (s : State) : State :=
  if sel = 0x020 then { s with warp := { s.warp with cycHi := BitVec.ofNat 32 (s.core.cycle / 2 ^ 32) } }
  else if sel = 0x022 then { s with warp := { s.warp with tickHi := BitVec.ofNat 32 (s.part.tick / 2 ^ 32) } }
  else s

/-- SRD (R136). -/
def execSrd (d : Reg) (i : BitVec 11) (s : State) : Out :=
  plain (.srd d i) s fun act => (latch i.toNat s).setV d.toNat act fun l => specialReg s i.toNat l

/-- What SWR does (R136). -/
def writeSpecial (sel : Nat) (v : Nat → Word) (s : State) : State :=
  let x := v ((lowest s.lanes).getD 0)
  let each {α : Type} (old : List α) (d : α) (g : Nat → α) : List α :=
    lanesOf fun l => if s.lanes.getLsbD l then g l else old.getD l d
  match sel with
  | 0x010 => s.updFrame fun f => { f with flags := each f.flags 0 fun l => (v l).setWidth 7 }
  | 0x013 => s.updFrame fun f => { f with rs := each f.rs 0 fun l => if v l = 0 then 1 else v l }
  | 0x012 => s.updFrame fun f => { f with stklim := x &&& 0xFFFFFFF0 }
  | 0x060 => { s with core := { s.core with wcbage := min (max x.toNat 16) 65535 } }
  | _ => s

/-- SWR (R136). -/
def execSwr (a : Reg) (i : BitVec 11) (s : State) : Out := plain (.swr a i) s fun _ => writeSpecial i.toNat (s.v a.toNat) s

/-- SEGLD (R212): a segment fault that no access raised names no offset. -/
def execSegld (a : Reg) (sg : BitVec 3) (s : State) : Out :=
  insn (.segld a sg) s fun _ =>
    let l := (lowest s.lanes).getD 0
    let base := s.pair a.toNat l
    let lim := s.pair (a.toNat + 2) l
    if base.toNat % 128 ≠ 0 ∨ lim.toNat < base.toNat ∨ 2 ^ 48 < lim.toNat ∨
        (sg = 3 ∧ 65536 < lim.toNat - base.toNat) then failWith (exc 5 1 0 sg.toNat)
    else
      let t := s.updFrame fun f => { f with segs := f.segs.set sg.toNat (base, lim) }
      .ok { t with warp := { t.warp with reseg := true } }.advance

end Sys2Proof.Machine
end

