-- ==== Sys2Proof/Machine/Memo.lean ====
section
/-!
DEFINITION. The forwarding window, the scoreboard and the result memo (R155 to R168), the arrival of loads (R157), and
the faults of a word that cannot be fetched or is no instruction (R48 to R50, R138).
-/
namespace Sys2Proof.Machine

/-- Elements of a memo key's context: a warp, a group, a launch, or a value (R162). -/
def ctxWarp (uid : Nat) : Nat := 4 * uid
/-- A group. -/
def ctxGroup (uid : Nat) : Nat := 4 * uid + 1
/-- A launch. -/
def ctxLaunch (uid : Nat) : Nat := 4 * uid + 2
/-- A value. -/
def ctxValue (x : Nat) : Nat := 4 * x + 3

-- Scoreboard and pool

/-- The architectural registers an instruction of the issuing warp reads or writes. -/
def State.regsOf (s : State) (i : Instr) : List Nat := (srcRegs i ++ dstRegs i).map s.arch

/-- The registers an instruction writes: a ZLD that delivers a 16-bit kind writes 16 of its block (R304). -/
def State.writes (s : State) (i : Instr) : List Nat :=
  match i with
  | .zld _ _ b g =>
    let l := (lowest (s.active g)).getD 0
    if bits (s.v b.toNat l).toNat 3 0 = 8 then dstRegs i else (dstRegs i).take 16
  | _ => dstRegs i

-- Keys

/-- A word without its register fields (R162). -/
def keyWord (i : Instr) : Word :=
  let w := (wordOf i).toNat
  let o := w / 2 ^ 25
  let n := if o = 0x29 ∨ o = 0x2A ∨ o = 0x79 ∨ o = 0x1E then 18
    else match i with
      | .voteBallot _ _ _ | .voteCount _ _ _ => 18
      | _ => if (0x20 ≤ o ∧ o ≤ 0x27) ∨ o = 0x1D ∨ o = 0x48 ∨ o = 0x4E then 11 else 4
  BitVec.ofNat 32 (o * 2 ^ 25 + w % 2 ^ n)

/-- The context of a launch's entries; a warp that SEGLD has re-segmented counts as a launch of its own (R162, R212). -/
def launchCtx (s : State) : Nat := if s.warp.reseg then ctxWarp s.warp.uid else ctxLaunch s.group.launch

/-- The further context of an SRD, or none where its selector is not eligible (R162, R163). The level separates the
stack segment of the handler from that of the warp. -/
def srdCtx (s : State) (sel : Nat) : Option (List Nat) :=
  let g := ctxGroup s.group.uid
  if sel = 0x001 then some [ctxWarp s.warp.uid]
  else if sel = 0x00A then some [ctxWarp s.warp.uid, ctxValue s.frame.winBase]
  else if sel = 0x002 ∨ sel = 0x003 then some [g]
  else if sel = 0x007 then some [g, ctxValue (tierOf s s.launch), ctxValue (if s.group.boost then 1 else 0)]
  else if sel = 0x009 ∨ sel = 0x00B then some [launchCtx s]
  else if 0x40 ≤ sel ∧ sel ≤ 0x57 then
    if (sel - 0x40) / 4 = 4 then some [g, ctxWarp s.warp.uid, ctxValue s.warp.level.rank] else some [launchCtx s]
  else if sel ≤ 0x00B then some []
  else none

/-- Address, policy word and width of a load by address. -/
def loadParts : Instr → Option (Reg × Reg × Nat)
  | .ldN8 _ a b _ | .ldS8 _ a b _ => some (a, b, 1)
  | .ldN16 _ a b _ | .ldS16 _ a b _ => some (a, b, 2)
  | .ld32 _ a b _ => some (a, b, 4)
  | .ld64 _ a b _ => some (a, b, 8)
  | .ld128 _ a b _ => some (a, b, 16)
  | _ => none

/-- A lane's access lies in pages with the load-reuse bit (R165). -/
def reusePages (s : State) (l o w : Nat) : Bool :=
  match piecesOf s accRead l 0 o w with
  | .ok ps => ps.all fun p => (p.leaf.map (·.reuse)).getD false
  | .error _ => false

/-- Whether a load takes part: its scratchpad lines, whether it reads load-reuse pages, and its context (R162, R165). -/
def loadCase (i : Instr) (act : Word) (s : State) : Option (List Nat × Bool × List Nat) :=
  if s.frame.tx.active ∨ act = 0 then none
  else
    match i with
    | .ldc _ _ _ _ => some ([], false, [launchCtx s])
    | _ =>
      match loadParts i with
      | none => none
      | some (a, b, w) =>
        let ls := lanesIn act
        let pol (l : Nat) : Word := s.v b.toNat l
        let off (l : Nat) : Nat := (s.v a.toNat l).toNat
        if !(ls.all fun l => polReuse (pol l) && polOrder (pol l) != 4) then none
        else if ls.all fun l => polSeg (pol l) == 3 then some ([], false, [launchCtx s])
        else if ls.all fun l => polSeg (pol l) == 1 then
          let lines := distinct (ls.flatMap fun l => linesOf (off l) w)
          if lines.length ≤ 4 then some (lines, false, [ctxGroup s.group.uid]) else none
        else if ls.all fun l => polSeg (pol l) == 0 && reusePages s l (off l) w then some ([], true, [launchCtx s])
        else none

/-- Whether an instruction, with the description of its instance where XT may prefix it, is eligible: the scratchpad
lines it reads, whether it reads load-reuse pages, and its further context (R163, R165). -/
def eligible (i : Instr) (u : Option Alu) (act : Word) (s : State) : Option (List Nat × Bool × List Nat) :=
  match u with
  | some u => if (lanesIn act).any fun l => u.draws (s.v u.b l) then none else some ([], false, [])
  | none =>
    match i with
    | .iaddi _ _ _ | .imuli _ _ _ | .andi _ _ _ | .ori _ _ _ | .xori _ _ _ | .shli _ _ _ | .shri _ _ _ | .sari _ _ _
    | .movl _ _ | .movh _ _ | .p2v _ _ | .shflIdx _ _ _ _ | .shflUp _ _ _ _ | .shflDn _ _ _ _ | .shflXor _ _ _ _
    | .voteBallot _ _ _ | .voteCount _ _ _ | .redwAddS32 _ _ _ | .redwAddF32 _ _ _ | .redwMinS _ _ _ | .redwMinN _ _ _
    | .redwMaxS _ _ _ | .redwMaxN _ _ _ | .redwMinF _ _ _ | .redwMaxF _ _ _ | .redwAnd _ _ _ | .redwOr _ _ _
    | .redwXor _ _ _ | .scanwInclS32 _ _ _ | .scanwExclS32 _ _ _ | .scanwInclF32 _ _ _ | .scanwExclF32 _ _ _
    | .matchL _ _ _ => some ([], false, [])
    | .srd _ sel => (srdCtx s sel.toNat).map fun c => ([], false, c)
    | _ => loadCase i act s

/-- The flags an instance raises in each lane (R162). -/
def raisedBy (i : Instr) (u : Option Alu) (act : Word) (s : State) : List (BitVec 7) :=
  let red (a : Reg) (f : Nat → Nat → Nat × Flags) : Flags :=
    (tree f 5 (lanesOf fun l => if act.getLsbD l then some (s.v a.toNat l).toNat else none)).2
  lanesOf fun l =>
    if !act.getLsbD l then 0
    else
      match u with
      | some u => (u.lane s 0 l).2
      | none =>
        match i with
        | .redwAddF32 _ a _ => red a (addK 8)
        | .redwMinF _ a _ => red a (minMax32 false)
        | .redwMaxF _ a _ => red a (minMax32 true)
        | .scanwInclF32 _ a _ | .scanwExclF32 _ a _ => (prefixF s a act l).2
        | _ => 0

/-- The predicate masks an instruction reads as sources, in active lanes (R162). -/
def predSources (i : Instr) (act : Word) (s : State) : List Word :=
  match i with
  | .p2v _ _ => (List.range 7).map fun k => s.frame.preds.getD k 0 &&& act
  | .voteBallot _ p _ | .voteCount _ p _ => [s.pred p &&& act]
  | _ => []

/-- What an instance of an issue is to the window and the memo: its destinations, its key if it looks up, the flags it
raises, the scratchpad lines it reads, whether it reads load-reuse pages, and whether it is a load. -/
structure Probe where
  dests : List Nat
  key : Option MemoKey
  flags : List (BitVec 7)
  lines : List Nat
  reuse : Bool
  load : Bool
  deriving DecidableEq, Repr

/-- The instructions of the class of loads that deliver registers: they take staging entries (R157, R372). -/
def isLoad : Instr → Bool
  | .ldc _ _ _ _ | .tld _ _ _ _ | .zld _ _ _ _ | .cntrd _ _ _ | .phrd _ _ _ | .mrd _ _ _ | .xlate _ _ _ | .zqry _ _ _
  | .zver _ _ _ | .tqry _ _ _ => true
  | i => (loadParts i).isSome

/-- The registers that the lanes of a register-segment access reach (R208). -/
def regsReached (act : Word) (a b : Reg) (w : Nat) (s : State) : List Nat :=
  (lanesIn act).flatMap fun l =>
    let o := (s.v a.toNat l).toNat
    if polSeg (s.v b.toNat l) = 2 then (List.range ((o % 4 + w + 3) / 4)).map fun k => o / 4 + k else []

/-- Address, policy word and width of a store by address. -/
def storeParts : Instr → Option (Reg × Reg × Nat)
  | .st8 _ a b _ => some (a, b, 1)
  | .st16 _ a b _ => some (a, b, 2)
  | .st32 _ a b _ => some (a, b, 4)
  | .st64 _ a b _ => some (a, b, 8)
  | .st128 _ a b _ => some (a, b, 16)
  | _ => none

/-- The registers a store to the register segment writes (R208). -/
def regStored (i : Instr) (act : Word) (s : State) : List Nat :=
  match storeParts i with
  | some p => regsReached act p.1 p.2.1 p.2.2 s
  | none => []

/-- The registers a load or store of the register segment reads or writes by their addresses (R155, R208). -/
def regsByAddress (i : Instr) (s : State) : List Nat :=
  match (loadParts i).or (storeParts i) with
  | some p => regsReached (s.active (guardOf i)) p.1 p.2.1 p.2.2 s
  | none => []

/-- One instance, k registers on, at a row and column of XT (R162, R164). An instance with a source whose name is not yet
settled looks nothing up; with inactive lanes its destinations' prior values are sources too: log entry 71. -/
def probeOf (i : Instr) (u : Option Alu) (k : Nat) (xt : Nat × Nat) (s : State) : Probe :=
  let act := s.active (guardOf i)
  let src := (srcRegs i).map fun r => s.arch (r + k)
  let dst := (s.writes i).map fun r => s.arch (r + k)
  let named (r : Nat) : Nat × Nat := (s.frame.nameOf r, s.core.genOf (s.frame.nameOf r))
  let busy := s.warp.pendingRegs
  let prior := if act = BitVec.allOnes 32 then [] else dst
  let e := if (src ++ prior).any busy.contains then none else eligible i u act s
  { dests := distinct ((if act = 0 then [] else dst) ++ regStored i act s)
    key := e.map fun c =>
      { word := keyWord i
        mask := act
        xt := xt
        sources := src.map named
        preds := predSources i act s
        prior := prior.map named
        job := s.group.job
        context := c.2.2 }
    flags := raisedBy i u act s
    lines := (e.map (·.1)).getD []
    reuse := (e.map (·.2.1)).getD false
    load := isLoad i }

/-- The instances of the word about to issue: one, or those of an XT pair (R55, R164). -/
def probesOf (i : Instr) (s : State) : List Probe :=
  match i with
  | .xt h c st =>
    match fetchWord s (s.pc + 4) with
    | .error _ => []
    | .ok w =>
      match xtFollow (xtOffsets h c st) w s with
      | .error _ => []
      | .ok (j, _) =>
        (xtOffsets h c st).zipIdx.map fun o =>
          probeOf j ((aluOf j).map (Alu.offset o.1)) o.1 (o.2 / (c.toNat + 1), o.2 % (c.toNat + 1)) s
  | _ => [probeOf i (aluOf i) 0 (0, 0) s]

/-- The memo entry an instance hits: equal key, and every destination still holds what it held (R164). -/
def memoHit (c : Core) (p : Probe) : Option MemoEntry :=
  match p.key with
  | none => none
  | some k => c.memo.find? fun e => e.key == k && e.dests.all c.sound

/-- A hit binds the destinations to the recorded names, if they hold the value delivered (R164, R211), which is whole
though a prior value was poisoned (R170); the entry is the most recent of its set (R161). -/
def takeHit (p : Probe) (e : MemoEntry) (s : State) : Option State :=
  let ds := p.dests.zip e.dests
  let holds (d : Nat × Nat × Nat) : Bool :=
    let v := s.frame.reg d.1
    if d.2.1 = 0 then v.words.all fun w => w == 0
    else match s.core.entryOf d.2.1 with | some x => x.words == v.full | none => false
  if ds.all holds && p.dests.length == e.dests.length then
    some (({ s with core := { s.core with memo := e :: s.core.memo.erase e } } : State).updFrame fun f =>
      ds.foldl (fun f d => (f.setRegP d.1 (BitVec.allOnes 32) 0 fun l => (f.reg d.1).words.getD l 0).bind d.1 d.2.1) f)
  else none

/-- A load that hits delivers what its recorded names hold, without an access: its registers take the words of the
entries, and its lanes move on (R164). An acquire load acquires at the hit (R329). -/
def hitLoad (i : Instr) (s : State) : Option State :=
  let act := s.active (guardOf i)
  if !((loadParts i).isSome || (match i with | .ldc _ _ _ _ => true | _ => false)) ∨ (prior i act s).isSome then none
  else
    match probesOf i s with
    | [p] =>
      (memoHit s.core p).map fun e =>
        let t := (p.dests.zip e.dests).foldl (fun (t : State) d =>
          t.updFrame fun f => f.setRegP d.1 (BitVec.allOnes 32) 0 fun l =>
            (((t.core.entryOf d.2.1).map (·.words)).getD []).getD l 0) s
        let as := match loadParts i with
          | some (a, b, w) => (checked loadRule accRead act w (s.v a.toNat) (s.v b.toNat) s).toOption.getD []
          | none => []
        (acquireOf as t).advance
    | _ => none

/-- Registers written again inside the window leave the older results; such an instruction no longer enters the memo. -/
def WinEntry.without (rs : List Nat) (e : WinEntry) : WinEntry :=
  if e.dests.any rs.contains then { e with dests := e.dests.filter fun r => !(rs.contains r), key := none } else e

/-- The same for a load of several registers, of which some have arrived. -/
def Staged.without (rs : List Nat) (e : Staged) : Staged := if e.all.any rs.contains then { e with key := none } else e

/-- What one retired instance leaves behind: a hit's bindings, a load's staging entries, or a result in the window. -/
def retireOne (hits : List (Option MemoEntry)) (r : State × List WinEntry) (p : Probe × Nat) : State × List WinEntry :=
  match ((hits.getD p.2 none).bind fun e => takeHit p.1 e r.1) with
  | some t => (t, r.2)
  | none =>
    if p.1.load then
      ({ r.1 with warp := { r.1.warp with staging := r.1.warp.staging ++ p.1.dests.map fun d =>
          { dest := d, all := p.1.dests, key := p.1.key, flags := p.1.flags, lines := p.1.lines
            reuse := p.1.reuse } } }, r.2)
    else (r.1, r.2 ++ [{ dests := p.1.dests, key := p.1.key, flags := p.1.flags, scratch := [], globalLoad := false }])

/-- A warp-instruction has retired: hits are bound, the window moves on by one issue, what leaves it is named, and the
group's progress counts it (R154, R156, R164). ps and hits are what stood before it executed. -/
def retire (ps : List Probe) (hits : List (Option MemoEntry)) (s : State) : State :=
  let rs := ps.flatMap (·.dests)
  let t := { s with
    group := { s.group with progress := s.group.progress + 1 }
    warp := { s.warp with
      window := s.warp.window.map fun es => es.map (WinEntry.without rs)
      staging := s.warp.staging.map (Staged.without rs) } }
  let r := ps.zipIdx.foldl (retireOne hits) (t, [])
  pushWindow r.2 r.1

/-- LOAD_ARRIVAL: the last lane of a load's word has come; its register is named and bound, and with the last register
of the load the memo may take it (R157, R164). -/
def execLoadArrival (uid reg : Nat) (s : State) : Out :=
  let t := s.focus uid
  match t.warp.staging.find? fun e => t.warp.uid == uid && e.dest == reg with
  | none => .next s
  | some e => .next (markStalled (arrive e t))

-- Words that do not issue

/-- The level that the opcode of a word asks for, and its detail (R47, R136). -/
def wordLevel (w : Word) : Nat × Nat :=
  let o := w.toNat / 2 ^ 25
  let sel := w.toNat % 2048
  if o = 0x7B ∨ o = 0x7D then (1, o)
  else if o = 0x7C then (2, o)
  else if o = 0x7A ∧ (sel = 0x12 ∨ sel = 0x60) then (1, sel)
  else (0, 0)

/-- ILLEGAL_INSTRUCTION: the faults of a word that is no instruction, in the order of R50; a word that is one raises what
its own fields raise. -/
def execIllegalInstruction (w : Word) (s : State) : Out :=
  match decode w with
  | .ok i =>
    match wordFault i s with
    | some e => .next (stop w s.lanes (.fault e) s)
    | none => .next s
  | .error e =>
    let need := wordLevel w
    if e = .reserved ∧ s.warp.level.rank < need.1 then
      .next (stop w s.lanes (.fault { exc 2 need.2 with req := need.1, lanes := some s.lanes }) s)
    else .next (stop w s.lanes (.fault (excIllegal (badWordDetail w e) s)) s)

/-- INSTRUCTION_FETCH_FAULT: the word at the PC of the issuing stream cannot be fetched (R138), or lies in a stack region
(R210). -/
def execInstructionFetchFault (s : State) : Out :=
  if foreignFetch s s.pc then
    .next (stop 0 s.lanes (.fault { exc 5 4 (s.fetchAddr s.pc) with lanes := some s.lanes }) s)
  else
  match fetchWord s s.pc with
  | .error f => .next (stop 0 s.lanes (.fault { exc 3 f.detail (s.fetchAddr s.pc) with lanes := some s.lanes }) s)
  | .ok _ => .next s

end Sys2Proof.Machine
end

