-- ==== Sys2Proof/Machine/Pages.lean ====
section
/-!
DEFINITION. TLBINV, TLBINV2 and XLATE (R242, R244, R274), and the walks of translation: a walk that finishes or restarts
(R239) and a write that walks again on a MIGRATING page (R238).
-/
namespace Sys2Proof.Machine

/-- The fields of an invalidation word (R242's table). -/
def invWordOk (x : DWord) (two : Bool) : Bool :=
  let n := x.toNat
  bits n 63 48 == 0 && bits n 11 8 == 0 && bits n 3 1 == 0 && (two || bits n 7 4 == 0)

/-- A cached translation that an invalidation word covers: the page of its own stage holds PAGE, or ALL is set. -/
def invCovers (x : DWord) (page span : Nat) : Bool :=
  x.getLsbD 0 || page / 2 ^ span == bits x.toNat 47 12 * 4096 / 2 ^ span

/-- An invalidation reaches a core: matching translations and the L1 go (R216, R242). -/
def Core.invalidate (hit : TlbEntry → Bool) (c : Core) : Core :=
  { c with tlb := c.tlb.filter fun t => !(hit t), l1 := [] }

/-- An invalidation reaches the warps of a core: a running attempt aborts with CONFLICT, a sleeper wakes (R274). -/
def Warp.disturb (w : Warp) : Warp :=
  let w := if w.frame.tx.active then { w with frame := { w.frame with tx := { w.frame.tx with pending := true } } } else w
  if w.asleep then { w with woken := true } else w

/-- The walks of some jobs record the generations anew: they have restarted (R239). -/
def restartWalks (s : State) : State :=
  s.mapCores fun c => { c with walks := c.walks.map fun w =>
    let j := s.jobOf w.job
    { w with gen1 := j.gen1, gen2 := (s.partOf j.part).vmgens.getD j.vm 0 } }

/-- An invalidation of the whole device: writes on their way, which were translated before, are performed or have left for
their peers (R384), the generation is raised, the TLBs of every core and C-die and the table-address cache are emptied of
what matches, shared global loads go, walks restart, and every core's warps are disturbed (R166, R236, R239, R242, R274). -/
def invalidateAll (raised : State → State) (hit : TlbEntry → Bool) (table : TableEntry → Bool) (s : State) : State :=
  let t := (forgetGlobal (raised (drainCores (fun _ => true) s))).mapCores (Core.invalidate hit)
  let t := { t with
    dieTlbs := t.dieTlbs.map fun (d : Nat × List TlbEntry) => (d.1, d.2.filter fun e => !(hit e))
    tableTlb := t.tableTlb.filter fun e => !(table e) }
  restartWalks (t.mapWarps Warp.disturb)

/-- The job's stage-1 generation is raised, as TLBINV with ALL set does (R242, R379). -/
def invalidateJob (job : Nat) (x : DWord) (s : State) : State :=
  invalidateAll (fun t => t.updJob job fun j => { j with gen1 := (j.gen1 + 1) % 2 ^ 64 })
    (fun t => t.job == job && invCovers x t.page t.span1) (fun _ => false) s

/-- A VM's stage-2 generation is raised, and walks use its VMROOT as it stands from now on (R242, R400). -/
def invalidateVm (part vm : Nat) (x : DWord) (s : State) : State :=
  invalidateAll (fun t => t.updPart part fun p =>
      { p with
        vmgens := p.vmgens.set vm ((p.vmgens.getD vm 0 + 1) % 2 ^ 64)
        vmlive := p.vmlive.set vm (p.vmroots.getD vm 0) })
    (fun t => t.vm == vm && (s.jobOf t.job).part == part && invCovers x t.inter t.span2)
    (fun t => t.vm == vm && t.part == part && invCovers x t.page t.bits) s

/-- Both invalidations (R242): the word of the lowest active lane. -/
def invExec (i : Instr) (a : Reg) (two : Bool) (s : State) : Out :=
  insn i s fun act =>
    match lowest act with
    | none => .ok s.advance
    | some l =>
      let x := s.pair a.toNat l
      let vm := bits x.toNat 7 4
      if !(invWordOk x two) then failWith (exc 12 3)
      else if two ∧ s.warp.level = .handler ∧ vm ≠ s.job.vm then failWith { exc 2 0x7D with req := 1 }
      else
        let t := (release 3 s).1
        .ok (if two then invalidateVm s.job.part vm x t else invalidateJob s.group.job x t).advance

/-- TLBINV (R242). -/
def execTlbinv (a : Reg) (g : Guard) (s : State) : Out := invExec (.tlbinv a g) a false s

/-- TLBINV2 (R242). -/
def execTlbinv2 (a : Reg) (g : Guard) (s : State) : Out := invExec (.tlbinv2 a g) a true s

/-- The access an XLATE request names (R244): an atomic reads and writes. -/
def xlateAcc (k : Nat) : Acc :=
  { read := k == 0 || k == 3, write := k == 1 || k == 3, exec := k == 2, slab := false }

/-- The size code of a page (R243). -/
def sizeCode (b : Nat) : Nat := if b = 12 then 0 else if b = 16 then 1 else if b = 21 then 2 else 3

/-- The result quad of an XLATE request (R244). -/
def xlateWords (s : State) (x : DWord) : List Word :=
  let n := x.toNat
  let va := n % 2 ^ 48
  let w (k : Nat) : Word := BitVec.ofNat 32 k
  let fail (d st lv : Nat) : List Word := [0, 0, 0, w (lv * 512 + st * 256 + d)]
  if bits n 63 51 ≠ 0 ∨ 3 < bits n 50 48 then fail 3 0 0
  else
    match walk s s.job va (xlateAcc (bits n 50 48)) with
    | .error f => fail f.detail (f.stage - 1) f.level
    | .ok r =>
      let l := r.leaf
      let pa := l.phys va
      let b (x : Bool) (k : Nat) : Nat := if x then 2 ^ k else 0
      [w (pa % 2 ^ 32), w (l.aperture * 2 ^ 16 + pa / 2 ^ 32 % 2 ^ 16),
        w (b l.exec 19 + b l.write 18 + b l.read 17 + l.key * 256 + sizeCode l.bits * 64 + b l.slab 5 + b l.reuse 4 +
          b l.migrating 3 + b l.ratom 2 + l.order), 0]

/-- XLATE (R244). -/
def execXlate (d a : Reg) (g : Guard) (s : State) : Out :=
  plain (.xlate d a g) s fun act => s.setBlock d.toNat act 4 fun k l => (xlateWords s (s.pair a.toNat l)).getD k 0

-- Walks

/-- A walk begins on a core and records both generations (R239). -/
def startWalk (core job va : Nat) (write : Bool) (s : State) : State :=
  let j := s.jobOf job
  s.updCore core fun c => { c with walks := c.walks ++ [{ job := job, va := va, write := write, gen1 := j.gen1
                                                          gen2 := (s.partOf j.part).vmgens.getD j.vm 0 }] }

/-- PAGE_WALK_COMPLETE: the oldest walk of a core installs its result, or restarts where a generation has changed
(R239). A walk that meets a failure, or whose job is gone, installs nothing. -/
def execPageWalkComplete (core : Nat) (s : State) : Out :=
  match (s.coreOf core).walks with
  | [] => .next s
  | w :: rest =>
    let done (t : State) : State := t.updCore core fun c => { c with walks := rest }
    match s.jobOf? w.job with
    | none => .next (done s)
    | some j =>
      let gen2 := (s.partOf j.part).vmgens.getD j.vm 0
      if w.gen1 ≠ j.gen1 ∨ w.gen2 ≠ gen2 then
        .next (s.updCore core fun c => { c with walks := { w with gen1 := j.gen1, gen2 := gen2 } :: rest })
      else
        match walk s j w.va (if w.write then accWrite else accRead) with
        | .error _ => .next (done s)
        | .ok r =>
          if w.write ∧ r.leaf.migrating then .next (done s)
          else .next (done (install j w.va w.write r core (setLeaves j w.write r s)))

/-- What the instructions of a warp that have not retired keep is changed, in every stream of both frames. -/
def Warp.mapHolds (f : Hold → Hold) (w : Warp) : Warp :=
  let frame (x : Frame) : Frame := { x with parked := x.parked.map fun p => (p.1, f p.2) }
  { w with hold := f w.hold, frame := frame w.frame, saved := w.saved.map frame }

/-- A write that waits on MIGRATING is to walk again; past 20 000 cycles it is to fault (R238). -/
def Hold.rewalk (now : Nat) (h : Hold) : Hold :=
  match h.migrating with
  | some (t, _) => { h with migrating := some (t, decide (t + 20000 ≤ now)), migReady := true }
  | .none => h

end Sys2Proof.Machine
end

