-- ==== Sys2Proof/Machine/Groups.lean ====
section
/-!
DEFINITION. The GRP family: reading and writing a warp's state, halting and resuming a warp, and the return from the
handler (R368 to R371).
-/
namespace Sys2Proof.Machine

/-- A state selector (R368). -/
structure Sel where
  warp : Nat
  space : Nat
  index : Nat
  lane : Nat
  deriving DecidableEq, Repr

/-- The fields of a state selector. -/
def selOf (x : Word) : Sel :=
  { warp := bits x.toNat 23 19, space := bits x.toNat 18 16, index := bits x.toNat 15 5, lane := bits x.toNat 4 0 }

/-- A warp of the issuing group by its number. -/
def State.warpNo (s : State) (n : Nat) : Option Warp := s.allWarps.find? fun w => w.group == s.group.uid && w.id == n

/-- The frame a selector means: of the issuing warp its user frame, of another the frame it runs in (R368). -/
def selFrame (s : State) (w : Warp) : Frame := if w.uid = s.warp.uid then w.saved.getD w.frame else w.frame

/-- A selector that R368 admits. -/
def selOk (s : State) (x : Word) : Bool :=
  let q := selOf x
  bits x.toNat 31 24 == 0 && (s.warpNo q.warp).isSome && (decide (q.space < 2) || q.lane == 0) &&
    (let a := ((s.warpNo q.warp).map (·.allot)).getD 0
     match q.space with
     | 0 | 6 => decide (q.index < a)
     | 1 => decide (q.index ≤ 5)
     | 2 => decide (q.index ≤ 4)
     | 3 => decide (q.index ≤ 15)
     | 4 => q.warp == 0 && decide (q.index ≤ 128)
     | 5 => q.warp == 0 && decide (q.index < s.group.tags.length)
     | _ => false)

/-- A group-state fault (R361, R369). -/
def excGroup (d : Nat) (x : Word) : Exc := { exc 24 d with aux := x }

/-- The run state of a warp as space 2 item 4 shows it (R368). -/
def runCode (w : Warp) : Nat :=
  (match w.run with
    | .halted => 1
    | .wedged => 3
    | .ended => 4
    | .presented => 5
    | .running => if w.level = .handler then 2 else 0) + if w.asleep then 8 else 0

/-- The item a selector names (R368). A poisoned word reads as 0. -/
def readItem (s : State) (x : Word) : Word :=
  let q := selOf x
  let w := (s.warpNo q.warp).getD Warp.idle
  let f := selFrame s w
  let n (k : Nat) : Word := BitVec.ofNat 32 k
  match q.space with
  | 0 => if (f.reg q.index).poison.getLsbD q.lane then 0 else f.word q.index q.lane
  | 1 =>
    match q.index with
    | 0 => f.pcs.getD q.lane 0
    | 1 => if f.live.getLsbD q.lane then 1 else 0
    | 2 => f.sds.getD q.lane 0
    | 3 => n (((List.range 7).map fun k => if (f.preds.getD k 0).getLsbD q.lane then 2 ^ (k + 1) else 0).sum)
    | 4 => (f.flags.getD q.lane 0).setWidth 32
    | _ => f.rs.getD q.lane 0
  | 2 =>
    match q.index with
    | 0 => n f.winBase
    | 1 => match f.join with | some j => j ||| 1 | none => 0
    | 2 => f.tx.status
    | 3 => w.lost.setWidth 32
    | _ => n (runCode w)
  | 3 => w.fault.words.getD q.index 0
  | 4 =>
    if q.index = 128 then n s.group.edropped
    else ((s.group.elog[q.index / 16]?).map fun e => e.record.words.getD (q.index % 16) 0).getD 0
  | 5 => tagWord s.core s.group q.index
  | _ => (f.reg q.index).poison

/-- GRPRD (R369). -/
def execGrprd (d a : Reg) (g : Guard) (s : State) : Out :=
  insn (.grprd d a g) s fun act => do
    firstFail act fun l => if selOk s (s.v a.toNat l) then none else some (excGroup 1 (s.v a.toNat l))
    return (s.setV d.toNat act fun l => readItem s (s.v a.toNat l)).advance

/-- An item that R368 makes writable. -/
def selWritable (q : Sel) : Bool :=
  match q.space with
  | 0 => true
  | 1 => true
  | 2 => q.index == 0 || q.index == 1 || q.index == 3
  | 3 => q.index == 3
  | _ => false

/-- A warp whose state may not be written (R369 detail 3). -/
def selBusy (s : State) (w : Warp) : Bool :=
  w.uid != s.warp.uid && (w.run == .running || w.run == .presented || w.level == .handler)

/-- What GRPWR refuses in one lane, in the order of the details of R369. -/
def writeItemFault (s : State) (x v : Word) : Option Exc :=
  let q := selOf x
  let w := (s.warpNo q.warp).getD Warp.idle
  let bad (d : Nat) : Option Exc := some (excGroup d x)
  if !(selOk s x) then bad 1
  else if !(selWritable q) then bad 2
  else if selBusy s w then bad 3
  else if q.space = 1 ∧ q.index = 1 ∧ v.getLsbD 0 then bad 4
  else if (q.space = 2 ∧ q.index = 0 ∧ (w.allot - 128) / 16 < v.toNat) ∨
      (((q.space = 1 ∧ q.index = 0) ∨ q.space = 3) ∧ v.toNat % 4 ≠ 0) ∨
      (q.space = 2 ∧ q.index = 1 ∧ v ≠ 0 ∧ v.toNat % 4 ≠ 1) then bad 5
  else none

/-- A frame with one item of space 0, 1 or 2 written at a cycle; a register is to be named anew, and a J that is set
counts its 4096 cycles from now (R139, R369). -/
def Frame.setItem (q : Sel) (v : Word) (now : Nat) (f : Frame) : Frame :=
  let bit := BitVec.twoPow 32 q.lane
  match q.space with
  | 0 =>
    { (f.setRegP q.index bit 0 fun _ => v) with
      names := amDel q.index f.names
      stuck := f.stuck.filter fun e => !(e.dests.contains q.index) }
  | 1 =>
    match q.index with
    | 0 => { f with pcs := f.pcs.set q.lane v }
    | 1 => { f with live := f.live &&& ~~~bit }
    | 2 => { f with sds := f.sds.set q.lane v }
    | 3 => { f with preds := f.preds.zipIdx.map fun p => if v.getLsbD (p.2 + 1) then p.1 ||| bit else p.1 &&& ~~~bit }
    | 4 => { f with flags := f.flags.set q.lane (v.setWidth 7) }
    | _ => { f with rs := f.rs.set q.lane v }
  | _ =>
    match q.index with
    | 0 => { f with winBase := v.toNat }
    | 1 => { f with join := if v.getLsbD 0 then some (v - 1) else none, joinAt := now }
    | _ => f

/-- A warp with one item written. -/
def Warp.setItem (q : Sel) (v : Word) (now : Nat) (own : Bool) (w : Warp) : Warp :=
  if q.space = 3 then { w with fault := { w.fault with rpc := v } }
  else if q.space = 2 ∧ q.index = 3 then { w with lost := v.setWidth 16 }
  else if own then { w with saved := some ((w.saved.getD w.frame).setItem q v now) }
  else { w with frame := w.frame.setItem q v now }

/-- One lane's write of GRPWR. -/
def writeItem (x v : Word) (s : State) : State :=
  match s.warpNo (selOf x).warp with
  | none => s
  | some w => s.updWarp w.uid (Warp.setItem (selOf x) v s.core.cycle (w.uid == s.warp.uid))

/-- GRPWR: every lane is checked before any write; lanes write in ascending order (R369). -/
def execGrpwr (d a : Reg) (g : Guard) (s : State) : Out :=
  insn (.grpwr d a g) s fun act => do
    firstFail act fun l => writeItemFault s (s.v a.toNat l) (s.v d.toNat l)
    return ((lanesIn act).foldl (fun t l => writeItem (s.v a.toNat l) (s.v d.toNat l) t) s).advance

/-- A warp halted by GRPRES goes on; one whose live bits have all been cleared has ended (R370, R147). -/
def Warp.resume (w : Warp) : Warp := { w with run := if w.frame.live = 0 then .ended else .running }

/-- An atomic of a warp has left for a peer and is not answered: it completes, or fails with the peer, before the warp
stops at an instruction boundary (R370, R372). -/
def Warp.atomic (w : Warp) : Bool :=
  (w.hold :: (w.frame.parked ++ (match w.saved with | some f => f.parked | none => [])).map (·.2)).any fun h =>
    h.atom && !h.atPeer.isEmpty

/-- Instructions of the warp that have not retired are given up, to be replayed (R372). -/
def Warp.drop (w : Warp) : Warp :=
  let clean (f : Frame) : Frame := { f with parked := [] }
  { w with hold := Hold.none, frame := clean w.frame, saved := w.saved.map clean }

/-- A warp of the issuing group halts: what has not retired is to be replayed, its window is named, and its stores in
flight are written back (R143, R156, R372). -/
def haltWarp (uid : Nat) (s : State) : State :=
  let t := markStalled (emptyWindow (drainOwn (abandon (s.focus uid))))
  { (({ t with warp := { t.warp.drop with run := .halted } } : State).focus s.warp.uid) with lanes := s.lanes }

/-- Status and effect of GRPRES on a warp. What the handler wrote reaches a warp that resumes (R143, R370). -/
def halting (resume : Bool) (w : Warp) (s : State) : Nat × State :=
  if w.uid = s.warp.uid ∨ w.level = .handler ∨ w.run = .wedged ∨ w.run = .presented then (3, s)
  else if w.run = .ended then (2, s)
  else if resume ≠ (w.run == .halted) then (1, s)
  else (0, if resume then (drainOwn s).updWarp w.uid Warp.resume else haltWarp w.uid s)

/-- GRPRES (R370). It waits while the warp that is to halt has an atomic on its way. -/
def execGrpres (d a : Reg) (g : Guard) (s : State) : Out :=
  insn (.grpres d a g) s fun act =>
    match lowest act with
    | none => .ok s.advance
    | some l =>
      let m := s.v a.toNat l
      match s.warpNo (bits m.toNat 4 0) with
      | none => failWith (excGroup 1 m)
      | some w =>
        if bits m.toNat 7 5 ≠ 0 ∨ bits m.toNat 31 9 ≠ 0 then failWith (excGroup 1 m)
        else
          let r := halting (m.getLsbD 8) w s
          if r.1 = 0 ∧ !(m.getLsbD 8) ∧ w.atomic then .error (.hold s.waits)
          else .ok (r.2.setV d.toNat act fun _ => BitVec.ofNat 32 r.1).settled.advance

/-- TRET (R371). A warp whose live bits GRPWR has all cleared ends (R147). -/
def execTret (g : Guard) (s : State) : Out :=
  insn (.tret g) s fun act => .ok (if act = 0 then s.advance else (returnFromHandler s).endWarp)

end Sys2Proof.Machine
end

