-- ==== Sys2Proof/Machine/Place.lean ====
section
/-!
DEFINITION. Where groups land: the test a core applies (R127 to R130), the choice of cores (R131, R132), starting a
group (R67, R96, R110, R135, R137, R205), saving one and resuming one (R372 to R375), and the queues (R131, R133).
-/
namespace Sys2Proof.Machine

/-- What a group asks of a core (R127, R284). -/
structure Need where
  warps : Nat
  allot : Nat
  pool : Nat
  scratch : Nat
  tags : Nat
  team : Bool
  engine : Bool
  deriving DecidableEq, Repr

/-- What a group of a launch asks in a team of so many groups; engine says that it comes back with matrix state. -/
def needOf (l : Launch) (size : Nat) (engine : Bool) : Need :=
  { warps := l.warps, allot := l.allot, pool := l.pool, scratch := l.scratch, tags := l.tags, team := decide (1 < size)
    engine := engine }

/-- The footprint of a group (R128). -/
def footprint (scratch warps : Nat) : Nat := (scratch + 4095) / 4096 * 4096 + warps * 6144

/-- The warps resident on a core. -/
def State.warpsOn (s : State) (core : Nat) : Nat := ((s.groupsOn core).map (·.warps)).sum

/-- The lowest run of n free numbers below 64 (R130). -/
def freeRun (used : List Nat) (n : Nat) : Option Nat :=
  (List.range (65 - n)).find? fun b => (List.range n).all fun i => !(used.contains (b + i))

/-- The copy tags taken on a core. -/
def State.tagsOn (s : State) (core : Nat) : List Nat :=
  (s.groupsOn core).flatMap fun g => (List.range g.tags.length).map fun i => g.tagBase + i

/-- A core takes a group (R127, and R284 for saved matrix state). -/
def canTake (s : State) (n : Need) (core : Nat) : Bool :=
  let gs := s.groupsOn core
  let c := s.coreOf core
  let pool := if gs.isEmpty then n.pool else c.poolSize
  decide (s.warpsOn core + n.warps ≤ 64) && n.pool == pool &&
    decide ((gs.map fun g => g.warps * (s.launchOf g.launch).allot).sum + n.warps * n.allot ≤ 2 * pool) &&
    decide (pool * 128 + (gs.map fun g => footprint g.scratchLen g.warps).sum + footprint n.scratch n.warps ≤ 1966080) &&
    (freeRun (s.tagsOn core) n.tags).isSome && (!n.team || gs.all fun g => g.teamSize ≤ 1) &&
    (!n.engine || c.engine.owner.isNone)

/-- An empty core could take a group of a launch (R127). -/
def emptyTakes (l : Launch) : Bool :=
  decide (l.warps * l.allot ≤ 2 * l.pool ∧ l.pool * 128 + footprint l.scratch l.warps ≤ 1966080)

/-- Numbers in ascending order. -/
def ascending (xs : List Nat) : List Nat :=
  xs.foldl (fun acc x => acc.takeWhile (fun y => decide (y < x)) ++ x :: acc.dropWhile fun y => decide (y < x)) []

/-- Cores put in order of fewest resident warps, then lowest number (R132). -/
def byLoad (s : State) (cores : List Nat) : List Nat :=
  (List.range 65).flatMap fun k => (ascending cores).filter fun c => s.warpsOn c == k

/-- The cores of a C-die. -/
def dieCores (d : Nat) : List Nat := (List.range 36).map fun i => 36 * d + i

/-- The core a single group goes to, among those of the dies (R132). -/
def chooseCore (s : State) (dies : List (List Nat)) (n : Need) : Option Nat := (byLoad s (dies.flatten.filter (canTake s n))).head?

/-- The cores a team of k groups goes to, ascending: those of the die with the most cores that can take a member
(R132). -/
def chooseTeam (s : State) (dies : List (List Nat)) (n : Need) (k : Nat) : Option (List Nat) :=
  let able (d : List Nat) : List Nat := d.filter (canTake s n)
  let best := dies.foldl (fun (b : List Nat) d => if (able b).length < (able d).length then d else b) []
  if (able best).length < k then none
  else
    let take := (byLoad s (able best)).take k
    some (ascending take)

/-- The cores of a partition's dies, die by die. -/
def State.partCores (s : State) (part : Nat) : List (List Nat) := (s.partOf part).dies.map dieCores

/-- The slots that n warps take on a core: the lowest free ones, ascending (R151). -/
def freeSlots (s : State) (core n : Nat) : List Nat :=
  let used := (s.allWarps.filter fun w => ((s.groupsOn core).map (·.uid)).contains w.group).map (·.slot)
  ((List.range 64).filter fun i => !(used.contains i)).take n

/-- A group lands: on an empty core it sets the pool size; the store it takes comes out of the L1, which keeps no line
then, for none of them may be older than what the group has seen elsewhere (R128, R324), and the core's record cache is
emptied (R88). -/
def landOn (pool core : Nat) (s : State) : State :=
  let lone := (s.groupsOn core).length = 1
  s.updCore core fun c =>
    let c := if lone then { c with poolSize := pool } else c
    { c with l1 := [], records := [] }

/-- The segment registers of a warp at its start (R205). -/
def startSegs (l : Launch) (j : Job) : List (DWord × DWord) :=
  let p (a b : Nat) : DWord × DWord := (BitVec.ofNat 64 a, BitVec.ofNat 64 b)
  [p l.gbase l.glimit, p 0 l.scratch, p 0 (4 * l.allot), p l.const (l.const + l.constLen), p 0 l.stack,
    p j.recBase (j.recBase + 128 * j.recCount)]

/-- A warp at its start (R67, R135, R137, R205). -/
def startWarp (l : Launch) (j : Job) (uid group number id slot : Nat) : Warp :=
  { Warp.idle with
    uid := uid
    group := group
    id := id
    slot := slot
    allot := l.allot
    level := if l.system then .system else .user
    system := l.system
    run := .running
    frame := { Frame.start with
      live := BitVec.allOnes 32
      rs := lanesOf fun k => rsSeed l.seed (number * l.warps + id) k
      segs := startSegs l j
      stklim := BitVec.ofNat 32 l.stack } }

/-- A tag that nothing has used. -/
def Tag.empty : Tag := { out := 0, done := false, err := false, code := 0, cflags := 0 }

/-- A group of a launch starts on a core (R96, R110, R127 to R130, R151). -/
def startGroup (l : Launch) (number rank size core : Nat) (s : State) : State :=
  let j := s.jobOf l.job
  let uid := s.fresh
  let pick {α : Type} (o : Nat) (xs : List (Option α)) : List (Option α) :=
    (List.range 8).map fun k => if l.ctsel.getLsbD (o + k) then xs.getD k none else none
  let g : Group := { Group.idle with
    uid := uid
    launch := l.uid
    job := l.job
    number := number
    core := core
    warps := l.warps
    team := number / l.team
    rank := rank
    teamSize := size
    status := .resident
    age := (s.coreOf core).cycle
    since := (s.coreOf core).cycle
    order := s.starts
    scratchLen := l.scratch
    tables := pick 0 j.tables
    books := pick 8 j.books
    tagBase := (freeRun (s.tagsOn core) l.tags).getD 0
    tags := List.replicate l.tags Tag.empty }
  let ws := (freeSlots s core l.warps).zipIdx.map fun p => startWarp l j (uid + 1 + p.2) uid number p.2 p.1
  landOn l.pool core
    { s with groups := s.groups ++ [g], warps := s.warps ++ ws, fresh := s.fresh + 1 + l.warps, starts := s.starts + 1 }

-- Leaving a core

/-- The warps of a group. -/
def State.warpsOf (s : State) (g : Nat) : List Warp := s.allWarps.filter fun w => w.group == g

/-- The cores that hold writes in flight of a group: its own, and those it held before it was saved. -/
def State.writing (s : State) (g : Nat) : List Nat :=
  let us := (s.warpsOf g).map (·.uid)
  ((s.core :: s.cores).filter fun c => c.pend.any fun e => us.contains e.warp).map (·.id)

/-- The writes in flight of a group are sent on, from every core that holds some (R107, R143). The group stays in the
issuing place. -/
def drainGroup (g : Nat) (s : State) : State :=
  let us := (s.warpsOf g).map (·.uid)
  ((s.writing g).foldl (fun t c => drainWhere (fun e => us.contains e.warp) (t.focusCore c)) (s.focusGroup g)).focusGroup g

/-- A group's place on its core is given up: memo entries of its context and, with the last group of its launch, of the
launch, the constant cache with it, its shadows and matrix engine (R166, R217, R259, R284). -/
def leaveCore (g : Group) (s : State) : State :=
  let last := (s.groupsOn g.core).all fun x => x.launch != g.launch || x.uid == g.uid
  let gone := ctxGroup g.uid :: ((s.warpsOf g.uid).map fun w => ctxWarp w.uid) ++ (if last then [ctxLaunch g.launch] else [])
  s.updCore g.core fun c =>
    { c with
      memo := c.memo.filter fun e => !(e.key.context.any gone.contains)
      ccache := if last then [] else c.ccache
      shadows := c.shadows.filter fun b => b.group != g.uid
      engine := if c.engine.owner = some g.uid then Engine.empty else c.engine }

/-- No core holds a copy of a group any more. -/
def forgetCopies (g : Nat) (s : State) : State :=
  s.mapCores fun c => { c with copies := c.copies.filter fun x => x.group != g }

/-- The end of a frame's back-off after CONFLICT, seen from another cycle (R271). -/
def Frame.backoff (f : Nat → Nat) (x : Frame) : Frame := { x with tx := { x.tx with backoff := x.tx.backoff.map f } }

/-- A warp of a group that is saved: it presents again, and its attempt is aborted with PREEMPT; of a back-off it keeps
the cycles that are left, and nothing of what had not retired or was still on its way to the memo (R164, R269, R271, R288,
R372). -/
def Warp.capture (now : Nat) (w : Warp) : Warp :=
  let w := if w.frame.tx.active then
      let c := if w.frame.tx.pending then 1 else 5
      { w with frame := { w.frame with
          tx := w.frame.tx.aborted c 0 now
          pcs := lanesOf fun l => if w.frame.live.getLsbD l then w.frame.tx.target else w.frame.pcs.getD l 0 } }
    else w
  let leave (f : Frame) : Frame := { f.backoff (· - now) with stuck := [] }
  let w := w.drop
  { w with
    run := if w.run = .presented then .running else w.run
    present := none
    window := []
    staging := []
    stalled := none
    passed := 0
    frame := leave w.frame
    saved := w.saved.map leave }

/-- A warp halts for its capture: what it has begun and not finished is given up, and what is in its window and on its
way is named (R156, R241, R306, R372). -/
def haltForSave (s : State) (w : Warp) : State := dropWatches w.uid (emptyWindow (abandon (s.focus w.uid)))

/-- The copies of a group that a save rewrites, in the order of their kicks (R260, R373, R374). -/
def savedCopies (c : Core) (g : Nat) : List Copy := c.copies.filter fun x => x.group == g && x.rewritable

/-- Copies of a group whose follow-on command the matrix engine has accepted complete before the engine stops (R256,
R375). -/
def endFollowed (g : Nat) (s : State) : State :=
  (s.core.copies.filter fun c => c.group == g && c.followed).foldl (fun t c => finishCopy c c.landed t) s

/-- The intake of a collective that a group takes part in is given up on every member's core, and the collective is
presented again (R292, R372). -/
def giveUpIntake (g : Group) (s : State) : State :=
  match (s.coreOf g.core).engine.intake with
  | none => s
  | some k =>
    if !(s.engaged g) || k.copy.isSome then s
    else
      (intakeWarps s k g).foldl (fun t w => t.updWarp w.uid fun x =>
        { x with present := x.present.map fun p => { p with accepted := false } }) (dropIntakes k g s)

/-- A group's context is saved (R374): its writes reach their homes, copies become RESTART records, an intake is given
up, engine state is kept, tags keep their values, and the group leaves its core. Copies that stay in flight stay in
their slots. DESIGN CHOICE: the context image stands in State, as the group; what it leaves in the save area at SAVEBASE,
whose layout the spec does not give and which only the device reads, is not written: log entry 85. -/
def saveGroup (uid : Nat) (s0 : State) : State :=
  let s := giveUpIntake (s0.groupOf uid) s0
  let s := endFollowed uid (drainGroup uid ((s.warpsOf uid).foldl haltForSave s))
  let c := s.core
  let cs := savedCopies c uid
  let e : Option Engine := if c.engine.owner = some uid then some { c.engine with intake := none } else none
  let t := (leaveCore s.group (stopCopies cs s)).updCore s.group.core fun k => { k with records := [] }
  let t := t.updGroup uid fun x =>
    { x with
      status := .saved
      restarts := (cs ++ x.restarts).map fun d => { d with row := none }
      engine := e
      preempt := false
      progress := 0
      boost := false }
  t.mapWarps fun w => if w.group = uid then w.capture c.cycle else w

/-- A RESTART record of the focused group is kicked. Its tag counts it already; a refusal ends it under the tag with its
status, and with a record where the status is one that a record may hold (R255, R375). False where it must wait. -/
def rekickOne (c : Copy) (s : State) : State × Bool :=
  let t := c.rec'.tag
  let u := s.updGroup c.group fun x => { x with tags := x.tags.zipIdx.map fun p =>
    if p.2 = t then { p.1 with out := p.1.out - 1 } else p.1 }
  match kickBytes c.warp c.offset c.restart u with
  | .ok (0, v) => (v, true)
  | .ok (n, _) =>
    let n4 := n % 16
    if n4 = 2 ∨ n4 = 5 then (failCopy { c with uid := s.fresh } n4 1 (if n4 = 5 then exc 12 (n / 256) else exc 23 n4) s, true)
    else (tagEnd c.group t n4 s, true)
  | .error _ => (s, false)

/-- RESTART records of the focused group are kicked in their saved order, as far as the core has copy slots (R14,
R375). -/
def rekick : List Copy → State → State
  | [], s => s.updGroup s.group.uid fun g => { g with restarts := [] }
  | c :: cs, s =>
    let r := if 96 ≤ s.core.copies.length then (s, false) else rekickOne c s
    if r.2 then rekick cs r.1 else s.updGroup s.group.uid fun g => { g with restarts := c :: cs }

/-- A resident group whose RESTART records wait for copy slots goes on kicking them. -/
def rekickGroup (uid : Nat) (s : State) : State :=
  let t := s.focusGroup uid
  rekick t.group.restarts t

/-- A warp of a resumed group: a sleeper is to wake once with WOKEN, what is left of a back-off and the limit on J count
anew, and every register is to be named again (R141, R159, R271, R274, R375). -/
def Warp.restore (slot now : Nat) (w : Warp) : Warp :=
  let again (f : Frame) : Frame := { f.backoff (· + now) with names := [], joinAt := now }
  { w with slot := slot, woken := w.asleep, frame := again w.frame, saved := w.saved.map again }

/-- A restored warp names every value again, and a sleeper arms its sleep set again; where the core's wake table has no
room for it, it wakes at once (R14, R159, R274, R375). -/
def rearm (s : State) (w : Warp) : State :=
  let t := (settleNames (s.focus w.uid)).1
  if !t.warp.asleep then t
  else if wakeEntries t ≤ 1024 then armWatches w.uid t.warp.sleepSet t
  else { t with warp := restartWoken t.warp }

/-- Writes of a group that were on their way to a peer when the group was saved stand on the core it comes to: its lanes
go on seeing them, and awaiting their answers (R204, R324, R327). -/
def followWrites (uid core : Nat) (s : State) : State :=
  let mine (e : PWrite) : Bool := e.group == uid
  let es := (s.core :: s.cores).flatMap fun c => c.pend.filter mine
  (s.mapCores fun c => { c with pend := c.pend.filter fun e => !(mine e) }).updCore core fun c => { c with pend := es ++ c.pend }

/-- A saved group resumes on a core (R375). -/
def resumeGroup (uid core : Nat) (s : State) : State :=
  let g := s.groupOf uid
  let l := s.launchOf g.launch
  let now := (s.coreOf core).cycle
  let slots := freeSlots s core g.warps
  let base := (freeRun (s.tagsOn core) g.tags.length).getD 0
  let t := s.updGroup uid fun x =>
    { x with
      status := if (s.warpsOf uid).all fun w => w.run == .ended then .draining else .resident
      core := core
      tagBase := base
      since := now
      engine := none }
  let t := t.mapWarps fun w => if w.group = uid then w.restore (slots.getD w.id 0) now else w
  let t := (followWrites uid core (landOn l.pool core t)).updCore core fun c =>
    { c with engine := match g.engine with | some e => e | none => c.engine }
  rekickGroup uid ((t.warpsOf uid).foldl rearm t)

-- Queues

/-- The order in which a saved item's groups first started. -/
def savedOrder (s : State) : QItem → Option Nat
  | .saved gs => some ((gs.map fun g => (s.groupOf g).order).foldl min s.starts)
  | _ => none

/-- A saved item takes its place: ahead of every group that has never started, in the order of first starts (R131). -/
def insertSaved (s : State) (x : QItem) : List QItem → List QItem
  | [] => [x]
  | y :: ys =>
    match savedOrder s x, savedOrder s y with
    | some a, some b => if a < b then x :: y :: ys else y :: insertSaved s x ys
    | _, _ => x :: y :: ys

/-- An item does not hold a saved group. -/
def QItem.lacks (uid : Nat) : QItem → Bool
  | .saved gs => !(gs.contains uid)
  | _ => true

/-- A saved group leaves the queues, with the item that holds it. -/
def unqueue (uid : Nat) (s : State) : State :=
  { s with parts := s.parts.map fun p => { p with queues := p.queues.map fun q => q.filter (QItem.lacks uid) } }

/-- An item enters a queue of a partition. -/
def enqueue (part tier : Nat) (x : QItem) (s : State) : State :=
  s.updPart part fun p =>
    let q := p.queues.getD tier []
    { p with queues := p.queues.set tier (match x with | .saved _ => insertSaved s x q | _ => q ++ [x]) }

/-- The launches of an item that have groups left to start. -/
def leftOf (s : State) (ls : List Nat) : List Launch :=
  (ls.map s.launchOf).filter fun l => !l.done && decide (l.next < l.groups)

/-- The launch whose group comes next: the lowest group number, then the first stage (R133). -/
def nextOf (ls : List Launch) : Option Launch :=
  ls.foldl (fun b l => match b with
    | none => some l
    | some x => if l.next < x.next then some l else some x) none

/-- The groups that start next of a launch: a team, or what is left of the grid as a last and smaller one (log entry
31). -/
def Launch.teamNext (l : Launch) : Nat := min l.team (l.groups - l.next)

/-- The cores the next group or team of a launch goes to (R132): a team of one group is a single group. -/
def chooseFresh (dies : List (List Nat)) (l : Launch) (s : State) : Option (List Nat) :=
  let k := l.teamNext
  if k ≤ 1 then (chooseCore s dies (needOf l k false)).map fun c => [c] else chooseTeam s dies (needOf l k false) k

/-- The next group or team of a launch starts, if it fits (R132). -/
def placeFresh (dies : List (List Nat)) (l : Launch) (s : State) : Option State :=
  (chooseFresh dies l s).map fun cs =>
    (cs.zipIdx.foldl (fun t p => startGroup l (l.next + p.2) p.2 l.teamNext p.1 t) s).updLaunch l.uid
      fun x => { x with next := x.next + l.teamNext }

/-- Every member of a saved team that comes back with matrix state finds the engine of its core free (R284). -/
def enginesFree (s : State) (gs cs : List Nat) : Bool :=
  (gs.zip cs).all fun p => (s.groupOf p.1).engine.isNone || (s.coreOf p.2).engine.owner.isNone

/-- The cores a saved team goes to: those of R132, where the engines its members need are free there; else those of R132
among the cores whose engine is free (R284; log entry 31). -/
def chooseSaved (dies : List (List Nat)) (l : Launch) (size : Nat) (gs : List Nat) (s : State) : Option (List Nat) :=
  match chooseTeam s dies (needOf l size false) gs.length with
  | none => none
  | some cs => if enginesFree s gs cs then some cs else chooseTeam s dies (needOf l size true) gs.length

/-- A saved group or team resumes, if it fits (R132, R375). -/
def placeSaved (dies : List (List Nat)) (gs : List Nat) (s : State) : Option State :=
  match gs with
  | [] => some s
  | g :: _ =>
    let x := s.groupOf g
    let l := s.launchOf x.launch
    if x.teamSize ≤ 1 then (chooseCore s dies (needOf l 1 x.engine.isSome)).map fun c => resumeGroup g c s
    else (chooseSaved dies l x.teamSize gs s).map fun cs => (gs.zip cs).foldl (fun t p => resumeGroup p.1 p.2 t) s

/-- A queue's head is placed: what is left of it, or none where it fits nowhere. -/
def placeItem (dies : List (List Nat)) (x : QItem) (s : State) : Option (Option QItem × State) :=
  let fresh (ls : List Nat) : Option (Option QItem × State) :=
    match nextOf (leftOf s ls) with
    | none => some (none, s)
    | some l => (placeFresh dies l s).map fun t => (if (leftOf t ls).isEmpty then none else some x, t)
  match x with
  | .fresh l => fresh [l]
  | .pipe ls => fresh ls
  | .saved gs => (placeSaved dies gs s).map fun t => (none, t)

/-- A tier's queue is served from its head until one fits nowhere; true when the queue is empty (R131). DESIGN CHOICE: an
item stays in the queue it entered though its job's tier changes while it waits; the spec is silent: log entry 80. -/
def serveTier (part tier : Nat) : Nat → State → State × Bool
  | 0, s => (s, false)
  | fuel + 1, s =>
    match (s.partOf part).queues.getD tier [] with
    | [] => (s, true)
    | x :: rest =>
      match placeItem (s.partCores part) x s with
      | none => (s, false)
      | some (y, t) => serveTier part tier fuel (t.updPart part fun p => { p with queues := p.queues.set tier (y.toList ++ rest) })

/-- The queues of a partition are served in the order of tiers; a blocked tier blocks those after it (R131). While HOLD
is set nothing starts (R403). -/
def serve (part : Nat) (s : State) : State :=
  if (s.partOf part).hold then s
  else
    let a := serveTier part 0 32768 s
    if !a.2 then a.1
    else
      let b := serveTier part 1 32768 a.1
      if b.2 then (serveTier part 2 32768 b.1).1 else b.1

/-- Stages of a pipeline whose groups a tier's turn may place: none waits in the queue of its tier or of one before. -/
def tiersClear (s : State) (part tier : Nat) : Bool :=
  (List.range (tier + 1)).all fun k => ((s.partOf part).queues.getD k []).isEmpty

/-- The groups of a pipeline's stages are placed one at a time: group 0 of each stage, then group 1, until the next fits
nowhere or would overtake a group that waits (R131, R133). -/
def placeStages (part : Nat) (ls : List Nat) : Nat → State → State
  | 0, s => s
  | fuel + 1, s =>
    match nextOf (leftOf s ls) with
    | none => s
    | some l =>
      if (s.partOf part).hold ∨ !(tiersClear s part (tierOf s l)) then s
      else
        match placeFresh (s.partCores part) l s with
        | none => s
        | some t => placeStages part ls fuel t

/-- The stages of a pipeline that starts: those before them in the queues come first, then their groups in turn, and what
is left waits in the queue of its tier (R131, R133). -/
def serveStages (part : Nat) (ls : List Nat) (s : State) : State :=
  let t := placeStages part ls 32768 (serve part s)
  (List.range 3).foldl (fun u k =>
    let mine := ((leftOf u ls).filter fun l => tierOf u l == k).map (·.uid)
    if mine.isEmpty then u else enqueue part k (.pipe mine) u) t

/-- The groups of a partition's cores whose RESTART records wait for copy slots. -/
def waitingRestarts (s : State) (part : Nat) : List Nat :=
  (s.allGroups.filter fun g => g.onCore && !g.restarts.isEmpty && (s.partOf part).dies.contains (g.core / 36)).map (·.uid)

/-- GROUP_PLACE: the queues of a partition are served, and RESTART records that waited for copy slots are kicked (R131,
R375). -/
def execGroupPlace (part : Nat) (s : State) : Out :=
  let t := serve part s
  .next ((waitingRestarts t part).foldl (fun u g => rekickGroup g u) t)

end Sys2Proof.Machine
end

