-- ==== Sys2Proof/Machine/Levels.lean ====
section
/-!
DEFINITION. Levels of work: completion counters (R105 to R107), launch records (R110), graphs and their nodes (R113),
pipeline queues (R114), discarding groups and cancelling levels (R120), and LAUNCH, CANCEL and LAUNCH_START.
-/
namespace Sys2Proof.Machine

-- The device's own accesses through a job's pages

/-- A translation of a job's address that ends on this device. -/
def localWalk (s : State) (j : Job) (va : Nat) (acc : Acc) : Except TFail Walked :=
  match walk s j va acc with
  | .error f => .error f
  | .ok w => if w.leaf.aperture = s.node.chip then .ok w else .error { detail := 6, stage := 1, level := 4 }

/-- The device may not reach n bytes of a job by address: a launch's stacks hold one of them (R210). -/
def stacksHold (s : State) (j : Job) (a n : Nat) : Bool := (List.range n).any fun i => inForeignStack s j.uid none (a + i)

/-- n bytes of chip-local memory of a job, outside its stacks, and the state after (R210, R237). -/
def localRead (j : Job) (a n : Nat) (s : State) : Option (List Byte × State) :=
  if stacksHold s j a n then none
  else
    (splitLines a n).foldl (fun (r : Option (List Byte × State)) p =>
      r.bind fun (x : List Byte × State) =>
        match localWalk x.2 j p.1 accRead with
        | .error _ => none
        | .ok w => some (x.1 ++ (List.range p.2).map (fun i =>
            homeByte x.2 w.leaf p.1 (memKey w.leaf.aperture (w.leaf.phys p.1) + i)), setLeaves j false w
              (reachLine (x.2.viaOf j none) (lineOf (memKey w.leaf.aperture (w.leaf.phys p.1))) x.2))) (some ([], s))

/-- What a write by the device through a job's pages comes to. -/
inductive Written where
  | done (s : State)
  | waits
  | failed (cls detail : Nat)
  deriving DecidableEq, Repr

/-- Bytes within one line of chip-local memory of a job written: outside its stacks, and not through a MIGRATING page
(R210, R238). -/
def localWrite (j : Job) (a : Nat) (bs : List Byte) (s : State) : Written :=
  if stacksHold s j a bs.length then .failed 5 4
  else
    match localWalk s j a accRw with
    | .error f => .failed 7 f.detail
    | .ok w =>
      if w.leaf.migrating then .waits
      else .done (writeHome (s.viaOf j none) (epochFor s w.leaf a) (memKey w.leaf.aperture (w.leaf.phys a)) bs (setLeaves j true w s))

-- Counters

/-- The value of a completion counter (R106). -/
def ctrWord (out faulted cancel : Nat) : Nat := out % 2 ^ 32 + min faulted 0xFFFF * 2 ^ 32 + cancel % 4 * 2 ^ 62

/-- A counter's address passes the check of R106. -/
def counterOk (s : State) (j : Job) (a : Nat) : Bool :=
  a % 8 == 0 && (match localWalk s j a accRw with | .ok _ => true | .error _ => false)

/-- A level's job, the address of its counter, and the counter's value as the level stands. -/
def LevelId.word (s : State) : LevelId → Job × Nat × Nat
  | .job u => let j := s.jobOf u; (j, j.counter, ctrWord j.inFlight j.faulted j.cancel)
  | .phase u => let p := s.phaseOf u; (s.jobOf p.job, p.counter, ctrWord p.outstanding p.faulted p.cancel)
  | .graph u => let g := s.graphOf u; (s.jobOf g.job, g.counter, ctrWord g.outstanding g.faulted g.cancel)
  | .launch u => let l := s.launchOf u; (s.jobOf l.job, l.counter, ctrWord l.outstanding l.faulted l.cancel)

/-- A level's counter is written, unless it waits on a MIGRATING page: none. A write that cannot be performed, or that
has waited too long, posts a counter-unreachable event (R107, R238). -/
def tryCounter (x : LevelId) (late : Bool) (s : State) : Option State :=
  let c := x.word s
  let lost (cls det : Nat) : State := postEvent 27 c.1.part c.1.jobno (c.2.1 % 2 ^ 32, c.2.1 / 2 ^ 32, cls, det) s
  match localWrite c.1 c.2.1 (leBytes 8 c.2.2) s with
  | .done t => some t
  | .failed cls det => some (lost cls det)
  | .waits => if late then some (lost 7 8) else none

/-- A level's counter waits to be written. -/
def counterLate (s : State) (x : LevelId) : Bool :=
  s.lateWrites.any fun w => match w with | .counter y _ => x == y | _ => false

/-- A level's counter as it stands is written, now or once its page no longer migrates (R107, R238). -/
def putCounter (x : LevelId) (s : State) : State :=
  if counterLate s x then s
  else
    match tryCounter x false s with
    | some t => t
    | none => { s with lateWrites := s.lateWrites ++ [.counter x (s.partOf (x.word s).1.part).cycle] }

/-- FAULTED after k more faulted children (R106). -/
def addFaulted (f k : Nat) (bad : Bool) : Nat := if bad then min (f + k) 0xFFFF else f

/-- A phase of a job has completed (R105, R107). -/
def jobChild (uid : Nat) (bad : Bool) (s : State) : State :=
  putCounter (.job uid) (s.updJob uid fun j => { j with inFlight := j.inFlight - 1, faulted := addFaulted j.faulted 1 bad })

/-- A phase with no child left, whose counter says so, has completed (R107). -/
def settlePhase (uid : Nat) (s : State) : State :=
  let p := s.phaseOf uid
  if p.outstanding = 0 ∧ !p.done ∧ !(counterLate s (.phase uid)) then
    jobChild p.job (p.faulted != 0) (s.updPhase uid fun x => { x with done := true })
  else s

/-- A phase's graph has completed (R105, R107). -/
def phaseChild (uid : Nat) (bad : Bool) (s : State) : State :=
  settlePhase uid (putCounter (.phase uid) (s.updPhase uid fun p =>
    { p with outstanding := p.outstanding - 1, faulted := addFaulted p.faulted 1 bad }))

/-- A graph with no child left, whose counter says so, has completed (R107). -/
def settleGraph (uid : Nat) (s : State) : State :=
  let g := s.graphOf uid
  if g.outstanding = 0 ∧ !g.done ∧ !(counterLate s (.graph uid)) then
    phaseChild g.phase (g.faulted != 0) (s.updGraph uid fun x => { x with done := true })
  else s

/-- k children of a graph have completed (R107). -/
def graphChild (uid k : Nat) (bad : Bool) (s : State) : State :=
  if k = 0 ∨ (s.graphOf uid).done then s
  else
    settleGraph uid (putCounter (.graph uid) (s.updGraph uid fun g =>
      { g with outstanding := g.outstanding - k, faulted := addFaulted g.faulted k bad }))

/-- A node's state once those before it are known: discarded with a faulted predecessor, ready once all have completed
(R113). now numbers the nodes that become ready (R112). -/
def settleNode (now : Nat) (before : List Node) (n : Node) : Node :=
  let preds := (before.zipIdx.filter fun p => n.pred.getLsbD p.2).map (·.1.state)
  match n.state with
  | .waiting =>
    if preds.any fun x => x == .complete true || x == .discarded then { n with state := .discarded }
    else if preds.all fun x => x == .complete false then { n with state := .ready, readyAt := now + before.length }
    else n
  | _ => n

/-- Every node in turn. -/
def settleNodes (now : Nat) (ns : List Node) : List Node := ns.foldl (fun acc n => acc ++ [settleNode now acc n]) []

/-- The nodes that are discarded in one list and not in another. -/
def newlyDiscarded (old new : List Node) : Nat :=
  ((old.zip new).filter fun p => p.1.state != .discarded && p.2.state == .discarded).length

/-- The nodes of a graph take new states; those discarded by it are faulted children (R113). -/
def setNodes (uid : Nat) (f : List Node → List Node) (s : State) : State :=
  let old := (s.graphOf uid).nodes
  let new := settleNodes s.fresh (f old)
  graphChild uid (newlyDiscarded old new) true
    ({ s with fresh := s.fresh + old.length }.updGraph uid fun g => { g with nodes := new })

/-- One node of a list takes a state. -/
def putNode (k : Nat) (x : NodeState) (ns : List Node) : List Node :=
  ns.zipIdx.map fun p => if p.2 = k then { p.1 with state := x } else p.1

/-- Fields of a queue header of a graph change, unless that waits on a MIGRATING page: none (R114, R238). A header that
cannot be reached stays as it is. -/
def tryQueue (graph q : Nat) (f : QHead → List (Nat × List Byte)) (s : State) : Option State :=
  let g := s.graphOf graph
  let j := s.jobOf g.job
  let a := g.qtab + 64 * q
  match localRead j a 64 s with
  | none => some s
  | some (bs, t) =>
    (f (qheadOf bs)).foldl (fun (r : Option State) x => r.bind fun u =>
      match localWrite j (a + x.1) x.2 u with
      | .done v => some v
      | .failed _ _ => some u
      | .waits => none) (some t)

/-- HEAD, TAIL and CLOSED are cleared (R114). -/
def openedHead (h : QHead) : List (Nat × List Byte) := [(0, leBytes 16 0), (0x1C, leBytes 4 (h.qctl % 65536))]

/-- CLOSED is set (R114). -/
def closedHead (h : QHead) : List (Nat × List Byte) := [(0x1C, leBytes 4 (if h.closed then h.qctl else h.qctl + 0x10000))]

/-- A write of the device's own that waited is tried again; late says that it has waited for 20 000 cycles (R238). -/
def LateWrite.retry (w : LateWrite) (late : Bool) (s : State) : Option State :=
  match w with
  | .counter x _ => tryCounter x late s
  | .open g q => tryQueue g q openedHead s
  | .close g q => tryQueue g q closedHead s

/-- Writes of a queue header that wait. -/
def queueLate (s : State) (graph q : Nat) : Bool :=
  s.lateWrites.any fun w => match w with | .open g k | .close g k => g == graph && k == q | _ => false

/-- A queue header of a graph is written, now or once its page no longer migrates and what waits for it has been written
(R114, R238). -/
def putQueue (w : LateWrite) (graph q : Nat) (s : State) : State :=
  match (if queueLate s graph q then none else w.retry false s) with
  | some t => t
  | none => { s with lateWrites := s.lateWrites ++ [w] }

/-- CLOSED is set in the queues a stage produces (R114). -/
def closeQueues (uid stage : Nat) (s : State) : State :=
  let g := s.graphOf uid
  if !g.pipeline then s
  else
    (List.range g.qcount).foldl (fun t q =>
      match localRead (t.jobOf g.job) (g.qtab + 64 * q) 64 t with
      | none => t
      | some (bs, u) => if (qheadOf bs).qctl % 64 = stage then putQueue (.close uid q) uid q u else u) s

/-- A launch has completed: its stage's queues close, its node and those that wait for it move on, and its graph loses a
child (R107, R113, R114). -/
def finishLaunch (uid : Nat) (s : State) : State :=
  let l := s.launchOf uid
  let bad : Bool := l.faulted != 0
  let t := s.updLaunch uid fun x => { x with done := true }
  match l.node with
  | none => graphChild l.graph 1 bad t
  | some k => graphChild l.graph 1 bad (setNodes l.graph (putNode k (.complete bad)) (closeQueues l.graph k t))

/-- A launch with no group left, whose counter says so, has completed (R107). -/
def settleLaunch (uid : Nat) (s : State) : State :=
  let l := s.launchOf uid
  if l.outstanding = 0 ∧ !l.done ∧ !(counterLate s (.launch uid)) then finishLaunch uid s else s

/-- k groups of a launch have completed (R107). -/
def launchChild (uid k : Nat) (bad : Bool) (s : State) : State :=
  if k = 0 ∨ (s.launchOf uid).done then s
  else
    settleLaunch uid (putCounter (.launch uid) (s.updLaunch uid fun l =>
      { l with outstanding := l.outstanding - k, faulted := addFaulted l.faulted k bad }))

/-- A level whose counter has been written after all completes, if it has no child left (R107). -/
def LevelId.settle (x : LevelId) (s : State) : State :=
  match x with
  | .job _ => s
  | .phase u => settlePhase u s
  | .graph u => settleGraph u s
  | .launch u => settleLaunch u s

/-- The writes of counters and queue headers that wait are tried again, oldest first (R107, R238). -/
def retryWrites (s : State) : State :=
  s.lateWrites.foldl (fun t w =>
    let late : Bool := match w with
      | .counter x since => decide (since + 20000 ≤ (t.partOf (x.word t).1.part).cycle)
      | _ => false
    match w.retry late { t with lateWrites := t.lateWrites.erase w } with
    | none => t
    | some u => match w with | .counter x _ => x.settle u | _ => u) s

/-- MIGRATING_REWALK: the waiting writes of a warp walk again; past 20 000 cycles they are to fault with detail 8 (R238).
The home's writes of reductions, the fault-log records, and the device's writes of counters and queue headers that wait
are tried again with them. -/
def execMigratingRewalk (uid : Nat) (s : State) : Out :=
  let c := s.coreOf (s.groupOf (s.warpOf uid).group).core
  .next (retryLogs (retryReductions (retryWrites (s.updWarp uid (Warp.mapHolds (Hold.rewalk c.cycle))))))

-- Groups that end

/-- A group and its warps are no more. -/
def removeGroup (uid : Nat) (s : State) : State :=
  { unqueue uid s with
    warp := if s.warp.group = uid then Warp.idle else s.warp
    warps := s.warps.filter fun w => w.group != uid
    group := if s.group.uid = uid then Group.idle else s.group
    groups := s.groups.filter fun g => g.uid != uid
    badScratch := s.badScratch.filter fun l => l.1 != uid }

/-- What an encoder holds of a discarded group: a record not yet reading ends, one that reads goes on without its tag
(R393). -/
def dropVenc (uid : Nat) (e : Encoder) : Encoder :=
  { e with queue := (e.queue.filter fun r => r.group != uid || r.reading).map fun r =>
      if r.group = uid then { r with dropped := true } else r }

/-- A group that is to be discarded stops: its warps give up what they have begun, their stores reach their homes, its
copies and their shadows go, and the matrix engine drops its intake and its work, so that nothing of it is written
(R107, R120, R306, R341). The group takes the issuing place. -/
def stopGroup (uid : Nat) (s0 : State) : State :=
  let s := giveUpIntake (s0.groupOf uid) s0
  let t := drainGroup uid ((s.warpsOf uid).foldl (fun u w => dropWatches w.uid (abandon (u.focus w.uid))) s)
  let u := stopCopies (t.core.copies.filter fun c => c.group == uid) t
  u.updCore u.group.core fun c =>
    if c.engine.owner = some uid then { c with engine := { c.engine with work := [], intake := none } } else c

/-- A stopped group is no more, and completes as a faulted child (R120, R375). -/
def dropGroup (uid : Nat) (s : State) : State :=
  let g := s.groupOf uid
  let t := removeGroup uid (forgetCopies uid (if g.onCore then leaveCore g s else s))
  launchChild g.launch 1 true { t with encoders := t.encoders.map (dropVenc uid) }

/-- The issuing place is given back after a while. -/
def keepPlace (f : State → State) (s : State) : State := { (f s).focus s.warp.uid with lanes := s.lanes }

/-- A group is discarded: what its engines had in flight is not written, and the writes of its warps are performed
before it completes; while a peer owes an answer to one it stays, stopped (R107, R120, R333). -/
def discardGroup (uid : Nat) (s : State) : State :=
  keepPlace (fun s =>
    let t := stopGroup uid s
    if (t.writing uid).isEmpty then dropGroup uid t else t) s

-- Launches

/-- Pool entries of a POOL code (R110). -/
def poolEntries (code : Nat) : Nat := 2048 * 2 ^ code

/-- The launch a record describes (R110). -/
def launchOfBytes (bs : List Byte) (uid graph job : Nat) (node : Option Nat) : Launch :=
  let f (o n : Nat) : Nat := fieldB bs o n
  let sh := f 0x0C 4
  { uid := uid, graph := graph, job := job, node := node, code := f 0 8, groups := f 8 4, warps := bits sh 4 0 + 1
    team := bits sh 7 5 + 1, allot := 128 * (bits sh 10 8 + 1), pool := poolEntries (bits sh 12 11), system := sh.testBit 13
    tier := bits sh 15 14, tags := bits sh 23 16, scratch := f 0x10 4, stack := f 0x14 4, const := f 0x18 8
    constLen := f 0x20 4, seed := BitVec.ofNat 32 (f 0x24 4), gbase := f 0x28 8, glimit := f 0x30 8, counter := f 0x38 8
    faultRec := f 0x40 8, ctsel := BitVec.ofNat 16 (f 0x48 2), outstanding := f 8 4, faulted := 0, cancel := 0, next := 0
    done := false }

/-- The status with which a launch record is refused (R110, R127). system says that the submitter may start a system
launch. -/
def launchBad (s : State) (j : Job) (bs : List Byte) (system : Bool) : Option Nat :=
  let l := launchOfBytes bs 0 0 0 none
  let sh := fieldB bs 0x0C 4
  let absent : Bool := (List.range 8).any fun k =>
    (l.ctsel.getLsbD k && (j.tables.getD k none).isNone) || (l.ctsel.getLsbD (8 + k) && (j.books.getD k none).isNone)
  if l.code % 4 ≠ 0 ∨ l.groups = 0 ∨ 2 ^ 24 < l.groups ∨ 2 ^ 20 < l.scratch ∨ l.stack % 16 ≠ 0 ∨ 65536 < l.constLen ∨
      bits sh 31 24 ≠ 0 ∨ 64 < l.tags ∨ (l.tier ≠ 1 ∧ l.tier ≠ 2) ∨ bits sh 12 11 = 3 ∨ (l.system ∧ !system) ∨
      fieldB bs 0x4A 54 ≠ 0 ∨ absent ∨ !(counterOk s j l.counter) then some 4
  else if !(emptyTakes l) then some 5
  else none

/-- A checked launch record starts: its counter, and its place in its tier's queue unless it is a stage (R107, R112,
R131). DESIGN CHOICE: it stays in that queue, though its job's tier may change while it waits there: log entry 80. Its
groups may start while the write of its counter waits: log entry 92. -/
def startLaunch (bs : List Byte) (graph : Nat) (node : Option Nat) (s : State) : State :=
  let gr := s.graphOf graph
  let l := launchOfBytes bs s.fresh graph gr.job node
  let t := putCounter (.launch l.uid) { s with launches := s.launches ++ [l], fresh := s.fresh + 1 }
  if gr.pipeline ∧ node.isSome then t else enqueue (s.jobOf gr.job).part (tierOf t l) (.fresh l.uid) t

/-- The node of a graph starts, or is refused with an event (R113). The queues that a refused stage would have produced
are closed, since no group of it will put anything (log entry 55). -/
def startNode (graph k : Nat) (s : State) : State :=
  let g := s.graphOf graph
  let j := s.jobOf g.job
  let n := g.nodes.getD k { lrec := 0, pred := 0, state := .discarded, readyAt := 0 }
  let refuse (st : Nat) (t : State) : State :=
    graphChild graph 1 true (setNodes graph (putNode k (.complete true)) (closeQueues graph k
      (postEvent 28 j.part j.jobno (g.record % 2 ^ 32, g.record / 2 ^ 32, k, st) t)))
  match (if n.lrec % 128 = 0 then localRead j n.lrec 128 s else none) with
  | none => refuse 4 s
  | some (bs, t) =>
    match launchBad t j bs true with
    | some st => refuse st t
    | none => setNodes graph (putNode k (.started t.fresh)) (startLaunch bs graph (some k) t)

/-- The nodes of a partition that are ready and not started: place in the order of readiness, graph and node (R112). -/
def readyNodes (s : State) (part : Nat) : List (Nat × Nat × Nat) :=
  (s.graphs.filter fun g => !g.done && (s.jobOf g.job).part == part).flatMap fun g =>
    (g.nodes.zipIdx.filter fun n => n.1.state == .ready).map fun n => (n.1.readyAt, g.uid, n.2)

/-- The node of a partition that became ready first (R112). -/
def firstNode (s : State) (part : Nat) : Option (Nat × Nat) :=
  ((readyNodes s part).foldl (fun (b : Option (Nat × Nat × Nat)) n => match b with
    | none => some n
    | some x => if n.1 < x.1 then some n else some x) none).map (·.2)

/-- LAUNCH_START: a ready node's launch starts, if none of its partition became ready before it (R112, R113). -/
def execLaunchStart (graph node : Nat) (s : State) : Out :=
  .next (if firstNode s (s.jobOf (s.graphOf graph).job).part = some (graph, node) then startNode graph node s else s)

/-- Every node of a partition that is ready starts, in the order of readiness, before a launch that becomes ready now
(R112). -/
def startReady (part : Nat) : Nat → State → State
  | 0, s => s
  | n + 1, s =>
    match firstNode s part with
    | none => s
    | some (g, k) => startReady part n (startNode g k s)

-- Cancelling

/-- The live level of a job that owns a counter. -/
def liveLevel (s : State) (j : Job) (a : Nat) : Option LevelId :=
  if j.counter = a then some (.job j.uid)
  else
    match s.phases.find? fun p => p.job == j.uid && !p.done && p.counter == a with
    | some p => some (.phase p.uid)
    | none =>
      match s.graphs.find? fun g => g.job == j.uid && !g.done && g.counter == a with
      | some g => some (.graph g.uid)
      | none => (s.launches.find? fun l => l.job == j.uid && !l.done && l.counter == a).map fun l => .launch l.uid

/-- A level of a job that has completed owned a counter (R119). -/
def pastLevel (s : State) (j : Job) (a : Nat) : Bool :=
  (s.phases.any fun p => p.job == j.uid && p.counter == a) || (s.graphs.any fun g => g.job == j.uid && g.counter == a) ||
    s.launches.any fun l => l.job == j.uid && l.counter == a

/-- A graph lies at or below a level. -/
def LevelId.hasGraph (x : LevelId) (g : Graph) : Bool :=
  match x with
  | .job u => g.job == u
  | .phase u => g.phase == u
  | .graph u => g.uid == u
  | .launch _ => false

/-- A launch lies at or below a level. -/
def LevelId.hasLaunch (s : State) (x : LevelId) (l : Launch) : Bool :=
  match x with
  | .launch u => l.uid == u
  | _ => x.hasGraph (s.graphOf l.graph)

/-- The CANCEL field of a level. -/
def LevelId.cancel (s : State) : LevelId → Nat
  | .job u => (s.jobOf u).cancel
  | .phase u => (s.phaseOf u).cancel
  | .graph u => (s.graphOf u).cancel
  | .launch u => (s.launchOf u).cancel

/-- A level's CANCEL field and its counter are written. -/
def LevelId.setCancel (x : LevelId) (c : Nat) (s : State) : State :=
  match x with
  | .job u => putCounter x (s.updJob u fun j => { j with cancel := c })
  | .phase u => putCounter x (s.updPhase u fun p => { p with cancel := c })
  | .graph u => putCounter x (s.updGraph u fun g => { g with cancel := c })
  | .launch u => putCounter x (s.updLaunch u fun l => { l with cancel := c })

/-- A launch whose groups that have not started are discarded (R120). -/
def drainLaunch (uid : Nat) (s : State) : State :=
  let l := s.launchOf uid
  launchChild uid (l.groups - l.next) true (s.updLaunch uid fun x => { x with next := x.groups })

/-- Nothing further starts below a level: nodes not started and groups not started complete as discarded (R120). -/
def drainLevel (x : LevelId) (s : State) : State :=
  let gs := (s.graphs.filter fun g => x.hasGraph g && !g.done).map (·.uid)
  let ls := (s.launches.filter fun l => x.hasLaunch s l && !l.done).map (·.uid)
  let t := gs.foldl (fun t g => setNodes g (fun ns => ns.map fun n =>
    match n.state with
    | .waiting | .ready => { n with state := .discarded }
    | _ => n) t) s
  ls.foldl (fun t l => drainLaunch l t) t

/-- The groups below a level that hold a core or are saved. -/
def groupsBelow (s : State) (x : LevelId) : List Group :=
  s.allGroups.filter fun g => g.status != .completed && x.hasLaunch s (s.launchOf g.launch)

/-- An abort's own part: saved groups are discarded, running ones are to be pre-empted and discarded (R120, R375). -/
def abortLevel (x : LevelId) (s : State) : State :=
  let gs := groupsBelow s x
  let t := s.mapGroups fun g =>
    if (gs.any fun y => y.uid == g.uid) = true then { g with preempt := true, abort := true } else g
  (gs.filter fun g => g.status == .saved).foldl (fun t g => discardGroup g.uid t) t

/-- CANCEL of the level that owns a counter of a job: its status (R120). -/
def cancelAt (j : Job) (a mode : Nat) (s : State) : Nat × State :=
  match liveLevel s j a with
  | none => (if pastLevel s j a then 7 else 6, s)
  | some x =>
    if mode + 1 ≤ x.cancel s then (8, s)
    else
      let t := drainLevel x (x.setCancel (mode + 1) s)
      (0, if mode = 1 then abortLevel x t else t)

/-- CANCEL (R120): the lowest active lane's word; the status goes to every active lane. -/
def execCancel (d a : Reg) (g : Guard) (s : State) : Out :=
  insn (.cancel d a g) s fun act =>
    match lowest act with
    | none => .ok s.advance
    | some l =>
      let x := (s.v a.toNat l).toNat
      let at_ := (s.seg 0).1.toNat + x / 8 * 8
      let r := if bits x 2 1 ≠ 0 then (4, s) else cancelAt s.job at_ (x % 2) s
      .ok (r.2.setV d.toNat act fun _ => BitVec.ofNat 32 r.1).settled.advance

/-- What LAUNCH admits in its policy word (R120). -/
def launchRule : PolicyRule := { segs := [0, 1], orders := [0], atop := fun n => n == 0 }

/-- A level above the issuer's launch is cancelled (R120). -/
def launchCancelled (s : State) : Bool :=
  let g := s.graphOf s.launch.graph
  g.cancel != 0 || (s.phaseOf g.phase).cancel != 0 || s.job.cancel != 0

/-- LAUNCH (R120): one launch of the issuer's graph, from the record that the lowest active lane names. -/
def execLaunch (d a b : Reg) (g : Guard) (s : State) : Out :=
  insn (.launch d a b g) s fun act =>
    match lowest act with
    | none => .ok s.advance
    | some l =>
      let off := s.v a.toNat l
      let pol := s.v b.toNat l
      let out (n : Nat) (t : State) : Except Stop State := .ok (t.setV d.toNat act fun _ => BitVec.ofNat 32 n).settled.advance
      if off.toNat % 128 ≠ 0 ∨ (policyFault launchRule pol l).isSome then out 4 s
      else if launchCancelled s then out 9 s
      else do
        let as ← fixedAccess accRead (BitVec.twoPow 32 l) 128 0 pol (fun _ => off) s
        match as.head? with
        | none => out 4 s
        | some x =>
          if x.pieces.any (·.remote s) then out 4 s
          else
            let r := loadLane x s
            match launchBad r.2 s.job r.1.1 (s.warp.level != .user) with
            | some n => out n r.2
            | none =>
              let gr := s.launch.graph
              let t := putCounter (.graph gr) (r.2.updGraph gr fun y => { y with outstanding := y.outstanding + 1 })
              out 0 (startLaunch r.1.1 gr none (startReady s.job.part (readyNodes t s.job.part).length t))

end Sys2Proof.Machine
end

