-- ==== Sys2Proof/Machine/Phases.lean ====
section
/-!
DEFINITION. Starting phases: graph records and queue headers (R113 to R115), the checks of R116, admission and periods
(R122, R123), pipelines (R133), PHSTART (R117), held starts, overruns and deadlines.
-/
namespace Sys2Proof.Machine

/-- A phase record (R115). -/
structure PhaseRec where
  graph : Nat
  counter : Nat
  jobno : Nat
  deriving DecidableEq, Repr

/-- The fields of a phase record. -/
def phaseRecOf (bs : List Byte) : PhaseRec := { graph := fieldB bs 0 8, counter := fieldB bs 8 8, jobno := fieldB bs 0x10 4 }

/-- A graph record (R113). -/
structure GraphRec where
  nodes : List (Nat × DWord)
  pipeline : Bool
  qcount : Nat
  qtab : Nat
  counter : Nat
  deriving DecidableEq, Repr

/-- Header and node entries of a graph record. -/
def graphRecOf (hd ns : List Byte) : GraphRec :=
  { nodes := (List.range (ns.length / 16)).map fun k => (fieldB ns (16 * k) 8, BitVec.ofNat 64 (fieldB ns (16 * k + 8) 8))
    pipeline := (fieldB hd 0 4).testBit 7, qcount := fieldB hd 4 4, qtab := fieldB hd 8 8, counter := fieldB hd 0x10 8 }

/-- A queue header that a pipeline of n stages admits (R114): laid out well, on an RC or SO page of this device. -/
def queueHeaderOk (s : State) (j : Job) (n a : Nat) (bs : List Byte) : Bool :=
  let h := qheadOf bs
  let c := h.qctl
  h.array % 128 == 0 && (List.range 11).any (fun k => h.cap == 2 ^ (k + 2)) && decide (c % 64 < bits c 13 8) &&
    decide (bits c 13 8 < n) && bits c 7 6 == 0 && bits c 15 14 == 0 && bits c 31 17 == 0 && fieldB bs 0x20 32 == 0 &&
    (match localWalk s j a accRw with | .ok w => w.leaf.order != 2 | .error _ => false)

/-- The queue headers of a pipeline, one after another, are read and admitted. -/
def queuesOk (j : Job) (g : GraphRec) : Nat → Nat → State → Bool
  | 0, _, _ => true
  | k + 1, q, s =>
    match localRead j (g.qtab + 64 * q) 64 s with
    | none => false
    | some (bs, t) => queueHeaderOk t j g.nodes.length (g.qtab + 64 * q) bs && queuesOk j g k (q + 1) t

/-- A graph record read through its job's pages and admitted (R113, R114, R116 step 1). -/
def readGraph (j : Job) (a : Nat) (s : State) : Option (GraphRec × State) :=
  if a % 32 ≠ 0 then none
  else
    match localRead j a 32 s with
    | none => none
    | some (hd, t) =>
      let c := fieldB hd 0 4
      let n := c % 128
      if n = 0 ∨ 64 < n ∨ c / 256 ≠ 0 ∨ fieldB hd 0x18 8 ≠ 0 then none
      else
        match localRead j (a + 32) (16 * n) t with
        | none => none
        | some (ns, u) =>
          let g := graphRecOf hd ns
          let preds : Bool := g.nodes.zipIdx.all fun p => decide (p.1.2.toNat < 2 ^ p.2) && (!g.pipeline || p.1.2 == 0)
          if !preds ∨ 64 < g.qcount ∨ (!g.pipeline ∧ g.qcount ≠ 0) ∨ (0 < g.qcount ∧ g.qtab % 64 ≠ 0) ∨
              !(counterOk u j g.counter) ∨ !(queuesOk j g g.qcount 0 u) then none
          else some (g, u)

/-- The job of a phase record, installed in a partition. -/
def jobIn (s : State) (part jobno : Nat) : Option Job :=
  s.jobs.find? fun j => j.chip == s.node.chip && j.part == part && j.jobno == jobno

/-- A phase record that no check of R116's step 1 refuses: its job and its fields. -/
def readPhase (part : Nat) (bs : List Byte) (s : State) : Option (Job × PhaseRec × State) :=
  let r := phaseRecOf bs
  if fieldB bs 0x14 12 ≠ 0 then none
  else
    match jobIn s part r.jobno with
    | none => none
    | some j =>
      if !(counterOk s j r.counter) then none
      else (readGraph j r.graph s).map fun g => (j, r, g.2)

-- Admission

/-- ⌈a / b⌉. -/
def ceilDiv (a b : Nat) : Nat := (a + b - 1) / b

/-- A job's part of the admission sum of R122 on K cores. -/
def admissionTerm (k : Nat) (j : Job) : Nat :=
  ceilDiv (2 ^ 20 * j.budget) (19 * j.period * k) + ceilDiv (2 ^ 20 * 2400) j.period

/-- The admission test of a job (R122). -/
def admits (s : State) (j : Job) : Bool :=
  let k := 36 * (s.partOf j.part).dies.length
  let others := s.jobs.filter fun x => x.chip == s.node.chip && x.part == j.part && x.contract && x.admitted && x.uid != j.uid
  decide (((j :: others).map (admissionTerm k)).sum ≤ 996147)

-- The start itself

/-- The stages of a pipeline start together, after the nodes that were ready before them, and their groups are placed in
turn (R112, R113, R133). A saved group that resumes then leaves the issuing place as it was (R117). -/
def startStages (part graph : Nat) (s : State) : State :=
  let n := (s.graphOf graph).nodes.length
  let t := startReady part (readyNodes s part).length s
  let t := (List.range n).foldl (fun t k =>
    if ((t.graphOf graph).nodes[k]?.map (·.state)) = some .ready then startNode graph k t else t) t
  keepPlace (serveStages part ((t.launches.filter fun l => l.graph == graph && !l.done).map (·.uid))) t

/-- A phase starts: job, phase and graph counters, queues, and a new period of a contract (R107, R114, R116). A period
lasts until the next one begins (log entry 56). Below a cancelled job the phase is drained at once (R120). A write of a
counter or a queue header that waits on a MIGRATING page does not hold the phase back (log entry 92). -/
def beginPhase (j : Job) (graphAt counter : Nat) (s : State) : Option State :=
  match readGraph j graphAt s with
  | none => none
  | some (g, s) =>
    let p : Phase :=
      { uid := s.fresh, job := j.uid, counter := counter, outstanding := 1, faulted := 0, cancel := 0, done := false
        start := (s.partOf j.part).tick }
    let gr : Graph :=
      { uid := s.fresh + 1, phase := p.uid, job := j.uid, record := graphAt, counter := g.counter
        outstanding := g.nodes.length, faulted := 0, cancel := 0
        nodes := g.nodes.zipIdx.map fun (n : (Nat × DWord) × Nat) =>
          { lrec := n.1.1, pred := n.1.2, state := if n.1.2 == 0 then .ready else .waiting, readyAt := s.fresh + 2 + n.2 }
        pipeline := g.pipeline, qtab := g.qtab, qcount := g.qcount
        startCycle := (s.partOf j.part).cycle, samples := 0, move := none, done := false }
    let t : State := { s with phases := s.phases ++ [p], graphs := s.graphs ++ [gr], fresh := s.fresh + 2 + g.nodes.length }
    let t := t.updJob j.uid fun x =>
      let x := { x with inFlight := x.inFlight + 1, held := none }
      if x.contract then
        { x with perStart := some p.start, perPhase := p.uid, charge := 0, overrun := false, deadlineSeen := false }
      else x
    let t := putCounter (.graph gr.uid) (putCounter (.phase p.uid) (putCounter (.job j.uid) t))
    let t := (List.range g.qcount).foldl (fun u q => putQueue (.open gr.uid q) gr.uid q u) t
    some (if j.cancel ≠ 0 then drainLevel (.graph gr.uid) t
      else if g.pipeline then startStages j.part gr.uid t
      else t)

/-- The checks of R116 on a phase record's bytes, and the start: its status. at_ is the record's address, for events. -/
def startPhase (part at_ : Nat) (bs : Option (List Byte)) (s : State) : Nat × State :=
  match bs.bind fun b => readPhase part b s with
  | none => (4, s)
  | some (j, r, s) =>
    let note (code st : Nat) (t : State) : State := postEvent code part j.jobno (at_ % 2 ^ 32, at_ / 2 ^ 32, st, 0) t
    if 2 ≤ j.inFlight then (2, s)
    else if j.contract ∧ !j.admitted ∧ !(admits s j) then (1, note 7 1 s)
    else
      let s := if j.contract then s.updJob j.uid fun x => { x with admitted := true } else s
      let early : Bool := j.contract && (match j.perStart with
        | some t => decide ((s.partOf part).tick < t + j.period)
        | none => false)
      if j.held.isSome then (2, note 8 2 s)
      else if early ∨ (s.partOf part).hold then (3, s.updJob j.uid fun x => { x with held := some (r.graph, r.counter) })
      else
        match beginPhase j r.graph r.counter s with
        | some t => (0, t)
        | none => (4, s)

/-- PHSTART (R117): the phase record is named by a global-segment offset. -/
def execPhstart (d a : Reg) (g : Guard) (s : State) : Out :=
  insn (.phstart d a g) s fun act =>
    match lowest act with
    | none => .ok s.advance
    | some l =>
      let off := s.v a.toNat l
      let out (n : Nat) (t : State) : Except Stop State := .ok (t.setV d.toNat act fun _ => BitVec.ofNat 32 n).settled.advance
      if off.toNat % 32 ≠ 0 then out 4 s
      else do
        let as ← fixedAccess accRead (BitVec.twoPow 32 l) 32 0 0xC0 (fun _ => off) s
        let s ← releaseFirst 5 s
        performLoads as s fun rs t =>
          let q := startPhase s.job.part ((s.seg 0).1.toNat + off.toNat) (some (bytesFor rs l)) t
          (q.2.setV d.toNat act fun _ => BitVec.ofNat 32 q.1).advance

/-- A held start begins once P ticks have passed and HOLD is clear (R116, R403). DESIGN CHOICE: it is not tested for
admission again, though RELEASE may have given up its contract's admission while it was held; the spec is silent: log
entry 81. -/
def beginHeld (uid : Nat) (s : State) : State :=
  let j := s.jobOf uid
  let p := s.partOf j.part
  let due : Bool := match j.perStart with
    | some t => !j.contract || decide (t + j.period ≤ p.tick)
    | none => true
  match j.held with
  | none => s
  | some (g, c) =>
    if p.hold ∨ !due ∨ 2 ≤ j.inFlight then s
    else
      match beginPhase j g c s with
      | some t => t
      | none => postEvent 8 j.part j.jobno (g % 2 ^ 32, g / 2 ^ 32, 4, 0) (s.updJob uid fun x => { x with held := none })

/-- HELD_START (R116, R403). -/
def execHeldStart (uid : Nat) (s : State) : Out := .next (beginHeld uid s)

/-- An event that names the start tick of a job's period. -/
def periodEvent (code : Nat) (j : Job) (t : Nat) (s : State) : State :=
  postEvent code j.part j.jobno (t % 2 ^ 32, t / 2 ^ 32, 0, 0) s

/-- A job's charge in its period has exceeded its budget: it overruns (R123). -/
def overrunJob (uid : Nat) (s : State) : State :=
  let j := s.jobOf uid
  match j.perStart with
  | some t =>
    if j.contract && j.admitted && !j.overrun && decide (j.budget < j.charge) then
      periodEvent 5 j t (s.updJob uid fun x => { x with overrun := true })
    else s
  | none => s

/-- BUDGET_OVERRUN (R123). -/
def execBudgetOverrun (uid : Nat) (s : State) : Out := .next (overrunJob uid s)

/-- D ticks after a period of a job began, the phase that opened it has not completed (R123). -/
def expireDeadline (uid : Nat) (s : State) : State :=
  let j := s.jobOf uid
  match j.perStart with
  | some t =>
    if j.contract && !j.deadlineSeen && decide (t + j.deadline ≤ (s.partOf j.part).tick) && !(s.phaseOf j.perPhase).done then
      periodEvent 6 j t (s.updJob uid fun x => { x with deadlineSeen := true })
    else s
  | none => s

/-- DEADLINE_EXPIRY (R123). -/
def execDeadlineExpiry (uid : Nat) (s : State) : Out := .next (expireDeadline uid s)

end Sys2Proof.Machine
end

