-- ==== Sys2Proof/Machine/Lifecycle.lean ====
section
/-!
DEFINITION. The life of a group after its start: faults of engines taken by their warps (R365), pre-emption and capture
(R372 to R375), draining and completion (R378), pool pressure (R129), moves between pipeline stages (R134), the urgency
boost (R154) and the limit on J (R139).
-/
namespace Sys2Proof.Machine

/-- The groups of a group's team on this device, itself among them. -/
def teamOf (s : State) (g : Group) : List Group :=
  s.allGroups.filter fun x => x.status != .completed && x.launch == g.launch && x.team == g.team &&
    (x.uid == g.uid || decide (1 < g.teamSize))

/-- Pre-emption is requested of a group and of its whole team (R129, R372). -/
def requestPreempt (uid : Nat) (s : State) : State :=
  let us := (teamOf s (s.groupOf uid)).map (·.uid)
  s.mapGroups fun g => if g.uid ∈ us ∧ g.onCore = true then { g with preempt := true } else g

/-- PREEMPT_REQUEST (R372). -/
def execPreemptRequest (uid : Nat) (s : State) : Out := .next (requestPreempt uid s)

/-- Every warp of a group is capturable: none waits for an answer to an atomic that has left for a peer (R372, R373). -/
def capturable (s : State) (uid : Nat) : Bool := (s.warpsOf uid).all fun w => !w.atomic

/-- The cycles that a partition has counted since its last reset. -/
def partCycle (s : State) (part : Nat) : Nat := (s.partOf part).cycle

/-- A whole-partition pre-emption is complete once no group holds a core: CAPTURED, and an event where it took longer
than 22 800 cycles (R373, R403). -/
def settleCapture (part : Nat) (slow : Group) (s : State) : State :=
  match (s.partOf part).preemptAt with
  | none => s
  | some t =>
    if s.allGroups.any fun g => g.onCore && (s.jobOf g.job).part == part then s
    else
      let n := partCycle s part - t
      let u := s.updPart part fun p => { p with captured := true, preemptAt := none }
      if 22800 < n then postEvent 14 part (s.jobOf slow.job).jobno ((s.jobOf slow.job).jobno, n % 2 ^ 32, n / 2 ^ 32, 0) u else u

/-- The members of a team in the order of their ranks. -/
def byRank (team : List Group) : List Nat := (List.range 8).flatMap fun r => (team.filter fun x => x.rank == r).map (·.uid)

/-- The launch of a stage. -/
def stageLaunch (s : State) (g : Graph) (k : Nat) : Option Launch :=
  s.launches.find? fun l => l.graph == g.uid && l.node == some k && !l.done

/-- The saved groups of a launch, in the order of first starts. -/
def savedOf (s : State) (l : Launch) : List Group :=
  (s.allGroups.filter fun x => x.launch == l.uid && x.status == .saved).foldl (fun acc g =>
    (acc.filter fun x => decide (x.order < g.order)) ++ [g] ++ (acc.filter fun x => decide (g.order ≤ x.order))) []

/-- A stage's first waiting group or team is placed on cores that a move has freed, if it fits there (R134). -/
def placeStage (l : Launch) (cores : List Nat) (s : State) : Option State :=
  match savedOf s l with
  | g :: _ => placeSaved [cores] (byRank (teamOf s g)) (unqueue g.uid s)
  | [] => if l.next < l.groups then placeFresh [cores] l s else none

/-- No pipeline move is made: the graph's counter shows a cancel, or an overrun holds the job at tier 2 (R134). -/
def moveBarred (s : State) (g : Graph) : Bool := g.cancel != 0 || (s.jobOf g.job).overrun

/-- A saved group or team of a graph's donor: the receiver's first waiting group takes its place, and it waits in its
queue; or, where that does not fit, it is restored where it was, if its cores still take it (R127, R134, R284). While HOLD
is set nothing starts or resumes (R403). -/
def finishMove (g : Graph) (stage : Nat) (team : List Group) (s : State) : State :=
  let l := s.launchOf (team.headD Group.idle).launch
  let p := s.partOf (s.jobOf g.job).part
  let wait (t : State) : State := enqueue p.num (tierOf t l) (.saved (byRank team)) t
  if p.hold then wait s
  else
    match (if moveBarred s g then none else stageLaunch s g stage).bind fun x =>
        placeStage x (ascending (team.map (·.core))) s with
    | some t => wait t
    | none =>
      if team.all fun x => canTake s (needOf l x.teamSize x.engine.isSome) x.core then
        team.foldl (fun t x => resumeGroup x.uid x.core t) s
      else wait s

/-- A group's context is saved. Once every member of its team is saved, the team enters the queue as one item, or a move
between pipeline stages goes on (R131, R134, R374). -/
def captureGroup (uid : Nat) (s : State) : State :=
  let g := s.groupOf uid
  let part := (s.jobOf g.job).part
  let t := saveGroup uid s
  let team := teamOf t (t.groupOf uid)
  let t :=
    if !(team.all fun x => x.status == .saved) then t
    else
      match t.graphs.find? fun x => !x.done && x.move.any fun m => team.any fun y => y.uid == m.1 with
      | some x => finishMove x ((x.move.map (·.2)).getD 0) team (t.updGraph x.uid fun y => { y with move := none })
      | none => enqueue part (tierOf t (t.launchOf g.launch)) (.saved (byRank team)) t
  settleCapture part g t

/-- GROUP_CAPTURED: a group asked to stop is saved, or discarded when it has been aborted (R120, R373, R374). -/
def execGroupCaptured (uid : Nat) (s : State) : Out :=
  let g := s.groupOf uid
  let j := s.jobOf g.job
  if g.abort ∧ (g.status = .saved ∨ (g.onCore ∧ capturable s uid)) then
    .next (settleCapture j.part g (discardGroup uid s))
  else if g.onCore ∧ g.preempt ∧ !g.abort ∧ capturable s uid then .next (captureGroup uid s)
  else .next s

-- Completion

/-- Engine faults whose issuing warp has ended go to the launch's fault log (R365). -/
def flushFaults (uid : Nat) (s : State) : State :=
  let g := s.groupOf uid
  let live (n : Nat) : Bool := (s.warpsOf uid).any fun w => w.id == n && w.run != .ended
  let gone := g.elog.filter fun e => g.status == .draining || !(live e.warp)
  gone.foldl (fun t e => logRecord uid e.record t)
    (s.updGroup uid fun x => { x with elog := x.elog.filter fun e => !(gone.contains e) })

/-- Nothing that a group issued is in flight, on any core it has stood on (R378). -/
def quiet (s : State) (g : Group) : Bool :=
  let e := (s.coreOf g.core).engine
  g.restarts.isEmpty && ((s.core :: s.cores).all fun c => c.copies.all fun x => x.group != g.uid) &&
    (e.owner != some g.uid || (e.work.isEmpty && e.intake.isNone)) &&
    (s.encoders.all fun e => e.queue.all fun r => r.group != g.uid || r.dropped) && (s.writing g.uid).isEmpty

/-- The tags of a group that hold unpublished shadows, as a mask. -/
def shadowTags (c : Core) (uid : Nat) : Nat :=
  ((distinct ((c.shadows.filter fun b => b.group == uid).map (·.tag))).map fun t => 2 ^ t).sum

/-- GROUP_COMPLETE: a group whose warps have all ended completes once nothing it issued is in flight; its results are
released, unpublished shadows are discarded with an event, and its launch loses a child (R107, R259, R378). -/
def execGroupComplete (uid : Nat) (s : State) : Out :=
  let g0 := s.groupOf uid
  if !g0.onCore ∨ g0.abort ∨ !((s.warpsOf uid).all fun w => w.run == .ended) then .next s
  else
    let t := flushFaults uid (drainGroup uid s)
    let g := t.group
    if !(quiet t g) then .next t
    else
      let m := shadowTags t.core uid
      let j := t.jobOf g.job
      let t := if m = 0 then t else postEvent 11 j.part j.jobno (g.number, m % 2 ^ 32, m / 2 ^ 32, 0) t
      .next (settleCapture j.part g (launchChild g.launch 1 g.faulted (removeGroup uid (leaveCore g t))))

-- Warps

/-- ASYNC_FAULT_TAKE: a warp takes the oldest engine fault that is for it, at an instruction boundary: not while its
MLDS or MSTR, once accepted, is in its intake (R295), while an atomic of it that has left for a peer is unanswered (R316,
R372), or while it waits after a CONFLICT (R271). The record is a copy, with the PC of that moment. A warp that has ended
leaves its records to the launch's fault log (R365). -/
def execAsyncFaultTake (uid : Nat) (s : State) : Out :=
  let w := s.warpOf uid
  let g := s.groupOf w.group
  match g.elog.find? fun e => e.warp == w.id with
  | none => .next s
  | some e =>
    if w.run = .ended ∨ g.status = .draining then .next (flushFaults w.group s)
    else if w.level = .handler ∨ w.run = .halted ∨ w.run = .wedged ∨ !g.onCore ∨ w.present.any (·.accepted) ∨ w.atomic ∨
        w.frame.tx.backoff.isSome then .next s
    else
      let t := dropWatches uid (s.focus uid)
      let x := t.warp
      let pc := (((lowest x.frame.live).map fun l => x.frame.pcs.getD l 0)).getD 0
      let tx := x.frame.tx
      let r := { e.record with
        fpc := pc
        rpc := if tx.active then tx.target else pc
        ctl := e.record.ctl ||| (if tx.active then 0x20000000 else 0) ||| BitVec.ofNat 32 (x.level.rank * 2 ^ 24) }
      let t := { t with
        group := { t.group with elog := t.group.elog.erase e }
        warp := { t.warp with run := .running, present := none, asleep := false, sleepSet := [], woken := false } }
      .next (takeRecord r (if tx.active then abortTx 9 0 t else t))

/-- JOIN_TIMEOUT: J of a warp on a core clears 4096 cycles after it was set (R139, R141). -/
def execJoinTimeout (uid : Nat) (s : State) : Out :=
  let g := s.groupOf (s.warpOf uid).group
  .next (s.updWarp uid fun w =>
    if g.onCore ∧ w.frame.join.isSome ∧ w.frame.joinAt + 4096 ≤ (s.coreOf g.core).cycle then
      { w with frame := { w.frame with join := none } }
    else w)

/-- URGENCY_COMPARE: the boost of a team, named by one of its groups, goes to the group with the lowest count, if that
is below 15/16 of the highest; the counts are cleared (R154). -/
def execUrgencyCompare (uid : Nat) (s : State) : Out :=
  let ms := (teamOf s (s.groupOf uid)).filter (·.onCore)
  if ms.length < 2 then .next s
  else
    let low := ms.foldl (fun m g => if g.progress < m.progress ∨ (g.progress = m.progress ∧ g.rank < m.rank) then g else m)
      (ms.headD Group.idle)
    let high := (ms.map (·.progress)).foldl max 0
    let us := ms.map (·.uid)
    .next (s.mapGroups fun g =>
      if g.uid ∈ us then { g with boost := g.uid == low.uid && decide (16 * low.progress < 15 * high), progress := 0 } else g)

/-- A warp still stalls for a pool entry, and has for 65 536 cycles (R129). -/
def longStalled (s : State) (now : Nat) (w : Warp) : Bool :=
  (w.stalled.any fun c => decide (c + 65536 ≤ now)) && !(settleNames (s.focus w.uid)).2

/-- Pool pressure applies on a core, and no group of it has been asked to leave yet (R129). -/
def pressed (s : State) (core : Nat) : Bool :=
  let gs := s.groupsOn core
  let ws := gs.flatMap fun g => (s.warpsOf g.uid).filter fun w => w.frame.live != 0
  !ws.isEmpty && gs.all (fun g => !g.preempt) && ws.all (longStalled s (s.coreOf core).cycle)

/-- POOL_PRESSURE: the group on the core that started most recently is pre-empted, its team with it (R129). -/
def execPoolPressure (core : Nat) (s : State) : Out :=
  if !(pressed s core) then .next s
  else
    match (s.groupsOn core).foldl (fun (b : Option Group) g =>
        match b with | none => some g | some x => if x.order < g.order then some g else some x) none with
    | none => .next s
    | some g =>
      let j := s.jobOf g.job
      .next (requestPreempt g.uid (postEvent 10 j.part j.jobno (core, g.number, 0, 0) s))

-- Pipelines

/-- A queue of a pipeline as a sample finds it: number, occupancy, capacity, producer, consumer, closed (R134). -/
structure Sample where
  queue : Nat
  occ : Nat
  cap : Nat
  producer : Nat
  consumer : Nat
  closed : Bool
  deriving DecidableEq, Repr

/-- The queues of a pipeline sampled, and the state after (R237). -/
def sampleQueues (g : Graph) (s : State) : List Sample × State :=
  (List.range g.qcount).foldl (fun r q =>
    match localRead (r.2.jobOf g.job) (g.qtab + 64 * q) 64 r.2 with
    | none => r
    | some (bs, t) =>
      let h := qheadOf bs
      (r.1 ++ [{ queue := q, occ := (h.tail - h.head) % 2 ^ 64, cap := h.cap, producer := h.qctl % 64
                 consumer := bits h.qctl 13 8, closed := h.closed }], t)) ([], s)

/-- A stage has a group waiting. -/
def stageWaits (s : State) (g : Graph) (k : Nat) : Bool :=
  match stageLaunch s g k with
  | some l => decide (l.next < l.groups) || !(savedOf s l).isEmpty
  | none => false

/-- The groups of a stage that hold cores. -/
def stageGroups (s : State) (g : Graph) (k : Nat) : List Group :=
  match stageLaunch s g k with
  | some l => s.allGroups.filter fun x => x.launch == l.uid && x.onCore
  | none => []

/-- The queue whose consumer is to receive a core (R134 step 1). -/
def receiverQueue (s : State) (g : Graph) (qs : List Sample) : Option Sample :=
  (qs.filter fun q => decide (3 * q.cap ≤ 4 * q.occ) && stageWaits s g q.consumer).foldl (fun b q =>
    match b with
    | none => some q
    | some x => if x.occ * q.cap < q.occ * x.cap then some q else some x) none

/-- The stage that gives a core (R134 step 2). -/
def donorStage (s : State) (g : Graph) (qs : List Sample) (r : Sample) : Option Nat :=
  let able (k : Nat) : Bool := k != r.consumer && decide (2 ≤ (stageGroups s g k).length)
  let starved (k : Nat) : Bool :=
    let ins := qs.filter fun q => q.consumer == k
    !ins.isEmpty && ins.all fun q => decide (4 * q.occ ≤ q.cap) && !q.closed
  match (List.range g.nodes.length).find? fun k => able k && starved k with
  | some k => some k
  | none => if r.occ = r.cap ∧ able r.producer then some r.producer else none

/-- The group of a stage that started most recently. -/
def latestOf (gs : List Group) : Option Group :=
  gs.foldl (fun b x => match b with | none => some x | some y => if y.order < x.order then some x else some y) none

/-- A move begins: the donor's latest group, with its team, is asked to stop, and is saved at once where every warp of
it is capturable (R134, R372). -/
def beginMove (graph : Nat) (d : Group) (stage : Nat) (s : State) : State :=
  let t := requestPreempt d.uid (s.updGraph graph fun x => { x with move := some (d.uid, stage) })
  let us := (teamOf t d).map (·.uid)
  if us.all (capturable t) then us.foldl (fun u x => captureGroup x u) t else t

/-- A move of a graph is under way: its donor has not been saved, nor discarded. -/
def moving (s : State) (g : Graph) : Bool := g.move.any fun m => s.allGroups.any fun x => x.uid == m.1

/-- PIPELINE_SAMPLE: every 65 536 cycles from the phase's start, at most one core moves from a donor stage to a
receiver; of stages of teams, the cores of one team (R134; log entry 57). A move under way goes on, and no other begins
beside it; while HOLD is set none begins (R403). -/
def execPipelineSample (uid : Nat) (s : State) : Out :=
  let g := s.graphOf uid
  if !g.pipeline ∨ g.done ∨ (partCycle s (s.jobOf g.job).part - g.startCycle) / 65536 ≤ g.samples then .next s
  else
    let q := sampleQueues g (s.updGraph uid fun x => { x with samples := x.samples + 1 })
    let s := q.2
    if moveBarred s g ∨ moving s g ∨ (s.partOf (s.jobOf g.job).part).hold then .next s
    else
      match receiverQueue s g q.1 with
      | none => .next s
      | some r =>
        match (donorStage s g q.1 r).bind fun k => latestOf (stageGroups s g k) with
        | none => .next s
        | some d => .next (beginMove uid d r.consumer s)

end Sys2Proof.Machine
end

