-- ==== Sys2Proof/Machine/Fabric.lean ====
section
/-!
DEFINITION. The fabric (R344 to R356): links, flits, striping, flow control, failures and detours, what messages of peers
do at this device, writes that reach their home, and write-combining lines that age (R322, R331).
-/
namespace Sys2Proof.Machine

-- Writes on their way

/-- WRITE_PERFORMED: a write in flight reaches its home, after those before it to the same line and with those that the
same instruction made there (R221, R316, R322, R332). A write still in the write-combining buffer has not left. -/
def execWritePerformed (core index : Nat) (s : State) : Out :=
  match (s.coreOf core).pend[index]? with
  | none => .next s
  | some e =>
    if e.buffered then .next s
    else
      let t := s.focusCore core
      let mates (x : PWrite) : Bool := x.loc.line == e.loc.line && !x.buffered
      let mine := t.core.pend.zipIdx.filter fun x =>
        mates x.1 && (decide (x.2 ≤ index) || (x.1.step == e.step && x.1.warp == e.warp))
      .next (drainWhere (fun x => (mine.map (·.1)).contains x) t)

/-- WCB_AGE_DRAIN: the lines of a write-combining buffer held for WCBAGE cycles drain (R331). -/
def execWcbAgeDrain (core : Nat) (s : State) : Out :=
  let t := s.focusCore core
  let old := (bufferedLines t.core).filter fun l =>
    t.core.pend.any fun e => e.buffered && e.loc.line == l && decide (e.since + t.core.wcbage ≤ t.core.cycle)
  .next (old.foldl (fun u l => drainLine l u) t)

-- Messages of peers

/-- One peer changed. -/
def State.updPeer (chip : Nat) (f : Peer → Peer) (s : State) : State :=
  { s with peers := s.peers.map fun p => if p.chip = chip then f p else p }

/-- What came of a message at this device. -/
inductive Reply where
  | done (s : State)
  | answer (bytes : List Byte) (s : State)
  | refuse (detail : Nat)
  | wait (s : State)

/-- How a fault met on a peer's behalf is told to it: class and detail. -/
def excCode (e : Exc) : Nat := e.cls * 256 + e.detail

/-- The answer of an operation made on a peer's behalf. -/
def replyOf {α : Type} (s : State) (f : α → Reply) : Except Stop α → Reply
  | .ok x => f x
  | .error (.fault e) => .refuse (excCode e)
  | .error _ => .wait s

/-- An access at a physical address: refused outside the storage of the partition (R355). -/
def atHome (p : Part) (pa n : Nat) (r : Reply) : Reply :=
  if inStorage p.dies p.carve pa && inStorage p.dies p.carve (pa + n - 1) then r else .refuse 2

/-- The job of this device that a message names. -/
def State.ownJob (s : State) (part jobno : Nat) : Option Job :=
  s.jobs.find? fun j => j.chip == s.node.chip && j.part == part && j.jobno == jobno

/-- The units of this device that act for a peer; late says that a write of theirs has waited for 20 000 cycles on a
MIGRATING page (R238). -/
def peerWho (late : Bool) : Who := { unitWho with late := late }

/-- A handle and coordinate of a peer's request resolved at this device (R229 steps 3 to 5). -/
def resolvePeer (j : Job) (handle : Nat) (coord : List Nat) (s : State) : Except Stop (Quad × Target × State) := do
  let n (k : Nat) : Word := BitVec.ofNat 32 (coord.getD k 0)
  let q : Quad := { q0 := BitVec.ofNat 32 (handle + coord.getD 3 0 * 2 ^ 20), c0 := n 0, c1 := n 1, c2 := n 2 }
  let (r, s) ← useRecord unitWho q j handle s
  if 1 < r.storage then failWith (q.fault 12 6)
  else if !r.holds coord then failWith (q.fault 12 4)
  else return (q, { job := j, handle := handle, shape := r, coord := coord }, s)

/-- The LEN sectors of a tile's slab, or nothing where it has none (R304, R354). -/
def fetchSlab (t : Target) (s : State) : Except Stop (List Byte × State) := do
  let (_, b, s) ← slabRead unitWho t s
  return ((b.map (·.1)).getD [], s)

/-- A peer's tensor load: the element's bytes, or the slab that holds it (R83, R354). -/
def peerLoad (j : Job) (handle : Nat) (coord : List Nat) (s : State) : Except Stop (List Byte × State) := do
  let (_, t, s) ← resolvePeer j handle coord s
  if t.shape.storage = 1 then fetchSlab t s
  else do
    let r ← devRead (unitWho.under t) j accRead (t.shape.address (t.shape.offset coord)).1 (kindBytes t.shape.kind) s
    return (r.1, r.2.2)

/-- A peer's tensor store: a dense element is written; a slab tile is re-encoded here (R83, R226, R354). -/
def peerStore (late : Bool) (j : Job) (handle : Nat) (coord : List Nat) (x : Word) (s : State) : Except Stop State := do
  let (q, t, s) ← resolvePeer j handle coord s
  if t.shape.kind = 7 then failWith (q.fault 12 2)
  else if t.shape.storage = 1 then do
    let els := [(0, t.pos, x)]
    let r ← encodeAt (peerWho late) j.tables q t (tstMake j.tables t.shape.kind els s.free) s
    return { r.2 with free := r.2.free + 1 }
  else do
    let a := t.shape.address (t.shape.offset coord)
    let w := (peerWho late).under t
    let b ← devRead w j accRead a.1 (kindBytes t.shape.kind) s
    devWrite w j accWrite a.1 (t.shape.stored a.2 (b.1.getD 0 0) (tstPattern t x).1) b.2.2

/-- The chip that is to compute a REDUCE copy's reduction. -/
def reduceHome (c : Copy) (s : State) : Nat :=
  match devPieces c.who s s.job accWrite c.rec'.dst 1 with
  | .ok ps => ((ps.head?).map (·.chip s)).getD s.node.chip
  | .error _ => s.node.chip

/-- An accepted REDUCE copy of any core, with the core whose slot it holds. -/
def acceptedReduce (s : State) (uid : Nat) : Option (Nat × Copy) :=
  (s.core :: s.cores).findSome? fun k =>
    (k.copies.find? fun c => c.uid == uid && c.accepted && c.rec'.does == 4).map fun c => (k.id, c)

/-- A peer ends or fails this device's contribution to a reduction: status 13 is peer failure, status 2 a copy status,
and every other carries the fault that its home met, a refusal with the peer's number (R254 to R256, R319, R355). -/
def reduceDone (uid status cls detail aux : Nat) (s : State) : State :=
  match acceptedReduce s uid with
  | none => s
  | some (k, c) =>
    let t := (s.focusGroup c.group).focusCore k
    let e := if status = 13 then exc 10 2 0 (reduceHome c t) else if status = 2 then exc 23 2 else copyExc (exc cls detail c.rec'.dst aux)
    if status = 0 then finishCopy c c.rec'.total t else failCopy c status 1 e t

/-- A message of a peer for partition p, which exists here (R348, R354). A plain RED is acknowledged only. A notice that a
peer has failed or lost a write changes nothing here: the rules give its effect on the device that sends it. What link
control says is PRESUMED: the chips to which the sender has live links: log entry 88. -/
def perform (late : Bool) (m : PeerMsg) (p : Part) (s : State) : Reply :=
  let job (n : Nat) (f : Job → Reply) : Reply := match s.ownJob p.num n with | some j => f j | none => .refuse (7 * 256 + 9)
  let key (a : Nat) : Nat := memKey s.node.chip a
  match m.body with
  | .load a w reuse =>
    let t := reachLine Via.device (lineOf (key a)) s
    atHome p a w (.answer (s.read (key a) w) (if reuse then markLine m.src (lineOf (key a)) t else t))
  | .store a bs => atHome p a bs.length (.answer [] (performWrite none (key a) bs s))
  | .atom op a y =>
    let x := wordOfList (s.read (key a) 4)
    let r := atomOp op x y
    atHome p a 4 (.answer (leBytes 4 x.toNat ++ leBytes 1 r.2.toNat) (performWrite none (key a) (leBytes 4 r.1.toNat) s))
  | .atomc a e n =>
    let x := wordOfList (s.read (key a) 4)
    atHome p a 4 (.answer (leBytes 4 x.toNat) (if x = e then performWrite none (key a) (leBytes 4 n.toNat) s else s))
  | .red op a y =>
    atHome p a 4 (.answer [] (performWrite none (key a)
      (leBytes 4 (atomOp op (wordOfList (s.read (key a) 4)) y).1.toNat) s))
  | .elemLoad n h c => job n fun j => replyOf s (fun r => .answer r.1 r.2) (peerLoad j h c s)
  | .elemStore n h c x => job n fun j => replyOf s (fun t => .answer [] t) (peerStore late j h c x s)
  | .slabFetch n h c =>
    job n fun j => replyOf s (fun r => .answer r.1 r.2) (do
      let (_, t, s) ← resolvePeer j h c s
      fetchSlab t s)
  | .contribute c => match reduceArrive c s with | .taken t => .done t | .refused => .refuse 2 | .full => .wait s
  | .memoRemoval => .answer [] (forgetGlobal s)
  | .shardClose n k =>
    job n fun j =>
      let t := (settleWrites s).updJob j.uid fun x => { x with closed := k :: x.closed.filter (· != k) }
      if captured t [j.uid] k then .wait t else .answer [] t
  | .shardOpen n k bs =>
    job n fun j => replyOf s (fun t => .answer [] (t.updJob j.uid fun x => { x with closed := x.closed.filter (· != k) }))
      (devWrite (peerWho late) j accWrite (j.shBase + 128 * k) bs s)
  | .failNotice _ | .lostNotice _ _ => .done s
  | .linkControl chips => .done (s.updPeer m.src fun x => { x with reach := chips })
  | .reduceAck c st cls det aux => .done (reduceDone c st cls det aux s)

-- Links

/-- A link of a port. -/
def State.linkOf (s : State) (port idx : Nat) : Option Link := s.links.find? fun k => k.port == port && k.idx == idx

/-- One link changed. -/
def State.updLink (port idx : Nat) (f : Link → Link) (s : State) : State :=
  { s with links := s.links.map fun k => if k.port = port ∧ k.idx = idx then f k else k }

/-- The peer a port is assigned to, with the peer's port (R344). -/
def State.portPeer (s : State) (port : Nat) : Option (Nat × Nat) := s.node.ports.getD port none

/-- The partition that owns a port: that of its C-die (R12, R346). -/
def State.portPart (s : State) (port : Nat) : Part :=
  (s.parts.find? fun p => p.dies.contains (port / 2)).getD (Part.reset 0 [])

/-- The live links to a peer, in ascending order of port and link. -/
def liveLinks (s : State) (peer : Nat) : List Link :=
  (List.range 16).flatMap fun p =>
    if (s.portPeer p).map (·.1) = some peer then
      (List.range 4).filterMap fun i => (s.linkOf p i).bind fun k => if k.up then some k else none
    else []

/-- The flow-control totals toward a peer on a channel (R349). -/
def creditOf (s : State) (peer ch : Nat) : Credit :=
  (s.credits.find? fun c => c.peer == peer && c.ch == ch).getD { peer := peer, ch := ch, sent := 0, freed := 0, given := 0 }

/-- The totals toward a peer on a channel are set. -/
def putCredit (c : Credit) (s : State) : State :=
  { s with credits := c :: s.credits.filter fun x => !(x.peer == c.peer && x.ch == c.ch) }

/-- CAP of a channel (R349). -/
def creditCap (ch : Nat) : Nat := if ch = 4 then 16 else 64

/-- A flit leaves on a link: next sequence number, latest acknowledgement, the total of freed slots of one channel, taken
in turn, and it stays in the retry buffer (R347, R352). -/
def sendFlit (port idx : Nat) (f : Flit) (s : State) : State :=
  match s.linkOf port idx with
  | none => s
  | some k =>
    let fc := k.txSeq.toNat % 5
    let f := { f with
      seq := k.txSeq + 1
      ack := k.rxSeq
      fcch := BitVec.ofNat 4 fc
      freed := (creditOf s (((s.portPeer port).map (·.1)).getD 16) fc).given }
    let t := s.updLink port idx fun x => { x with txSeq := x.txSeq + 1, retry := x.retry ++ [f] }
    { t with out := t.out ++ [.flit port idx f] }

/-- Flits leave on a link in their order. -/
def sendFlits (port idx : Nat) (fs : List Flit) (s : State) : State := fs.foldl (fun t f => sendFlit port idx f t) s

/-- A flit that carries no message (R347, R348). -/
def controlFlit (nak : Bool) : Flit :=
  { ch := 7, nak := nak, seq := 0, ack := 0, fcch := 0, freed := 0, intact := true, msgs := [] }

/-- The link of a port that sends next: the live links with room in their retry buffers take turns (R345, R352). -/
def nextLink (s : State) (port : Nat) : Option Link :=
  let able := (List.range 4).filterMap fun i =>
    (s.linkOf port i).bind fun k => if k.up && decide (k.retry.length < 256) then some k else none
  match able.find? fun k => (amGet s.stripes port).all fun last => decide (last < k.idx) with
  | some k => some k
  | none => able.head?

/-- A link that is up and has room in its retry buffer (R352). -/
def openLink (s : State) (port idx : Nat) : Option Link :=
  (s.linkOf port idx).bind fun k => if k.up && decide (k.retry.length < 256) then some k else none

/-- A flit may use a slot of its receiver: SENT − FREED is below CAP (R349). -/
def hasCredit (s : State) (peer ch : Nat) : Bool :=
  let c := creditOf s peer ch
  decide (4 < ch) || decide ((c.sent - c.freed).toNat < creditCap ch)

/-- A flit that waits leaves, if a link has room and its receiver a slot: SENT counts it, unless it was sent before, and
the forwarding slot it stood in is freed (R345, R349, R352, R353). -/
def sendQueued (q : Queued) (s : State) : Option State :=
  let peer := ((s.portPeer q.port).map (·.1)).getD 16
  let ch := q.flit.ch.toNat
  match (match q.link with | some i => openLink s q.port i | none => nextLink s q.port) with
  | none => none
  | some k =>
    if !q.again && !(hasCredit s peer ch) then none
    else
      let t := sendFlit q.port k.idx q.flit s
      let t := if q.link.isSome then t else { t with stripes := amPut q.port k.idx t.stripes }
      let c := creditOf t peer ch
      let t := if q.again ∨ 4 < ch then t else putCredit { c with sent := c.sent + 1 } t
      some (match q.holds with
        | some p => let d := creditOf t p 4; putCredit { d with given := d.given + 1 } t
        | none => t)

/-- Every flit that can leave does; those of one port and channel keep their order. -/
def pump (s : State) : State :=
  s.queued.foldl (fun t q =>
    let stay : State := { t with queued := t.queued ++ [q] }
    if t.queued.any fun x => x.port == q.port && x.flit.ch == q.flit.ch then stay
    else (sendQueued q t).getD stay) { s with queued := [] }

/-- New flits leave after those that wait, or ahead of them. -/
def sendOn (ahead : Bool) (qs : List Queued) (s : State) : State :=
  pump { s with queued := if ahead then qs ++ s.queued else s.queued ++ qs }

/-- IDLE_FLIT: a link that is up sends a flit on channel 7 (R347). -/
def execIdleFlit (port idx : Nat) (s : State) : Out :=
  .next (if (openLink s port idx).isSome then sendFlit port idx (controlFlit false) s else s)

-- Routes

/-- The port that traffic to a peer leaves by: the lowest-numbered of its ports with a live link; with none, its primary
port (R344, R352). -/
def outPort (s : State) (peer : Nat) : Nat := (((liveLinks s peer).head?).map (·.port)).getD (primaryPort s peer)

/-- A chip has live links to this one and to a peer (R353). -/
def between (s : State) (peer k : Nat) : Bool :=
  k != peer && !(liveLinks s k).isEmpty && (match s.peerOf k with | some p => p.reach.contains peer | none => false)

/-- The intermediate chip of a detour to a peer: the lowest-numbered one with live links to both (R353). -/
def detourFor (s : State) (peer : Nat) : Option Nat := (List.range 16).find? (between s peer)

/-- The intermediate chip by which a peer is to be reached when no link to it is live, where the policy of its primary
port allows a detour: the one in force, as long as it serves (R346, R351, R353). -/
def detourNow (s : State) (peer : Nat) : Option Nat :=
  if (s.portPart (primaryPort s peer)).fabpol.getLsbD 2 then
    match (s.peerOf peer).bind (·.detour) with
    | some k => if between s peer k then some k else detourFor s peer
    | none => detourFor s peer
  else none

/-- The peer of a link. -/
def State.linkPeer (s : State) (k : Link) : Nat := ((s.portPeer k.port).map (·.1)).getD 16

/-- A flit that left by a port is for a peer, and no link to the port's peer is live. -/
def stuckFor (s : State) (peer port : Nat) (f : Flit) : Bool :=
  let next := ((s.portPeer port).map (·.1)).getD 16
  f.fwd.getD next == peer && (liveLinks s next).isEmpty

/-- The flits for a peer that links to unreachable chips hold, and those that wait for such links. -/
def heldFor (s : State) (peer : Nat) : List Flit :=
  (s.links.flatMap fun k => k.retry.filter (stuckFor s peer k.port)) ++
    ((s.queued.filter fun q => q.link.isNone && stuckFor s peer q.port q.flit).map (·.flit))

/-- They are given up there. -/
def clearHeld (peer : Nat) (s : State) : State :=
  { s with
    links := s.links.map fun k => { k with retry := k.retry.filter fun f => !(stuckFor s peer k.port f) }
    queued := s.queued.filter fun q => q.link.isSome || !(stuckFor s peer q.port q.flit) }

/-- The flits held for a peer go on, in order and ahead of new ones, by a chip: itself, or the one of a detour (R353). -/
def resendHeld (peer hop : Nat) (s : State) : State :=
  let fs := heldFor s peer
  let via (f : Flit) : Flit := if hop = peer ∧ f.fwd.isNone then f else { f with ch := 4, fwd := some peer }
  sendOn true (fs.map fun f => { port := outPort s hop, link := none, again := false, holds := none, flit := { via f with nak := false } })
    (clearHeld peer s)

/-- A peer is reached by its links, by a detour, or not at all (R353). A detour that begins is told by an event, and so is
the end of one that a link makes unnecessary; a peer that is reached again takes what waits for it. DESIGN CHOICE: both
events have code 19, and the third word marks the end: log entry 86. -/
def reviewPeer (s : State) (p : Peer) : State :=
  let live := !(liveLinks s p.chip).isEmpty
  let hop := if live then none else detourNow s p.chip
  let part := (s.portPart (primaryPort s p.chip)).num
  let t := s.updPeer p.chip fun x => { x with detour := hop, silent := !live && hop.isNone }
  let t := match hop with
    | some k => if p.detour = some k then t else postEvent 19 part 0 (p.chip, k, 0, 0) t
    | none => if live then (match p.detour with | some k => postEvent 19 part 0 (p.chip, k, 1, 0) t | none => t) else t
  let t := if live then resendHeld p.chip p.chip t else match hop with | some k => resendHeld p.chip k t | none => t
  if p.silent && (live || hop.isSome) then peerAnswers p.chip t else t

/-- The ways to every peer are found anew, when links or what decides on detours has changed (R353). -/
def reviewRoutes (s : State) : State := s.peers.foldl (fun t p => ((t.peerOf p.chip).map (reviewPeer t)).getD t) s

/-- A link goes down; what it holds moves to surviving links, first of its own port, in order and ahead of new flits,
where MIGRATE is set (R352). With no link left to the peer, R353 applies. -/
def takeDown (port idx : Nat) (s : State) : State :=
  match s.linkOf port idx, s.portPeer port with
  | some k, some (peer, _) =>
    if !k.up then s
    else
      let part := s.portPart port
      let t := s.updLink port idx fun x => { x with up := false, replays := 0 }
      let t := { t with queued := t.queued.filter fun q => !(q.port == port && q.link == some idx) }
      let live := liveLinks t peer
      if live.isEmpty then reviewRoutes t
      else
        let out := if live.any fun l => l.port == port then port else outPort t peer
        let t := { t with queued := t.queued.map fun q => if q.port = port then { q with port := out } else q }
        if part.fabpol.getLsbD 1 then
          let old := k.retry.map fun f => ({ port := out, link := none, again := true, holds := none, flit := { f with nak := false } } : Queued)
          sendOn true old (postEvent 18 part.num 0 (port, idx, peer, 0) (t.updLink port idx fun x => { x with retry := [] }))
        else pump t
  | _, _ => s

/-- LINK_DOWN (R352). -/
def execLinkDown (port idx : Nat) (s : State) : Out := .next (takeDown port idx s)

/-- LINK_TRAINING: a port whose far end is the configured one comes up, resends what it still holds, and ends the
detour it makes unnecessary; any other stays down with a miswire event (R344, R353). -/
def execLinkTraining (port idx farChip farPort : Nat) (s : State) : Out :=
  let part := s.portPart port
  if s.portPeer port ≠ some (farChip, farPort) then
    .next (postEvent 16 part.num 0 (port, idx, farChip, farPort) (takeDown port idx s))
  else if 4 ≤ idx then .next s
  else
    let old := ((s.linkOf port idx).map (·.retry)).getD []
    let k : Link := { port := port, idx := idx, up := true, txSeq := 0, rxSeq := 0, retry := [], replays := 0 }
    let t := { s with links := k :: s.links.filter fun x => !(x.port == port && x.idx == idx) }
    let t := sendFlits port idx (old.map fun f => { f with nak := false }) t
    .next (pump (reviewRoutes (postEvent 21 part.num 0 (port, idx, farChip, 0) t)))

-- Receiving

/-- Flits that an acknowledgement covers leave the retry buffer (R352). -/
def acknowledge (port idx : Nat) (ack : BitVec 12) (s : State) : State :=
  s.updLink port idx fun k =>
    let left := k.retry.filter fun f => decide (2048 ≤ (ack - f.seq).toNat)
    { k with retry := left, replays := if left.length < k.retry.length then 0 else k.replays }

/-- The answer to a flit that did not come whole or in order: a NAK under REPLAY, else the link goes down (R352). -/
def refuseFlit (port idx : Nat) (s : State) : State :=
  if (s.portPart port).fabpol.getLsbD 0 then
    sendOn false [{ port := port, link := some idx, again := true, holds := none, flit := controlFlit true }] s
  else takeDown port idx s

/-- A NAK: what is held goes out again with the latest totals, with an event; after eight replays the link goes down
(R352). -/
def replay (port idx : Nat) (s : State) : State :=
  match s.linkOf port idx with
  | none => s
  | some k =>
    if !(s.portPart port).fabpol.getLsbD 0 ∨ 8 ≤ k.replays then takeDown port idx s
    else
      let t := s.updLink port idx fun x => { x with replays := x.replays + 1 }
      let again (f : Flit) : Flit := { f with ack := k.rxSeq, freed := (creditOf s (s.linkPeer k) f.fcch.toNat).given }
      postEvent 17 (s.portPart port).num 0 (port, idx, 0, 0) { t with out := t.out ++ k.retry.map fun f => .flit port idx (again f) }

/-- A newer total of freed slots; none on a protocol error (R349). The flits of instructions' requests, which are not
modelled, count in SENT of channels 0 to 3 by a free number (log entry 41). -/
def takeCredit (peer : Nat) (f : Flit) (s : State) : Option State :=
  let ch := f.fcch.toNat
  if 4 < ch then some s
  else
    let c := creditOf s peer ch
    let sent := if ch < 4 then c.sent + Config.requestFlits s.free else c.sent
    if 2 ^ 31 ≤ (f.freed - c.freed).toNat ∨ creditCap ch < (sent - f.freed).toNat then none
    else some (putCredit { c with freed := f.freed, sent := sent } { s with free := s.free + 1 })

/-- A message's channel and number, by which its sender's repeats are told (R347). -/
def msgKey (m : BitVec 16 × PeerMsg) : Nat × BitVec 16 := (m.2.body.channel, m.1)

/-- A message has come before. -/
def delivered (s : State) (m : BitVec 16 × PeerMsg) : Bool := (((s.peerOf m.2.src).map (·.seen)).getD []).contains (msgKey m)

/-- Messages not delivered before are delivered, but for partitions to which the sender counts as failed (R347, R353).
Numbers are counted by sending chip and channel, whichever flit brings the message; the last 4096 of a chip are
remembered. -/
def deliverMsgs (port idx : Nat) (ms : List (BitVec 16 × PeerMsg)) (s : State) : State :=
  ms.foldl (fun t m =>
    if delivered t m then t
    else
      let t := t.updPeer m.2.src fun p => { p with seen := (msgKey m :: p.seen).take 4096 }
      if (t.partOf m.2.part).failed.getLsbD m.2.src then t
      else { t with inbox := t.inbox ++ [{ port := port, link := idx, since := none, msg := m.2 }] }) s

/-- A flit brings nothing but repeats: it was sent before, and took no new slot (R347, R349; log entry 87). -/
def onlyRepeats (s : State) (f : Flit) : Bool := !f.msgs.isEmpty && f.msgs.all (delivered s)

/-- What a flit brings: this device's messages are delivered, and its slot is free; those of a detour through this chip go
on to their chip on channel 4, ahead of this chip's own, in the slot of the flit, and are not delivered here (R349,
R353). -/
def takeMsgs (port idx peer : Nat) (f : Flit) (s : State) : State :=
  let ch := f.ch.toNat
  if f.fwd.all fun chip => chip == s.node.chip then
    let c := creditOf s peer ch
    deliverMsgs port idx f.msgs (if 4 < ch ∨ onlyRepeats s f then s else putCredit { c with given := c.given + 1 } s)
  else
    let chip := f.fwd.getD s.node.chip
    let q : Queued := { port := outPort s chip, link := none, again := false, holds := some peer, flit := { f with ch := 4, nak := false } }
    let mine (x : Queued) : Bool := x.flit.ch == 4
    { s with queued := s.queued.filter mine ++ q :: s.queued.filter fun x => !(mine x) }

/-- FLIT_RECEIVE: a flit is checked, acknowledged, its credits applied and its messages delivered once, or forwarded; what
waited for an acknowledgement or a credit goes on (R347 to R353). -/
def execFlitReceive (port idx : Nat) (f : Flit) (s : State) : Out :=
  match s.linkOf port idx, s.portPeer port with
  | some k, some (peer, _) =>
    if !k.up then .next s
    else if !f.intact then .next (refuseFlit port idx s)
    else
      let t := acknowledge port idx f.ack s
      let t := if f.nak then replay port idx t else t
      if f.seq ≠ k.rxSeq + 1 then
        .next (pump (if (f.seq - k.rxSeq - 1).toNat < 2048 then refuseFlit port idx t else t))
      else
        let t := t.updLink port idx fun x => { x with rxSeq := f.seq }
        match takeCredit peer f t with
        | none => .next (takeDown port idx t)
        | some t => .next (pump (takeMsgs port idx peer f t))
  | _, _ => .next s

-- Performing what has arrived

/-- A message that has arrived may be performed: none of its sender that came before it on the same channel, port and link
waits (R348). -/
def inTurn (s : State) (a : Arrived) : Bool :=
  !((s.inbox.takeWhile (· ≠ a)).any fun b =>
    b.msg.src == a.msg.src && b.msg.body.channel == a.msg.body.channel && b.port == a.port && b.link == a.link)

/-- A message is performed at this device and answered, refused, or left waiting; where it waits on a MIGRATING page, its
20 000 cycles count from the first attempt (R238, R354, R355). kept is what the inbox holds of it while it waits. -/
def performMsg (a : Arrived) (kept : Option Nat → State → State) (s : State) : State :=
  let m := a.msg
  match s.parts.find? fun p => p.num == m.part with
  | none => { s with out := s.out ++ [.refusal m.src 1] }
  | some p =>
    match perform (a.since.any fun t => decide (t + 20000 ≤ p.cycle)) m p s with
    | .done u => u
    | .answer bs u => { u with out := u.out ++ [.answer m.src bs] }
    | .refuse d => { s with out := s.out ++ [.refusal m.src d] }
    | .wait u =>
      let page : Bool := match perform true m p s with | .refuse d => d == 7 * 256 + 8 | _ => false
      kept (if page then some (a.since.getD p.cycle) else none) u

/-- REMOTE_ACCESS: a message of a peer is performed at this device and answered, refused, or left waiting. One that has
arrived on a link waits for those before it on its channel (R348, R354, R355). What link control tells may open or end a
detour (R353). -/
def execRemoteAccess (m : PeerMsg) (s : State) : Out :=
  let t := match s.inbox.find? fun a => a.msg == m with
    | none => performMsg { port := 0, link := 0, since := none, msg := m }
        (fun since u => { u with inbox := u.inbox ++ [{ port := 0, link := 0, since := since, msg := m }] }) s
    | some a =>
      if !(inTurn s a) then s
      else performMsg a (fun since u => { u with inbox := s.inbox.map fun b => if b = a then { a with since := since } else b })
        { s with inbox := s.inbox.erase a }
  .next (match m.body with | .linkControl _ => pump (reviewRoutes t) | _ => t)

/-- MEMO_REMOVAL_MESSAGE: entries of global loads leave every core, and the removal is acknowledged (R167). -/
def execMemoRemovalMessage (chip : Nat) (s : State) : Out :=
  let t := forgetGlobal s
  .next { t with out := t.out ++ [.answer chip []] }

-- Failed peers

/-- Contributions sent to a failed home end with status 13 (R254, R333). -/
def failContributions (chip : Nat) (s : State) : State :=
  ((s.core :: s.cores).flatMap fun k => k.copies.map fun c => (k.id, c)).foldl (fun t c =>
    if !(c.2.accepted && c.2.rec'.does == 4) then t
    else
      let u := (t.focusGroup c.2.group).focusCore c.1
      if reduceHome c.2 u = chip then failCopy c.2 13 1 (exc 10 2 0 chip) u else t) s

/-- The writes of one core outstanding to a failed peer are lost; one that had left may have been performed (R333). -/
def loseFrom (chip core : Nat) (s : State) : State :=
  let s := s.focusCore core
  let out (e : PWrite) : Bool := !e.isLocal s && e.chip == chip
  (s.core.pend.filter out).foldl (fun t e =>
    let t := if !e.buffered && Config.lostPerformed t.free then e.perform t else t
    loseWrite e.warp chip { t with free := t.free + 1 })
    { s with core := { s.core with pend := s.core.pend.filter fun e => !(out e) } }

/-- The writes of every core outstanding to a failed peer are lost (R333). -/
def loseWrites (chip : Nat) (s : State) : State :=
  ((s.core :: s.cores).map (·.id)).foldl (fun t c => loseFrom chip c t) s

/-- PEER_FAILED: a peer to which neither a link nor a detour leads is declared failed; what is held for it goes (R333,
R353). -/
def execPeerFailed (peer : Nat) (s : State) : Out :=
  let told := s.parts.filter fun p => !p.failed.getLsbD peer
  if peer = s.node.chip ∨ !(liveLinks s peer).isEmpty ∨ (detourNow s peer).isSome ∨ told.isEmpty then .next s
  else
    let t := loseWrites peer s
    let t := (told.map (·.num)).foldl (fun u n =>
      postEvent 20 n 0 (peer, 0, 0, 0) (u.updPart n fun p => { p with failed := p.failed ||| BitVec.twoPow 16 peer })) t
    .next (failContributions peer (failReductions peer (clearHeld peer t)))

/-- The partition's CXL.io interface is open: the device has booted (R394). -/
def opened (s : State) (part : Nat) : Bool := s.boot == .running && (s.partOf part).opened

/-- FAILED_CLEAR: peers are readmitted; before the partition's functions open, the access reaches nothing (R353, R359,
R394). -/
def execFailedClear (part : Nat) (mask : BitVec 16) (s : State) : Out :=
  .next (if opened s part then s.updPart part fun p => { p with failed := p.failed &&& ~~~mask } else s)

end Sys2Proof.Machine
end

