-- ==== Sys2Proof/Machine/Float.lean ====
section
/-!
DEFINITION. Floating-point and conversion instructions (R183 to R196), one meaning for each.
-/
namespace Sys2Proof.Machine

/-- FADD (R184). -/
def execFadd (d a b : Reg) (g : Guard) (s : State) : Out := aluExec (.fadd d a b g) (aluFadd d a b) s

/-- FSUB (R184). -/
def execFsub (d a b : Reg) (g : Guard) (s : State) : Out := aluExec (.fsub d a b g) (aluFsub d a b) s

/-- FMUL (R184). -/
def execFmul (d a b : Reg) (g : Guard) (s : State) : Out := aluExec (.fmul d a b g) (aluFmul d a b) s

/-- FFMA (R184). -/
def execFfma (d a b : Reg) (g : Guard) (s : State) : Out := aluExec (.ffma d a b g) (aluFfma d a b) s

/-- FFMS (R184). -/
def execFfms (d a b : Reg) (g : Guard) (s : State) : Out := aluExec (.ffms d a b g) (aluFfms d a b) s

/-- FMIN (R186). -/
def execFmin (d a b : Reg) (g : Guard) (s : State) : Out := aluExec (.fmin d a b g) (aluFmin d a b) s

/-- FMAX (R186). -/
def execFmax (d a b : Reg) (g : Guard) (s : State) : Out := aluExec (.fmax d a b g) (aluFmax d a b) s

/-- FCMP (R188). -/
def execFcmp (c : BitVec 4) (p : Pred) (a b : Reg) (g : Guard) (s : State) : Out :=
  plain (.fcmp c p a b g) s fun act =>
    let r (l : Nat) := cmp32 c.toNat (s.v a.toNat l).toNat (s.v b.toNat l).toNat
    (s.setPred p.toNat act (maskOf fun l => (r l).1)).orFlags act fun l => (r l).2

/-- FDIV (R184). -/
def execFdiv (d a b : Reg) (g : Guard) (s : State) : Out := aluExec (.fdiv d a b g) (aluFdiv d a b) s

/-- FSCALE (R187). -/
def execFscale (d a b : Reg) (g : Guard) (s : State) : Out := aluExec (.fscale d a b g) (aluFscale d a b) s

/-- HADD2 (R189). -/
def execHadd2 (d a b : Reg) (g : Guard) (s : State) : Out := aluExec (.hadd2 d a b g) (aluHadd2 d a b) s

/-- HMUL2 (R189). -/
def execHmul2 (d a b : Reg) (g : Guard) (s : State) : Out := aluExec (.hmul2 d a b g) (aluHmul2 d a b) s

/-- HFMA2 (R189). -/
def execHfma2 (d a b : Reg) (g : Guard) (s : State) : Out := aluExec (.hfma2 d a b g) (aluHfma2 d a b) s

/-- BADD2 (R189). -/
def execBadd2 (d a b : Reg) (g : Guard) (s : State) : Out := aluExec (.badd2 d a b g) (aluBadd2 d a b) s

/-- BMUL2 (R189). -/
def execBmul2 (d a b : Reg) (g : Guard) (s : State) : Out := aluExec (.bmul2 d a b g) (aluBmul2 d a b) s

/-- BFMA2 (R189). -/
def execBfma2 (d a b : Reg) (g : Guard) (s : State) : Out := aluExec (.bfma2 d a b g) (aluBfma2 d a b) s

/-- FDOT4 (R190). -/
def execFdot4 (d a b : Reg) (g : Guard) (s : State) : Out := aluExec (.fdot4 d a b g) (aluFdot4 d a b) s

/-- FDOT4.e5 (R190). -/
def execFdot4E5 (d a b : Reg) (g : Guard) (s : State) : Out := aluExec (.fdot4E5 d a b g) (aluFdot4E5 d a b) s

/-- FCVT (R195). -/
def execFcvt (d a b : Reg) (g : Guard) (s : State) : Out := aluExec (.fcvt d a b g) (aluFcvt d a b) s

/-- FABS (R191). -/
def execFabs (d a : Reg) (g : Guard) (s : State) : Out := aluExec (.fabs d a g) (aluFabs d a) s

/-- FNEG (R191). -/
def execFneg (d a : Reg) (g : Guard) (s : State) : Out := aluExec (.fneg d a g) (aluFneg d a) s

/-- FRCP (R192). -/
def execFrcp (d a : Reg) (g : Guard) (s : State) : Out := aluExec (.frcp d a g) (aluFrcp d a) s

/-- FSQRT (R192). -/
def execFsqrt (d a : Reg) (g : Guard) (s : State) : Out := aluExec (.fsqrt d a g) (aluFsqrt d a) s

/-- FRSQ (R192). -/
def execFrsq (d a : Reg) (g : Guard) (s : State) : Out := aluExec (.frsq d a g) (aluFrsq d a) s

/-- FEXP2 (R192). -/
def execFexp2 (d a : Reg) (g : Guard) (s : State) : Out := aluExec (.fexp2 d a g) (aluFexp2 d a) s

/-- FLOG2 (R192). -/
def execFlog2 (d a : Reg) (g : Guard) (s : State) : Out := aluExec (.flog2 d a g) (aluFlog2 d a) s

/-- FSIN (R192). -/
def execFsin (d a : Reg) (g : Guard) (s : State) : Out := aluExec (.fsin d a g) (aluFsin d a) s

/-- FCOS (R192). -/
def execFcos (d a : Reg) (g : Guard) (s : State) : Out := aluExec (.fcos d a g) (aluFcos d a) s

/-- FTANH (R192). -/
def execFtanh (d a : Reg) (g : Guard) (s : State) : Out := aluExec (.ftanh d a g) (aluFtanh d a) s

/-- FSIGM (R192). -/
def execFsigm (d a : Reg) (g : Guard) (s : State) : Out := aluExec (.fsigm d a g) (aluFsigm d a) s

/-- FCLASS (R193). -/
def execFclass (d a : Reg) (g : Guard) (s : State) : Out := aluExec (.fclass d a g) (aluFclass d a) s

/-- FRND.rn (R194). -/
def execFrndRn (d a : Reg) (g : Guard) (s : State) : Out := aluExec (.frndRn d a g) (aluFrnd 0 d a) s

/-- FRND.rz (R194). -/
def execFrndRz (d a : Reg) (g : Guard) (s : State) : Out := aluExec (.frndRz d a g) (aluFrnd 1 d a) s

/-- FRND.rd (R194). -/
def execFrndRd (d a : Reg) (g : Guard) (s : State) : Out := aluExec (.frndRd d a g) (aluFrnd 2 d a) s

/-- FRND.ru (R194). -/
def execFrndRu (d a : Reg) (g : Guard) (s : State) : Out := aluExec (.frndRu d a g) (aluFrnd 3 d a) s

end Sys2Proof.Machine
end

