-- ==== Sys2Proof/Machine/HostSide.lean ====
section
/-!
DEFINITION. The host: its commands (R108, R109, R124, R125, R379), the doorbell, accesses through CXL.mem and BAR2, and
coherence of host memory held at home slices (R358, R360).
-/
namespace Sys2Proof.Machine

/-- A device physical address that a command of a partition may name: its own storage or the host range (R124). -/
def hostPlace (p : Part) (pa : Nat) : Bool := inStorage p.dies p.carve pa || isHost pa

/-- n bytes at a device physical address, if a command may read them all. -/
def physRead (s : State) (part pa n : Nat) : Option (List Byte) :=
  if (List.range n).all fun i => hostPlace (s.partOf part) (pa + i) then some (s.read (memKey s.node.chip pa) n) else none

/-- Bytes written at a device physical address for a partition. -/
def physWrite (part pa : Nat) (bs : List Byte) (s : State) : State :=
  writeHome (s.viaPart part) none (memKey s.node.chip pa) bs s

-- INSTALL

/-- The fields of a job context break no row of its table (R108). -/
def contextOk (bs : List Byte) : Bool :=
  let f (o n : Nat) : Nat := fieldB bs o n
  let mode := f 0x40 4
  let contract := mode.testBit 0
  let p := f 0x30 4
  f 0 8 % 4096 == 0 && f 8 8 % 128 == 0 && f 0x18 8 % 128 == 0 && f 0x20 8 % 128 == 0 && decide (f 0x28 4 < 65536) &&
    decide (f 0x2C 4 < 65536) && decide (mode < 8) && decide (bits mode 2 1 ≤ 1) && decide (f 0x44 4 ≤ 255) &&
    (sliceB bs 0x50 48).all (· == 0) &&
    (if contract then decide (1000 ≤ p) && decide (1 ≤ f 0x34 4) && decide (f 0x34 4 ≤ p)
      else p == 0 && f 0x34 4 == 0 && f 0x38 8 == 0)

/-- The job that a context describes, with the partition's tag for it (R108, R220, R230, R400). -/
def jobOfContext (s : State) (part : Nat) (bs : List Byte) : Job :=
  let f (o n : Nat) : Nat := fieldB bs o n
  let mode := f 0x40 4
  let p := s.partOf part
  let tag := (amGet p.jobtags (f 0x44 4)).getD 0
  { Job.none with
    uid := s.fresh
    chip := s.node.chip
    part := part
    jobno := f 0x44 4
    ptroot := f 0 8
    recBase := f 8 8
    recCount := f 0x10 4
    shCount := f 0x14 4
    shBase := f 0x18 8
    tables := List.replicate 8 none
    books := List.replicate 8 none
    period := f 0x30 4
    deadline := f 0x34 4
    budget := f 0x38 8
    contract := mode.testBit 0
    tier := bits mode 2 1
    counter := f 0x48 8
    vm := tag % 16
    tenant := tag / 16 % 16
    s2 := p.s2 }

/-- n bytes of a job read through its own translation, across lines. -/
def defaultBytes (j : Job) (a n : Nat) (s : State) : Option (List Byte × State) :=
  match devRead unitWho j accRead a n s with
  | .ok r => some (r.1, r.2.2)
  | .error _ => none

/-- Default code tables k and up are read and checked (R98, R109). SIZE code 3 of a slot that DEFVALID does not mark
present is not looked at (log entry 58). -/
def readTables (j : Job) (base valid size : Nat) : List Nat → State → Option (List (Option (List Nat)) × State)
  | [], s => some ([], s)
  | k :: ks, s =>
    if !valid.testBit k then (readTables j base valid size ks s).map fun r => (none :: r.1, r.2)
    else if bits size (2 * k + 1) (2 * k) = 3 then none
    else
      match defaultBytes j (base + 128 * k) ([8, 32, 128].getD (bits size (2 * k + 1) (2 * k)) 8) s with
      | none => none
      | some (bs, t) =>
        if tableOk (tableOf bs) then (readTables j base valid size ks t).map fun r => (some (tableOf bs) :: r.1, r.2)
        else none

/-- Default codebooks k and up are read (R109). -/
def readBooks (j : Job) (base valid : Nat) : List Nat → State → Option (List (Option (List (BitVec 16))) × State)
  | [], s => some ([], s)
  | k :: ks, s =>
    if !valid.testBit (8 + k) then (readBooks j base valid ks s).map fun r => (none :: r.1, r.2)
    else
      match defaultBytes j (base + 1024 + 32 * k) 32 s with
      | none => none
      | some (bs, t) =>
        (readBooks j base valid ks t).map fun r =>
          (some ((List.range 16).map fun i => BitVec.ofNat 16 (fieldB bs (2 * i) 2)) :: r.1, r.2)

/-- INSTALL: a job context is copied and checked with its defaults, and the job counter is cleared: the status (R107 to
R109). DESIGN CHOICE: the first job of a VM in a partition is walked under its VMROOT as it stands: log entry 74. -/
def installJob (part addr : Nat) (s : State) : Nat × State :=
  match physRead s part addr 128 with
  | none => (4, s)
  | some bs =>
    let j := jobOfContext s part bs
    let lone : Bool := !(s.jobs.any fun x => x.chip == j.chip && x.part == part && x.vm == j.vm)
    let u := if lone then s.updPart part fun p => { p with vmlive := p.vmlive.set j.vm (p.vmroots.getD j.vm 0) } else s
    if !(contextOk bs) ∨ (jobIn s part j.jobno).isSome ∨ !(counterOk u j j.counter) then (4, s)
    else
      match readTables j (fieldB bs 0x20 8) (fieldB bs 0x28 4) (fieldB bs 0x2C 4) (List.range 8) u with
      | none => (4, s)
      | some (ts, t) =>
        match readBooks j (fieldB bs 0x20 8) (fieldB bs 0x28 4) (List.range 8) t with
        | none => (4, s)
        | some (cs, t) =>
          let j := { j with tables := ts, books := cs }
          (0, putCounter (.job j.uid) { t with jobs := t.jobs ++ [j], fresh := t.fresh + 1 })

-- REMOVE, CANCEL, RELEASE, PHASESTART

/-- What a core holds of a job: cached records and memo entries go (R88, R166, R379). -/
def Core.dropJob (job : Nat) (c : Core) : Core :=
  { c with records := c.records.filter fun r => r.job != job, memo := c.memo.filter fun e => e.key.job != job }

/-- The live levels of a job (R105). -/
def liveLevels (s : State) (job : Nat) : List LevelId :=
  .job job :: ((s.phases.filter fun p => p.job == job && !p.done).map fun p => LevelId.phase p.uid) ++
    ((s.graphs.filter fun g => g.job == job && !g.done).map fun g => LevelId.graph g.uid) ++
    (s.launches.filter fun l => l.job == job && !l.done).map fun l => LevelId.launch l.uid

/-- Every live level of a job is aborted, with CANCEL 2 in its counter, and its groups are discarded where they can stop
at once (R120, R379 step 1). -/
def abortJob (part job : Nat) (s : State) : State :=
  let x : LevelId := .job job
  let t := abortLevel x (drainLevel x ((liveLevels s job).foldl (fun u y => y.setCancel 2 u) s))
  (groupsBelow t x).foldl (fun u g => if capturable u g.uid then settleCapture part g (discardGroup g.uid u) else u) t

/-- Nothing of an aborted job is in flight: its discarded groups have completed, and no counter, fault-log record or video
frame of it is still to be written (R379 step 2, R393; log entry 89). -/
def jobClear (s : State) (job : Nat) : Bool :=
  (s.allGroups.all fun g => g.job != job) && (s.lateLogs.all fun x => x.job != job) &&
    (s.lateWrites.all fun w => match w with
      | .counter x _ => (x.word s).1.uid != job
      | .open g _ | .close g _ => (s.graphOf g).job != job) &&
    s.encoders.all fun e => e.queue.all fun v => v.job != job

/-- A job goes: its generation is raised, records and memo entries of it are dropped, and its number is free (R379 steps 3
to 6). -/
def dropJob (j : Job) (s : State) : State :=
  let t := (invalidateJob j.uid 1 s).mapCores (Core.dropJob j.uid)
  postEvent 22 j.part j.jobno (j.jobno, 0, 0, 0) { t with jobs := t.jobs.filter fun k => k.uid != j.uid }

/-- REMOVE: the job's levels are aborted once; it is removed, with status 0, when nothing of it is in flight any more, and
has no status before that (R120, R379). ring says that the command stands in the submission ring. -/
def removeJob (ring : Bool) (part jobno : Nat) (s : State) : Option Nat × State :=
  match jobIn s part jobno with
  | none => (some 6, s)
  | some j =>
    let t := if j.removing.isSome then s else abortJob part j.uid (s.updJob j.uid fun x => { x with removing := some ring })
    if jobClear t j.uid then (some 0, dropJob j t) else (none, t)

/-- CANCEL from the host: the counter's virtual address with the mode in bit 0 (R120, R125). A job that is not
installed is told before bits [2:1] are looked at (log entry 59). -/
def hostCancelAt (part operand jobno : Nat) (s : State) : Nat × State :=
  match jobIn s part jobno with
  | none => (6, s)
  | some j => if bits operand 2 1 ≠ 0 then (4, s) else cancelAt j (operand / 8 * 8) (operand % 2) s

/-- RELEASE: a job's contract admission is given up (R125). -/
def releaseJob (part jobno : Nat) (s : State) : Nat × State :=
  match jobIn s part jobno with
  | none => (6, s)
  | some j => (0, s.updJob j.uid fun x => { x with admitted := false })

/-- PHASESTART from the host: R116 on the record at a device physical address (R125). -/
def hostPhase (part addr : Nat) (s : State) : Nat × State :=
  startPhase part addr (if addr % 32 = 0 then physRead s part addr 32 else none) s

/-- The status of a host command is told (R125). -/
def told (part : Nat) (r : Nat × State) : Out := .next { r.2 with out := r.2.out ++ [.status part r.1] }

/-- INSTALL. -/
def execInstall (part addr : Nat) (s : State) : Out := told part (installJob part addr s)
/-- PHASESTART. -/
def execPhasestart (part addr : Nat) (s : State) : Out := told part (hostPhase part addr s)
/-- HOST_CANCEL. -/
def execHostCancel (part : Nat) (operand : DWord) (jobno : Nat) (s : State) : Out :=
  told part (hostCancelAt part operand.toNat jobno s)
/-- RELEASE. -/
def execRelease (part jobno : Nat) (s : State) : Out := told part (releaseJob part jobno s)

-- The ring

/-- A command of the submission ring: its status, unless it is still to come, and the state after (R125). -/
def runCommand (part : Nat) (bs : List Byte) (s : State) : Option Nat × State :=
  let op := fieldB bs 0 4
  let x := fieldB bs 8 8
  let rest := if op = 4 then 0x14 else 0x10
  let now (r : Nat × State) : Option Nat × State := (some r.1, r.2)
  if (sliceB bs rest (64 - rest)).any (· != 0) then (some 4, s)
  else
    match op with
    | 1 => now (installJob part x s)
    | 2 => removeJob true part x s
    | 3 => now (hostPhase part x s)
    | 4 => now (hostCancelAt part x (fieldB bs 0x10 4) s)
    | 5 => now (releaseJob part x s)
    | _ => (some 4, s)

/-- The command at a place of the ring has its status, and HEAD moves past it (R125). -/
def endCommand (part a head st : Nat) (s : State) : State :=
  let t := physWrite part (a + 4) (leBytes 4 st) s
  let t := physWrite part (t.partOf part).ringbase.toNat (leBytes 8 (head + 1)) t
  t.updPart part fun p => { p with ringhead := BitVec.ofNat 64 (head + 1) }

/-- Commands are executed in ring order, each to its status, before HEAD moves past it; one whose status is still to come
holds the ring (R124, R125). DESIGN CHOICE: at a command that lies outside the device's storage and the host range the
ring stops, with no status and HEAD as it is; the spec is silent: log entry 82. -/
def runRing (part array cap : Nat) : Nat → Nat → State → State
  | 0, _, s => s
  | n + 1, head, s =>
    let a := array + 64 * (head % cap)
    match physRead s part a 64 with
    | none => s
    | some bs =>
      match runCommand part bs s with
      | (none, t) => t
      | (some st, t) => runRing part array cap n (head + 1) (endCommand part a head st t)

/-- The commands of a partition's ring up to the last TAIL written, from HEAD (R124); first says that the command at HEAD
has ended with a status. A header outside the device's storage and the host range is not looked at (log entry 82). -/
def serveRing (part : Nat) (first : Option Nat) (s : State) : State :=
  let p := s.partOf part
  match physRead s part p.ringbase.toNat 64 with
  | none => s
  | some hd =>
    let head := fieldB hd 0 8
    let array := fieldB hd 16 8
    let cap := fieldB hd 24 4
    let n := min cap (p.doorbell.toNat - head)
    match first with
    | none => runRing part array cap n head s
    | some st => runRing part array cap (n - 1) (head + 1) (endCommand part (array + 64 * (head % cap)) head st s)

/-- REMOVE, and what is left of one that has begun (R379): its ring goes on after it. -/
def execRemove (part jobno : Nat) (s : State) : Out :=
  let ring : Bool := ((jobIn s part jobno).bind (·.removing)) == some true
  match removeJob false part jobno s with
  | (none, t) => .next t
  | (some st, t) => if ring then .next (serveRing part (some st) t) else told part (st, t)

/-- A ring waits for the status of a REMOVE. -/
def ringHeld (s : State) (part : Nat) : Bool :=
  s.jobs.any fun j => j.chip == s.node.chip && j.part == part && j.removing == some true

/-- DOORBELL: a new TAIL; one below the last written is ignored (R124, R359). -/
def execDoorbell (part : Nat) (v : DWord) (s : State) : Out :=
  if !(opened s part) ∨ v.toNat < (s.partOf part).doorbell.toNat then .next s
  else
    let t := s.updPart part fun q => { q with doorbell := v }
    .next (if ringHeld t part then t else serveRing part none t)

-- Memory

/-- The partition whose HBM holds a physical address. -/
def hbmPart (s : State) (pa : Nat) : Option Part :=
  if isHbm pa then s.parts.find? fun p => p.dies.contains (pa / 2 ^ 37) else none

/-- Data for the host. -/
def sayData (bs : List Byte) (s : State) : State := { s with out := s.out ++ [.data bs] }

/-- What a read that reaches nothing returns: all ones (R394). -/
def onesBytes (n : Nat) : List Byte := List.replicate n 0xFF

/-- HOST_MEM_ACCESS: the host's CXL.mem access to HBM, at the home slice (R358, R360). -/
def execHostMemAccess (addr : Nat) (x : BusOp) (s : State) : Out :=
  match x with
  | .read n =>
    let k := memKey s.node.chip addr
    if s.boot = .running ∧ (hbmPart s addr).isSome ∧ (hbmPart s (addr + n - 1)).isSome then
      .next (sayData (s.read k n) ((linesOf k n).foldl (fun t l => reachLine Via.device l t) s))
    else .next (sayData (onesBytes n) s)
  | .write bs =>
    if s.boot = .running ∧ (hbmPart s addr).isSome ∧ (hbmPart s (addr + bs.length - 1)).isSome then .next (physWrite (((hbmPart s addr).map (·.num)).getD 0) addr bs s)
    else .next s

/-- A byte of HBM as it stands, behind the home slices, read under a key epoch (R360, R401). -/
def hbmByte (s : State) (epoch a : Nat) : Byte :=
  let here := (amGet s.hbm (lineOf a)).getD ((amGet s.epochs (lineOf a)).getD 0, s.read (lineOf a * 128) 128)
  if here.1 = epoch then here.2.getD (a % 128) 0 else Config.garbled a s.free

/-- The key epoch of the BAR2 window, if its slot belongs to the partition (R359, R401). -/
def windowEpoch (s : State) (p : Part) : Option Nat :=
  match s.keyOf p.winkey with
  | some k => if k.owner = p.num then some (if k.bypass then 0 else k.epoch) else none
  | none => none

/-- One line of a BAR2 write, under the window's key: behind a line that its home slice holds dirty, the image changes;
else the line itself (R360, R401). -/
def windowWrite (epoch a : Nat) (bs : List Byte) (s : State) : State :=
  match amGet s.hbm (lineOf a) with
  | some im =>
    let old (i : Nat) (b : Byte) : Byte := if im.1 = epoch then b else Config.garbled (lineOf a * 128 + i) s.free
    { s with
      hbm := amPut (lineOf a) (epoch, im.2.zipIdx.map fun b =>
        if a % 128 ≤ b.2 ∧ b.2 < a % 128 + bs.length then bs.getD (b.2 - a % 128) 0 else old b.2 b.1) s.hbm
      free := s.free + 1 }
  | none =>
    let t := rekey (lineOf a) epoch s
    { t with mem := Memory.write t.mem a bs }

/-- BAR2_ACCESS: HBM read or written directly under WINKEY (R360). A window that is not open, or whose slot is not the
partition's, reads all ones. -/
def execBar2Access (part addr : Nat) (x : BusOp) (s : State) : Out :=
  let p := s.partOf part
  let mine (n : Nat) : Bool := (List.range n).all fun i => isHbm (addr + i) && p.dies.contains ((addr + i) / 2 ^ 37)
  match (if opened s part then windowEpoch s p else none), x with
  | some e, .read n =>
    if mine n then
      .next (sayData ((List.range n).map fun i => hbmByte s e (memKey s.node.chip addr + i)) { s with free := s.free + 1 })
    else .next (sayData (onesBytes n) s)
  | some e, .write bs =>
    if mine bs.length then
      .next ((splitLines (memKey s.node.chip addr) bs.length).foldl (fun (r : State × List Byte) q =>
        (windowWrite e q.1 (r.2.take q.2) r.1, r.2.drop q.2)) (s, bs)).1
    else .next s
  | none, .read n => .next (sayData (onesBytes n) s)
  | none, .write _ => .next s

/-- CXL_CACHE_SNOOP: the host asks for a line of its memory that a home slice holds; the slice answers with it and, for
an invalidation, gives it up, waking what watches it (R274, R358). -/
def execCxlCacheSnoop (line : Nat) (invalidate : Bool) (s : State) : Out :=
  if !(s.hostLines.contains line) then .next s
  else
    let t := sayData (s.read (line * 128) 128) s
    .next (if invalidate then touchLine (.mem line) (evictLine line t) else t)

end Sys2Proof.Machine
end

