-- ==== Sys2Proof/Machine/Integer.lean ====
section
/-!
DEFINITION. Integer, address and bit instructions (R173 to R182), one meaning for each.
-/
namespace Sys2Proof.Machine

/-- IADD (R174). -/
def execIadd (d a b : Reg) (g : Guard) (s : State) : Out := aluExec (.iadd d a b g) (aluIadd d a b) s

/-- ISUB (R174). -/
def execIsub (d a b : Reg) (g : Guard) (s : State) : Out := aluExec (.isub d a b g) (aluIsub d a b) s

/-- IMUL (R174). -/
def execImul (d a b : Reg) (g : Guard) (s : State) : Out := aluExec (.imul d a b g) (aluImul d a b) s

/-- IMULH.s (R174). -/
def execImulhS (d a b : Reg) (g : Guard) (s : State) : Out := aluExec (.imulhS d a b g) (aluImulhS d a b) s

/-- IMULH.n (R174). -/
def execImulhN (d a b : Reg) (g : Guard) (s : State) : Out := aluExec (.imulhN d a b g) (aluImulhN d a b) s

/-- IMAD (R174). -/
def execImad (d a b : Reg) (g : Guard) (s : State) : Out := aluExec (.imad d a b g) (aluImad d a b) s

/-- IMADW.s (R174). -/
def execImadwS (d a b : Reg) (g : Guard) (s : State) : Out := aluExec (.imadwS d a b g) (aluImadwS d a b) s

/-- IMADW.n (R174). -/
def execImadwN (d a b : Reg) (g : Guard) (s : State) : Out := aluExec (.imadwN d a b g) (aluImadwN d a b) s

/-- IADD64 (R174). -/
def execIadd64 (d a b : Reg) (g : Guard) (s : State) : Out := aluExec (.iadd64 d a b g) (aluIadd64 d a b) s

/-- ISUB64 (R174). -/
def execIsub64 (d a b : Reg) (g : Guard) (s : State) : Out := aluExec (.isub64 d a b g) (aluIsub64 d a b) s

/-- IMIN.s (R175). -/
def execIminS (d a b : Reg) (g : Guard) (s : State) : Out := aluExec (.iminS d a b g) (aluIminS d a b) s

/-- IMIN.n (R175). -/
def execIminN (d a b : Reg) (g : Guard) (s : State) : Out := aluExec (.iminN d a b g) (aluIminN d a b) s

/-- IMAX.s (R175). -/
def execImaxS (d a b : Reg) (g : Guard) (s : State) : Out := aluExec (.imaxS d a b g) (aluImaxS d a b) s

/-- IMAX.n (R175). -/
def execImaxN (d a b : Reg) (g : Guard) (s : State) : Out := aluExec (.imaxN d a b g) (aluImaxN d a b) s

/-- ISHL (R176). -/
def execIshl (d a b : Reg) (g : Guard) (s : State) : Out := aluExec (.ishl d a b g) (aluIshl d a b) s

/-- ISHR (R176). -/
def execIshr (d a b : Reg) (g : Guard) (s : State) : Out := aluExec (.ishr d a b g) (aluIshr d a b) s

/-- ISAR (R176). -/
def execIsar (d a b : Reg) (g : Guard) (s : State) : Out := aluExec (.isar d a b g) (aluIsar d a b) s

/-- IROT (R176). -/
def execIrot (d a b : Reg) (g : Guard) (s : State) : Out := aluExec (.irot d a b g) (aluIrot d a b) s

/-- AND (R176). -/
def execAnd (d a b : Reg) (g : Guard) (s : State) : Out := aluExec (.and d a b g) (aluAnd d a b) s

/-- OR (R176). -/
def execOr (d a b : Reg) (g : Guard) (s : State) : Out := aluExec (.or d a b g) (aluOr d a b) s

/-- XOR (R176). -/
def execXor (d a b : Reg) (g : Guard) (s : State) : Out := aluExec (.xor d a b g) (aluXor d a b) s

/-- ANDN (R176). -/
def execAndn (d a b : Reg) (g : Guard) (s : State) : Out := aluExec (.andn d a b g) (aluAndn d a b) s

/-- BFX.s (R177). -/
def execBfxS (d a b : Reg) (g : Guard) (s : State) : Out := aluExec (.bfxS d a b g) (aluBfxS d a b) s

/-- BFX.n (R177). -/
def execBfxN (d a b : Reg) (g : Guard) (s : State) : Out := aluExec (.bfxN d a b g) (aluBfxN d a b) s

/-- BFI (R177). -/
def execBfi (d a b : Reg) (g : Guard) (s : State) : Out := aluExec (.bfi d a b g) (aluBfi d a b) s

/-- BPERM (R178). -/
def execBperm (d a b : Reg) (g : Guard) (s : State) : Out := aluExec (.bperm d a b g) (aluBperm d a b) s

/-- ISEL (R179). -/
def execIsel (d a b : Reg) (g : Guard) (s : State) : Out := aluExec (.isel d a b g) (aluIsel d a b) s

/-- MOV (R180). -/
def execMov (d a : Reg) (g : Guard) (s : State) : Out := aluExec (.mov d a g) (aluMov d a) s

/-- NOT (R180). -/
def execNot (d a : Reg) (g : Guard) (s : State) : Out := aluExec (.not d a g) (aluNot d a) s

/-- INEG (R180). -/
def execIneg (d a : Reg) (g : Guard) (s : State) : Out := aluExec (.ineg d a g) (aluIneg d a) s

/-- IABS (R180). -/
def execIabs (d a : Reg) (g : Guard) (s : State) : Out := aluExec (.iabs d a g) (aluIabs d a) s

/-- POPC (R180). -/
def execPopc (d a : Reg) (g : Guard) (s : State) : Out := aluExec (.popc d a g) (aluPopc d a) s

/-- CLZ (R180). -/
def execClz (d a : Reg) (g : Guard) (s : State) : Out := aluExec (.clz d a g) (aluClz d a) s

/-- BREV (R180). -/
def execBrev (d a : Reg) (g : Guard) (s : State) : Out := aluExec (.brev d a g) (aluBrev d a) s

/-- SEXT8 (R180). -/
def execSext8 (d a : Reg) (g : Guard) (s : State) : Out := aluExec (.sext8 d a g) (aluSext8 d a) s

/-- SEXT16 (R180). -/
def execSext16 (d a : Reg) (g : Guard) (s : State) : Out := aluExec (.sext16 d a g) (aluSext16 d a) s

/-- ZEXT8 (R180). -/
def execZext8 (d a : Reg) (g : Guard) (s : State) : Out := aluExec (.zext8 d a g) (aluZext8 d a) s

/-- ZEXT16 (R180). -/
def execZext16 (d a : Reg) (g : Guard) (s : State) : Out := aluExec (.zext16 d a g) (aluZext16 d a) s

/-- Whether a comparison under a condition code of R37 holds. -/
def intCond (c : Nat) (x y : Word) : Bool :=
  match c with
  | 0 => x == y
  | 1 => x != y
  | 2 => x.slt y
  | 3 => !(y.slt x)
  | 4 => y.slt x
  | 5 => !(x.slt y)
  | 6 => x.ult y
  | 7 => !(y.ult x)
  | 8 => y.ult x
  | _ => !(x.ult y)

/-- A word computed from operand a in each active lane (R181). -/
def immExec (i : Instr) (d a : Reg) (f : Word → Word) (s : State) : Out :=
  plain i s fun act => s.setV d.toNat act fun l => f (s.v a.toNat l)

/-- IADDI (R181). -/
def execIaddi (d a : Reg) (i : BitVec 11) (s : State) : Out := immExec (.iaddi d a i) d a (fun x => x + imm11 i) s

/-- IMULI (R181). -/
def execImuli (d a : Reg) (i : BitVec 11) (s : State) : Out := immExec (.imuli d a i) d a (fun x => x * imm11 i) s

/-- ANDI (R181). -/
def execAndi (d a : Reg) (i : BitVec 11) (s : State) : Out := immExec (.andi d a i) d a (fun x => x &&& imm11 i) s

/-- ORI (R181). -/
def execOri (d a : Reg) (i : BitVec 11) (s : State) : Out := immExec (.ori d a i) d a (fun x => x ||| imm11 i) s

/-- XORI (R181). -/
def execXori (d a : Reg) (i : BitVec 11) (s : State) : Out := immExec (.xori d a i) d a (fun x => x ^^^ imm11 i) s

/-- SHLI (R181). -/
def execShli (d a : Reg) (n : BitVec 5) (s : State) : Out := immExec (.shli d a n) d a (fun x => x <<< n.toNat) s

/-- SHRI (R181). -/
def execShri (d a : Reg) (n : BitVec 5) (s : State) : Out := immExec (.shri d a n) d a (fun x => x >>> n.toNat) s

/-- SARI (R181). -/
def execSari (d a : Reg) (n : BitVec 5) (s : State) : Out :=
  immExec (.sari d a n) d a (fun x => x.sshiftRight n.toNat) s

/-- ICMP (R179). -/
def execIcmp (c : BitVec 4) (p : Pred) (a b : Reg) (g : Guard) (s : State) : Out :=
  plain (.icmp c p a b g) s fun act =>
    s.setPred p.toNat act (maskOf fun l => intCond c.toNat (s.v a.toNat l) (s.v b.toNat l))

/-- ICMPI (R179). -/
def execIcmpi (c : BitVec 4) (p : Pred) (a : Reg) (i : BitVec 11) (s : State) : Out :=
  plain (.icmpi c p a i) s fun act =>
    s.setPred p.toNat act (maskOf fun l => intCond c.toNat (s.v a.toNat l) (imm11 i))

/-- MOVL (R182). -/
def execMovl (d : Reg) (i : BitVec 18) (s : State) : Out :=
  plain (.movl d i) s fun act => s.setV d.toNat act fun _ => i.signExtend 32

/-- MOVH (R182). -/
def execMovh (d : Reg) (i : BitVec 18) (s : State) : Out :=
  plain (.movh d i) s fun act => s.setV d.toNat act fun l => i ++ (s.v d.toNat l).setWidth 14

/-- NOP (R51). -/
def execNop (s : State) : Out := plain .nop s fun _ => s

end Sys2Proof.Machine
end

