-- ==== Sys2Proof/Machine/Crypto.lean ====
section
/-!
DEFINITION. What the boot and the attestation compute (R395 to R397): SHA-256, SHA-384 and SHA-512, RSASSA-PSS with
SHA-384, and SLH-DSA-SHA2-192s. The spec names these by their standards (FIPS 180-4, RFC 8017, FIPS 205), whose text is
not part of it. PRESUMED: the algorithms here are those of the standards: log entry 91.
-/
namespace Sys2Proof.Machine

/-- The n big-endian bytes of a number. -/
def beBytes (n v : Nat) : List Byte := (leBytes n v).reverse

/-- The number of big-endian bytes. -/
def beNat (bs : List Byte) : Nat := leNat bs.reverse

/-- Consecutive runs of n items; fuel bounds their count. -/
def runsOf {α : Type} (n : Nat) : Nat → List α → List (List α)
  | 0, _ => []
  | fuel + 1, xs => if xs.isEmpty then [] else xs.take n :: runsOf n fuel (xs.drop n)

/-- Bytes combined one by one. -/
def xorBytes (a b : List Byte) : List Byte := (a.zip b).map fun p => p.1 ^^^ p.2

-- SHA-2

/-- One of the hash functions of FIPS 180-4: word width, round constants, and the rotations of its four functions; the
last figure of the two small ones is a shift. -/
structure Sha where
  w : Nat
  k : List Nat
  big0 : Nat × Nat × Nat
  big1 : Nat × Nat × Nat
  small0 : Nat × Nat × Nat
  small1 : Nat × Nat × Nat

/-- Round constants of SHA-384 and SHA-512. -/
def k512 : List Nat :=
  [0x428A2F98D728AE22, 0x7137449123EF65CD, 0xB5C0FBCFEC4D3B2F, 0xE9B5DBA58189DBBC, 0x3956C25BF348B538,
   0x59F111F1B605D019, 0x923F82A4AF194F9B, 0xAB1C5ED5DA6D8118, 0xD807AA98A3030242, 0x12835B0145706FBE,
   0x243185BE4EE4B28C, 0x550C7DC3D5FFB4E2, 0x72BE5D74F27B896F, 0x80DEB1FE3B1696B1, 0x9BDC06A725C71235,
   0xC19BF174CF692694, 0xE49B69C19EF14AD2, 0xEFBE4786384F25E3, 0x0FC19DC68B8CD5B5, 0x240CA1CC77AC9C65,
   0x2DE92C6F592B0275, 0x4A7484AA6EA6E483, 0x5CB0A9DCBD41FBD4, 0x76F988DA831153B5, 0x983E5152EE66DFAB,
   0xA831C66D2DB43210, 0xB00327C898FB213F, 0xBF597FC7BEEF0EE4, 0xC6E00BF33DA88FC2, 0xD5A79147930AA725,
   0x06CA6351E003826F, 0x142929670A0E6E70, 0x27B70A8546D22FFC, 0x2E1B21385C26C926, 0x4D2C6DFC5AC42AED,
   0x53380D139D95B3DF, 0x650A73548BAF63DE, 0x766A0ABB3C77B2A8, 0x81C2C92E47EDAEE6, 0x92722C851482353B] ++
  [0xA2BFE8A14CF10364, 0xA81A664BBC423001, 0xC24B8B70D0F89791, 0xC76C51A30654BE30, 0xD192E819D6EF5218,
   0xD69906245565A910, 0xF40E35855771202A, 0x106AA07032BBD1B8, 0x19A4C116B8D2D0C8, 0x1E376C085141AB53,
   0x2748774CDF8EEB99, 0x34B0BCB5E19B48A8, 0x391C0CB3C5C95A63, 0x4ED8AA4AE3418ACB, 0x5B9CCA4F7763E373,
   0x682E6FF3D6B2B8A3, 0x748F82EE5DEFB2FC, 0x78A5636F43172F60, 0x84C87814A1F0AB72, 0x8CC702081A6439EC,
   0x90BEFFFA23631E28, 0xA4506CEBDE82BDE9, 0xBEF9A3F7B2C67915, 0xC67178F2E372532B, 0xCA273ECEEA26619C,
   0xD186B8C721C0C207, 0xEADA7DD6CDE0EB1E, 0xF57D4F7FEE6ED178, 0x06F067AA72176FBA, 0x0A637DC5A2C898A6,
   0x113F9804BEF90DAE, 0x1B710B35131C471B, 0x28DB77F523047D84, 0x32CAAB7B40C72493, 0x3C9EBE0A15C9BEBC,
   0x431D67C49C100D4C, 0x4CC5D4BECB3E42B6, 0x597F299CFC657E2A, 0x5FCB6FAB3AD6FAEC, 0x6C44198C4A475817]

/-- Round constants of SHA-256. -/
def k256 : List Nat :=
  [0x428A2F98, 0x71374491, 0xB5C0FBCF, 0xE9B5DBA5, 0x3956C25B, 0x59F111F1, 0x923F82A4, 0xAB1C5ED5,
   0xD807AA98, 0x12835B01, 0x243185BE, 0x550C7DC3, 0x72BE5D74, 0x80DEB1FE, 0x9BDC06A7, 0xC19BF174,
   0xE49B69C1, 0xEFBE4786, 0x0FC19DC6, 0x240CA1CC, 0x2DE92C6F, 0x4A7484AA, 0x5CB0A9DC, 0x76F988DA,
   0x983E5152, 0xA831C66D, 0xB00327C8, 0xBF597FC7, 0xC6E00BF3, 0xD5A79147, 0x06CA6351, 0x14292967,
   0x27B70A85, 0x2E1B2138, 0x4D2C6DFC, 0x53380D13, 0x650A7354, 0x766A0ABB, 0x81C2C92E, 0x92722C85,
   0xA2BFE8A1, 0xA81A664B, 0xC24B8B70, 0xC76C51A3, 0xD192E819, 0xD6990624, 0xF40E3585, 0x106AA070,
   0x19A4C116, 0x1E376C08, 0x2748774C, 0x34B0BCB5, 0x391C0CB3, 0x4ED8AA4A, 0x5B9CCA4F, 0x682E6FF3,
   0x748F82EE, 0x78A5636F, 0x84C87814, 0x8CC70208, 0x90BEFFFA, 0xA4506CEB, 0xBEF9A3F7, 0xC67178F2]

/-- SHA-384 and SHA-512. -/
def wide : Sha := { w := 64, k := k512, big0 := (28, 34, 39), big1 := (14, 18, 41), small0 := (1, 8, 7), small1 := (19, 61, 6) }

/-- SHA-256. -/
def narrow : Sha := { w := 32, k := k256, big0 := (2, 13, 22), big1 := (6, 11, 25), small0 := (7, 18, 3), small1 := (17, 19, 10) }

/-- A word rotated by three distances, combined. -/
def rot3 {w : Nat} (r : Nat × Nat × Nat) (x : BitVec w) : BitVec w := x.rotateRight r.1 ^^^ x.rotateRight r.2.1 ^^^ x.rotateRight r.2.2

/-- A word rotated by two distances and shifted by a third, combined. -/
def rot2 {w : Nat} (r : Nat × Nat × Nat) (x : BitVec w) : BitVec w := x.rotateRight r.1 ^^^ x.rotateRight r.2.1 ^^^ (x >>> r.2.2)

/-- The message schedule of a block, from the last word to the first. -/
def Sha.schedule (p : Sha) (block : List Byte) : List (BitVec p.w) :=
  let first := (runsOf (p.w / 8) 16 block).map fun b => BitVec.ofNat p.w (beNat b)
  (List.range (p.k.length - 16)).foldl (fun ws _ =>
    (rot2 p.small1 (ws.getD 1 0) + ws.getD 6 0 + rot2 p.small0 (ws.getD 14 0) + ws.getD 15 0) :: ws) first.reverse

/-- One round on the eight working variables. -/
def Sha.round (p : Sha) (x : Nat × BitVec p.w) : List (BitVec p.w) → List (BitVec p.w)
  | [a, b, c, d, e, f, g, h] =>
    let t := h + rot3 p.big1 e + ((e &&& f) ^^^ (~~~e &&& g)) + BitVec.ofNat p.w x.1 + x.2
    [t + rot3 p.big0 a + ((a &&& b) ^^^ (a &&& c) ^^^ (b &&& c)), a, b, c, d + t, e, f, g]
  | v => v

/-- The hash value after one more block. -/
def Sha.compress (p : Sha) (h : List (BitVec p.w)) (block : List Byte) : List (BitVec p.w) :=
  let v := (p.k.zip (p.schedule block).reverse).foldl (fun v x => p.round x v) h
  (h.zip v).map fun x => x.1 + x.2

/-- A message padded to whole blocks. -/
def Sha.pad (p : Sha) (m : List Byte) : List Byte :=
  let size := 2 * p.w
  let zeros := (2 * size - 1 - p.w / 4 - m.length % size) % size
  m ++ [0x80] ++ List.replicate zeros 0 ++ beBytes (p.w / 4) (8 * m.length)

/-- The first n bytes of a message's hash from an initial value. -/
def Sha.hash (p : Sha) (init : List Nat) (n : Nat) (m : List Byte) : List Byte :=
  let x := p.pad m
  let h := (runsOf (2 * p.w) (x.length / (2 * p.w)) x).foldl p.compress (init.map (BitVec.ofNat p.w))
  (h.flatMap fun v => beBytes (p.w / 8) v.toNat).take n

/-- SHA-256. -/
def sha256 (m : List Byte) : List Byte :=
  narrow.hash [0x6A09E667, 0xBB67AE85, 0x3C6EF372, 0xA54FF53A, 0x510E527F, 0x9B05688C, 0x1F83D9AB, 0x5BE0CD19] 32 m

/-- SHA-384. -/
def sha384 (m : List Byte) : List Byte :=
  wide.hash [0xCBBB9D5DC1059ED8, 0x629A292A367CD507, 0x9159015A3070DD17, 0x152FECD8F70E5939,
     0x67332667FFC00B31, 0x8EB44A8768581511, 0xDB0C2E0D64F98FA7, 0x47B5481DBEFA4FA4] 48 m

/-- SHA-512. -/
def sha512 (m : List Byte) : List Byte :=
  wide.hash [0x6A09E667F3BCC908, 0xBB67AE8584CAA73B, 0x3C6EF372FE94F82B, 0xA54FF53A5F1D36F1,
     0x510E527FADE682D1, 0x9B05688C2B3E6C1F, 0x1F83D9ABFB41BD6B, 0x5BE0CD19137E2179] 64 m

/-- MGF1 over a hash whose values have h bytes: n bytes from a seed. -/
def mgf1 (hash : List Byte → List Byte) (h n : Nat) (seed : List Byte) : List Byte :=
  ((List.range ((n + h - 1) / h)).flatMap fun i => hash (seed ++ beBytes 4 i)).take n

/-- HMAC with SHA-512, for a key of at most 128 bytes. -/
def hmac512 (key m : List Byte) : List Byte :=
  let k := key ++ List.replicate (128 - key.length) 0
  sha512 (k.map (· ^^^ 0x5C) ++ sha512 (k.map (· ^^^ 0x36) ++ m))

-- RSASSA-PSS with SHA-384, MGF1 with SHA-384 and a 48-byte salt

/-- b to a power modulo n, over the bits of the exponent from the highest of so many. -/
def powMod (b e n : Nat) : Nat → Nat
  | 0 => 1 % n
  | k + 1 =>
    let r := powMod b (e / 2) n k
    let q := r * r % n
    if e % 2 = 1 then q * b % n else q

/-- Bits of the encoded message under a modulus: one less than the modulus has. -/
def emBits (n : Nat) : Nat := Nat.log2 n

/-- The mask of an encoded message's first byte. -/
def topMask (n : Nat) : Byte := BitVec.ofNat 8 (2 ^ (8 - (8 * ((emBits n + 7) / 8) - emBits n)) - 1)

/-- A list of bytes whose first is masked. -/
def maskTop (m : Byte) : List Byte → List Byte
  | [] => []
  | b :: bs => (b &&& m) :: bs

/-- The hash that EMSA-PSS takes of a message's hash and a salt. -/
def pssHash (m salt : List Byte) : List Byte := sha384 (List.replicate 8 0 ++ sha384 m ++ salt)

/-- RSASSA-PSS-VERIFY. -/
def pssVerify (n e : Nat) (m sig : List Byte) : Bool :=
  let s := beNat sig
  let len := (emBits n + 7) / 8
  let v := powMod s e n (Nat.log2 e + 1)
  let em := beBytes len v
  let db := em.take (len - 49)
  let h := sliceB em (len - 49) 48
  let open_ := maskTop (topMask n) (xorBytes db (mgf1 sha384 48 (len - 49) h))
  sig.length == 384 && decide (s < n) && decide (v < 256 ^ len) && decide (98 ≤ len) && em.getLast? == some 0xBC &&
    maskTop (topMask n) db == db && open_.take (len - 98) == List.replicate (len - 98) 0 && open_.getD (len - 98) 0 == 1 &&
    h == pssHash m (open_.drop (len - 97))

/-- RSASSA-PSS-SIGN under a modulus and a private exponent, with a salt. -/
def pssSign (n d : Nat) (m salt : List Byte) : List Byte :=
  let len := (emBits n + 7) / 8
  let h := pssHash m salt
  let db := List.replicate (len - 98) 0 ++ [1] ++ salt
  let em := maskTop (topMask n) (xorBytes db (mgf1 sha384 48 (len - 49) h)) ++ h ++ [0xBC]
  beBytes 384 (powMod (beNat em) d n (Nat.log2 d + 1))

-- SLH-DSA-SHA2-192s: hashes of 24 bytes, 7 layers of trees of height 9, 17 FORS trees of height 14, digits of 4 bits

/-- An address of a hash in the structure of FIPS 205. -/
structure Adrs where
  layer : Nat := 0
  tree : Nat := 0
  type : Nat := 0
  pair : Nat := 0
  chain : Nat := 0
  hash : Nat := 0
  deriving DecidableEq, Repr

/-- The 22 bytes of a compressed address. The chain field is also the height in a tree, and the hash field the index. -/
def Adrs.bytes (a : Adrs) : List Byte :=
  beBytes 1 a.layer ++ beBytes 8 a.tree ++ beBytes 1 a.type ++ beBytes 4 a.pair ++ beBytes 4 a.chain ++ beBytes 4 a.hash

/-- A type is set and the fields after it are cleared, but for the key pair. -/
def Adrs.as (a : Adrs) (type pair : Nat) : Adrs := { layer := a.layer, tree := a.tree, type := type, pair := pair }

/-- F and PRF. -/
def slhF (pk : List Byte) (a : Adrs) (m : List Byte) : List Byte :=
  (sha256 (pk ++ List.replicate 40 0 ++ a.bytes ++ m)).take 24

/-- H and T. -/
def slhT (pk : List Byte) (a : Adrs) (m : List Byte) : List Byte :=
  (sha512 (pk ++ List.replicate 104 0 ++ a.bytes ++ m)).take 24

/-- The first n digits of b bits of bytes, from the most significant. -/
def digits (b n : Nat) (m : List Byte) : List Nat :=
  (List.range n).map fun i => beNat m / 2 ^ (8 * m.length - b * (i + 1)) % 2 ^ b

/-- A value after n steps of a chain that stands at step i. -/
def chainOf (pk : List Byte) (a : Adrs) (x : List Byte) (i n : Nat) : List Byte :=
  (List.range n).foldl (fun x k => slhF pk { a with hash := i + k } x) x

/-- The 51 digits that a WOTS+ key signs: those of the message and its checksum. -/
def wotsDigits (m : List Byte) : List Nat :=
  let ds := digits 4 48 m
  ds ++ digits 4 3 (beBytes 2 ((ds.map fun d => 15 - d).sum * 16))

/-- The public WOTS+ key that a signature of 51 values gives. -/
def wotsPublic (pk : List Byte) (a : Adrs) (sig : List (List Byte)) (m : List Byte) : List Byte :=
  slhT pk (a.as 1 a.pair) (((wotsDigits m).zip sig).zipIdx.flatMap fun x =>
    chainOf pk { a with chain := x.2 } x.1.2 x.1.1 (15 - x.1.1))

/-- The root of a tree that a node at index i and the nodes beside its path give. Heights are counted from base. -/
def climb (pk : List Byte) (a : Adrs) (i : Nat) (node : List Byte) (path : List (List Byte)) : List Byte :=
  (path.zipIdx.foldl (fun (r : List Byte × Nat) p =>
    let up := r.2 / 2
    let b := { a with chain := p.2 + 1, hash := up }
    (slhT pk b (if r.2 % 2 = 0 then r.1 ++ p.1 else p.1 ++ r.1), up)) (node, i)).1

/-- The root of an XMSS tree that a signature of 60 values gives. -/
def xmssPublic (pk : List Byte) (a : Adrs) (i : Nat) (sig : List (List Byte)) (m : List Byte) : List Byte :=
  climb pk (a.as 2 0) i (wotsPublic pk (a.as 0 i) (sig.take 51) m) (sig.drop 51)

/-- The tree, the leaf and the address that each layer uses. -/
def layersOf (tree leaf : Nat) : List (Nat × Nat × Nat) :=
  (List.range 7).map fun j => (j, tree / 2 ^ (9 * j), if j = 0 then leaf else tree / 2 ^ (9 * (j - 1)) % 512)

/-- The root of the top tree that a hypertree signature of 420 values gives. -/
def htPublic (pk : List Byte) (tree leaf : Nat) (sig : List (List Byte)) (m : List Byte) : List Byte :=
  ((layersOf tree leaf).zip (runsOf 60 7 sig)).foldl (fun m x =>
    xmssPublic pk { layer := x.1.1, tree := x.1.2.1 } x.1.2.2 x.2 m) m

/-- The FORS public key that a signature of 255 values gives. -/
def forsPublic (pk : List Byte) (a : Adrs) (sig : List (List Byte)) (md : List Byte) : List Byte :=
  slhT pk (a.as 4 a.pair) (((digits 14 17 md).zip (runsOf 15 17 sig)).zipIdx.flatMap fun x =>
    let i := x.2 * 2 ^ 14 + x.1.1
    climb pk a i (slhF pk { a with hash := i } (x.1.2.headD [])) x.1.2.tail)

/-- What a message's randomizer selects: the FORS digest, the tree and the leaf. -/
def slhSelect (r pk root m : List Byte) : List Byte × Nat × Nat :=
  let d := mgf1 sha512 64 39 (r ++ pk ++ sha512 (r ++ pk ++ root ++ m))
  (d.take 30, beNat (sliceB d 30 7) % 2 ^ 54, beNat (sliceB d 37 2) % 512)

/-- The pure form with an empty context. -/
def pureForm (m : List Byte) : List Byte := [0, 0] ++ m

/-- SLH-DSA verification. -/
def slhVerify (key m sig : List Byte) : Bool :=
  let pk := key.take 24
  let root := key.drop 24
  let x := slhSelect (sig.take 24) pk root (pureForm m)
  let vs := runsOf 24 676 sig
  let a : Adrs := { tree := x.2.1, type := 3, pair := x.2.2 }
  key.length == 48 && sig.length == 16224 &&
    htPublic pk x.2.1 x.2.2 (vs.drop 256) (forsPublic pk a ((vs.drop 1).take 255) x.1) == root

/-- A secret value: PRF. -/
def slhSecret (pk sk : List Byte) (a : Adrs) : List Byte := slhF pk a sk

/-- The 51 values of a WOTS+ secret key, each after so many steps of its chain. -/
def wotsValues (pk sk : List Byte) (a : Adrs) (steps : List Nat) : List (List Byte) :=
  steps.zipIdx.map fun x =>
    chainOf pk { a with chain := x.2 } (slhSecret pk sk { a.as 5 a.pair with chain := x.2 }) 0 x.1

/-- A node of an XMSS tree, at a height. -/
def xmssNode (pk sk : List Byte) (a : Adrs) : Nat → Nat → List Byte
  | 0, i => slhT pk (a.as 1 i) (wotsValues pk sk (a.as 0 i) (List.replicate 51 15)).flatten
  | z + 1, i =>
    slhT pk { a.as 2 0 with chain := z + 1, hash := i } (xmssNode pk sk a z (2 * i) ++ xmssNode pk sk a z (2 * i + 1))

/-- A node of a FORS tree, at a height. -/
def forsNode (pk sk : List Byte) (a : Adrs) : Nat → Nat → List Byte
  | 0, i => slhF pk { a with hash := i } (slhSecret pk sk { a.as 6 a.pair with hash := i })
  | z + 1, i =>
    slhT pk { a with chain := z + 1, hash := i } (forsNode pk sk a z (2 * i) ++ forsNode pk sk a z (2 * i + 1))

/-- The nodes beside the path from a leaf, below a height. -/
def besidePath (node : Nat → Nat → List Byte) (h i : Nat) : List (List Byte) :=
  (List.range h).map fun j => node j (i / 2 ^ j ^^^ 1)

/-- An XMSS signature. -/
def xmssSign (pk sk : List Byte) (a : Adrs) (i : Nat) (m : List Byte) : List (List Byte) :=
  wotsValues pk sk (a.as 0 i) (wotsDigits m) ++ besidePath (xmssNode pk sk a) 9 i

/-- A hypertree signature. -/
def htSign (pk sk : List Byte) (tree leaf : Nat) (m : List Byte) : List (List Byte) :=
  ((layersOf tree leaf).foldl (fun (r : List (List Byte) × List Byte) x =>
    let a : Adrs := { layer := x.1, tree := x.2.1 }
    let s := xmssSign pk sk a x.2.2 r.2
    (r.1 ++ s, xmssPublic pk a x.2.2 s r.2)) ([], m)).1

/-- SLH-DSA signing with a key of four parts, secret seed, secret PRF key, public seed and root, and a random value. -/
def slhSign (key m random : List Byte) : List Byte :=
  let sk := key.take 24
  let pk := sliceB key 48 24
  let root := key.drop 72
  let r := (hmac512 (sliceB key 24 24) (random ++ pureForm m)).take 24
  let x := slhSelect r pk root (pureForm m)
  let a : Adrs := { tree := x.2.1, type := 3, pair := x.2.2 }
  let fors := (digits 14 17 x.1).zipIdx.flatMap fun d =>
    let i := d.2 * 2 ^ 14 + d.1
    slhSecret pk sk { a.as 6 a.pair with hash := i } :: besidePath (forsNode pk sk a) 14 i
  r ++ (fors ++ htSign pk sk x.2.1 x.2.2 (forsPublic pk a fors x.1)).flatten

end Sys2Proof.Machine
end

