-- ==== Sys2Proof/Machine/System.lean ====
section
/-!
DEFINITION. Boot, attestation and resets (R394 to R398), configuration and the registers of a partition (R399, R400),
keys (R401), frame sync and pre-emption of a partition (R402, R403), memory errors (R404), clocks and heat (R405, R406),
and the management commands (R407).
-/
namespace Sys2Proof.Machine

/-- The management channel's answer: 0 done, 1 refused, 2 busy, with a value (R407). -/
def answered (r : Nat × State) : Out := .next { r.2 with out := r.2.out ++ [.mgmt r.1 0] }

/-- An answer that carries a value. -/
def answeredWith (v : DWord) (s : State) : Out := .next { s with out := s.out ++ [.mgmt 0 v] }

-- Pre-emption and HOLD

/-- PREEMPT written 1: HOLD is set, and every group of the partition is asked to stop (R403). -/
def preemptPart (part : Nat) (s : State) : State :=
  let t := s.updPart part fun p => { p with hold := true, captured := false, preemptAt := some (partCycle s part) }
  let us := (t.allGroups.filter fun g => g.onCore && (t.jobOf g.job).part == part).map (·.uid)
  settleCapture part Group.idle (us.foldl (fun u g => requestPreempt g u) t)

/-- HOLD written; clearing it resumes placement (R131, R403). -/
def writeHold (part : Nat) (hold : Bool) (s : State) : State :=
  if hold then s.updPart part fun p => { p with hold := true }
  else serve part (s.updPart part fun p => { p with hold := false, captured := false })

/-- PREEMPT (R403). -/
def execPreempt (part : Nat) (s : State) : Out := answered (0, preemptPart part s)

/-- HOLD_WRITE (R403). -/
def execHoldWrite (part : Nat) (hold : Bool) (s : State) : Out := answered (0, writeHold part hold s)

/-- LOGOVF_CLEAR: the dirty-page log takes records again (R243). -/
def execLogovfClear (part : Nat) (s : State) : Out := answered (0, s.updPart part fun p => { p with logovf := false })

-- Registers

/-- A partition has an installed job: registers marked L are not written (R400). -/
def hasJobs (s : State) (part : Nat) : Bool := s.jobs.any fun j => j.chip == s.node.chip && j.part == part

/-- A physical address lies in the carved range of a C-die (R219). -/
def carvedOf (die pa : Nat) : Bool := decide (0xFF0000000000 + die * 2 ^ 32 ≤ pa) && decide (pa < 0xFF0000000000 + (die + 1) * 2 ^ 32)

/-- A line of the node's memory lies in the carved range of a C-die of this device. -/
def carvedLine (s : State) (die line : Nat) : Bool := line * 128 / 2 ^ 48 == s.node.chip && carvedOf die (line * 128 % 2 ^ 48)

/-- The carved contents of a C-die are discarded: its storage is as if never written (R219, log entry 1). -/
def discardCarved (die : Nat) (s : State) : State :=
  { s with
    mem := s.mem.filter fun c => !(carvedLine s die (lineOf c.1))
    badLines := s.badLines.filter fun l => !(carvedLine s die l) }

/-- CARVE d of a partition: refused while a job is installed, and past 8 ways; lines leave the ways it takes (R219,
R400). -/
def writeCarve (part d ways : Nat) (s : State) : Nat × State :=
  let p := s.partOf part
  if hasJobs s part then (2, s)
  else if 8 < ways ∨ p.dies.length ≤ d then (1, s)
  else
    let c := (List.range p.dies.length).map fun i => p.carve.getD i 0
    let t := (discardCarved (p.dies.getD d 0) s).updPart part fun q => { q with carve := c.set d ways }
    (0, evictLines (overfull (p.dies.getD d 0) (t.waysOf (p.dies.getD d 0)) t.llc) t)

/-- CARVE_WRITE (R219). -/
def execCarveWrite (part die ways : Nat) (s : State) : Out := answered (writeCarve part die ways s)

/-- DLOGCTL written: logging, and LOGOVF cleared by a 1 (R243, R400). -/
def writeDlogctl (part : Nat) (v : DWord) (s : State) : State :=
  s.updPart part fun p => { p with dlogOn := v.getLsbD 0, logovf := p.logovf && !v.getLsbD 1 }

/-- The place of BAR0's registers among the offsets of this model: the driver's registers of R359 stand from here up. -/
def bar0 : Nat := 0x10000

/-- The place of the device registers among the offsets of this model: PWRCAP and FWSTAT (R399, R405). -/
def devRegs : Nat := 0x20000

/-- Fields that a register's table gives as zero stay zero: those of bits lo and up remain, with bit 0 where keep0. -/
def alignReg (v : DWord) (lo : Nat) (keep0 : Bool) : DWord := (v >>> lo <<< lo) ||| (if keep0 then v &&& 1 else 0)

/-- The core-rail current and the power of the package (R405). -/
def drawn (s : State) : Nat × Nat := ((s.sensors.map (·.2.current)).sum, (s.sensors.map (·.2.power)).sum)

/-- Current or power exceeds its limit (R405). -/
def overLimits (s : State) : Bool := decide (16000 < (drawn s).1) || decide (s.pwrcap < (drawn s).2)

/-- Current and power stand below 90 % of their limits (R405). -/
def belowLimits (s : State) : Bool := decide (10 * (drawn s).1 < 9 * 16000) && decide (10 * (drawn s).2 < 9 * s.pwrcap)

/-- The ticks since which current and power have been low, once either or a limit has changed (R405). -/
def settleCool (s : State) : State :=
  { s with parts := s.parts.map fun p => { p with coolSince := if belowLimits s then some (p.coolSince.getD p.tick) else none } }

/-- What a C-die's sensors read (R405 to R407). -/
def readSensors (die : Nat) (r : Sensors) (s : State) : State := settleCool { s with sensors := amPut die r s.sensors }

/-- A register of BAR0 among the offsets of this model, whose function is not open (R394). -/
def shutBar0 (s : State) (part off : Nat) : Bool := decide (bar0 ≤ off) && decide (off < devRegs) && !(opened s part)

/-- A write of a register: the management status and the state after (R359, R400, R405, R407). A write of a read-only
register is ignored (R4), and so is one to BAR0 before it opens (R394). Bits that a layout gives as zero, WINKEY [31:9]
and the bits below a base's alignment among them, are dropped and the write answers 0: R5 and the layouts name no outcome,
log entry 35. DOORBELL is written by the host alone. -/
def writeReg (part off : Nat) (v : DWord) (s : State) : Nat × State :=
  let upd (f : Part → Part) : Nat × State := (0, s.updPart part f)
  let n := v.toNat
  let locked (ok : Bool) (f : Part → Part) : Nat × State := if hasJobs s part then (2, s) else if ok then upd f else (1, s)
  if shutBar0 s part off then (0, s)
  else if off = 0x000 then (0, if v.getLsbD 0 then preemptPart part s else writeHold part (v.getLsbD 1) s)
  else if off = 0x008 then upd fun p => { p with hbase := alignReg v 12 true }
  else if off = 0x010 then upd fun p => { p with hstack := alignReg v 12 false }
  else if off = 0x018 then upd fun p => { p with savebase := v }
  else if off = 0x020 then upd fun p => { p with evqbase := v }
  else if off = 0x028 then upd fun p => { p with hevqbase := v }
  else if off = 0x030 then upd fun p => { p with sync := v &&& 0xFFFFFFFFFFE1 }
  else if off = 0x038 then upd fun p => { p with dlogbase := v }
  else if off = 0x040 then (0, writeDlogctl part v s)
  else if off = 0x048 then upd fun p => { p with arena := alignReg v 21 false }
  else if off = 0x050 then upd fun p => { p with arenalen := v }
  else if off = 0x058 then locked (decide (n ≤ 4)) fun p => { p with tenant := n }
  else if off = 0x060 then locked true fun p => { p with s2 := v.getLsbD 0 }
  else if 0x080 ≤ off ∧ off < 0x100 ∧ off % 8 = 0 then
    upd fun p => { p with vmroots := p.vmroots.set ((off - 0x080) / 8) (alignReg v 12 false) }
  else if 0x100 ≤ off ∧ off < 0x500 ∧ off % 4 = 0 then
    upd fun p => { p with jobtags := amPut ((off - 0x100) / 4) (n % 256) p.jobtags }
  else if 0x500 ≤ off ∧ off < 0x520 ∧ off % 4 = 0 then writeCarve part ((off - 0x500) / 4) (n % 16) s
  else if off = 0x520 then upd fun p => { p with relpol := v.setWidth 2 }
  else if off = bar0 then upd fun p => { p with ringbase := alignReg v 6 false }
  else if off = bar0 + 0x10 ∨ off = bar0 + 0x20 ∨ off = devRegs + 8 then (0, s)
  else if off = bar0 + 0x18 then upd fun p => { p with winkey := n % 512 }
  else if off = bar0 + 0x28 then (0, pump (reviewRoutes (s.updPart part fun p => { p with fabpol := v.setWidth 3 })))
  else if off = bar0 + 0x30 then upd fun p => { p with failed := p.failed &&& ~~~(v.setWidth 16) }
  else if off = devRegs then (if 4000 ≤ n ∧ n ≤ 8000 then (0, settleCool { s with pwrcap := n }) else (1, s))
  else (1, s)

/-- REGISTER_WRITE (R400). -/
def execRegisterWrite (part off : Nat) (v : DWord) (s : State) : Out := answered (writeReg part off v s)

/-- WRREG (R407). -/
def execWrreg (part off : Nat) (v : DWord) (s : State) : Out := answered (writeReg part off v s)

/-- The partition number of a C-die. -/
def dieNumber (s : State) (d : Nat) : Nat := ((s.parts.find? fun p => p.dies.contains d).map (·.num)).getD 0

/-- The two C-dies that die-to-die link k joins (R399). -/
def dieLink (k : Nat) : Nat × Nat := if k < 6 then (4 * (k / 3) + k % 3, 4 * (k / 3) + k % 3 + 1) else (k - 6, k - 2)

/-- FWSTAT: bit k is set where the firewall closes die-to-die link k (R399). -/
def fwstat (s : State) : Nat :=
  ((List.range 10).map fun k => if dieNumber s (dieLink k).1 = dieNumber s (dieLink k).2 then 0 else 2 ^ k).sum

/-- LINKSTAT: bit 4p + k for link k of the partition's port p, in ascending port order (R359). DEDUCED: a reset of the
partition leaves it 0 (R4), though the links stay up for the other partitions: log entry 90. -/
def linkstat (s : State) (p : Part) : Nat :=
  ((p.dies.flatMap fun d => [2 * d, 2 * d + 1]).zipIdx.map fun q =>
    ((List.range 4).map fun k => if (s.linkOf q.1 k).any fun l => l.up && l.shown then 2 ^ (4 * q.2 + k) else 0).sum).sum

/-- The value of a register; none where no register stands at the offset (R359, R400). DOORBELL, write-only, reads 0
(R4); BAR0 reads all ones before it opens (R394). -/
def readReg (s : State) (part off : Nat) : Option DWord :=
  let p := s.partOf part
  let n (x : Nat) : Option DWord := some (BitVec.ofNat 64 x)
  let b (x : Bool) (k : Nat) : Nat := if x then 2 ^ k else 0
  if shutBar0 s part off then some (BitVec.allOnes 64)
  else if off = 0x000 then n (b p.preemptAt.isSome 0 + b p.hold 1 + b p.captured 2)
  else if off = 0x008 then some p.hbase
  else if off = 0x010 then some p.hstack
  else if off = 0x018 then some p.savebase
  else if off = 0x020 then some p.evqbase
  else if off = 0x028 then some p.hevqbase
  else if off = 0x030 then some p.sync
  else if off = 0x038 then some p.dlogbase
  else if off = 0x040 then n (b p.dlogOn 0 + b p.logovf 1)
  else if off = 0x048 then some p.arena
  else if off = 0x050 then some p.arenalen
  else if off = 0x058 then n p.tenant
  else if off = 0x060 then n (b p.s2 0)
  else if 0x080 ≤ off ∧ off < 0x100 ∧ off % 8 = 0 then some (p.vmroots.getD ((off - 0x080) / 8) 0)
  else if 0x100 ≤ off ∧ off < 0x500 ∧ off % 4 = 0 then n ((amGet p.jobtags ((off - 0x100) / 4)).getD 0)
  else if 0x500 ≤ off ∧ off < 0x520 ∧ off % 4 = 0 then n (p.carve.getD ((off - 0x500) / 4) 0)
  else if off = 0x520 then some (p.relpol.setWidth 64)
  else if off = bar0 then some p.ringbase
  else if off = bar0 + 8 then n 0
  else if off = bar0 + 0x10 then some p.ringhead
  else if off = bar0 + 0x18 then n p.winkey
  else if off = bar0 + 0x20 then n (linkstat s p)
  else if off = bar0 + 0x28 then some (p.fabpol.setWidth 64)
  else if off = bar0 + 0x30 then some (p.failed.setWidth 64)
  else if off = devRegs then n s.pwrcap
  else if off = devRegs + 8 then n (fwstat s)
  else none

/-- RDREG (R407). -/
def execRdreg (part off : Nat) (s : State) : Out :=
  match readReg s part off with
  | some v => answeredWith v s
  | none => answered (1, s)

-- Configuration

/-- C-dies that form a rectangle R126 allows: row d / 4, column d mod 4. -/
def rectangle (ds : List Nat) : Bool :=
  let rows := distinct (ds.map (· / 4))
  let cols := distinct (ds.map (· % 4))
  let lo := cols.foldl min 3
  let hi := cols.foldl max 0
  ds.length == rows.length * cols.length && hi - lo + 1 == cols.length &&
    [(1, 1), (1, 2), (2, 1), (1, 4), (2, 2), (2, 4)].contains (rows.length, cols.length)

/-- The device is in reset-hold, before step 4 of R394. -/
def inHold (s : State) : Bool :=
  match s.boot with
  | .hold _ | .checked => true
  | _ => false

/-- The C-dies of a partition number. -/
def diesOf (ns : List Nat) (n : Nat) : List Nat := (List.range 8).filter fun d => ns.getD d 0 == n

/-- A partition configuration that the device takes: every partition an allowed shape, numbered by its lowest C-die
(R126, R399). -/
def partcfgOk (ns : List Nat) : Bool :=
  ns.length == 8 && ns.all fun n => decide (n < 8) && rectangle (diesOf ns n) && (diesOf ns n).headD 8 == n

/-- PARTCFG_WRITE (R399). -/
def execPartcfgWrite (ns : List Nat) (s : State) : Out :=
  if inHold s && partcfgOk ns then
    answered (0, { s with parts := (distinct ns).map fun n => Part.reset n (diesOf ns n) })
  else answered (1, s)

/-- A node configuration that the device takes: each peer has the ports that R344 counts. -/
def nodecfgOk (c : NodeCfg) : Bool :=
  (c.size == 8 || c.size == 16) && decide (c.chip < c.size) && c.ports.length == 16 &&
    ((List.range 16).all fun j =>
      (c.ports.filter fun p => (p.map (·.1)) == some j).length ==
        (if j < c.size ∧ j ≠ c.chip then (if c.size = 16 then 1 else 2) else 0)) &&
    c.ports.all fun p => match p with | some q => decide (q.2 < 16) | none => true

/-- A peer as the node configuration names it: it answers, reaches every other chip, and is partitioned as this device. -/
def peerAt (c : NodeCfg) (parts : List Part) (chip : Nat) : Peer :=
  { chip := chip, silent := false, seen := [], detour := none, reach := (List.range c.size).filter (· ≠ chip)
    parts := parts.map fun p => (p.num, p.dies, p.carve) }

/-- NODECFG_WRITE (R399). -/
def execNodecfgWrite (c : NodeCfg) (s : State) : Out :=
  if inHold s && nodecfgOk c then
    answered (0, { s with
      node := c
      links := []
      queued := []
      stripes := []
      credits := []
      peers := ((List.range c.size).filter (· ≠ c.chip)).map (peerAt c s.parts) })
  else answered (1, s)

-- Keys

/-- The epoch of key material: its place among what has been loaded (R401). -/
def epochFrom (key : BitVec 512) (known : List (BitVec 512)) : Nat × List (BitVec 512) :=
  match known.idxOf? key with
  | some i => (i + 1, known)
  | none => (known.length + 1, known ++ [key])

/-- KEYLOAD (R401). -/
def execKeyload (slot owner : Nat) (key : BitVec 512) (bypass : Bool) (s : State) : Out :=
  if 512 ≤ slot then answered (1, s)
  else
    let e := epochFrom key s.material
    let k : KeySlot := { slot := slot, owner := owner, key := key, bypass := bypass, epoch := e.1 }
    answered (0, { s with keys := k :: s.keys.filter fun x => x.slot != slot, material := e.2 })

/-- KEYCLR: the slot is empty (R401). -/
def execKeyclr (slot : Nat) (s : State) : Out :=
  if 512 ≤ slot then answered (1, s) else answered (0, { s with keys := s.keys.filter fun x => x.slot != slot })

-- Firmware, attestation, boot

/-- The fields of a firmware image (R395). -/
def imageOf (bs : List Byte) : FwImage :=
  { magic := BitVec.ofNat 32 (fieldB bs 0 4)
    svn := BitVec.ofNat 32 (fieldB bs 4 4)
    bodyLen := BitVec.ofNat 64 (fieldB bs 8 8)
    rsaSig := sliceB bs 0x10 384
    slhSig := sliceB bs 0x190 16224
    modulus := sliceB bs 0x40F0 384
    exponent := BitVec.ofNat 32 (fieldB bs 0x4270 4)
    slhKey := sliceB bs 0x4274 48
    zeros := sliceB bs 0x42A4 92
    body := bs.drop 0x4300 }

/-- The signed message M: bytes 0 to 0xF of the image, then its body (R395). -/
def messageOf (i : FwImage) : List Byte :=
  leBytes 4 i.magic.toNat ++ leBytes 4 i.svn.toNat ++ leBytes 8 i.bodyLen.toNat ++ i.body

/-- The header of an image is good: its magic, its length, and its bytes that are zero (R395). -/
def headerOk (i : FwImage) : Bool :=
  i.magic == 0x4C505846 && i.bodyLen.toNat % 256 == 0 && i.bodyLen.toNat == i.body.length && i.zeros.all (· == 0)

/-- The boot status of an image: 0 accepted, or the first check that fails (R396). -/
def imageStatus (fuse : Nat) (i : FwImage) : Nat :=
  if !(headerOk i) then 1
  else if sha384 (i.modulus ++ leBytes 4 i.exponent.toNat) ≠ Config.fusedDigests.1 ∨ sha384 i.slhKey ≠ Config.fusedDigests.2 then 2
  else if !(pssVerify (beNat i.modulus) i.exponent.toNat (messageOf i) i.rsaSig) then 3
  else if !(slhVerify i.slhKey (messageOf i) i.slhSig) then 4
  else if i.svn.toNat < fuse then 5
  else 0

/-- A byte of the node's memory that is not in this device: of the host or of a peer. -/
def outside (s : State) (a : Nat) : Bool := a / 2 ^ 48 != s.node.chip || isHost (a % 2 ^ 48)

/-- Everything of the device but its fuses is cleared, configuration included (R398). What is not the device's stays: the
world's memory, and what the model itself counts. -/
def cleared (s : State) : State :=
  { State.reset with
    fuseSvn := s.fuseSvn
    mem := s.mem.filter fun c => outside s c.1
    out := s.out
    agenda := s.agenda
    fresh := s.fresh
    delay := s.delay
    free := s.free
    clock := s.clock }

/-- The boot of a cleared device up to step 3: the image is checked; a device that accepts it stands before step 4, and any
other stays in reset-hold (R394 to R396). -/
def bootFrom (bs : List Byte) (s : State) : State :=
  let i := imageOf bs
  let n := imageStatus s.fuseSvn i
  if n = 0 then { s with boot := .checked, image := i, out := s.out ++ [.boot 0] }
  else { s with boot := .hold n, out := s.out ++ [.boot n] }

/-- Step 4 of the boot: the configuration as it stands is applied, and the partitions open (R394, R399). Their links come
up with LINK_TRAINING. -/
def finishBoot (s : State) : State :=
  { s with boot := .running, parts := s.parts.map fun p => { p with opened := true } }

/-- POWER_ON (R394, R398). PARTCFG and NODECFG, which it clears, may be written until step 4 (R399). -/
def execPowerOn (image : List Byte) (s : State) : Out := .next (bootFrom image (cleared s))

/-- DEVICE_RESET (R398); a device that THERMTRIP holds stays held until power is cycled (R406). -/
def execDeviceReset (image : List Byte) (s : State) : Out :=
  if s.boot = .tripped then .next s else .next (bootFrom image (cleared s))

/-- SVNUP (R396, R407). -/
def execSvnup (s : State) : Out :=
  if s.boot = .running then answered (0, { s with fuseSvn := max s.fuseSvn s.image.svn.toNat }) else answered (1, s)

/-- The offsets of a partition's registers (R400). -/
def regOffsets : List Nat :=
  ((List.range 13).map (8 * ·)) ++ ((List.range 16).map fun v => 0x080 + 8 * v) ++
    ((List.range 256).map fun j => 0x100 + 4 * j) ++ ((List.range 8).map fun d => 0x500 + 4 * d) ++ [0x520]

/-- PARTCFG, NODECFG and a partition's registers as bytes, for attestation (R397). -/
def configBytes (s : State) (part : Nat) : List Byte :=
  ((List.range 8).map fun d => BitVec.ofNat 8 (dieNumber s d)) ++ leBytes 1 s.node.size ++ leBytes 1 s.node.chip ++
    (s.node.ports.flatMap fun p => match p with | some q => leBytes 1 q.1 ++ leBytes 1 q.2 | none => leBytes 2 0xFFFF) ++
    regOffsets.flatMap fun o => leBytes 8 ((readReg s part o).getD 0).toNat

/-- The body of a report: nonce, serial, SVN, SHA-384 of M, and SHA-384 of the configuration (R397). -/
def reportBody (nonce : BitVec 384) (part : Nat) (s : State) : List Byte :=
  beBytes 48 nonce.toNat ++ Config.serial ++ leBytes 4 s.image.svn.toNat ++ sha384 (messageOf s.image) ++ sha384 (configBytes s part)

/-- ATTEST: a report, signed in both schemes with the device's identity keys (R397). -/
def execAttest (nonce : BitVec 384) (part : Nat) (s : State) : Out :=
  if s.boot ≠ .running ∨ !(s.parts.any fun p => p.num == part) then answered (1, s)
  else
    let body := reportBody nonce part s
    let rsa := pssSign Config.rsaIdentity.1 Config.rsaIdentity.2.2 body (beBytes 48 (Config.pssSalt s.free).toNat)
    let slh := slhSign Config.slhIdentity body (beBytes 24 (Config.slhRandom s.free).toNat)
    answered (0, { s with out := s.out ++ [.report body rsa slh], free := s.free + 1 })

/-- TELEM: power in watts, current in amperes, temperature in tenths of a degree and clock in kHz of a C-die, as its
sensors last read and as its partition's clock stands (R405, R407). -/
def execTelem (die : Nat) (s : State) : Out :=
  let p := (s.parts.find? fun p => p.dies.contains die).getD (Part.reset 0 [])
  let r := (amGet s.sensors die).getD { current := 0, power := 0, tenths := 0 }
  let say (n : Nat) : Output := .mgmt 0 (BitVec.ofNat 64 n)
  .next { s with out := s.out ++ [say r.power, say r.current, say r.tenths, say (1900000 - 118750 * p.clockStep)] }

/-- The caches of a partition are emptied: lines leave its home slices as by eviction (log entry 61), with their watches,
the TLBs of its C-dies and its translations of table addresses (R236, R398). -/
def dropCaches (part : Nat) (s : State) : State :=
  let p := s.partOf part
  let mine := s.llc.filter fun x => p.dies.contains (x.slice / 48)
  let t := mine.foldl (fun u x => evictLine x.line u) s
  { t with
    dieTlbs := t.dieTlbs.filter fun d => !(p.dies.contains d.1)
    tableTlb := t.tableTlb.filter fun e => e.part != part }

/-- PRESET: one partition is reset, every register and counter of it with its caches; its groups are discarded as by an
abort, and writes on their way to it from peers are refused (R4, R398). LINKSTAT reads 0 then. The clock step of R405, no
register of the partition, and its open interface stay. -/
def resetPart (part : Nat) (s : State) : State :=
  let p := s.partOf part
  let gs := s.allGroups.filter fun g => g.status != .completed && (s.jobOf g.job).part == part
  let t := dropCaches part (keepPlace (fun s => gs.foldl (fun u g => dropGroup g.uid (stopGroup g.uid u)) s) s)
  let js := (t.jobs.filter fun j => j.chip == t.node.chip && j.part == part).map (·.uid)
  let t := p.dies.foldl (fun u d => discardCarved d u) t
  let core (c : Core) : Core := if p.dies.contains (c.id / 36) then Core.reset c.id else c
  let late := t.inbox.filter fun m => m.msg.part == part
  let lost (w : LateWrite) : Bool := match w with
    | .counter x _ => js.contains (x.word t).1.uid
    | .open g _ | .close g _ => js.contains (t.graphOf g).job
  { t with
    core := core t.core
    cores := t.cores.map core
    jobs := t.jobs.filter fun j => !(js.contains j.uid)
    phases := t.phases.filter fun x => !(js.contains x.job)
    graphs := t.graphs.filter fun x => !(js.contains x.job)
    launches := t.launches.filter fun x => !(js.contains x.job)
    reductions := t.reductions.filter fun r => r.first.part != part
    encoders := t.encoders.filter fun e => !(p.dies.contains (e.id / 2))
    lateLogs := t.lateLogs.filter fun x => !(js.contains x.job)
    lateWrites := t.lateWrites.filter fun w => !(lost w)
    inbox := t.inbox.filter fun m => m.msg.part != part
    links := t.links.map fun k => if p.dies.contains (k.port / 2) then { k with shown := false } else k
    out := t.out ++ late.map fun m => .refusal m.msg.src 1
    parts := t.parts.map fun q =>
      if q.num = part then
        { Part.reset q.num q.dies with
          clockStep := q.clockStep, coolSince := q.coolSince.map fun _ => 0, opened := q.opened }
      else q }

/-- PRESET (R398, R407). -/
def execPreset (part : Nat) (s : State) : Out :=
  if s.parts.any fun p => p.num == part then answered (0, resetPart part s) else answered (1, s)

-- Frame sync

/-- FRAME_SYNC_EDGE: a rising edge starts the phase record that SYNC names, unless it follows the last accepted one too
closely; its status is an event (R116, R402). -/
def execFrameSyncEdge (part : Nat) (s : State) : Out :=
  let p := s.partOf part
  let close : Bool := match p.lastEdge with | some t => decide (p.tick < t + 100) | none => false
  if !p.sync.getLsbD 0 ∨ close then .next s
  else
    let a := bits p.sync.toNat 47 5 * 32
    let r := startPhase part a (physRead s part a 32) (s.updPart part fun q => { q with lastEdge := some p.tick })
    let jobno := ((physRead s part a 32).map fun b => fieldB b 0x10 4).getD 0
    .next (postEvent 9 part jobno (a % 2 ^ 32, a / 2 ^ 32, r.1, 0) r.2)

-- Memory errors, clocks and heat

/-- HBM_ECC_ERROR: corrected with event 25 where RELPOL allows it, else the line is poisoned with event 26 (R404). -/
def execHbmEccError (line : Nat) (correctable : Bool) (s : State) : Out :=
  let pa := line * 128 % 2 ^ 48
  match (if line * 128 / 2 ^ 48 = s.node.chip then hbmPart s pa else none) with
  | none => .next s
  | some p =>
    let load := (pa / 2 ^ 36, pa % 2 ^ 32, pa / 2 ^ 32, 0)
    if correctable && p.relpol.getLsbD 1 then .next (postEvent 25 p.num 0 load s)
    else .next (postEvent 26 p.num 0 load { s with badLines := if line ∈ s.badLines then s.badLines else line :: s.badLines })

/-- The clock of a partition in kHz (R405). -/
def clockKhz (p : Part) : Nat := 1900000 - 118750 * p.clockStep

/-- The clock moves by one step, with an event (R405). -/
def stepClock (part : Nat) (down : Bool) (s : State) : State :=
  let p := s.partOf part
  if (down ∧ 8 ≤ p.clockStep) ∨ (!down ∧ p.clockStep = 0) then s
  else
    let t := s.updPart part fun q => { q with clockStep := if down then q.clockStep + 1 else q.clockStep - 1 }
    postEvent 15 part 0 (clockKhz (t.partOf part), 0, 0, 0) t

/-- Current and power have stood below 90 % of their limits for 100 µs, which are 10 000 ticks (R405). -/
def mayRaise (s : State) (part : Nat) : Bool :=
  (s.partOf part).coolSince.any fun t => decide (t + 10000 ≤ (s.partOf part).tick)

/-- CLOCK_LOWER: a step down while current or power exceeds its limit (R405). -/
def execClockLower (part : Nat) (s : State) : Out := .next (if overLimits s then stepClock part true s else s)

/-- CLOCK_RAISE: a step up after 100 µs below 90 % of both limits, which then count anew (R405). -/
def execClockRaise (part : Nat) (s : State) : Out :=
  .next (if mayRaise s part then (stepClock part false s).updPart part fun p => { p with coolSince := some p.tick } else s)

/-- THERMAL_THRESHOLD: a C-die's junction sensor, in tenths of a degree, crosses a threshold (R406). -/
def execThermalThreshold (die tenths : Nat) (s0 : State) : Out :=
  let n := dieNumber s0 die
  let old := (amGet s0.sensors die).getD { current := 0, power := 0, tenths := 0 }
  let s := { s0 with sensors := amPut die { old with tenths := tenths } s0.sensors }
  if 1150 ≤ tenths then .next { cleared s with boot := .tripped }
  else if 1050 ≤ tenths then .next (stepClock n true s)
  else if 950 ≤ tenths then .next (postEvent 24 n 0 (die, tenths, 0, 0) s)
  else .next s

end Sys2Proof.Machine
end

