-- ==== Sys2Proof/Machine/Media.lean ====
section
/-!
DEFINITION. The video encoders (R386 to R393): taking a record, reading a frame once its phase has advanced, and
appending the bitstream to the output ring.
-/
namespace Sys2Proof.Machine

/-- An encoder by its number; one that nothing has used is empty. -/
def encoderOf (s : State) (n : Nat) : Encoder :=
  (s.encoders.find? fun e => e.id == n).getD { id := n, queue := [], slots := [] }

/-- An encoder is set. -/
def putEncoder (e : Encoder) (s : State) : State := { s with encoders := e :: s.encoders.filter fun x => x.id != e.id }

/-- SLOT of a VENC record (R388). -/
def CopyRec.slot (r : CopyRec) : Nat := bits r.s3 15 10
/-- ENC of a VENC record. -/
def CopyRec.enc (r : CopyRec) : Nat := bits r.s3 9 6
/-- EOS of a VENC record. -/
def CopyRec.eos (r : CopyRec) : Bool := r.s3.testBit 5
/-- KEY of a VENC record. -/
def CopyRec.key (r : CopyRec) : Bool := r.s3.testBit 4
/-- Codec, depth, size and rate control of a VENC record (R389). -/
def CopyRec.stream (r : CopyRec) : List Nat := [bits r.s3 0 0, bits r.s3 1 1, r.rows, r.bpr, bits r.s3 3 2]

/-- A record in an encoder's queue as a copy record. -/
def VencRec.rec' (v : VencRec) : CopyRec := copyRecOf v.record

/-- A phaser that an operand word of a copy's launch names: its pieces, and the object (R279). -/
def readPhaser (g : Group) (x : Nat) (s : State) : Except Stop (List Piece × Phaser × State) := do
  let a := (s.launchOf g.launch).gbase + x / 32 * 32
  let ps ← devPieces unitWho s (s.jobOf g.job) accRw a 32
  let r ← devRead unitWho (s.jobOf g.job) accRead a 32 s
  return (ps, phaserOf r.1 false, r.2.2)

/-- The slot of an encoder. -/
def Encoder.slotOf (e : Encoder) (n : Nat) : Option VencSlot := e.slots.find? fun x => x.slot == n

/-- The slot of an encoder is set. -/
def Encoder.putSlot (x : VencSlot) (e : Encoder) : Encoder := { e with slots := x :: e.slots.filter fun y => y.slot != x.slot }

/-- The next frame of a slot is to be a key frame (R392). -/
def Encoder.force (n : Nat) (e : Encoder) : Encoder :=
  { e with slots := e.slots.map fun x => if x.slot = n then { x with forceKey := true } else x }

/-- An encoder's accesses, made for a copy (R238). -/
def VencRec.who (v : VencRec) : Who := { unitWho with copy := some v.copy }

/-- The group of a record and the core whose slot its copy holds take the issuing place. -/
def State.focusVenc (v : VencRec) (s : State) : State := (s.focusGroup v.group).focusCore v.core

/-- VENC_ACCEPT: an encoder with room takes a record that the hoist does not hold back, and the phase it is to wait for
(R257, R390). -/
def execVencAccept (core uid : Nat) (s : State) : Out :=
  match (s.coreOf core).copies.find? fun x => x.uid == uid with
  | none => .next s
  | some c =>
    let e := encoderOf s c.rec'.enc
    if c.rec'.does ≠ 5 ∨ c.accepted ∨ c.held ∨ 64 ≤ e.queue.length then .next s
    else
      let t := s.focusGroup c.group
      match readPhaser t.group c.rec'.s0 t with
      | .error (.fault x) => .next (failCopy c (statusOf x) 4 x t)
      | .error _ => .next s
      | .ok (_, p, t) =>
        let v : VencRec :=
          { core := core, copy := uid, group := c.group, job := t.group.job, record := c.record, phase0 := p.phase
            reading := false, observed := 0, dropped := false }
        .next ((putEncoder { e with queue := e.queue ++ [v] } t).updCopy uid fun x => { x with accepted := true })

/-- A record leaves its encoder, and its copy ends with a status (R258, R389, R392). -/
def endVenc (enc : Nat) (v : VencRec) (status : Nat) (x : Exc) (s : State) : State :=
  let e := encoderOf s enc
  let t := putEncoder { e with queue := e.queue.filter fun y => y.copy != v.copy } s
  if v.dropped then t
  else
    let t := t.focusVenc v
    match t.copyOf? v.copy with
    | some c => failCopy c status 4 x t
    | none => t

/-- A frame's planes can be read: every page of luma and chroma (R387, R392). -/
def frameReadable (j : Job) (r : CopyRec) (s : State) : Except Stop State :=
  (framePages r).foldlM (fun t a => (devRead unitWho j accRead a 1 t).map fun x => x.2.2) s

/-- The encoder arrives on TAKEN once the frame has been read (R390). A page that migrates is waited for, up to 20 000
cycles, and then is a fault of the encoder's (R238). An arrival that meets another fault, or no object that takes it,
changes nothing (log entry 60). -/
def arriveTaken (v : VencRec) (s : State) : Except Stop State :=
  if v.rec'.s2 = 0 then .ok s
  else
    match readPhaser (s.groupOf v.group) v.rec'.s2 s with
    | .error _ => .ok s
    | .ok (ps, p, t) =>
      match phArr 0 p, migrateFor v.who ps t with
      | .ok r, .ok _ => .ok (if p.ok then writePieces v.who ps r.2.bytes t else t)
      | .ok _, .error e => .error e
      | _, _ => .ok t

/-- VENC_FRAME_START: the first record of a slot whose READY phase has advanced is checked against the slot and its frame
read (R389, R390). A fault on its source leaves the slot configured, and its next frame is a key frame (R392). -/
def execVencFrameStart (enc slot : Nat) (s : State) : Out :=
  let e := encoderOf s enc
  match e.queue.find? fun v => v.rec'.slot == slot with
  | none => .next s
  | some v =>
    if v.reading then .next s
    else
      let t0 := s.focusVenc v
      match readPhaser (t0.groupOf v.group) v.rec'.s0 t0 with
      | .error (.fault x) => .next (endVenc enc v (statusOf x) x t0)
      | .error _ => .next s
      | .ok (_, p, t) =>
        if p.phase = v.phase0 then .next s
        else
          let r := v.rec'
          let known : Bool := match e.slotOf slot with | some x => x.config == r.stream | none => false
          if (!r.key && !known) || (r.key && !(Config.arenaFits t.free)) then
            .next (endVenc enc v 15 (exc 23 15) { t with free := t.free + 1 })
          else
            let j := t.jobOf v.job
            let taken (again : Bool) : Encoder := if r.key then e.putSlot { slot := slot, config := r.stream, forceKey := again } else e
            let failed (x : Exc) : Out := .next (endVenc enc v (statusOf x) x (putEncoder ((taken true).force slot) t))
            match frameReadable j r t with
            | .error (.fault x) => failed x
            | .error _ => .next s
            | .ok t =>
              let e := taken false
              let v' := { v with reading := true, observed := (t.partOf j.part).tick }
              let t := putEncoder { e with queue := e.queue.map fun y => if y.copy = v.copy then v' else y } t
              match keepWait t0 (arriveTaken v { t with free := t.free + 1 }) with
              | .ok u => .next u
              | .error (.hold u) => .next u
              | .error (.fault x) => failed x
              | .error _ => .next s

/-- Bytes written into a ring of bytes from a count on (R391). -/
def ringBytes (w : Who) (j : Job) (array cap tail : Nat) (bs : List Byte) (s : State) : Except Stop State := do
  let o := tail % cap
  let s ← devWrite w j accWrite (array + o) (bs.take (cap - o)) s
  if cap - o < bs.length then devWrite w j accWrite array (bs.drop (cap - o)) s else return s

/-- What an encoder appends for a frame: header, bitstream and padding (R391). -/
def frameBytes (r : CopyRec) (key : Bool) (tick : Nat) (stream : List Byte) : List Byte :=
  leBytes 4 stream.length ++ leBytes 4 ((if key then 1 else 0) + r.slot * 256) ++ leBytes 8 tick ++ stream ++
    List.replicate ((16 - stream.length % 16) % 16) 0

/-- The output of a frame written to its ring: the bytes appended, or the status 14 where they do not fit. -/
def appendFrame (w : Who) (j : Job) (r : CopyRec) (bs : List Byte) (s : State) : Except Stop (Bool × State) := do
  let h ← devRead w j accRead r.dst 32 s
  let head := fieldB h.1 0 8
  let tail := fieldB h.1 8 8
  let cap := fieldB h.1 24 4
  if cap < (tail - head) % 2 ^ 64 + bs.length then return (false, h.2.2)
  else do
    let s ← ringBytes w j (fieldB h.1 16 8) cap tail bs h.2.2
    let s ← devWrite w j accWrite (r.dst + 8) (leBytes 8 (tail + bs.length)) s
    return (true, s)

/-- VENC_FRAME_DONE: the frame header and the bitstream are appended, TAIL is released, and the record's tag and barrier
complete (R391, R392). A ring page that migrates is waited for, up to 20 000 cycles (R238). -/
def execVencFrameDone (enc slot : Nat) (s : State) : Out :=
  let e := encoderOf s enc
  match e.queue.find? fun v => v.rec'.slot == slot && v.reading with
  | none => .next s
  | some v =>
    let r := v.rec'
    let t0 := s.focusVenc v
    let t := { t0 with free := s.free + 1 }
    match t.jobOf? v.job with
    | none => .next (putEncoder { e with queue := e.queue.filter fun y => y.copy != v.copy } t)
    | some j =>
      let key := r.key || ((e.slotOf slot).map (·.forceKey)).getD false
      let bs := frameBytes r key v.observed (Config.bitstream s.free)
      match keepWait t0 (appendFrame v.who j r bs t) with
      | .error (.fault x) => .next (endVenc enc v (statusOf x) x (putEncoder (e.force slot) t))
      | .error (.hold u) => .next u
      | .error _ => .next s
      | .ok (false, t) => .next (endVenc enc v 14 (exc 23 14) (putEncoder (e.force slot) t))
      | .ok (true, t) =>
        let e := { e with
          queue := e.queue.filter fun y => y.copy != v.copy
          slots := if r.eos then e.slots.filter fun x => x.slot != slot
            else e.slots.map fun x => if x.slot = slot then { x with forceKey := false } else x }
        let t := putEncoder e t
        if v.dropped then .next t
        else
          match t.copyOf? v.copy with
          | some c => .next (finishCopy c bs.length t)
          | none => .next t

end Sys2Proof.Machine
end

