-- ==== Sys2Proof/Machine/Dispatch.lean ====
section
/-!
DEFINITION. exec: one arm for each constructor of Instr, each a direct call of the instruction's meaning.
-/
namespace Sys2Proof.Machine

/-- What one instruction, operation or event does to the machine. -/
def exec (i : Instr) (s : State) : Host.Outcome State Fault Refusal :=
  match i with
  | .nop => Sys2Proof.Machine.execNop s
  | .iadd d a b g => Sys2Proof.Machine.execIadd d a b g s
  | .isub d a b g => Sys2Proof.Machine.execIsub d a b g s
  | .imul d a b g => Sys2Proof.Machine.execImul d a b g s
  | .imulhS d a b g => Sys2Proof.Machine.execImulhS d a b g s
  | .imulhN d a b g => Sys2Proof.Machine.execImulhN d a b g s
  | .imad d a b g => Sys2Proof.Machine.execImad d a b g s
  | .imadwS d a b g => Sys2Proof.Machine.execImadwS d a b g s
  | .imadwN d a b g => Sys2Proof.Machine.execImadwN d a b g s
  | .iadd64 d a b g => Sys2Proof.Machine.execIadd64 d a b g s
  | .isub64 d a b g => Sys2Proof.Machine.execIsub64 d a b g s
  | .iminS d a b g => Sys2Proof.Machine.execIminS d a b g s
  | .iminN d a b g => Sys2Proof.Machine.execIminN d a b g s
  | .imaxS d a b g => Sys2Proof.Machine.execImaxS d a b g s
  | .imaxN d a b g => Sys2Proof.Machine.execImaxN d a b g s
  | .ishl d a b g => Sys2Proof.Machine.execIshl d a b g s
  | .ishr d a b g => Sys2Proof.Machine.execIshr d a b g s
  | .isar d a b g => Sys2Proof.Machine.execIsar d a b g s
  | .irot d a b g => Sys2Proof.Machine.execIrot d a b g s
  | .and d a b g => Sys2Proof.Machine.execAnd d a b g s
  | .or d a b g => Sys2Proof.Machine.execOr d a b g s
  | .xor d a b g => Sys2Proof.Machine.execXor d a b g s
  | .andn d a b g => Sys2Proof.Machine.execAndn d a b g s
  | .bfxS d a b g => Sys2Proof.Machine.execBfxS d a b g s
  | .bfxN d a b g => Sys2Proof.Machine.execBfxN d a b g s
  | .bfi d a b g => Sys2Proof.Machine.execBfi d a b g s
  | .bperm d a b g => Sys2Proof.Machine.execBperm d a b g s
  | .isel d a b g => Sys2Proof.Machine.execIsel d a b g s
  | .icmp c p a b g => Sys2Proof.Machine.execIcmp c p a b g s
  | .mov d a g => Sys2Proof.Machine.execMov d a g s
  | .not d a g => Sys2Proof.Machine.execNot d a g s
  | .ineg d a g => Sys2Proof.Machine.execIneg d a g s
  | .iabs d a g => Sys2Proof.Machine.execIabs d a g s
  | .popc d a g => Sys2Proof.Machine.execPopc d a g s
  | .clz d a g => Sys2Proof.Machine.execClz d a g s
  | .brev d a g => Sys2Proof.Machine.execBrev d a g s
  | .sext8 d a g => Sys2Proof.Machine.execSext8 d a g s
  | .sext16 d a g => Sys2Proof.Machine.execSext16 d a g s
  | .zext8 d a g => Sys2Proof.Machine.execZext8 d a g s
  | .zext16 d a g => Sys2Proof.Machine.execZext16 d a g s
  | .pand d b a g => Sys2Proof.Machine.execPand d b a g s
  | .por d b a g => Sys2Proof.Machine.execPor d b a g s
  | .pxor d b a g => Sys2Proof.Machine.execPxor d b a g s
  | .pnot d a g => Sys2Proof.Machine.execPnot d a g s
  | .p2v d g => Sys2Proof.Machine.execP2v d g s
  | .v2p a g => Sys2Proof.Machine.execV2p a g s
  | .pset d a g => Sys2Proof.Machine.execPset d a g s
  | .iaddi d a imm => Sys2Proof.Machine.execIaddi d a imm s
  | .imuli d a imm => Sys2Proof.Machine.execImuli d a imm s
  | .andi d a imm => Sys2Proof.Machine.execAndi d a imm s
  | .ori d a imm => Sys2Proof.Machine.execOri d a imm s
  | .xori d a imm => Sys2Proof.Machine.execXori d a imm s
  | .shli d a n => Sys2Proof.Machine.execShli d a n s
  | .shri d a n => Sys2Proof.Machine.execShri d a n s
  | .sari d a n => Sys2Proof.Machine.execSari d a n s
  | .icmpi c p a imm => Sys2Proof.Machine.execIcmpi c p a imm s
  | .movl d imm => Sys2Proof.Machine.execMovl d imm s
  | .movh d imm => Sys2Proof.Machine.execMovh d imm s
  | .bra g imm => Sys2Proof.Machine.execBra g imm s
  | .call g imm => Sys2Proof.Machine.execCall g imm s
  | .brx a g => Sys2Proof.Machine.execBrx a g s
  | .callx a g => Sys2Proof.Machine.execCallx a g s
  | .ret g => Sys2Proof.Machine.execRet g s
  | .exit g => Sys2Proof.Machine.execExit g s
  | .join imm => Sys2Proof.Machine.execJoin imm s
  | .winb imm => Sys2Proof.Machine.execWinb imm s
  | .trap imm => Sys2Proof.Machine.execTrap imm s
  | .bpt imm => Sys2Proof.Machine.execBpt imm s
  | .xt h c sel => Sys2Proof.Machine.execXt h c sel s
  | .fadd d a b g => Sys2Proof.Machine.execFadd d a b g s
  | .fsub d a b g => Sys2Proof.Machine.execFsub d a b g s
  | .fmul d a b g => Sys2Proof.Machine.execFmul d a b g s
  | .ffma d a b g => Sys2Proof.Machine.execFfma d a b g s
  | .ffms d a b g => Sys2Proof.Machine.execFfms d a b g s
  | .fmin d a b g => Sys2Proof.Machine.execFmin d a b g s
  | .fmax d a b g => Sys2Proof.Machine.execFmax d a b g s
  | .fcmp c p a b g => Sys2Proof.Machine.execFcmp c p a b g s
  | .fdiv d a b g => Sys2Proof.Machine.execFdiv d a b g s
  | .fscale d a b g => Sys2Proof.Machine.execFscale d a b g s
  | .hadd2 d a b g => Sys2Proof.Machine.execHadd2 d a b g s
  | .hmul2 d a b g => Sys2Proof.Machine.execHmul2 d a b g s
  | .hfma2 d a b g => Sys2Proof.Machine.execHfma2 d a b g s
  | .badd2 d a b g => Sys2Proof.Machine.execBadd2 d a b g s
  | .bmul2 d a b g => Sys2Proof.Machine.execBmul2 d a b g s
  | .bfma2 d a b g => Sys2Proof.Machine.execBfma2 d a b g s
  | .fdot4 d a b g => Sys2Proof.Machine.execFdot4 d a b g s
  | .fdot4E5 d a b g => Sys2Proof.Machine.execFdot4E5 d a b g s
  | .fabs d a g => Sys2Proof.Machine.execFabs d a g s
  | .fneg d a g => Sys2Proof.Machine.execFneg d a g s
  | .frcp d a g => Sys2Proof.Machine.execFrcp d a g s
  | .fsqrt d a g => Sys2Proof.Machine.execFsqrt d a g s
  | .frsq d a g => Sys2Proof.Machine.execFrsq d a g s
  | .fexp2 d a g => Sys2Proof.Machine.execFexp2 d a g s
  | .flog2 d a g => Sys2Proof.Machine.execFlog2 d a g s
  | .fsin d a g => Sys2Proof.Machine.execFsin d a g s
  | .fcos d a g => Sys2Proof.Machine.execFcos d a g s
  | .ftanh d a g => Sys2Proof.Machine.execFtanh d a g s
  | .fsigm d a g => Sys2Proof.Machine.execFsigm d a g s
  | .fclass d a g => Sys2Proof.Machine.execFclass d a g s
  | .frndRn d a g => Sys2Proof.Machine.execFrndRn d a g s
  | .frndRz d a g => Sys2Proof.Machine.execFrndRz d a g s
  | .frndRd d a g => Sys2Proof.Machine.execFrndRd d a g s
  | .frndRu d a g => Sys2Proof.Machine.execFrndRu d a g s
  | .fcvt d a b g => Sys2Proof.Machine.execFcvt d a b g s
  | .shflIdx d a b g => Sys2Proof.Machine.execShflIdx d a b g s
  | .shflUp d a b g => Sys2Proof.Machine.execShflUp d a b g s
  | .shflDn d a b g => Sys2Proof.Machine.execShflDn d a b g s
  | .shflXor d a b g => Sys2Proof.Machine.execShflXor d a b g s
  | .voteAny d a g => Sys2Proof.Machine.execVoteAny d a g s
  | .voteAll d a g => Sys2Proof.Machine.execVoteAll d a g s
  | .voteBallot d a g => Sys2Proof.Machine.execVoteBallot d a g s
  | .voteCount d a g => Sys2Proof.Machine.execVoteCount d a g s
  | .redwAddS32 d a g => Sys2Proof.Machine.execRedwAddS32 d a g s
  | .redwAddF32 d a g => Sys2Proof.Machine.execRedwAddF32 d a g s
  | .redwMinS d a g => Sys2Proof.Machine.execRedwMinS d a g s
  | .redwMinN d a g => Sys2Proof.Machine.execRedwMinN d a g s
  | .redwMaxS d a g => Sys2Proof.Machine.execRedwMaxS d a g s
  | .redwMaxN d a g => Sys2Proof.Machine.execRedwMaxN d a g s
  | .redwMinF d a g => Sys2Proof.Machine.execRedwMinF d a g s
  | .redwMaxF d a g => Sys2Proof.Machine.execRedwMaxF d a g s
  | .redwAnd d a g => Sys2Proof.Machine.execRedwAnd d a g s
  | .redwOr d a g => Sys2Proof.Machine.execRedwOr d a g s
  | .redwXor d a g => Sys2Proof.Machine.execRedwXor d a g s
  | .scanwInclS32 d a g => Sys2Proof.Machine.execScanwInclS32 d a g s
  | .scanwExclS32 d a g => Sys2Proof.Machine.execScanwExclS32 d a g s
  | .scanwInclF32 d a g => Sys2Proof.Machine.execScanwInclF32 d a g s
  | .scanwExclF32 d a g => Sys2Proof.Machine.execScanwExclF32 d a g s
  | .matchL d a g => Sys2Proof.Machine.execMatchL d a g s
  | .fencew g => Sys2Proof.Machine.execFencew g s
  | .ldN8 d a b g => Sys2Proof.Machine.execLdN8 d a b g s
  | .ldS8 d a b g => Sys2Proof.Machine.execLdS8 d a b g s
  | .ldN16 d a b g => Sys2Proof.Machine.execLdN16 d a b g s
  | .ldS16 d a b g => Sys2Proof.Machine.execLdS16 d a b g s
  | .ld32 d a b g => Sys2Proof.Machine.execLd32 d a b g s
  | .ld64 d a b g => Sys2Proof.Machine.execLd64 d a b g s
  | .ld128 d a b g => Sys2Proof.Machine.execLd128 d a b g s
  | .st8 d a b g => Sys2Proof.Machine.execSt8 d a b g s
  | .st16 d a b g => Sys2Proof.Machine.execSt16 d a b g s
  | .st32 d a b g => Sys2Proof.Machine.execSt32 d a b g s
  | .st64 d a b g => Sys2Proof.Machine.execSt64 d a b g s
  | .st128 d a b g => Sys2Proof.Machine.execSt128 d a b g s
  | .ldc d a b g => Sys2Proof.Machine.execLdc d a b g s
  | .tld d a b g => Sys2Proof.Machine.execTld d a b g s
  | .tst d a b g => Sys2Proof.Machine.execTst d a b g s
  | .pftL1 a b g => Sys2Proof.Machine.execPftL1 a b g s
  | .pftLlc a b g => Sys2Proof.Machine.execPftLlc a b g s
  | .cflushWb a g => Sys2Proof.Machine.execCflushWb a g s
  | .cflushInv a g => Sys2Proof.Machine.execCflushInv a g s
  | .cflushWbinv a g => Sys2Proof.Machine.execCflushWbinv a g s
  | .atom d a b g => Sys2Proof.Machine.execAtom d a b g s
  | .atomc d a b g => Sys2Proof.Machine.execAtomc d a b g s
  | .red d a b g => Sys2Proof.Machine.execRed d a b g s
  | .agginc d a b g => Sys2Proof.Machine.execAgginc d a b g s
  | .fence d sel k => Sys2Proof.Machine.execFence d sel k s
  | .txb imm => Sys2Proof.Machine.execTxb imm s
  | .txe => Sys2Proof.Machine.execTxe s
  | .orelse imm => Sys2Proof.Machine.execOrelse imm s
  | .retry g => Sys2Proof.Machine.execRetry g s
  | .txa a g => Sys2Proof.Machine.execTxa a g s
  | .txq d g => Sys2Proof.Machine.execTxq d g s
  | .phreg d a g => Sys2Proof.Machine.execPhreg d a g s
  | .phdrop d a g => Sys2Proof.Machine.execPhdrop d a g s
  | .pharr d a g => Sys2Proof.Machine.execPharr d a g s
  | .phrd d a g => Sys2Proof.Machine.execPhrd d a g s
  | .tagany p a g => Sys2Proof.Machine.execTagany p a g s
  | .tagall p a g => Sys2Proof.Machine.execTagall p a g s
  | .tagff d a g => Sys2Proof.Machine.execTagff d a g s
  | .tagclr a g => Sys2Proof.Machine.execTagclr a g s
  | .xkick d a g => Sys2Proof.Machine.execXkick d a g s
  | .xcancel d a g => Sys2Proof.Machine.execXcancel d a g s
  | .xstat d a g => Sys2Proof.Machine.execXstat d a g s
  | .publish d a g => Sys2Proof.Machine.execPublish d a g s
  | .mlds a b => Sys2Proof.Machine.execMlds a b s
  | .mswp a b => Sys2Proof.Machine.execMswp a b s
  | .mstr a b => Sys2Proof.Machine.execMstr a b s
  | .mdrn a b => Sys2Proof.Machine.execMdrn a b s
  | .mzero a b => Sys2Proof.Machine.execMzero a b s
  | .mrd d a g => Sys2Proof.Machine.execMrd d a g s
  | .mwr d a g => Sys2Proof.Machine.execMwr d a g s
  | .zld d a b g => Sys2Proof.Machine.execZld d a b g s
  | .zst d a b g => Sys2Proof.Machine.execZst d a b g s
  | .zqry d a g => Sys2Proof.Machine.execZqry d a g s
  | .zver d a g => Sys2Proof.Machine.execZver d a g s
  | .tqry d a g => Sys2Proof.Machine.execTqry d a g s
  | .ctinv d a g => Sys2Proof.Machine.execCtinv d a g s
  | .ctloadCt sel a b g => Sys2Proof.Machine.execCtloadCt sel a b g s
  | .ctloadCb sel a b g => Sys2Proof.Machine.execCtloadCb sel a b g s
  | .recfence a g => Sys2Proof.Machine.execRecfence a g s
  | .shfence a g => Sys2Proof.Machine.execShfence a g s
  | .launch d a b g => Sys2Proof.Machine.execLaunch d a b g s
  | .cntrd d a g => Sys2Proof.Machine.execCntrd d a g s
  | .cancel d a g => Sys2Proof.Machine.execCancel d a g s
  | .qput p a q g => Sys2Proof.Machine.execQput p a q g s
  | .qtake d p q g => Sys2Proof.Machine.execQtake d p q g s
  | .srd d imm => Sys2Proof.Machine.execSrd d imm s
  | .swr a imm => Sys2Proof.Machine.execSwr a imm s
  | .segld a sel => Sys2Proof.Machine.execSegld a sel s
  | .grprd d a g => Sys2Proof.Machine.execGrprd d a g s
  | .grpwr d a g => Sys2Proof.Machine.execGrpwr d a g s
  | .grpres d a g => Sys2Proof.Machine.execGrpres d a g s
  | .tret g => Sys2Proof.Machine.execTret g s
  | .tlbinv a g => Sys2Proof.Machine.execTlbinv a g s
  | .tlbinv2 a g => Sys2Proof.Machine.execTlbinv2 a g s
  | .xlate d a g => Sys2Proof.Machine.execXlate d a g s
  | .phstart d a g => Sys2Proof.Machine.execPhstart d a g s
  | .asyncFaultTake warp => Sys2Proof.Machine.execAsyncFaultTake warp s
  | .loadArrival warp reg => Sys2Proof.Machine.execLoadArrival warp reg s
  | .joinTimeout warp => Sys2Proof.Machine.execJoinTimeout warp s
  | .urgencyCompare team => Sys2Proof.Machine.execUrgencyCompare team s
  | .poolPressure core => Sys2Proof.Machine.execPoolPressure core s
  | .pipelineSample graph => Sys2Proof.Machine.execPipelineSample graph s
  | .groupPlace part => Sys2Proof.Machine.execGroupPlace part s
  | .heldStart job => Sys2Proof.Machine.execHeldStart job s
  | .launchStart graph node => Sys2Proof.Machine.execLaunchStart graph node s
  | .groupComplete group => Sys2Proof.Machine.execGroupComplete group s
  | .budgetOverrun job => Sys2Proof.Machine.execBudgetOverrun job s
  | .deadlineExpiry job => Sys2Proof.Machine.execDeadlineExpiry job s
  | .copyComplete core copy => Sys2Proof.Machine.execCopyComplete core copy s
  | .followOnIssue core copy => Sys2Proof.Machine.execFollowOnIssue core copy s
  | .shadowCopyStart core copy => Sys2Proof.Machine.execShadowCopyStart core copy s
  | .collectiveAccept group => Sys2Proof.Machine.execCollectiveAccept group s
  | .collectiveTimeout group => Sys2Proof.Machine.execCollectiveTimeout group s
  | .mstrBackground core => Sys2Proof.Machine.execMstrBackground core s
  | .drainBackground core => Sys2Proof.Machine.execDrainBackground core s
  | .seamDecode core => Sys2Proof.Machine.execSeamDecode core s
  | .slabEncode core copy => Sys2Proof.Machine.execSlabEncode core copy s
  | .decoderPendingWake core => Sys2Proof.Machine.execDecoderPendingWake core s
  | .warpWake warp => Sys2Proof.Machine.execWarpWake warp s
  | .txAbortDeliver warp => Sys2Proof.Machine.execTxAbortDeliver warp s
  | .conflictBackoffEnd warp => Sys2Proof.Machine.execConflictBackoffEnd warp s
  | .pageWalkComplete core => Sys2Proof.Machine.execPageWalkComplete core s
  | .migratingRewalk warp => Sys2Proof.Machine.execMigratingRewalk warp s
  | .wcbAgeDrain core => Sys2Proof.Machine.execWcbAgeDrain core s
  | .remoteAccess msg => Sys2Proof.Machine.execRemoteAccess msg s
  | .peerFailed peer => Sys2Proof.Machine.execPeerFailed peer s
  | .groupCaptured group => Sys2Proof.Machine.execGroupCaptured group s
  | .vencAccept core copy => Sys2Proof.Machine.execVencAccept core copy s
  | .vencFrameStart enc slot => Sys2Proof.Machine.execVencFrameStart enc slot s
  | .vencFrameDone enc slot => Sys2Proof.Machine.execVencFrameDone enc slot s
  | .illegalInstruction word => Sys2Proof.Machine.execIllegalInstruction word s
  | .instructionFetchFault => Sys2Proof.Machine.execInstructionFetchFault s
  | .intakeComplete core => Sys2Proof.Machine.execIntakeComplete core s
  | .writePerformed core index => Sys2Proof.Machine.execWritePerformed core index s
  | .reduceContribution c => Sys2Proof.Machine.execReduceContribution c s
  | .memoRemovalMessage chip => Sys2Proof.Machine.execMemoRemovalMessage chip s
  | .flitReceive port link flit => Sys2Proof.Machine.execFlitReceive port link flit s
  | .idleFlit port link => Sys2Proof.Machine.execIdleFlit port link s
  | .linkDown port link => Sys2Proof.Machine.execLinkDown port link s
  | .linkTraining port link farChip farPort => Sys2Proof.Machine.execLinkTraining port link farChip farPort s
  | .hostMemAccess addr access => Sys2Proof.Machine.execHostMemAccess addr access s
  | .bar2Access part addr access => Sys2Proof.Machine.execBar2Access part addr access s
  | .doorbell part value => Sys2Proof.Machine.execDoorbell part value s
  | .install part addr => Sys2Proof.Machine.execInstall part addr s
  | .remove part jobno => Sys2Proof.Machine.execRemove part jobno s
  | .phasestart part addr => Sys2Proof.Machine.execPhasestart part addr s
  | .hostCancel part operand jobno => Sys2Proof.Machine.execHostCancel part operand jobno s
  | .release part jobno => Sys2Proof.Machine.execRelease part jobno s
  | .failedClear part mask => Sys2Proof.Machine.execFailedClear part mask s
  | .registerWrite part offset value => Sys2Proof.Machine.execRegisterWrite part offset value s
  | .rdreg part offset => Sys2Proof.Machine.execRdreg part offset s
  | .wrreg part offset value => Sys2Proof.Machine.execWrreg part offset value s
  | .preempt part => Sys2Proof.Machine.execPreempt part s
  | .holdWrite part hold => Sys2Proof.Machine.execHoldWrite part hold s
  | .logovfClear part => Sys2Proof.Machine.execLogovfClear part s
  | .partcfgWrite numbers => Sys2Proof.Machine.execPartcfgWrite numbers s
  | .nodecfgWrite cfg => Sys2Proof.Machine.execNodecfgWrite cfg s
  | .keyload slot owner key bypass => Sys2Proof.Machine.execKeyload slot owner key bypass s
  | .keyclr slot => Sys2Proof.Machine.execKeyclr slot s
  | .attest nonce part => Sys2Proof.Machine.execAttest nonce part s
  | .preset part => Sys2Proof.Machine.execPreset part s
  | .telem die => Sys2Proof.Machine.execTelem die s
  | .svnup => Sys2Proof.Machine.execSvnup s
  | .powerOn image => Sys2Proof.Machine.execPowerOn image s
  | .deviceReset image => Sys2Proof.Machine.execDeviceReset image s
  | .frameSyncEdge part => Sys2Proof.Machine.execFrameSyncEdge part s
  | .clockLower part => Sys2Proof.Machine.execClockLower part s
  | .clockRaise part => Sys2Proof.Machine.execClockRaise part s
  | .thermalThreshold die tenths => Sys2Proof.Machine.execThermalThreshold die tenths s
  | .hbmEccError line correctable => Sys2Proof.Machine.execHbmEccError line correctable s
  | .preemptRequest group => Sys2Proof.Machine.execPreemptRequest group s
  | .carveWrite part die ways => Sys2Proof.Machine.execCarveWrite part die ways s
  | .cxlCacheSnoop line invalidate => Sys2Proof.Machine.execCxlCacheSnoop line invalidate s

end Sys2Proof.Machine
end

