-- ==== Sys2Proof/Machine/Issue.lean ====
section
/-!
DEFINITION. One issue of a warp: the choice of a stream (R139, R140), when it may issue (R152, R155, R157, R159), which of
the ready streams of a scheduler goes first (R140, R153), the fetch and decode of its word, and what the window and the
memo keep of it (R156, R164).
-/
namespace Sys2Proof.Machine

/-- The loop buffers of the lanes of a side stream take a word they fetch, PC + k; the least recent of 48 goes (R140). -/
def fillLoops (k m : Word) (f : Frame) : Frame :=
  { f with loops := lanesOf fun l =>
      let tags := f.loops.getD l []
      let pc := f.pcs.getD l 0 + k
      if m.getLsbD l then (pc :: tags.filter fun p => p != pc).take 48 else tags }

/-- What an instruction has kept since its stream executed it before comes back, by the PC it waits at (R140). -/
def unpark (s : State) : State :=
  let f := s.frame
  { s with warp := { s.warp with
      hold := ((f.parked.find? fun p => p.1 == s.pc.toNat).map (·.2)).getD Hold.none
      frame := { f with parked := f.parked.filter fun p => p.1 != s.pc.toNat } } }

/-- What the instruction at a PC keeps until its stream executes it again is put aside; what is kept for a PC that no live
lane stands at goes. -/
def park (pc : Word) (s : State) : State :=
  let f := s.frame
  let stands (n : Nat) : Bool := (lanesIn f.live).any fun l => (f.pcs.getD l 0).toNat == n
  let rest := f.parked.filter fun p => p.1 != pc.toNat && stands p.1
  { s with warp := { s.warp with
      hold := Hold.none
      frame := { f with parked := if s.warp.hold = Hold.none then rest else (pc.toNat, s.warp.hold) :: rest } } }

/-- A warp takes the issuing place, regrouped, with the lanes of one of its streams: stream 0 is the broadcast stream,
stream n its side stream n (R139, R140). -/
def selectStream (uid stream : Nat) (s : State) : State :=
  let t := s.focus uid
  let r := regroup t
  unpark { t with
    lanes := if stream = 0 then r.broadcast else r.sides.getD (stream - 1) 0
    warp := { t.warp with frame := { t.frame with join := r.join } } }

/-- The stream in the issuing place is not held up: its warp runs, is awake, its group holds the core, no back-off delays
the warp and no MIGRATING page the stream, and it has a lane (R140, R152, R238, R271, R372). An atomic of it that has left
for a peer is still waited for while its group is asked to stop (R316). -/
def canIssue (t : State) : Bool :=
  let w := t.warp
  let g := t.group
  w.run == .running && !w.asleep && t.lanes != 0 && g.status == .resident && w.group == g.uid &&
    ((!g.preempt && !g.abort) || (w.hold.atom && !w.hold.atPeer.isEmpty)) && w.frame.tx.backoff.isNone &&
    (match w.hold.migrating with | some m => m.2 || w.hold.migReady | none => true)

/-- The architectural registers that the word at the PC reads or writes: those its fields name, those that an access to
the register segment reaches (R208), and for an XT pair those of all its instances. -/
def wordRegs (i : Instr) (t : State) : List Nat :=
  match i with
  | .xt h c st =>
    match fetchWord t (t.pc + 4) with
    | .error _ => []
    | .ok w =>
      match decode w with
      | .ok j => (xtOffsets h c st).flatMap fun k => (srcRegs j ++ dstRegs j).map fun r => t.arch (r + k)
      | .error _ => []
  | _ => (srcRegs i ++ t.writes i).map t.arch ++ regsByAddress i t

/-- No register of the word waits for a load (R152, R155). -/
def registersReady (i : Instr) (t : State) : Bool :=
  (wordRegs i t).all fun r => !(t.warp.staging.any fun e => e.dest == r)

/-- A load finds free staging entries among the 32 of its scheduler (R157). -/
def stagingRoom (i : Instr) (t : State) : Bool :=
  !(isLoad i) ||
    (let us := (t.groupsOn t.core.id).map (·.uid)
     let mine := t.allWarps.filter fun w => us.contains w.group && w.slot % 4 == t.warp.slot % 4
     decide ((mine.map fun w => w.staging.length).sum + (t.writes i).length ≤ 32))

/-- A frame keeps the names whose entries hold its registers; the others are to be named anew (R159). -/
def Frame.loosen (c : Core) (f : Frame) : Frame :=
  { f with names := f.names.filter fun p =>
      match c.entryOf p.2 with
      | some e => e.words == (f.reg p.1).full && e.poison == (f.reg p.1).poison
      | none => false }

/-- The issuing warp's frames after an instruction that did not retire. -/
def loosenWarp (s : State) : State :=
  { s with warp := { s.warp with
      frame := s.warp.frame.loosen s.core
      saved := s.warp.saved.map (Frame.loosen s.core) } }

/-- The instruction waits, and its stream executes it again. -/
def Warp.holds (w : Warp) : Bool := w.hold.waiting || (w.hold.migrating.isSome && !w.hold.migReady)

/-- The instruction has retired, or is to begin anew: it keeps nothing. -/
def State.unhold (s : State) : State := { s with warp := { s.warp with hold := Hold.none } }

/-- J is cleared after the issue that brings every live lane to it, or once its time is over (R139). -/
def rejoin (s : State) : State :=
  if s.frame.join.isSome then s.updFrame fun f => { f with join := (regroup s).join } else s

/-- What one executed instruction leaves to the window, the memo and the names: u stood before it, v after it. An
instruction that waits, or a collective that is presented, has not retired; a fault or an abort of the transaction
enters nothing in the memo. -/
def settleIssue (i : Instr) (u v : State) : State :=
  if v.warp.holds then v
  else if v.warp.run = .presented then v.unhold
  else if (u.warp.level ≠ .handler ∧ v.warp.level = .handler) ∨ v.warp.run = .wedged then loosenWarp v
  else
    let ps := probesOf i u
    rejoin (if u.frame.tx.active ∧ !v.frame.tx.active ∧ i ≠ .txe then
        retire (ps.map fun p => { p with key := none }) [] v.unhold
      else retire ps (ps.map (memoHit u.core)) v.unhold)

/-- The lanes of the issuing stream issue now, and the counted cycles of the warp begin anew (R140, R153). DESIGN CHOICE:
an issue of a side stream counts as one of the warp's; R153 says "since it last issued" and no more: log entry 83. -/
def startIssue (t : State) : State :=
  { t with warp := { t.warp with
      hold := { t.warp.hold with waiting := false }
      passed := 0
      laneAt := lanesOf fun l => if t.lanes.getLsbD l then t.clock else t.warp.laneAt.getD l 0 } }

/-- A decoded instruction is issued: it waits for its registers, staging entries and names (R152, R159); then a load that
the memo holds delivers the recorded names (R164), and any other instruction is executed. -/
def issueInstr (i : Instr) (t : State) : Out :=
  if !(registersReady i t) || !(stagingRoom i t) then .next t
  else
    let q := settleNames t
    if !q.2 then .next q.1
    else
      let u := startIssue q.1
      match hitLoad i u with
      | some v => .next (settleIssue i u v)
      | none =>
        match exec i u with
        | .next v => .next (settleIssue i u v)
        | r => r

/-- A side stream has fetched a word, whatever it decodes to, and after an XT the word it prefixes (R54, R140). -/
def takeWords (stream : Nat) (w : Word) (t : State) : State :=
  if stream = 0 then t
  else
    let u := t.updFrame (fillLoops 0 t.lanes)
    match decode w with
    | .ok (.xt _ _ _) => u.updFrame (fillLoops 4 t.lanes)
    | _ => u

/-- The word at the PC of the issuing stream is fetched, decoded and issued (R137, R138, R44). -/
def issueWord (stream : Nat) (t : State) : Out :=
  match fetchWord t t.pc with
  | .error _ => exec .instructionFetchFault t
  | .ok w =>
    let t := takeWords stream w (useTranslation t.job (t.fetchAddr t.pc) accExec t)
    match decode w with
    | .error _ => exec (.illegalInstruction w) t
    | .ok i => issueInstr i t

-- Which stream goes first

/-- A stream of a warp is ready (R152). Whether the execution unit it needs accepts an issue in this step is a matter of
its rate, which is free (R172, log entry 11). -/
def streamReady (s : State) (w : Warp) (stream : Nat) : Bool :=
  w.run == .running && !w.asleep &&
    (let t := selectStream w.uid stream s
     canIssue t && !t.warp.hold.waiting &&
       (match fetchWord t t.pc with
        | .error _ => true
        | .ok x =>
          match decode x with
          | .error _ => true
          | .ok i => registersReady i t && stagingRoom i t && (t.warp.stalled.isNone || (settleNames t).2))) &&
    Config.unitAccepts s.clock w.uid

/-- Core and scheduler of a warp (R151). -/
def schedulerOf (s : State) (w : Warp) : Nat × Nat := ((s.groupOf w.group).core, w.slot % 4)

/-- The tier a warp runs at (R112). -/
def warpTier (s : State) (w : Warp) : Nat := tierOf s (s.launchOf (s.groupOf w.group).launch)

/-- The order of R153 as a list that is compared from its front: tier, starved, boost, age, slot (R151). -/
def issueRank (s : State) (w : Warp) : List Nat :=
  let g := s.groupOf w.group
  let starved : Bool := decide (64 ≤ w.passed)
  [warpTier s w, if starved then 0 else 1, if starved || g.boost then 0 else 1, g.age, w.slot]

/-- One list comes before another of its length. -/
def before : List Nat → List Nat → Bool
  | a :: as, b :: bs => decide (a < b) || (a == b && before as bs)
  | _, _ => false

/-- The first item of a list under an order. -/
def firstBy {α : Type} (rank : α → List Nat) (xs : List α) : Option α :=
  xs.foldl (fun b x => match b with
    | none => some x
    | some y => if before (rank x) (rank y) then some x else some y) none

/-- The other running warps of a warp's scheduler. -/
def mates (s : State) (w : Warp) : List Warp :=
  s.allWarps.filter fun x => x.uid != w.uid && x.run == .running && schedulerOf s x == schedulerOf s w

/-- The side streams of a running warp: warp, number and lanes (R139). -/
def sidesOf (s : State) (w : Warp) : List (Warp × Nat × Word) :=
  if w.run = .running ∧ !w.asleep then (regroup (s.focus w.uid)).sides.zipIdx.map fun m => (w, m.2 + 1, m.1) else []

/-- How long a side stream has waited: the step at which a lane of it last issued, then its warp's slot and its number
(R140). -/
def sideRank (x : Warp × Nat × Word) : List Nat :=
  [((lanesIn x.2.2).map fun l => x.1.laneAt.getD l 0).foldl max 0, x.1.slot, x.2.1]

/-- The scheduler's main slot, or its side slot, serves this stream: no ready stream of its scheduler goes before it
(R140, R153). -/
def mayIssue (s : State) (uid stream : Nat) : Bool :=
  let w := s.warpOf uid
  if stream = 0 then (mates s w).all fun x => !(before (issueRank s x) (issueRank s w) && streamReady s x 0)
  else
    let mine := sidesOf s w
    match mine.find? fun x => x.2.1 == stream with
    | none => false
    | some m => (mine ++ (mates s w).flatMap (sidesOf s)).all fun x =>
        !(before (sideRank x) (sideRank m) && streamReady s x.1 x.2.1)

/-- Ready warps that share scheduler and tier with the one whose broadcast stream issues count a cycle (R153). -/
def countPassed (uid : Nat) (s : State) : State :=
  let w := s.warpOf uid
  let us := ((mates s w).filter fun x => warpTier s x == warpTier s w && streamReady s x 0).map (·.uid)
  s.mapWarps fun x => if us.contains x.uid then { x with passed := x.passed + 1 } else x

/-- What an instruction that waits keeps is put aside once its stream has had its turn. -/
def thenPark (pc : Word) : Out → Out
  | .next t => .next (park pc t)
  | r => r

/-- One stream of a warp issues, if it may and its turn has come. An abort of its transaction that has been decided
reaches the warp at this boundary instead of an instruction (R267). -/
def issueStream (uid stream : Nat) (s : State) : Out :=
  let t := selectStream uid stream s
  if !(canIssue t) || !(mayIssue s uid stream) then .next s
  else if t.frame.tx.active && t.frame.tx.pending then .next (abortTx 1 0 t)
  else thenPark t.pc (issueWord stream (if stream = 0 then selectStream uid stream (countPassed uid s) else t))

end Sys2Proof.Machine
end

