-- ==== Sys2Proof/Machine/Inputs.lean ====
section
/-!
DEFINITION. What comes from outside the instruction streams: time, register errors, evictions, copies that land, walks,
peers and the host's own memory, and the agenda that orders them.
-/
namespace Sys2Proof.Machine

/-- A core belongs to a partition (R12, R14). -/
def coreIn (s : State) (part core : Nat) : Bool := (s.partOf part).dies.contains (core / 36)

/-- The cores on which a job has a group that holds its place, resident or draining (R123, R127, R378). -/
def jobCores (s : State) (job : Nat) : Nat :=
  (distinct ((s.allGroups.filter fun g => g.onCore && g.job == job).map (·.core))).length

/-- A group is the lowest of its team that holds a core. -/
def firstOfTeam (s : State) (g : Group) : Bool :=
  g.onCore && (teamOf s g).all fun x => !x.onCore || decide (g.rank ≤ x.rank)

/-- Teams whose 4096-cycle comparison, counted from their start or resumption, falls due while their cores count n cycles
on; each is named by the lowest rank of it that still holds a core (R154). -/
def dueCompares (s : State) (part n : Nat) : List Input :=
  (s.allGroups.filter fun g =>
      decide (1 < g.teamSize) && firstOfTeam s g && coreIn s part g.core &&
        (let c := (s.coreOf g.core).cycle
         decide ((c - g.since) / 4096 < (c + n - g.since) / 4096))).map fun g => .event (.urgencyCompare g.uid)

/-- The jobs of this device in a partition. -/
def jobsIn (s : State) (part : Nat) : List Job := s.jobs.filter fun j => j.chip == s.node.chip && j.part == part

/-- Time passes in a partition at one stretch: its tick counter, its cores' cycle counters, and the charges of its jobs,
which may overrun (R123, R135). -/
def passSpan (part ticks cycles : Nat) (s : State) : State :=
  let t := s.updPart part fun p => { p with tick := p.tick + ticks, cycle := p.cycle + cycles }
  let t := t.mapCores fun c => if coreIn s part c.id then { c with cycle := c.cycle + cycles } else c
  let t : State := { t with
    jobs := t.jobs.map fun j =>
      if j.part = part ∧ j.chip = s.node.chip ∧ j.perStart.isSome then { j with charge := j.charge + cycles * jobCores s j.uid }
      else j }
  ((jobsIn t part).map (·.uid)).foldl (fun u j => overrunJob j u) t

/-- The ticks at which something of a job falls due: a held start, and a deadline (R116, R123). -/
def Job.stops (j : Job) : List Nat :=
  match j.perStart with
  | .none => []
  | some t => (if j.held.isSome then [t + j.period] else []) ++ (if j.contract && !j.deadlineSeen then [t + j.deadline] else [])

/-- The first tick after this one, within n, at which something of a partition's jobs falls due. -/
def nextStop (s : State) (part n : Nat) : Option Nat :=
  let now := (s.partOf part).tick
  ((jobsIn s part).flatMap Job.stops).foldl (fun b t =>
    if t ≤ now ∨ now + n < t then b else some (match b with | none => t | some x => min x t)) none

/-- What falls due at a tick happens there: deadlines, then held starts, whose new periods begin at that tick (R116,
R123). -/
def settleTick (part : Nat) (s : State) : State :=
  let us := (jobsIn s part).map (·.uid)
  us.foldl (fun t j => beginHeld j t) (us.foldl (fun t j => expireDeadline j t) s)

/-- Time passes, stopping at every tick at which something falls due. -/
def passStops (part : Nat) : Nat → Nat → Nat → State → State
  | 0, ticks, cycles, s => passSpan part ticks cycles s
  | n + 1, ticks, cycles, s =>
    match nextStop s part ticks with
    | none => passSpan part ticks cycles s
    | some b =>
      let d := b - (s.partOf part).tick
      let c := cycles * d / ticks
      passStops part n (ticks - d) (cycles - c) (settleTick part (passSpan part d c s))

/-- Time passes in a partition (R123, R135). A job has at most a deadline, a held start and the deadline of the period
that begins with it on the way. -/
def passTime (part ticks cycles : Nat) (s : State) : State :=
  let t := passStops part (3 * (jobsIn s part).length) ticks cycles s
  { t with agenda := dueCompares s part cycles ++ t.agenda }

/-- Registers that hold the value of a name are poisoned in lanes: not those whose newer value is not yet named (R155). -/
def Frame.spoil (busy : List Nat) (name : Nat) (m : Word) (f : Frame) : Frame :=
  { f with regs := f.regs.map fun r =>
      if f.nameOf r.1 = name ∧ !(busy.contains r.1) then (r.1, { r.2 with poison := r.2.poison ||| m }) else r }

/-- A warp's registers under a name are poisoned in lanes. -/
def Warp.spoil (name : Nat) (m : Word) (w : Warp) : Warp :=
  { w with frame := w.frame.spoil w.pendingRegs name m, saved := w.saved.map (Frame.spoil [] name m) }

/-- The partition of a core. -/
def corePart (s : State) (core : Nat) : Nat := ((s.parts.find? fun p => p.dies.contains (core / 36)).map (·.num)).getD 0

/-- A read of a pool entry finds an error in lane words: corrected where RELPOL[0] allows it, or the entry is poisoned in
those lanes, and with it every register bound to it (R169, R170). -/
def registerError (core name : Nat) (m : Word) (single : Bool) (s : State) : State :=
  let part := corePart s core
  if !((s.coreOf core).pool.any fun e => e.name == name) then s
  else if single && (s.partOf part).relpol.getLsbD 0 then postEvent 3 part 0 (core, name, 0, 0) s
  else
    let us := (s.groupsOn core).map (·.uid)
    let t := s.updCore core fun c => { c with pool := c.pool.map fun e =>
      if e.name = name then { e with poison := e.poison ||| m } else e }
    postEvent 4 part 0 (core, name, 0, 0) (t.mapWarps fun w => if us.contains w.group then w.spoil name m else w)

/-- A read of a load's staging entry finds an error in lane words: corrected where RELPOL[0] allows it, or the value that
the load delivers is poisoned in those lanes, and takes a pool entry of its own when it is named (R169, R170). The entry
has no name yet: the event reports name 0 (log entry 64). -/
def stagingError (warp dest : Nat) (m : Word) (single : Bool) (s : State) : State :=
  let w := s.warpOf warp
  let core := (s.groupOf w.group).core
  let part := corePart s core
  if !(w.staging.any fun e => e.dest == dest) then s
  else if single && (s.partOf part).relpol.getLsbD 0 then postEvent 3 part 0 (core, 0, 0, 0) s
  else
    postEvent 4 part 0 (core, 0, 0, 0) (s.updWarp warp fun w => { w with frame := w.frame.setRegP dest m m (w.frame.word dest) })

/-- The next bytes of a copy land, or the next tile of a handle copy (R256). -/
def landBytes (core uid n : Nat) (s : State) : State :=
  match (s.coreOf core).copies.find? fun x => x.uid == uid with
  | none => s
  | some c =>
    if !c.lands ∨ c.units ≤ c.unit ∨ n = 0 then s
    else
      let t := s.focusGroup c.group
      if c.tiles.isEmpty then
        match landRow c n t with
        | .ok u => u
        | .error (.hold u) => u
        | .error e => landed c (t, some e)
      else landed c (landUnits uid 1 t)

/-- A peer's job becomes known to this device (R229). -/
def knowJob (j : Job) (s : State) : State :=
  if j.chip = s.node.chip then s
  else
    { s with
      fresh := s.fresh + 1
      jobs := { j with uid := s.fresh } ::
        s.jobs.filter fun x => !(x.chip == j.chip && x.part == j.part && x.jobno == j.jobno) }

/-- The host writes its own memory; a line that a slice held is taken from it (R358). -/
def hostWrites (a : Nat) (bs : List Byte) (s : State) : State :=
  let k := memKey s.node.chip (0x800000000000 + a)
  (linesOf k bs.length).foldl (fun t l => evictLine l t) (performWrite none k bs s)

/-- A list without the item at a place. -/
def without {α : Type} (n : Nat) (xs : List α) : List α := xs.take n ++ xs.drop (n + 1)

/-- An operation or event of the part, which no fetch brings: every constructor without words but the two faults of
fetched words. -/
def isEvent (i : Instr) : Bool :=
  (encode i).isEmpty && (match i with | .illegalInstruction _ => false | .instructionFetchFault => false | _ => true)

/-- One entry of the agenda happens. -/
def runInput (x : Input) (s : State) : Out :=
  match x with
  | .event i => if isEvent i then exec i s else .next s
  | .issue uid stream => issueStream uid stream s
  | .regError core name lanes single => .next (registerError core name lanes single s)
  | .stagingError warp dest lanes single => .next (stagingError warp dest lanes single s)
  | .evict line => .next (evictLine line s)
  | .land core copy n => .next (landBytes core copy n s)
  | .beginWalk core job va write => .next (startWalk core job va write s)
  | .peerWrite a bs => .next (if a / 2 ^ 48 = s.node.chip then s else performWrite none a bs s)
  | .peerJob j => .next (knowJob j s)
  | .peerSilent chip b =>
    let t := s.updPeer chip fun p => { p with silent := b }
    .next (if b then t else peerAnswers chip t)
  | .peerIs p => .next (pump (reviewRoutes { s with peers := p :: s.peers.filter fun q => q.chip != p.chip }))
  | .hostWrite a bs => .next (hostWrites a bs s)
  | .elapse part ticks cycles => .next (passTime part ticks cycles s)
  | .dropTlb core n => .next (s.updCore core fun c => { c with tlb := without n c.tlb })
  | .dropDieTlb die n =>
    .next { s with dieTlbs := s.dieTlbs.map fun d => if d.1 = die then (d.1, without n d.2) else d }
  | .dropTableTlb n => .next { s with tableTlb := without n s.tableTlb }
  | .dropRecord core n => .next (s.updCore core fun c => { c with records := without n c.records })
  | .dropL1 core n => .next (s.updCore core fun c => { c with l1 := without n c.l1 })
  | .delayStores b => .next { s with delay := b }
  | .sensors die r => .next (readSensors die r s)

/-- What happens at a device that THERMTRIP holds in reset until power is cycled (R406): a read by the host returns all
ones (R394), a command of the management channel is refused (R407), and nothing else changes anything. -/
def runHeld (x : Input) (s : State) : Out :=
  match x with
  | .event (.powerOn image) => exec (.powerOn image) s
  | .event (.hostMemAccess _ (.read n)) | .event (.bar2Access _ _ (.read n)) => .next (sayData (onesBytes n) s)
  | .event (.rdreg _ _) | .event (.wrreg _ _ _) | .event (.registerWrite _ _ _) | .event (.keyload _ _ _ _) |
    .event (.keyclr _) | .event (.attest _ _) | .event (.preset _) | .event (.telem _) | .event .svnup => answered (1, s)
  | _ => .next s

end Sys2Proof.Machine
end

