-- ==== Sys2Proof/Machine/Schedule.lean ====
section
/-!
DEFINITION. What happens while the agenda is empty: time passes, and either a scheduler issues (R140, R152, R153) or an
event of the part that has become due happens. The order among due events and among schedulers, which the spec leaves
open, goes round in turn; the agenda gives every other order.
-/
namespace Sys2Proof.Machine

-- Issue

/-- Ready side streams (R140). -/
def readySides (s : State) : List (Warp × Nat × Word) :=
  (s.allWarps.flatMap (sidesOf s)).filter fun x => streamReady s x.1 x.2.1

/-- The next issue: each scheduler's main slot and side slot in turn. -/
def pickIssue (turn : Nat) (s : State) : Option (Nat × Nat) :=
  let ready := s.allWarps.filter fun w => streamReady s w 0
  let mains := distinct (ready.map (schedulerOf s))
  let sides := readySides s
  let slots := distinct (sides.map fun x => schedulerOf s x.1)
  let k := turn % (mains.length + slots.length)
  match mains[k]? with
  | some c => (firstBy (issueRank s) (ready.filter fun w => schedulerOf s w == c)).map fun w => (w.uid, 0)
  | none =>
    (slots[k - mains.length]?).bind fun c =>
      (firstBy sideRank (sides.filter fun x => schedulerOf s x.1 == c)).map fun x => (x.1.uid, x.2.1)

-- Due events

/-- Events of a warp that are due. -/
def dueOfWarp (s : State) (w : Warp) : List Instr :=
  let now := (s.coreOf (s.groupOf w.group).core).cycle
  let tx := w.frame.tx
  (w.staging.map fun e => .loadArrival w.uid e.dest) ++
    (if w.asleep && w.woken then [.warpWake w.uid] else []) ++
    (if tx.active && tx.pending then [.txAbortDeliver w.uid] else []) ++
    (match tx.backoff with | some t => if t ≤ now then [.conflictBackoffEnd w.uid] else [] | none => []) ++
    (if (w.frame.parked ++ (w.saved.map (·.parked)).getD []).any fun p => p.2.migrating.any (fun m => !m.2) && !p.2.migReady then
      [.migratingRewalk w.uid] else []) ++
    (if (s.groupOf w.group).onCore && w.frame.join.isSome && decide (w.frame.joinAt + 4096 ≤ now) then [.joinTimeout w.uid] else [])

/-- Events of a group that are due. -/
def dueOfGroup (s : State) (g : Group) : List Instr :=
  if g.status = .saved then (if g.abort then [.groupCaptured g.uid] else [])
  else if !g.onCore then []
  else
    let now := (s.coreOf g.core).cycle
    let ws := s.warpsOf g.uid
    let takers := ws.filter fun w => g.elog.any fun e => e.warp == w.id
    (takers.map fun w => .asyncFaultTake w.uid) ++
      (if (g.preempt || g.abort) && capturable s g.uid then [.groupCaptured g.uid] else []) ++
      (if ws.all fun w => w.run == .ended then [.groupComplete g.uid] else []) ++
      (if (collective s g).isSome then [.collectiveAccept g.uid] else []) ++
      (match firstPresented (presentedOf s g) with
        | some w => if w.presented.since + 2 ^ 20 ≤ now then [.collectiveTimeout g.uid] else []
        | none => [])

/-- The event a copy waits for; of the copies that the hoist holds, the first waits for room (R257, R259). -/
def dueOfCopy (core : Nat) (c : Copy) : Instr :=
  if c.held then .shadowCopyStart core c.uid
  else if c.rec'.does = 5 ∧ c.late.isNone then .vencAccept core c.uid
  else if c.lands ∧ c.rec'.folw ∧ !c.followed ∧ c.units ≤ c.unit then .followOnIssue core c.uid
  else .copyComplete core c.uid

/-- Events of a core that are due. -/
def dueOfCore (s : State) (c : Core) : List Instr :=
  ((c.copies.filter fun x => !x.held || (firstHeld c).any fun y => y.uid == x.uid).map (dueOfCopy c.id)) ++
    (match c.engine.work with
      | .stream _ _ _ _ :: _ => [.mstrBackground c.id]
      | .drain _ _ _ _ _ _ :: _ => [.drainBackground c.id]
      | _ => []) ++
    (match c.engine.intake with
      | some k => if k.waiting then [.decoderPendingWake c.id] else [.seamDecode c.id, .intakeComplete c.id]
      | none => []) ++
    (if c.walks.isEmpty then [] else [.pageWalkComplete c.id]) ++
    (match c.pend.findIdx? fun e => !e.buffered with | some n => [.writePerformed c.id n] | none => []) ++
    (if c.pend.any fun e => e.buffered && decide (e.since + c.wcbage ≤ c.cycle) then [.wcbAgeDrain c.id] else []) ++
    (if pressed s c.id then [.poolPressure c.id] else [])

/-- Events of a job that are due. -/
def dueOfJob (s : State) (j : Job) : List Instr :=
  (if j.held.isSome then [.heldStart j.uid] else []) ++
    (if j.perStart.isSome && j.contract && j.admitted && !j.overrun && decide (j.budget < j.charge) then
      [.budgetOverrun j.uid] else []) ++
    (match j.perStart with
      | some t => if j.contract && !j.deadlineSeen && decide (t + j.deadline ≤ (s.partOf j.part).tick) then [.deadlineExpiry j.uid] else []
      | none => [])

/-- The launch that starts next in a partition: the node that became ready first (R112). -/
def dueOfNodes (s : State) (p : Part) : List Instr :=
  ((firstNode s p.num).map fun n => Instr.launchStart n.1 n.2).toList

/-- A pipeline's sample that is due (R134). -/
def dueOfGraph (s : State) (g : Graph) : List Instr :=
  if g.done then []
  else
    (if g.pipeline && decide (g.samples < (partCycle s (s.jobOf g.job).part - g.startCycle) / 65536) then
      [.pipelineSample g.uid] else [])

/-- Events of an encoder that are due. -/
def dueOfEncoder (e : Encoder) : List Instr :=
  e.queue.map fun v => if v.reading then .vencFrameDone e.id v.rec'.slot else .vencFrameStart e.id v.rec'.slot

/-- Peers that no link or detour reaches any more are declared failed (R353). -/
def dueOfPeer (s : State) (p : Peer) : List Instr :=
  if p.silent && (liveLinks s p.chip).isEmpty && (detourNow s p.chip).isNone && s.parts.any fun q => !q.failed.getLsbD p.chip then
    [.peerFailed p.chip] else []

/-- Something waits for a MIGRATING page, or for answers, outside the warps (R238, R367). -/
def homeWaits (s : State) : Bool :=
  (s.reductions.any fun r => r.since.isSome) || !s.lateLogs.isEmpty || !s.lateWrites.isEmpty

/-- What is due: an event, a step of a partition's clock, or what is left of a REMOVE. -/
inductive Due where
  | event (i : Instr)
  | clock (part : Nat) (down : Bool)
  | removal (part jobno : Nat)

/-- What is due happens, as the event it is. -/
def Due.run (d : Due) (s : State) : Out :=
  match d with
  | .event i => exec i s
  | .clock p true => execClockLower p s
  | .clock p false => execClockRaise p s
  | .removal p n => execRemove p n s

/-- The clock steps that a partition is due (R405). -/
def dueOfClock (s : State) (p : Part) : List Due :=
  (if overLimits s && decide (p.clockStep < 8) then [.clock p.num true] else []) ++
    (if mayRaise s p.num && decide (0 < p.clockStep) then [.clock p.num false] else [])

/-- A removal that waited is due, once nothing of its job is in flight (R379). -/
def dueOfRemoval (s : State) (j : Job) : List Due :=
  if j.removing.isSome && jobClear s j.uid then [.removal j.part j.jobno] else []

/-- The events that are due. -/
def dueInstrs (s : State) : List Instr :=
  (s.inbox.map fun a => Instr.remoteAccess a.msg) ++ s.allWarps.flatMap (dueOfWarp s) ++ s.allGroups.flatMap (dueOfGroup s) ++
    (s.core :: s.cores).flatMap (dueOfCore s) ++
    (s.parts.filter fun p => (!p.hold && p.queues.any fun q => !q.isEmpty) || !(waitingRestarts s p.num).isEmpty).map
      (fun p => .groupPlace p.num) ++
    (if homeWaits s then [.migratingRewalk 0] else []) ++ s.parts.flatMap (dueOfNodes s) ++
    s.jobs.flatMap (dueOfJob s) ++ s.graphs.flatMap (dueOfGraph s) ++ s.encoders.flatMap dueOfEncoder ++
    s.peers.flatMap (dueOfPeer s)

/-- Everything that is due. -/
def dueEvents (s : State) : List Due :=
  (dueInstrs s).map .event ++ s.parts.flatMap (dueOfClock s) ++ s.jobs.flatMap (dueOfRemoval s)

-- The machine by itself

/-- Streams that wait may execute their instructions again; the one at a PC of a warp stays out of the count. -/
def retryOthers (uid : Nat) (pc : Word) (s : State) : State :=
  s.mapWarps fun w =>
    let free (mine : Bool) (f : Frame) : Frame := { f with parked := f.parked.map fun p =>
      if mine ∧ p.1 = pc.toNat then p else (p.1, { p.2 with waiting := false }) }
    { w with frame := free (w.uid == uid) w.frame, saved := w.saved.map (free false) }

/-- After an outcome with a next state, waiting streams but one are let try again. -/
def thenRetry (uid : Nat) (pc : Word) : Out → Out
  | .next t => .next (retryOthers uid pc t)
  | r => r

/-- Time passes in every partition (R135). -/
def timePasses (n : Nat) (s : State) : State :=
  (s.parts.map (·.num)).foldl (fun t p => passTime p (Config.elapsedTicks n) (Config.elapsedCycles n) t) s

/-- A step without an agenda: time passes; on even steps a scheduler issues, on odd ones, or where none can, the next of
the due events happens. A device whose image has been accepted finishes its boot instead; one that THERMTRIP holds does
nothing (R394, R406). -/
def autoStep (s : State) : Out :=
  if s.boot = .checked then .next (finishBoot s)
  else if s.boot = .tripped then .next s
  else
  let t := timePasses s.clock s
  let due := dueEvents t
  let turn := t.clock / 2
  let issue := if t.clock % 2 = 0 ∨ due.isEmpty then pickIssue turn t else none
  match issue with
  | some (uid, stream) => thenRetry uid (selectStream uid stream t).pc (issueStream uid stream t)
  | none =>
    match due[turn % due.length]? with
    | some d => thenRetry 0 0 (d.run t)
    | none => .next (retryOthers 0 0 t)

end Sys2Proof.Machine
end

