-- ==== Sys2Proof/Machine/Program.lean ====
section
/-!
DEFINITION. A warp of a program of one word, placed as a launch would place it: pages, job, launch, group and warp. It
stands for what the host does from reset on before a program runs: boot, installation of a job, start of a phase, and
placement (log entry 3).
-/
namespace Sys2Proof.Machine

/-- Address of the word, in the job's address space. -/
def codeAt : Nat := 0x10000

/-- Physical address of the page tables: one table of each level, and then the page of code. -/
def tablesAt : Nat := 0x1000

/-- Bytes of the job's four page tables and of its page of code (R231, R232): entries that name the next table, and a
leaf that grants read, write and execute, with ACCESSED and DIRTY set. -/
def pageImage (w : Word) : List (Nat × List Byte) :=
  [(tablesAt, leBytes 8 (tablesAt + 0x1001)),
   (tablesAt + 0x1000, leBytes 8 (tablesAt + 0x2001)),
   (tablesAt + 0x2000, leBytes 8 (tablesAt + 0x3001)),
   (tablesAt + 0x3000 + 8 * (codeAt / 4096), leBytes 8 (tablesAt + 0x4000 + 0x18F)),
   (tablesAt + 0x4000, leBytes 4 w.toNat)]

/-- The job of the program. -/
def programJob (s : State) (part : Nat) : Job :=
  { Job.none with uid := s.fresh, chip := s.node.chip, part := part, ptroot := tablesAt }

/-- The launch of the program: one group of one warp. -/
def programLaunch (s : State) : Launch :=
  { Launch.none with uid := s.fresh + 1, job := s.fresh, code := codeAt, groups := 1, warps := 1, pool := 2048
                     outstanding := 1, next := 1, done := false }

/-- The group of the program, on a core. -/
def programGroup (s : State) (core : Nat) : Group :=
  { Group.idle with uid := s.fresh + 2, launch := s.fresh + 1, job := s.fresh, core := core, status := .resident
                    order := s.starts }

/-- The warp of the program: every lane live at offset 0 (R137). -/
def programWarp (s : State) : Warp :=
  { Warp.idle with uid := s.fresh + 3, group := s.fresh + 2, run := .running
                   frame := { Frame.start with live := BitVec.allOnes 32 } }

/-- A program of one word, placed on the lowest core of the first partition; its warp issues next. -/
def State.withProgram (w : Word) (s0 : State) : State :=
  let p := s0.parts.headD (Part.reset 0 [0])
  let core := 36 * p.dies.headD 0
  let s := s0.focusCore core
  { s with
    warp := programWarp s0
    warps := s.warp :: s.warps
    group := programGroup s0 core
    groups := s.group :: s.groups
    core := { s.core with poolSize := 2048 }
    jobs := programJob s0 p.num :: s.jobs
    launches := programLaunch s0 :: s.launches
    keys := { slot := 0, owner := p.num, key := 0, bypass := true, epoch := 0 } :: s.keys.filter fun k => k.slot != 0
    boot := .running
    mem := (pageImage w).foldl (fun m x => Memory.write m (memKey s0.node.chip x.1) x.2) s.mem
    agenda := [.issue (s0.fresh + 3) 0]
    fresh := s0.fresh + 4
    starts := s0.starts + 1 }

end Sys2Proof.Machine
end

