-- ==== Sys2Proof/Machine/Step.lean ====
section
/-!
DEFINITION. One step of the machine: the head of the agenda happens, or, with no agenda, what the schedulers and the
due events do next. Also where a step finds its instruction.
-/
namespace Sys2Proof.Machine

/-- One step. -/
def step (s : State) : Host.Outcome State Fault Refusal :=
  match s.agenda with
  | x :: rest => (if s.boot = .tripped then runHeld else runInput) x { s with agenda := rest, clock := s.clock + 1 }
  | [] => autoStep { s with clock := s.clock + 1 }

/-- The state with an instruction where the next step fetches: every instruction is one 32-bit word. -/
def State.withFetchWord (s : State) (nbits w : Nat) : State := s.withProgram (BitVec.ofNat 32 (w % 2 ^ nbits))

end Sys2Proof.Machine
end

