-- ==== Sys2Proof/Safety.lean ====
section
/-!
DEFINITION. What counts as a safe run: memory in canonical form, and the predicates over states and outcomes that the
claims use: when a word is executed rather than refused by an earlier check, and what it may change.
-/
namespace Sys2Proof.Machine

/-- A step answers a next state. -/
def Completes (o : Out) : Prop := ∃ t, o = .next t

/-- Every memory of the machine is in canonical form: the node's memory and every group's scratchpad. -/
def State.memoryOk (s : State) : Prop :=
  Memory.wf s.mem = true ∧ Memory.wf s.group.scratch = true ∧ ∀ g ∈ s.groups, Memory.wf g.scratch = true

/-- The active lanes of an instruction: the lanes of the issuing stream for which its guard is true (R40). -/
def activeOf (i : Instr) (s : State) : Word := s.active (guardOf i)

/-- No check that comes before an instruction's own entry stops it (R50, R171, R264): the level is high enough, the guard
is not 0b1000, the reserved fields are zero, pairs and quads are aligned, a transaction admits it, no active operand is
poisoned, and a warp with an active transaction is converged with all its live lanes in the issuing stream (R267). -/
structure Executable (i : Instr) (s : State) : Prop where
  level : (levelNeeded i).1 ≤ s.warp.level.rank
  guard : guardOf i ≠ 8
  formed : wellFormed i = true
  pairs : pairsOk i = true
  admitted : s.frame.tx.active = true → unsupported i = true → activeOf i s = 0
  clean : ∀ u ∈ usesOf i (activeOf i s) s, u.2 &&& (s.frame.reg (s.arch u.1)).poison = 0
  converged : s.frame.tx.active = true → s.together = true ∧ s.frame.live &&& ~~~s.lanes = 0

/-- Nothing of the machine changes but registers and PCs of the issuing warp. -/
def RegsOnly (s t : State) : Prop :=
  t = s.updFrame fun f => { f with regs := t.frame.regs, pcs := t.frame.pcs }

/-- Nothing of the machine changes but registers, sticky flags, generators and PCs of the issuing warp. -/
def ResultOnly (s t : State) : Prop :=
  t = s.updFrame fun f =>
    { f with regs := t.frame.regs, flags := t.frame.flags, rs := t.frame.rs, pcs := t.frame.pcs }

/-- Nothing of the machine changes but predicates, sticky flags and PCs of the issuing warp. -/
def PredsOnly (s t : State) : Prop :=
  t = s.updFrame fun f => { f with preds := t.frame.preds, flags := t.frame.flags, pcs := t.frame.pcs }

/-- The PC of a lane. -/
def State.pcOf (s : State) (l : Nat) : Word := s.frame.pcs.getD l 0

/-- Every lane of the issuing stream has moved to its next word, and no other lane has moved (R137). -/
def Advanced (s t : State) : Prop :=
  ∀ l, l < 32 → t.pcOf l = if s.lanes.getLsbD l then s.pcOf l + 4 else s.pcOf l

/-- Register operand d has been written in the lanes of a mask: these lanes hold f and are not poisoned, its other lanes
and every other register are as before (R40, R170). -/
structure Wrote (s t : State) (d : Nat) (m : Word) (f : Nat → Word) : Prop where
  lane : ∀ l, l < 32 → t.v d l = if m.getLsbD l then f l else s.v d l
  poison : (t.frame.reg (s.arch d)).poison = (s.frame.reg (s.arch d)).poison &&& ~~~m
  others : ∀ n, n ≠ s.arch d → t.frame.reg n = s.frame.reg n

/-- The pair at register operand d has been written in the lanes of a mask, and no other register (R43). -/
structure WrotePair (s t : State) (d : Nat) (m : Word) (f : Nat → DWord) : Prop where
  lane : ∀ l, l < 32 → t.pair d l = if m.getLsbD l then f l else s.pair d l
  poison : ∀ k, k < 2 → (t.frame.reg (s.arch (d + k))).poison = (s.frame.reg (s.arch (d + k))).poison &&& ~~~m
  others : ∀ n, n ≠ s.arch d → n ≠ s.arch (d + 1) → t.frame.reg n = s.frame.reg n

/-- Predicate p has been written in the lanes of a mask, and no other predicate (R36, R40). -/
structure WrotePred (s t : State) (p : Pred) (m : Word) (f : Nat → Bool) : Prop where
  lane : ∀ l, l < 32 → (t.pred p).getLsbD l = if m.getLsbD l then f l else (s.pred p).getLsbD l
  others : ∀ q, q ≠ p → t.pred q = s.pred q

/-- The sticky flags of the lanes of a mask have gained f; no other flag and no generator has changed (R67, R76). -/
structure Flagged (s t : State) (m : Word) (f : Nat → Flags) : Prop where
  lane : ∀ l, l < 32 → t.frame.flags.getD l 0 = if m.getLsbD l then s.frame.flags.getD l 0 ||| f l else s.frame.flags.getD l 0
  rs : ∀ l, l < 32 → t.frame.rs.getD l 0 = s.frame.rs.getD l 0

/-- An instruction that writes one register: it completes, its active lanes of d take f, each lane of the stream moves
on, and nothing else changes. -/
def SetsWord (i : Instr) (d : Reg) (f : State → Nat → Word) : Prop :=
  ∀ s, Executable i s →
    ∃ t, exec i s = .next t ∧ RegsOnly s t ∧ Advanced s t ∧ Wrote s t d.toNat (activeOf i s) (f s)

/-- An instruction that writes one register pair, likewise. -/
def SetsPair (i : Instr) (d : Reg) (f : State → Nat → DWord) : Prop :=
  ∀ s, Executable i s →
    ∃ t, exec i s = .next t ∧ RegsOnly s t ∧ Advanced s t ∧ WrotePair s t d.toNat (activeOf i s) (f s)

/-- An instruction that writes one register and raises sticky flags, likewise. -/
def SetsFloat (i : Instr) (d : Reg) (f : State → Nat → Word × Flags) : Prop :=
  ∀ s, Executable i s →
    ∃ t, exec i s = .next t ∧ ResultOnly s t ∧ Advanced s t ∧
      Wrote s t d.toNat (activeOf i s) (fun l => (f s l).1) ∧ Flagged s t (activeOf i s) (fun l => (f s l).2)

/-- An instruction that writes one predicate, likewise; g gives the flags it raises. -/
def SetsPred (i : Instr) (p : Pred) (f : State → Nat → Bool) (g : State → Nat → Flags) : Prop :=
  ∀ s, Executable i s →
    ∃ t, exec i s = .next t ∧ PredsOnly s t ∧ Advanced s t ∧ WrotePred s t p (activeOf i s) (f s) ∧
      Flagged s t (activeOf i s) (g s)

/-- Nothing of the machine changes but PCs of the issuing warp, except that a transaction whose live lanes no longer
share one PC then aborts with DIVERGED (R267): u is the state before that. -/
def Branches (i : Instr) (s : State) (pc : Nat → Word) : Prop :=
  ∃ u, exec i s = .next (if s.frame.tx.active && !u.together then abortTx 8 0 u else u) ∧
    u = (s.updFrame fun f => { f with pcs := u.frame.pcs }) ∧
    ∀ l, l < 32 → u.pcOf l =
      if (activeOf i s).getLsbD l then pc l else if s.lanes.getLsbD l then s.pcOf l + 4 else s.pcOf l

/-- The bytes of one lane's access as they stand: of the registers, or of the places of its pieces (R208, R222). -/
def LaneAcc.bytes (s : State) (a : LaneAcc) : List Byte :=
  if a.seg = 2 then (List.range a.w).map fun k => regByte s a.lane (a.off + k)
  else a.pieces.flatMap fun p => (List.range p.n).map fun k => readLoc s (p.loc.plus k)

/-- The poison of the bytes of a lane's access: of the registers it reads, or of the lines its pieces lie in (R171, R404). -/
def LaneAcc.taints (s : State) (a : LaneAcc) : List Bool :=
  if a.seg = 2 then (List.range a.w).map fun k => (s.frame.reg ((a.off + k) / 4)).poison.getLsbD a.lane
  else a.pieces.flatMap fun p => (List.range p.n).map (badByte s p)

/-- Some byte of word j of a lane's access is poisoned. -/
def LaneAcc.tainted (s : State) (a : LaneAcc) (j : Nat) : Bool := (((a.taints s).drop (4 * j)).take 4).any id

/-- A byte's place belongs to one lane's access. -/
def LaneAcc.covers (a : LaneAcc) (x : Loc) : Prop := ∃ p ∈ a.pieces, ∃ k, k < p.n ∧ x = p.loc.plus k

/-- Accesses that reach their bytes with nothing between: no transaction, no write of the core in flight, and none on
another core that the warp made or that is released to it (R327), every piece at home on this chip, inside one line, under a translation the core holds (R236), which maps one virtual
line to one line, under the key its line was written with (R401), and no cached copy older than memory: not in the L1,
nor of the lines of the accesses in the constant cache, which is tagged by virtual address (R217). -/
structure Direct (acc : Acc) (as : List LaneAcc) (s : State) : Prop where
  noTx : s.frame.tx.active = false
  sent : s.core.pend = []
  quiet : ∀ c ∈ s.cores, ∀ e ∈ c.pend, e.observed s = false
  prompt : s.delay = false
  home : ∀ a ∈ as, ∀ p ∈ a.pieces, p.remote s = false
  inLine : ∀ a ∈ as, ∀ p ∈ a.pieces, ∀ x k, p.loc = .mem x → k < p.n → lineOf (x + k) = lineOf x
  cached : ∀ a ∈ as, ∀ p ∈ a.pieces, p.leaf.isSome = true →
    p.through = none ∧ ∃ e, tlbFind s.core s.job.uid p.va = some e ∧ tlbServes acc e.leaf = true
  keyed : ∀ a ∈ as, ∀ p ∈ a.pieces, ∀ lf x e, p.leaf = some lf → p.loc = .mem x → epochFor s lf p.va = some e →
    (amGet s.epochs (lineOf x)).getD 0 = e
  fresh : ∀ c ∈ s.core.l1, ∀ k, k < 128 → c.bytes.getD k 0 = Memory.get s.mem (c.line * 128 + k)
  constant : ∀ a ∈ as, ∀ p ∈ a.pieces, ∀ x, p.loc = .mem x → ∀ c ∈ s.core.ccache, c.line = constLine s.group.job p.va →
    ∀ k, k < 128 → c.bytes.getD k 0 = Memory.get s.mem (lineOf x * 128 + k)
  mapped : ∀ a ∈ as, ∀ p ∈ a.pieces, ∀ b ∈ as, ∀ q ∈ b.pieces, ∀ x y, p.loc = .mem x → q.loc = .mem y →
    p.va / 128 = q.va / 128 → lineOf x = lineOf y

/-- A core without what a write or a line's eviction at a home can change of a core that did not issue it: its memo
(R166, R167). -/
def Core.unshared (c : Core) : Core := { c with memo := [] }

/-- A frame whose stalled results hold no memo key (R164). -/
def Frame.unshared (f : Frame) : Frame := { f with stuck := f.stuck.map fun e => { e with key := none } }

/-- A warp without what such a removal can change of a warp: the memo keys of its results that are under way (R164,
R166). -/
def Warp.unshared (w : Warp) : Warp :=
  { w with
    staging := w.staging.map fun e => { e with key := none }
    frame := w.frame.unshared
    saved := w.saved.map Frame.unshared }

/-- The results of a warp that are under way are the other's, but for memo keys that a removal has taken. -/
structure SameResults (w v : Warp) : Prop where
  staging : v.staging.map (fun e => { e with key := none }) = w.staging.map fun e => { e with key := none }
  stuck : v.frame.stuck.map (fun e => { e with key := none }) = w.frame.stuck.map fun e => { e with key := none }
  saved : v.saved.map Frame.unshared = w.saved.map Frame.unshared

/-- s, with what accesses that reach home slices change taken from t: what the slices hold, and what a line that leaves
one takes with it (R167, R218). -/
abbrev State.withReached (s t : State) : State :=
  { s with
    warp := { s.warp with
      staging := t.warp.staging, saved := t.warp.saved, frame := { s.warp.frame with stuck := t.warp.frame.stuck } }
    core := { s.core with memo := t.core.memo }
    warps := t.warps
    cores := t.cores
    hbm := t.hbm
    marks := t.marks
    hostLines := t.hostLines
    llc := t.llc
    out := t.out }

/-- A state that accesses reaching home slices have brought about from s; what the instruction has used of records and
sharding entries is kept in it while it has not retired (R87, R240). -/
structure Reached (s t : State) : Prop where
  only : t = { s.withReached t with
    warp := { (s.withReached t).warp with
      hold := { s.warp.hold with records := t.warp.hold.records, entries := t.warp.hold.entries } }
    core := { (s.withReached t).core with l1 := t.core.l1 } }
  warp : SameResults s.warp t.warp
  warps : t.warps.map Warp.unshared = s.warps.map Warp.unshared
  cores : t.cores.map Core.unshared = s.cores.map Core.unshared
  copies : ∀ c ∈ t.core.l1, c ∈ s.core.l1

/-- The lanes of a list, one after another from s to u, answer g of their number to f. -/
def Answers {α : Type} (f : Nat → State → Except Stop (α × State)) (g : Nat → α) : List Nat → State → State → Prop
  | [], s, u => s = u
  | l :: ls, s, u => ∃ v, f l s = .ok (g l, v) ∧ Answers f g ls v u

/-- Nothing of the machine changes but registers and PCs of the issuing warp, what its core's caches hold, and what an
access does at a home slice: the lines the slices hold, with HBM images, reuse-read marks, memo entries and keys, messages
and held host lines of a line that leaves one; and the counter of free values. What the instruction waited for is over. -/
structure LoadOnly (s t : State) : Prop where
  state : t = { s.withReached t with
    warp := { (s.withReached t).warp with
      frame := { (s.withReached t).frame with regs := t.frame.regs, pcs := t.frame.pcs }
      hold := Hold.none }
    core := { (s.withReached t).core with l1 := t.core.l1, ccache := t.core.ccache }
    free := t.free }
  warp : SameResults s.warp t.warp
  warps : t.warps.map Warp.unshared = s.warps.map Warp.unshared
  cores : t.cores.map Core.unshared = s.cores.map Core.unshared

/-- Accesses of an instruction, checked, load k registers from operand d on, and change nothing else. -/
structure Loaded (i : Instr) (s t : State) (as : List LaneAcc) (d k : Nat) (word : List Byte → Nat → Word) : Prop where
  lanes : as.map (·.lane) = lanesIn (activeOf i s)
  only : LoadOnly s t
  moved : Advanced s t
  value : ∀ x ∈ as, ∀ j, j < k → t.v (d + j) x.lane = word (x.bytes s) j
  poison : ∀ x ∈ as, ∀ j, j < k → (t.frame.reg (s.arch (d + j))).poison.getLsbD x.lane = x.tainted s j
  idle : ∀ l j, l < 32 → (activeOf i s).getLsbD l = false → j < k → t.v (d + j) l = s.v (d + j) l
  others : ∀ n, (∀ j, j < k → n ≠ s.arch (d + j)) → t.frame.reg n = s.frame.reg n

/-- A load of w bytes into k registers (R221, R222): with every check passed and the bytes within reach, it completes. -/
def LoadsBytes (i : Instr) (d a b : Reg) (w k : Nat) (word : List Byte → Nat → Word) : Prop :=
  ∀ s as, Executable i s → checked loadRule accRead (activeOf i s) w (s.v a.toNat) (s.v b.toNat) s = .ok as →
    Direct accRead as s → ∃ t, exec i s = .next t ∧ Loaded i s t as d.toNat k word

/-- A warp without what a write by another warp can change: its wake, a CONFLICT not yet delivered, and the memo keys of
its results under way (R166, R266, R273). -/
def Warp.unmarked (w : Warp) : Warp :=
  { w.unshared with woken := false, frame := { w.unshared.frame with tx := { w.frame.tx with pending := false } } }

/-- s, with what writes at homes change taken from t: what their lines' slices hold (withReached), memory, the scratchpad
of the group, poison of lines written whole, L1 copies and the wake of the issuing warp. -/
abbrev State.withHomes (s t : State) : State :=
  { s.withReached t with
    warp := { (s.withReached t).warp with woken := t.warp.woken }
    group := { s.group with scratch := t.group.scratch }
    core := { (s.withReached t).core with l1 := t.core.l1 }
    mem := t.mem
    badLines := t.badLines
    badScratch := t.badScratch
    healing := t.healing }

/-- A state that writes at homes have brought about from s, the issuing warp being in no transaction. -/
structure HomeOnly (s t : State) : Prop where
  state : t = s.withHomes t
  warp : SameResults s.warp t.warp
  warps : t.warps.map Warp.unmarked = s.warps.map Warp.unmarked
  cores : t.cores.map Core.unshared = s.cores.map Core.unshared

/-- Nothing of the machine changes but PCs of the issuing warp, memory and the scratchpad of its group, and what a write
does at a home: the lines its slices hold, HBM images, poison of lines written whole, reuse-read marks, memo entries and
keys, L1 copies, wakes and conflicts of warps, messages out; what the instruction waited for is over. -/
structure StoreOnly (s t : State) : Prop where
  state : t = { s.withHomes t with
    warp := { (s.withHomes t).warp with
      frame := { (s.withHomes t).frame with pcs := t.frame.pcs }
      hold := Hold.none } }
  warp : SameResults s.warp t.warp
  warps : t.warps.map Warp.unmarked = s.warps.map Warp.unmarked
  cores : t.cores.map Core.unshared = s.cores.map Core.unshared

/-- The accesses of a store have landed: every byte they cover holds what its highest lane stored, every other byte of
memory and scratchpad is as before. -/
structure Stored (i : Instr) (s t : State) (as : List LaneAcc) (data : Nat → List Byte) : Prop where
  lanes : as.map (·.lane) = lanesIn (activeOf i s)
  only : StoreOnly s t
  moved : Advanced s t
  value : ∀ pre x post, as = pre ++ x :: post → ∀ qs p rs k, x.pieces = qs ++ p :: rs → k < p.n →
    (∀ y ∈ post, ¬ y.covers (p.loc.plus k)) → (∀ q ∈ rs, ∀ j, j < q.n → q.loc.plus j ≠ p.loc.plus k) →
      readLoc t (p.loc.plus k) = (data x.lane).getD ((qs.map (·.n)).sum + k) 0
  others : ∀ x, (∀ a ∈ as, ¬ a.covers x) → readLoc t x = readLoc s x

/-- A store of w bytes to memory or scratchpad (R221, R222): with every check passed, no page migrating and the bytes
within reach, it completes. -/
def StoresBytes (i : Instr) (d a b : Reg) (w : Nat) : Prop :=
  ∀ s as, Executable i s → checked storeRule accWrite (activeOf i s) w (s.v a.toNat) (s.v b.toNat) s = .ok as →
    Direct accWrite as s → (∀ x ∈ as, x.seg ≠ 2) →
    (∀ x ∈ as, ∀ p ∈ x.pieces, ∀ lf, p.leaf = some lf → lf.migrating = false) →
    ∃ t, exec i s = .next t ∧ Stored i s t as (storeData s d.toNat w)

/-- One piece as an access of its own, to say that it is within reach (Direct). -/
def Piece.alone (p : Piece) : LaneAcc := { lane := 0, seg := 0, off := 0, w := p.n, pol := 0, pieces := [p] }

/-- The word that stands at a place. -/
def Loc.word (s : State) (x : Loc) : Word := wordOfList ((List.range 4).map fun k => readLoc s (x.plus k))

/-- The bytes that stand at a place. -/
def Loc.bytes (s : State) (x : Loc) (n : Nat) : List Byte := (List.range n).map fun k => readLoc s (x.plus k)

/-- An address inside its memory or scratchpad. -/
def Loc.addr : Loc → Nat
  | .scratch _ a => a
  | .mem a => a

/-- A byte lies in the n bytes at a place. -/
def Loc.holds (x : Loc) (n : Nat) (y : Loc) : Prop := ∃ k, k < n ∧ y = x.plus k

/-- Nothing of the machine changes but registers, predicates, flags and PCs of the issuing warp, memory and the
scratchpad of its group, and what a write does at a home (StoreOnly); what the instruction waited for is over. -/
structure UpdateOnly (s t : State) : Prop where
  state : t = { s.withHomes t with
    warp := { (s.withHomes t).warp with
      frame := { (s.withHomes t).frame with
        regs := t.frame.regs, preds := t.frame.preds, flags := t.frame.flags, pcs := t.frame.pcs }
      hold := Hold.none } }
  warp : SameResults s.warp t.warp
  warps : t.warps.map Warp.unmarked = s.warps.map Warp.unmarked
  cores : t.cores.map Core.unshared = s.cores.map Core.unshared

/-- Every access is one aligned word at one place. -/
def OneWord (as : List LaneAcc) : Prop := ∀ a ∈ as, ∃ p, a.pieces = [p] ∧ p.n = 4 ∧ p.loc.addr % 4 = 0

/-- No page of the accesses is migrating. -/
def Settled (as : List LaneAcc) : Prop := ∀ a ∈ as, ∀ p ∈ a.pieces, ∀ lf, p.leaf = some lf → lf.migrating = false

/-- The place of an access that has one piece. -/
def LaneAcc.place (a : LaneAcc) : Option Loc := a.pieces.head?.map (·.loc)

/-- What the atomics of a list, one after another, make of the word w at a place: f says what a lane writes over a word,
if it writes (R312, R316). -/
def wordAfter (f : Nat → Word → Option Word) (as : List LaneAcc) (x : Loc) (w : Word) : Word :=
  as.foldl (fun w a => if a.place = some x then (f a.lane w).getD w else w) w

/-- The atomics of an instruction have been performed at their homes in ascending order of lanes. -/
structure Updated (s t : State) (as : List LaneAcc) (f : Nat → Word → Option Word) : Prop where
  only : UpdateOnly s t
  moved : Advanced s t
  word : ∀ a ∈ as, ∀ p, a.pieces = [p] → p.loc.word t = wordAfter f as p.loc (p.loc.word s)
  others : ∀ y, (∀ a ∈ as, ¬ a.covers y) → readLoc t y = readLoc s y

/-- Every atomic's old word has gone to its lane of d, with the flags of its operation (R315); nothing else of the
registers and flags changes. -/
structure Returned (i : Instr) (s t : State) (as : List LaneAcc) (d : Nat) (f : Nat → Word → Option Word)
    (g : Nat → Word → Flags) : Prop where
  old : ∀ pre a post, as = pre ++ a :: post → ∀ p, a.pieces = [p] →
    t.v d a.lane = wordAfter f pre p.loc (p.loc.word s) ∧
      t.frame.flags.getD a.lane 0 = s.frame.flags.getD a.lane 0 ||| g a.lane (t.v d a.lane)
  idle : ∀ l, l < 32 → (activeOf i s).getLsbD l = false →
    t.v d l = s.v d l ∧ t.frame.flags.getD l 0 = s.frame.flags.getD l 0
  poison : (t.frame.reg (s.arch d)).poison = (s.frame.reg (s.arch d)).poison &&& ~~~activeOf i s
  others : ∀ n, n ≠ s.arch d → t.frame.reg n = s.frame.reg n
  preds : t.frame.preds = s.frame.preds

/-- The memory after writes in flight have been performed at their homes, in order (R322). -/
def landedMem (m : List Host.Cell) (es : List PWrite) : List Host.Cell :=
  es.foldl (fun m e => match e.loc with
    | .mem a => Memory.write m a (match e.op with
      | none => e.bytes
      | some op => leBytes 4 (atomOp op (wordOfList (Memory.read m a 4)) (wordOfList e.bytes)).1.toNat)
    | .scratch _ _ => m) m

/-- The lines that a write in flight reaches were last written under the key it is made with (R401). -/
def PWrite.keyed (s : State) (e : PWrite) : Prop := ∀ x n, e.loc = .mem x → e.epoch = some n →
  ∀ k, k < max 4 e.bytes.length → (amGet s.epochs (lineOf (x + k))).getD 0 = n

/-- The writes of a core in flight have their homes on this device, and meet lines under their own keys. -/
def State.landable (s : State) : Prop := ∀ e ∈ s.core.pend, e.isLocal s = true ∧ e.keyed s

/-- The issuing warp has nothing of its own to write back before it leaves its level: no store in flight to a home on
this device or to the launch's stacks, no index entry under rewriting (R143, R210, R306). -/
structure Unburdened (s : State) : Prop where
  sent : ∀ e ∈ s.core.pend, e.homeward s = false
  whole : ∀ r ∈ s.rewrites, r.2 ≠ s.warp.uid

/-- The bytes of accesses have landed: every byte they cover holds what its highest lane stored, every other byte of
memory and scratchpad is as before. -/
def Landed (s t : State) (as : List LaneAcc) (data : Nat → List Byte) : Prop :=
  (∀ pre x post, as = pre ++ x :: post → ∀ qs p rs k, x.pieces = qs ++ p :: rs → k < p.n →
    (∀ y ∈ post, ¬ y.covers (p.loc.plus k)) → (∀ q ∈ rs, ∀ j, j < q.n → q.loc.plus j ≠ p.loc.plus k) →
      readLoc t (p.loc.plus k) = (data x.lane).getD ((qs.map (·.n)).sum + k) 0) ∧
  ∀ x, (∀ a ∈ as, ¬ a.covers x) → readLoc t x = readLoc s x

/-- Tag n of the issuing warp's group. -/
def State.tag (s : State) (n : Nat) : Option Tag := s.group.tags[n]?

/-- The DONE bit of a tag; a tag that does not exist has none (R255). -/
def State.tagDone (s : State) (n : Nat) : Bool := ((s.tag n).map (·.done)).getD false

/-- Nothing of the issuing warp changes but registers, flags, generators and PCs, memo keys of its results under way, and
what its instruction keeps while it waits. -/
structure WarpResult (s t : State) : Prop where
  only : t.warp = { s.warp with
    frame := { s.frame with
      regs := t.frame.regs, flags := t.frame.flags, rs := t.frame.rs, pcs := t.frame.pcs, stuck := t.frame.stuck }
    staging := t.warp.staging
    saved := t.warp.saved
    hold := t.warp.hold }
  results : SameResults s.warp t.warp

/-- The issuing warp's group and core stand in the issuing places with it. -/
structure Focused (s : State) : Prop where
  group : s.warp.group = s.group.uid
  core : s.group.core = s.core.id

/-- The issuing warp has taken an exception into the handler (R361 to R363): the record holds class, detail, faulting
lanes and both addresses, the user state stands aside, and every lane starts at offset 0 of the handler. Memory changes
only where the warp has a store in flight, which is written back, or holds an index entry under rewriting, which is given
up (R143, R210, R306). -/
structure Entered (s t : State) (cls detail : Nat) (rpc lanes : Word) : Prop where
  level : t.warp.level = .handler
  ctl : t.warp.fault.ctl = ctlWord false false false 0 s.warp.level detail cls
  fpc : t.warp.fault.fpc = s.pc
  rpc : t.warp.fault.rpc = rpc
  lanes : t.warp.fault.lanes = lanes
  regs : t.warp.saved.map (·.regs) = some s.frame.regs
  saved : t.warp.saved.map (·.pcs) = some s.frame.pcs
  start : t.frame.pcs = List.replicate 32 0 ∧ t.frame.live = BitVec.allOnes 32 ∧ t.frame.regs = []
  mem : Unburdened s → t.mem = s.mem ∧ t.group = s.group

/-- The issuing warp can take an exception into the handler: no transaction runs, it is below handler level, and the
handler image is valid (R363, R366). -/
structure CanEnter (s : State) : Prop where
  noTx : s.frame.tx.active = false
  level : s.warp.level ≠ .handler
  valid : s.handlerValid = true

end Sys2Proof.Machine
end

