-- ==== Sys2Proof/Certificates/Slice0/Obligations.lean ====
section
/-!
DEFINITION. The statements for the provers. Each is about every state and every operand; the hypothesis Executable says
only that no check before the instruction's own entry stops it (R50), and every statement of a result is also the
instruction's completion and its frame.
-/
open Sys2Proof Sys2Proof.Machine

/-- R174, R175: IADD, ISUB, IMUL, IMULH, IMAD, IMIN and IMAX in every active lane. R174: the pair forms IMADW, IADD64
and ISUB64. -/
def Obligations.IntegerArithmetic : Prop :=
  (∀ (d a b : Reg) (g : Guard),
  SetsWord (.iadd d a b g) d (fun s l => s.v a.toNat l + s.v b.toNat l) ∧
  SetsWord (.isub d a b g) d (fun s l => s.v a.toNat l - s.v b.toNat l) ∧
  SetsWord (.imul d a b g) d (fun s l => s.v a.toNat l * s.v b.toNat l) ∧
  SetsWord (.imulhS d a b g) d (fun s l =>
    ((s.v a.toNat l).signExtend 64 * (s.v b.toNat l).signExtend 64).extractLsb' 32 32) ∧
  SetsWord (.imulhN d a b g) d (fun s l =>
    ((s.v a.toNat l).setWidth 64 * (s.v b.toNat l).setWidth 64).extractLsb' 32 32) ∧
  SetsWord (.imad d a b g) d (fun s l => s.v a.toNat l * s.v b.toNat l + s.v d.toNat l) ∧
  SetsWord (.iminS d a b g) d (fun s l =>
    BitVec.ofInt 32 (min (s.v a.toNat l).toInt (s.v b.toNat l).toInt)) ∧
  SetsWord (.iminN d a b g) d (fun s l => BitVec.ofNat 32 (min (s.v a.toNat l).toNat (s.v b.toNat l).toNat)) ∧
  SetsWord (.imaxS d a b g) d (fun s l =>
    BitVec.ofInt 32 (max (s.v a.toNat l).toInt (s.v b.toNat l).toInt)) ∧
  SetsWord (.imaxN d a b g) d (fun s l => BitVec.ofNat 32 (max (s.v a.toNat l).toNat (s.v b.toNat l).toNat))) ∧
  (∀ (d a b : Reg) (g : Guard),
  SetsPair (.imadwS d a b g) d (fun s l =>
    (s.v a.toNat l).signExtend 64 * (s.v b.toNat l).signExtend 64 + s.pair d.toNat l) ∧
  SetsPair (.imadwN d a b g) d (fun s l =>
    (s.v a.toNat l).setWidth 64 * (s.v b.toNat l).setWidth 64 + s.pair d.toNat l) ∧
  SetsPair (.iadd64 d a b g) d (fun s l => s.pair a.toNat l + s.pair b.toNat l) ∧
  SetsPair (.isub64 d a b g) d (fun s l => s.pair a.toNat l - s.pair b.toNat l))

/-- R176: shifts by the whole unsigned word of b, rotation by its low five bits, and the logic forms. -/
def Obligations.ShiftsAndLogic : Prop := ∀ (d a b : Reg) (g : Guard),
  SetsWord (.ishl d a b g) d (fun s l => s.v a.toNat l <<< (s.v b.toNat l).toNat) ∧
  SetsWord (.ishr d a b g) d (fun s l => s.v a.toNat l >>> (s.v b.toNat l).toNat) ∧
  SetsWord (.isar d a b g) d (fun s l => (s.v a.toNat l).sshiftRight (s.v b.toNat l).toNat) ∧
  SetsWord (.irot d a b g) d (fun s l =>
    let x := s.v a.toNat l
    let k := (s.v b.toNat l).toNat % 32
    if k = 0 then x else (x <<< k) ||| (x >>> (32 - k))) ∧
  SetsWord (.and d a b g) d (fun s l => s.v a.toNat l &&& s.v b.toNat l) ∧
  SetsWord (.or d a b g) d (fun s l => s.v a.toNat l ||| s.v b.toNat l) ∧
  SetsWord (.xor d a b g) d (fun s l => s.v a.toNat l ^^^ s.v b.toNat l) ∧
  SetsWord (.andn d a b g) d (fun s l => s.v a.toNat l &&& ~~~(s.v b.toNat l))

/-- R177, bit by bit: with p = b[4:0] and w = min(b[13:8], 32 − p), BFX takes w bits of a from bit p and fills with 0
or with the field's top bit, and BFI puts the low w bits of a at bit p of d. -/
def Obligations.BitFields : Prop := ∀ (d a b : Reg) (g : Guard),
  (∃ f, SetsWord (.bfxN d a b g) d f ∧ ∀ s l k, k < 32 →
    let p := (s.v b.toNat l).toNat % 32
    let w := min ((s.v b.toNat l).toNat / 256 % 64) (32 - p)
    (f s l).getLsbD k = (decide (k < w) && (s.v a.toNat l).getLsbD (p + k))) ∧
  (∃ f, SetsWord (.bfxS d a b g) d f ∧ ∀ s l k, k < 32 →
    let p := (s.v b.toNat l).toNat % 32
    let w := min ((s.v b.toNat l).toNat / 256 % 64) (32 - p)
    (f s l).getLsbD k = (decide (w ≠ 0) && (s.v a.toNat l).getLsbD (p + min k (w - 1)))) ∧
  (∃ f, SetsWord (.bfi d a b g) d f ∧ ∀ s l k, k < 32 →
    let p := (s.v b.toNat l).toNat % 32
    let w := min ((s.v b.toNat l).toNat / 256 % 64) (32 - p)
    (f s l).getLsbD k =
      if p ≤ k ∧ k < p + w then (s.v a.toNat l).getLsbD (k - p) else (s.v d.toNat l).getLsbD k)

/-- R178, R179: BPERM, byte by byte, and ISEL. Source bytes 0 to 3 are those of a, 4 to 7 those of b; bit 4 of a
selector byte clears the result byte, else bit 3 fills it with the sign of the byte it selects. -/
def Obligations.PermuteAndSelect : Prop := ∀ (d a b : Reg) (g : Guard),
  (∃ f, SetsWord (.bperm d a b g) d f ∧ ∀ s l k, k < 4 →
    let c := (s.v d.toNat l).extractLsb' (8 * k) 8
    let x := (s.v b.toNat l ++ s.v a.toNat l).extractLsb' (8 * (c.toNat % 8)) 8
    (f s l).extractLsb' (8 * k) 8 =
      if c.getLsbD 4 then 0 else if c.getLsbD 3 then (if x.getLsbD 7 then 0xFF else 0) else x) ∧
  SetsWord (.isel d a b g) d (fun s l => if s.v d.toNat l ≠ 0 then s.v a.toNat l else s.v b.toNat l)

/-- R180: the unary family. -/
def Obligations.IntegerUnary : Prop := ∀ (d a : Reg) (g : Guard),
  SetsWord (.mov d a g) d (fun s l => s.v a.toNat l) ∧
  SetsWord (.not d a g) d (fun s l => ~~~(s.v a.toNat l)) ∧
  SetsWord (.ineg d a g) d (fun s l => -(s.v a.toNat l)) ∧
  SetsWord (.iabs d a g) d (fun s l => if (s.v a.toNat l).toInt < 0 then -(s.v a.toNat l) else s.v a.toNat l) ∧
  SetsWord (.popc d a g) d (fun s l =>
    BitVec.ofNat 32 ((List.range 32).countP fun k => (s.v a.toNat l).getLsbD k)) ∧
  (∃ f, SetsWord (.clz d a g) d f ∧ ∀ s l,
    (f s l).toNat ≤ 32 ∧ (s.v a.toNat l).toNat < 2 ^ (32 - (f s l).toNat) ∧
      ((f s l).toNat < 32 → 2 ^ (31 - (f s l).toNat) ≤ (s.v a.toNat l).toNat)) ∧
  (∃ f, SetsWord (.brev d a g) d f ∧ ∀ s l k, k < 32 → (f s l).getLsbD k = (s.v a.toNat l).getLsbD (31 - k)) ∧
  SetsWord (.sext8 d a g) d (fun s l => ((s.v a.toNat l).setWidth 8).signExtend 32) ∧
  SetsWord (.sext16 d a g) d (fun s l => ((s.v a.toNat l).setWidth 16).signExtend 32) ∧
  SetsWord (.zext8 d a g) d (fun s l => ((s.v a.toNat l).setWidth 8).setWidth 32) ∧
  SetsWord (.zext16 d a g) d (fun s l => ((s.v a.toNat l).setWidth 16).setWidth 32)

/-- R51, R181, R182: the immediate forms compute what their counterparts do with sext(i, 11) or the count n for b;
MOVL writes sext(i, 18), MOVH replaces bits [31:14]; NOP only moves on. -/
def Obligations.Immediates : Prop := ∀ (d a : Reg) (i : BitVec 11) (n : BitVec 5) (k : BitVec 18),
  SetsWord (.iaddi d a i) d (fun s l => s.v a.toNat l + i.signExtend 32) ∧
  SetsWord (.imuli d a i) d (fun s l => s.v a.toNat l * i.signExtend 32) ∧
  SetsWord (.andi d a i) d (fun s l => s.v a.toNat l &&& i.signExtend 32) ∧
  SetsWord (.ori d a i) d (fun s l => s.v a.toNat l ||| i.signExtend 32) ∧
  SetsWord (.xori d a i) d (fun s l => s.v a.toNat l ^^^ i.signExtend 32) ∧
  SetsWord (.shli d a n) d (fun s l => s.v a.toNat l <<< n.toNat) ∧
  SetsWord (.shri d a n) d (fun s l => s.v a.toNat l >>> n.toNat) ∧
  SetsWord (.sari d a n) d (fun s l => (s.v a.toNat l).sshiftRight n.toNat) ∧
  SetsWord (.movl d k) d (fun _ _ => k.signExtend 32) ∧
  SetsWord (.movh d k) d (fun s l => k.setWidth 32 <<< 14 ||| (s.v d.toNat l &&& 0x3FFF)) ∧
  ∀ s, Executable .nop s → ∃ t, exec .nop s = .next t ∧ RegsOnly s t ∧ t.frame.regs = s.frame.regs ∧ Advanced s t

/-- R37, R179: ICMP and ICMPI set their predicate to the condition, as signed for codes 2 to 5 and as unsigned for
codes 6 to 9. -/
def Obligations.IntegerCompare : Prop := ∀ (c : BitVec 4) (p : Pred) (a b : Reg) (g : Guard) (i : BitVec 11),
  let cond (x y : Word) : Bool :=
    if c = 0 then decide (x = y) else if c = 1 then decide (x ≠ y)
    else if c = 2 then decide (x.toInt < y.toInt) else if c = 3 then decide (x.toInt ≤ y.toInt)
    else if c = 4 then decide (y.toInt < x.toInt) else if c = 5 then decide (y.toInt ≤ x.toInt)
    else if c = 6 then decide (x.toNat < y.toNat) else if c = 7 then decide (x.toNat ≤ y.toNat)
    else if c = 8 then decide (y.toNat < x.toNat) else decide (y.toNat ≤ x.toNat)
  SetsPred (.icmp c p a b g) p (fun s l => cond (s.v a.toNat l) (s.v b.toNat l)) (fun _ _ => 0) ∧
  SetsPred (.icmpi c p a i) p (fun s l => cond (s.v a.toNat l) (i.signExtend 32)) (fun _ _ => 0)

/-- R150: the predicate family. V2P sets all seven predicates from bits [7:1]; P2V reads them back with bit 0 set. -/
def Obligations.PredicateLogic : Prop := ∀ (d a b : Pred) (r : Reg) (g : Guard),
  SetsPred (.pand d b a g) d (fun s l => (s.pred a).getLsbD l && (s.pred b).getLsbD l) (fun _ _ => 0) ∧
  SetsPred (.por d b a g) d (fun s l => (s.pred a).getLsbD l || (s.pred b).getLsbD l) (fun _ _ => 0) ∧
  SetsPred (.pxor d b a g) d (fun s l => (s.pred a).getLsbD l ^^ (s.pred b).getLsbD l) (fun _ _ => 0) ∧
  SetsPred (.pnot d a g) d (fun s l => !(s.pred a).getLsbD l) (fun _ _ => 0) ∧
  SetsPred (.pset d r g) d (fun s l => s.v r.toNat l != 0) (fun _ _ => 0) ∧
  (∃ f, SetsWord (.p2v r g) r f ∧ ∀ s l k, l < 32 → k < 32 →
    (f s l).getLsbD k = (decide (k < 8) && (s.pred (BitVec.ofNat 3 k)).getLsbD l)) ∧
  ∀ s, Executable (.v2p r g) s → ∃ t, exec (.v2p r g) s = .next t ∧ PredsOnly s t ∧ Advanced s t ∧
    t.frame.flags = s.frame.flags ∧
    ∀ p : Pred, p ≠ 0 → ∀ l, l < 32 → (t.pred p).getLsbD l =
      if (activeOf (.v2p r g) s).getLsbD l then (s.v r.toNat l).getLsbD p.toNat else (s.pred p).getLsbD l

/-- R184 to R187: FP32 arithmetic, minimum, maximum and scaling. A NaN source decides first, in the order a, b, d
(R61); else the exact result is rounded once under RN. The sign of a zero, overflow and the default NaN are those of
rnKind. R188: FCMP. A NaN operand makes every condition false but ne and un; lt, le, gt and ge set invalid on any NaN,
the others on a signalling NaN only. -/
def Obligations.FloatArithmetic : Prop :=
  (∀ (d a b : Reg) (g : Guard),
  let two (op : Machine.Num → Machine.Num → Machine.Num) (x y : Word) : Word × Flags :=
    let r := (firstNaN 8 [x.toNat, y.toNat]).getD (rnKind 8 (op (valueOf 8 x.toNat) (valueOf 8 y.toNat)))
    (BitVec.ofNat 32 r.1, r.2)
  let at2 (f : Nat → Nat → Nat × Flags) (s : State) (l : Nat) : Word × Flags :=
    let r := f (s.v a.toNat l).toNat (s.v b.toNat l).toNat
    (BitVec.ofNat 32 r.1, r.2)
  let fma (sub : Bool) (s : State) (l : Nat) : Word × Flags :=
    let r := fmaK 8 sub (s.v a.toNat l).toNat (s.v b.toNat l).toNat (s.v d.toNat l).toNat
    (BitVec.ofNat 32 r.1, r.2)
  SetsFloat (.fadd d a b g) d (fun s l => two Machine.Num.add (s.v a.toNat l) (s.v b.toNat l)) ∧
  SetsFloat (.fsub d a b g) d (fun s l => two (fun x y => x.add y.neg) (s.v a.toNat l) (s.v b.toNat l)) ∧
  SetsFloat (.fmul d a b g) d (fun s l => two Machine.Num.mul (s.v a.toNat l) (s.v b.toNat l)) ∧
  SetsFloat (.ffma d a b g) d (fma false) ∧
  SetsFloat (.ffms d a b g) d (fma true) ∧
  SetsFloat (.fdiv d a b g) d (at2 div32) ∧
  SetsFloat (.fmin d a b g) d (at2 (minMax32 false)) ∧
  SetsFloat (.fmax d a b g) d (at2 (minMax32 true)) ∧
  SetsFloat (.fscale d a b g) d (fun s l =>
    let r := scale32 (s.v a.toNat l).toNat (s.v b.toNat l).toInt
    (BitVec.ofNat 32 r.1, r.2))) ∧
  (∀ (c : BitVec 4) (p : Pred) (a b : Reg) (g : Guard),
  let un (x y : Word) : Bool := isNaNPat (fmtOf 8) x.toNat || isNaNPat (fmtOf 8) y.toNat
  let cond (x y : Word) : Bool :=
    let o := (valueOf 8 x.toNat).cmp (valueOf 8 y.toNat)
    if c = 0 then !un x y && decide (o = .eq) else if c = 1 then un x y || decide (o ≠ .eq)
    else if c = 2 then !un x y && decide (o = .lt) else if c = 3 then !un x y && decide (o ≠ .gt)
    else if c = 4 then !un x y && decide (o = .gt) else if c = 5 then !un x y && decide (o ≠ .lt)
    else if c = 6 then un x y else !un x y
  let flag (x y : Word) : Flags :=
    if isSNaNPat 8 x.toNat || isSNaNPat 8 y.toNat || (un x y && decide (2 ≤ c.toNat ∧ c.toNat ≤ 5)) then fInvalid else 0
  SetsPred (.fcmp c p a b g) p (fun s l => cond (s.v a.toNat l) (s.v b.toNat l))
    (fun s l => flag (s.v a.toNat l) (s.v b.toNat l)))

/-- R189, R190: the packed halves compute as FADD, FMUL and FFMA do in the half's kind, each half for itself, with the
flags of both; the dot products are one rounding of the exact sum. -/
def Obligations.PackedAndDot : Prop := ∀ (d a b : Reg) (g : Guard),
  let half (f : Nat → Nat → Nat → Nat × Flags) (s : State) (l : Nat) : Word × Flags :=
    let at_ (k : Nat) : Nat × Flags :=
      f ((s.v a.toNat l).toNat / 2 ^ (16 * k) % 65536) ((s.v b.toNat l).toNat / 2 ^ (16 * k) % 65536)
        ((s.v d.toNat l).toNat / 2 ^ (16 * k) % 65536)
    (BitVec.ofNat 32 ((at_ 1).1 * 65536 + (at_ 0).1), (at_ 0).2 ||| (at_ 1).2)
  SetsFloat (.hadd2 d a b g) d (half fun x y _ => addK 1 x y) ∧
  SetsFloat (.hmul2 d a b g) d (half fun x y _ => mulK 1 x y) ∧
  SetsFloat (.hfma2 d a b g) d (half (fmaK 1 false)) ∧
  SetsFloat (.badd2 d a b g) d (half fun x y _ => addK 0 x y) ∧
  SetsFloat (.bmul2 d a b g) d (half fun x y _ => mulK 0 x y) ∧
  SetsFloat (.bfma2 d a b g) d (half (fmaK 0 false)) ∧
  SetsFloat (.fdot4 d a b g) d (fun s l => dot4 2 (s.v a.toNat l) (s.v b.toNat l) (s.v d.toNat l)) ∧
  SetsFloat (.fdot4E5 d a b g) d (fun s l => dot4 3 (s.v a.toNat l) (s.v b.toNat l) (s.v d.toNat l))

/-- R191 to R194: the FUN family. A NaN source follows R61 everywhere but in FCLASS; FABS and FNEG touch bit 31 alone;
the special functions are those of special32 on the exact value; FRND rounds to an integral value. R74, R75: the
special operands of the FUN functions, as words with the flags they raise. Which of the words within 1 ulp a special
function delivers is the model's choice (log entry 5). -/
def Obligations.FloatUnary : Prop :=
  (∀ (d a : Reg) (g : Guard),
  let nan (f : Word → Word × Flags) (s : State) (l : Nat) : Word × Flags :=
    match firstNaN 8 [(s.v a.toNat l).toNat] with
    | some r => (BitVec.ofNat 32 r.1, r.2)
    | none => f (s.v a.toNat l)
  let rnd (mode : Nat) (s : State) (l : Nat) : Word × Flags :=
    let r := frnd32 mode (s.v a.toNat l).toNat
    (BitVec.ofNat 32 r.1, r.2)
  SetsFloat (.fabs d a g) d (nan fun x => (x &&& 0x7FFFFFFF, 0)) ∧
  SetsFloat (.fneg d a g) d (nan fun x => (x ^^^ 0x80000000, 0)) ∧
  SetsFloat (.frcp d a g) d (nan fun x => rcp32 (valueOf 8 x.toNat)) ∧
  SetsFloat (.fsqrt d a g) d (nan fun x => sqrt32 (valueOf 8 x.toNat)) ∧
  SetsFloat (.frsq d a g) d (nan fun x => rsq32 x (valueOf 8 x.toNat)) ∧
  SetsFloat (.fexp2 d a g) d (nan fun x => exp2W x (valueOf 8 x.toNat)) ∧
  SetsFloat (.flog2 d a g) d (nan fun x => log2W x (valueOf 8 x.toNat)) ∧
  SetsFloat (.fsin d a g) d (nan fun x => sinCosW 0 x (valueOf 8 x.toNat)) ∧
  SetsFloat (.fcos d a g) d (nan fun x => sinCosW 1 x (valueOf 8 x.toNat)) ∧
  SetsFloat (.ftanh d a g) d (nan fun x => tanhW x (valueOf 8 x.toNat)) ∧
  SetsFloat (.fsigm d a g) d (nan fun x => sigmW x (valueOf 8 x.toNat)) ∧
  SetsFloat (.fclass d a g) d (fun s l => (class32 (s.v a.toNat l).toNat, 0)) ∧
  SetsFloat (.frndRn d a g) d (rnd 0) ∧
  SetsFloat (.frndRz d a g) d (rnd 1) ∧
  SetsFloat (.frndRd d a g) d (rnd 2) ∧
  SetsFloat (.frndRu d a g) d (rnd 3)) ∧
  (∀ (n : Bool) (m : Nat) (e : Int), m ≠ 0 →
  let sign (x : Word) : Word := if n then x ||| 0x80000000 else x
  rcp32 (.fin n 0 e) = (sign 0x7F800000, fDivzero) ∧ rcp32 (.inf n) = (sign 0, 0) ∧
  sqrt32 (.fin true 0 e) = (0x80000000, 0) ∧ sqrt32 (.inf false) = (0x7F800000, 0) ∧
  sqrt32 (.fin true m e) = (0x7FC00000, fInvalid) ∧ sqrt32 (.inf true) = (0x7FC00000, fInvalid) ∧
  ∀ x : Word,
    rsq32 x (.fin n 0 e) = (sign 0x7F800000, fDivzero) ∧ rsq32 x (.inf false) = (0, 0) ∧
    rsq32 x (.fin true m e) = (0x7FC00000, fInvalid) ∧ rsq32 x (.inf true) = (0x7FC00000, fInvalid) ∧
    exp2W x (.inf true) = (0, 0) ∧ exp2W x (.inf false) = (0x7F800000, 0) ∧
    log2W x (.fin n 0 e) = (0xFF800000, fDivzero) ∧ log2W x (.inf false) = (0x7F800000, 0) ∧
    log2W x (.fin true m e) = (0x7FC00000, fInvalid) ∧ log2W x (.inf true) = (0x7FC00000, fInvalid) ∧
    sinCosW 0 x (.fin n 0 e) = (sign 0, 0) ∧ sinCosW 1 x (.fin n 0 e) = (0x3F800000, 0) ∧
    sinCosW 0 x (.inf n) = (0x7FC00000, fInvalid ||| fRange) ∧
    sinCosW 1 x (.inf n) = (0x7FC00000, fInvalid ||| fRange) ∧
    tanhW x (.inf n) = (sign 0x3F800000, 0) ∧ tanhW x (.fin n 0 e) = (sign 0, 0) ∧
    sigmW x (.inf true) = (0, 0) ∧ sigmW x (.inf false) = (0x3F800000, 0) ∧ sigmW x (.fin n 0 e) = (0x3F000000, 0))

/-- R67, R195: FCVT converts lane by lane under each lane's own conversion word, and steps the generator of each
active lane whose word selects RS; a conversion word that breaks its rules in some active lane is an operand-word
fault naming the lowest such lane, and nothing else happens. -/
def Obligations.Conversion : Prop := ∀ (d a b : Reg) (g : Guard) (s : State), Executable (.fcvt d a b g) s →
  let i : Instr := .fcvt d a b g
  let act := activeOf i s
  let w (l : Nat) : Nat := (s.v b.toNat l).toNat
  let out (l : Nat) : Word × Flags :=
    convert (w l % 16) (w l / 16 % 16) (w l / 256 % 8) ((w l).testBit 11) (rsBits (s.frame.rs.getD l 0)) (s.v a.toNat l)
  ((∀ l, l < 32 → act.getLsbD l = true → convWordBad (s.v b.toNat l) = none) →
    ∃ t, exec i s = .next t ∧ ResultOnly s t ∧ Advanced s t ∧ Wrote s t d.toNat act (fun l => (out l).1) ∧
      (∀ l, l < 32 → t.frame.flags.getD l 0 =
        if act.getLsbD l then s.frame.flags.getD l 0 ||| (out l).2 else s.frame.flags.getD l 0) ∧
      ∀ l, l < 32 → t.frame.rs.getD l 0 =
        if act.getLsbD l = true ∧ w l / 256 % 8 = 5 then rsNext (s.frame.rs.getD l 0) else s.frame.rs.getD l 0) ∧
  ∀ l det, l < 32 → act.getLsbD l = true → convWordBad (s.v b.toNat l) = some det →
    (∀ k, k < l → act.getLsbD k = true → convWordBad (s.v b.toNat k) = none) →
    exec i s = .next (raise (wordOf i) act (exc 15 det 0 l) s)

/-- R197, R198: a shuffle reads the lane it names when that lane is a source lane, else 0. R200: votes and MATCH over
the source lanes. -/
def Obligations.ShufflesAndVotes : Prop :=
  (∀ (d a b : Reg) (g : Guard),
  let from_ (i : Instr) (s : State) (j : Int) : Word :=
    if 0 ≤ j ∧ j ≤ 31 ∧ (activeOf i s).getLsbD j.toNat = true then s.v a.toNat j.toNat else 0
  SetsWord (.shflIdx d a b g) d (fun s l => from_ (.shflIdx d a b g) s (s.v b.toNat l).toNat) ∧
  SetsWord (.shflUp d a b g) d (fun s l => from_ (.shflUp d a b g) s ((l : Int) - (s.v b.toNat l).toNat)) ∧
  SetsWord (.shflDn d a b g) d (fun s l => from_ (.shflDn d a b g) s ((l : Int) + (s.v b.toNat l).toNat)) ∧
  SetsWord (.shflXor d a b g) d (fun s l => from_ (.shflXor d a b g) s (Nat.xor l (s.v b.toNat l).toNat : Nat))) ∧
  (∀ (p q : Pred) (d a : Reg) (g : Guard),
  let act (i : Instr) (s : State) (j : Nat) : Bool := (activeOf i s).getLsbD j
  SetsPred (.voteAny p q g) p (fun s _ => (List.range 32).any fun j =>
    act (.voteAny p q g) s j && (s.pred q).getLsbD j) (fun _ _ => 0) ∧
  SetsPred (.voteAll p q g) p (fun s _ => (List.range 32).all fun j =>
    !act (.voteAll p q g) s j || (s.pred q).getLsbD j) (fun _ _ => 0) ∧
  (∃ f, SetsWord (.voteBallot d q g) d f ∧ ∀ s l j, j < 32 →
    (f s l).getLsbD j = (act (.voteBallot d q g) s j && (s.pred q).getLsbD j)) ∧
  SetsWord (.voteCount d q g) d (fun s _ => BitVec.ofNat 32 ((List.range 32).countP fun j =>
    act (.voteCount d q g) s j && (s.pred q).getLsbD j)) ∧
  ∃ f, SetsWord (.matchL d a g) d f ∧ ∀ s l j, j < 32 →
    (f s l).getLsbD j = (act (.matchL d a g) s j && decide (s.v a.toNat j = s.v a.toNat l)))

/-- R72, R201: reductions over the source lanes S. Sums are modulo 2^32; a smallest or largest value is one of S that
no other passes; the bitwise forms combine every word of S; the float forms are the root of the fixed tree. R72, R202:
prefixes over the source lanes in ascending order. The integer forms sum the lanes up to, or before, lane L; the float
forms add one lane at a time, the exclusive form shifted by one source lane with −0 in the lowest, and each lane takes
the flags of its own inclusive prefix. -/
def Obligations.ReductionsAndScans : Prop :=
  (∀ (d a : Reg) (g : Guard),
  let src (i : Instr) (s : State) : List Word := (lanesIn (activeOf i s)).map (s.v a.toNat)
  let best (i : Instr) (le : Word → Word → Prop) : Prop :=
    ∃ f : State → Word, SetsWord i d (fun s _ => f s) ∧
      ∀ s, src i s ≠ [] → f s ∈ src i s ∧ ∀ x ∈ src i s, le (f s) x
  let root (i : Instr) (f : Nat → Nat → Nat × Flags) (s : State) : Word × Flags :=
    let r := tree f 5 (lanesOf fun l => if (activeOf i s).getLsbD l then some (s.v a.toNat l).toNat else none)
    (BitVec.ofNat 32 ((r.1.head?.join).getD 0), r.2)
  SetsWord (.redwAddS32 d a g) d (fun s _ => (src (.redwAddS32 d a g) s).sum) ∧
  best (.redwMinS d a g) (fun x y => x.toInt ≤ y.toInt) ∧ best (.redwMinN d a g) (fun x y => x.toNat ≤ y.toNat) ∧
  best (.redwMaxS d a g) (fun x y => y.toInt ≤ x.toInt) ∧ best (.redwMaxN d a g) (fun x y => y.toNat ≤ x.toNat) ∧
  SetsWord (.redwAnd d a g) d (fun s _ => (src (.redwAnd d a g) s).foldr (· &&& ·) (BitVec.allOnes 32)) ∧
  SetsWord (.redwOr d a g) d (fun s _ => (src (.redwOr d a g) s).foldr (· ||| ·) 0) ∧
  SetsWord (.redwXor d a g) d (fun s _ => (src (.redwXor d a g) s).foldr (· ^^^ ·) 0) ∧
  SetsFloat (.redwAddF32 d a g) d (fun s _ => root (.redwAddF32 d a g) (addK 8) s) ∧
  SetsFloat (.redwMinF d a g) d (fun s _ => root (.redwMinF d a g) (minMax32 false) s) ∧
  SetsFloat (.redwMaxF d a g) d (fun s _ => root (.redwMaxF d a g) (minMax32 true) s)) ∧
  (∀ (d a : Reg) (g : Guard),
  let before (i : Instr) (s : State) (l : Nat) : List Nat := (lanesIn (activeOf i s)).filter (· < l)
  let upto (i : Instr) (s : State) (l : Nat) : List Nat := (lanesIn (activeOf i s)).filter (· ≤ l)
  SetsWord (.scanwInclS32 d a g) d (fun s l => ((upto (.scanwInclS32 d a g) s l).map (s.v a.toNat)).sum) ∧
  SetsWord (.scanwExclS32 d a g) d (fun s l => ((before (.scanwExclS32 d a g) s l).map (s.v a.toNat)).sum) ∧
  SetsFloat (.scanwInclF32 d a g) d (fun s l =>
    let r := prefixF s a (activeOf (.scanwInclF32 d a g) s) l
    (BitVec.ofNat 32 r.1, r.2)) ∧
  SetsFloat (.scanwExclF32 d a g) d (fun s l =>
    let act := activeOf (.scanwExclF32 d a g) s
    ((match (upto (.scanwExclF32 d a g) s l).dropLast.getLast? with
      | some j => BitVec.ofNat 32 (prefixF s a act j).1
      | none => 0x80000000), (prefixF s a act l).2)))

/-- R139, R144, R146, R148: BRA and BRX give each active lane its target and let the other lanes of the stream fall
through; JOIN sets the join address; WINB sets the window base. A BRX target that is no multiple of 4, in the lowest
such lane, is an alignment fault naming it, and a window base past the allotment an illegal-instruction fault with
detail 8. -/
def Obligations.BranchesJoinWindow : Prop := ∀ (g : Guard) (i : BitVec 21) (a : Reg) (n : BitVec 11) (s : State),
  (Executable (.bra g i) s → Branches (.bra g i) s fun l => s.pcOf l + 4 + 4 * i.signExtend 32) ∧
  (Executable (.brx a g) s →
    ((∀ l, l < 32 → (activeOf (.brx a g) s).getLsbD l = true → (s.v a.toNat l).toNat % 4 = 0) →
      Branches (.brx a g) s fun l => s.v a.toNat l) ∧
    ∀ l, l < 32 → (activeOf (.brx a g) s).getLsbD l = true → (s.v a.toNat l).toNat % 4 ≠ 0 →
      (∀ k, k < l → (activeOf (.brx a g) s).getLsbD k = true → (s.v a.toNat k).toNat % 4 = 0) →
      exec (.brx a g) s = .next (raise (wordOf (.brx a g)) (activeOf (.brx a g) s) (exc 4 0 (s.v a.toNat l).toNat) s)) ∧
  (Executable (.join i) s → ∃ t, exec (.join i) s = .next t ∧ Advanced s t ∧
    t = s.updFrame fun f =>
      { f with join := some (s.pc + 4 + 4 * i.signExtend 32), joinAt := s.core.cycle, pcs := t.frame.pcs }) ∧
  (Executable (.winb n) s →
    (n.toNat ≤ (s.warp.allot - 128) / 16 → ∃ t, exec (.winb n) s = .next t ∧ Advanced s t ∧
      t = s.updFrame fun f => { f with winBase := n.toNat, pcs := t.frame.pcs }) ∧
    ((s.warp.allot - 128) / 16 < n.toNat →
      exec (.winb n) s = .next (raise (wordOf (.winb n)) (activeOf (.winb n) s) (excIllegal 8 s) s)))

/-- R147: EXIT clears the live bits of its active lanes. A warp with a live lane left changes in nothing else but PCs;
one without ends, and its group drains once all its warps have ended. -/
def Obligations.ExitEndsLanes : Prop := ∀ (g : Guard) (s : State), Executable (.exit g) s →
  let live := s.frame.live &&& ~~~activeOf (.exit g) s
  ∃ t, exec (.exit g) s = .next t ∧ t.frame.live = live ∧ Advanced s t ∧ t.frame.regs = s.frame.regs ∧
    t.frame.preds = s.frame.preds ∧ t.mem = s.mem ∧
    (live ≠ 0 → t = s.updFrame fun f => { f with live := live, pcs := t.frame.pcs }) ∧
    (live = 0 → t.warp.run = .ended ∧ t.warp.window = [] ∧
      ((∀ w ∈ s.warps, w.group = s.group.uid → w.run = .ended) →
        s.warp.group = s.group.uid → t.group = { s.group with status := .draining }) ∧
      (∀ w ∈ s.warps, w.group = s.group.uid → w.run ≠ .ended → t.group = s.group))

/-- R52, R53: XT runs one instance of the following word at each of its offsets, on the lanes for which that word's
guard is true, every instance reading the registers as they stood; the pair takes one issue and moves on by two words.
Stated for the instances that write one register and raise no flag. -/
def Obligations.XtInstances : Prop := ∀ (h c : BitVec 3) (st : BitVec 7) (s : State) (w : Word) (j : Instr) (us : List Alu),
  Executable (.xt h c st) s → fetchWord s (s.pc + 4) = .ok w → xtFollow (xtOffsets h c st) w s = .ok (j, us) →
  (∀ u ∈ us, u.dPair = false ∧ (∃ f, u.fn = .int f) ∧ ∀ l, u.fault s l = none) →
  (∀ k ∈ xtOffsets h c st, ∀ n ∈ srcRegs j, activeOf j s &&& (s.frame.reg (s.arch (n + k))).poison = 0) →
  ∃ t, exec (.xt h c st) s = .next t ∧ RegsOnly s t ∧
    (∀ l, l < 32 → t.pcOf l = if s.lanes.getLsbD l then s.pcOf l + 8 else s.pcOf l) ∧
    (∀ u ∈ us, ∀ l, l < 32 →
      t.v u.d l = if (activeOf j s).getLsbD l then (u.lane s 0 l).1.setWidth 32 else s.v u.d l) ∧
    ∀ n, (∀ u ∈ us, n ≠ s.arch u.d) → t.frame.reg n = s.frame.reg n

/-- R149, R361 to R363: TRAP and BPT enter the handler with the code as detail and the lanes of the issuing stream as
faulting lanes; the resume address is the next word for TRAP and the word itself for BPT. Stated outside a
transaction, below handler level, with a valid handler image; memory changes only where the warp has a store of its own
in flight, or an index entry under rewriting (R210, R306). -/
def Obligations.TrapAndBreakpoint : Prop := ∀ (n : BitVec 11) (s : State), s.frame.tx.active = false →
  s.warp.level ≠ .handler → s.handlerValid = true →
  let entered (cls : Nat) (rpc : Word) (t : State) : Prop :=
    t.warp.level = .handler ∧ t.warp.fault.ctl = ctlWord false false false 0 s.warp.level n.toNat cls ∧
      t.warp.fault.fpc = s.pc ∧ t.warp.fault.rpc = rpc ∧ t.warp.fault.lanes = s.lanes ∧
      (t.warp.saved.map (·.regs)) = some s.frame.regs ∧ (t.warp.saved.map (·.pcs)) = some s.frame.pcs ∧
      t.frame.pcs = List.replicate 32 0 ∧ (Unburdened s → t.mem = s.mem)
  (Executable (.trap n) s → ∃ t, exec (.trap n) s = .next t ∧ entered 21 (s.pc + 4) t) ∧
  (Executable (.bpt n) s → ∃ t, exec (.bpt n) s = .next t ∧ entered 22 s.pc t)

/-- R221, R222: the loads, narrow ones extended, pairs and quads lowest word first. R120, R224: LDC loads the constant
word at (a + 4 × b) mod 2^32, and CNTRD a counter record's 8 bytes. -/
def Obligations.Loads : Prop :=
  (∀ (d a b : Reg) (g : Guard),
  LoadsBytes (.ldN8 d a b g) d a b 1 1 zextBytes ∧ LoadsBytes (.ldS8 d a b g) d a b 1 1 sextBytes ∧
  LoadsBytes (.ldN16 d a b g) d a b 2 1 zextBytes ∧ LoadsBytes (.ldS16 d a b g) d a b 2 1 sextBytes ∧
  LoadsBytes (.ld32 d a b g) d a b 4 1 wordAt ∧ LoadsBytes (.ld64 d a b g) d a b 8 2 wordAt ∧
  LoadsBytes (.ld128 d a b g) d a b 16 4 wordAt) ∧
  (∀ (d a b : Reg) (g : Guard) (s : State) (as : List LaneAcc), Direct accRead as s →
  (Executable (.ldc d a b g) s →
    fixedAccess accRead (activeOf (.ldc d a b g) s) 4 4 0xFF000243 (fun l => s.v a.toNat l + 4 * s.v b.toNat l) s = .ok as →
    ∃ t, exec (.ldc d a b g) s = .next t ∧ Loaded (.ldc d a b g) s t as d.toNat 1 wordAt) ∧
  (Executable (.cntrd d a g) s →
    fixedAccess accRead (activeOf (.cntrd d a g) s) 8 8 0xC8 (s.v a.toNat) s = .ok as →
    ∃ t, exec (.cntrd d a g) s = .next t ∧ Loaded (.cntrd d a g) s t as d.toNat 2 wordAt))

/-- R221, R222: the stores to memory and scratchpad; where lanes collide, the highest lane's byte stays. R208: a store
to the register segment changes the bytes it names in the storing lane's registers and nothing else; byte 4n + k is
byte k of architectural register n, whatever the window. -/
def Obligations.Stores : Prop :=
  (∀ (d a b : Reg) (g : Guard),
  StoresBytes (.st8 d a b g) d a b 1 ∧ StoresBytes (.st16 d a b g) d a b 2 ∧ StoresBytes (.st32 d a b g) d a b 4 ∧
  StoresBytes (.st64 d a b g) d a b 8 ∧ StoresBytes (.st128 d a b g) d a b 16) ∧
  (∀ (d a b : Reg) (g : Guard),
  let stores (i : Instr) (w : Nat) : Prop := ∀ s as, Executable i s →
    checked storeRule accWrite (activeOf i s) w (s.v a.toNat) (s.v b.toNat) s = .ok as → Direct accWrite as s →
    (∀ x ∈ as, x.seg = 2) → ∃ t, exec i s = .next t ∧ Advanced s t ∧ t.mem = s.mem ∧
      t.frame = { s.frame with regs := t.frame.regs, pcs := t.frame.pcs } ∧ t.group = s.group ∧ t.groups = s.groups ∧
      (∀ x ∈ as, ∀ o, regByte t x.lane o =
        if x.off ≤ o ∧ o < x.off + w then (storeData s d.toNat w x.lane).getD (o - x.off) 0 else regByte s x.lane o) ∧
      ∀ l, l < 32 → (activeOf i s).getLsbD l = false → ∀ o, regByte t l o = regByte s l o
  stores (.st8 d a b g) 1 ∧ stores (.st16 d a b g) 2 ∧ stores (.st32 d a b g) 4 ∧ stores (.st64 d a b g) 8 ∧
    stores (.st128 d a b g) 16)

/-- R142, R145: CALL and CALLX push one link record for each active lane, return offset first and call offset after
it, and go to the target; RET pops one. Stated outside a transaction, with the records within reach. -/
def Obligations.CallsAndReturn : Prop := ∀ (g : Guard) (k : BitVec 21) (a : Reg) (s : State) (as : List LaneAcc),
  let sd (l : Nat) : Word := s.frame.sds.getD l 0
  let calls (i : Instr) (target : Nat → Word) : Prop := Executable i s → Direct accWrite as s →
    fixedAccess accWrite (activeOf i s) 8 0 4 sd s = .ok as →
    (∀ l, l < 32 → (activeOf i s).getLsbD l = true → (sd l).toNat + 8 ≤ s.frame.stklim.toNat ∧ (target l).toNat % 4 = 0) →
    (∀ x ∈ as, ∀ p ∈ x.pieces, ∀ lf, p.leaf = some lf → lf.migrating = false) →
    ∃ t, exec i s = .next t ∧
      t.frame = { s.frame with pcs := t.frame.pcs, sds := t.frame.sds, stuck := t.frame.stuck } ∧
      (∀ l, l < 32 → t.frame.sds.getD l 0 = if (activeOf i s).getLsbD l then sd l + 8 else sd l) ∧
      (∀ l, l < 32 → t.pcOf l =
        if (activeOf i s).getLsbD l then target l else if s.lanes.getLsbD l then s.pcOf l + 4 else s.pcOf l) ∧
      (∀ x ∈ as, ∀ p, x.pieces = [p] → (∀ y ∈ as, y ≠ x → ∀ n, n < 8 → ¬ y.covers (p.loc.plus n)) →
        wordOfList ((List.range 4).map fun n => readLoc t (p.loc.plus n)) = s.pcOf x.lane + 4 ∧
        wordOfList ((List.range 4).map fun n => readLoc t (p.loc.plus (4 + n))) = s.pcOf x.lane) ∧
      ∀ x, (∀ y ∈ as, ¬ y.covers x) → readLoc t x = readLoc s x
  calls (.call g k) (fun l => s.pcOf l + 4 + 4 * k.signExtend 32) ∧ calls (.callx a g) (s.v a.toNat) ∧
  (Executable (.ret g) s → Direct accRead as s →
    fixedAccess accRead (activeOf (.ret g) s) 8 0 4 (fun l => sd l - 8) s = .ok as →
    (∀ l, l < 32 → (activeOf (.ret g) s).getLsbD l = true → sd l ≠ 0 ∧ (sd l).toNat ≤ s.frame.stklim.toNat) →
    (∀ x ∈ as, (wordAt (x.bytes s) 0).toNat % 4 = 0) →
    ∃ t, exec (.ret g) s = .next t ∧
      t.frame = { s.frame with pcs := t.frame.pcs, sds := t.frame.sds, stuck := t.frame.stuck } ∧ t.mem = s.mem ∧ t.group = s.group ∧
      (∀ l, l < 32 → t.frame.sds.getD l 0 = if (activeOf (.ret g) s).getLsbD l then sd l - 8 else sd l) ∧
      (∀ x ∈ as, t.pcOf x.lane = wordAt (x.bytes s) 0) ∧
      ∀ l, l < 32 → (activeOf (.ret g) s).getLsbD l = false →
        t.pcOf l = if s.lanes.getLsbD l then s.pcOf l + 4 else s.pcOf l)

/-- R227: PFT faults on its policy word alone; otherwise it completes and changes no register and no byte, but what the
caches hold and what a line that leaves a home slice takes with it: stated where the core holds the translations of the
lanes that pass their segment check, and where no lane of a transaction reaches host memory, which aborts it (R358).
R219, R228: CFLUSH on the distinct lines its lanes name, the translations held and no write of the core in flight. The
write-back forms bring HBM up to date, the invalidating forms drop the L1 copies, the form that does both takes the
lines out of their slices and leaves carved storage alone; no byte of memory changes. That CFLUSH checks one byte at
the offset against its segment is the model's choice (log entry 76). -/
def Obligations.PrefetchAndFlush : Prop :=
  (∀ (a b : Reg) (g : Guard) (s : State),
  let rule : PolicyRule := { segs := [0, 1, 2, 3, 4], orders := [0, 2, 4], atop := fun n => n == 0 }
  let pft (i : Instr) : Prop := Executable i s →
    ((∀ l, l < 32 → (activeOf i s).getLsbD l = true → policyFault rule (s.v b.toNat l) l = none) →
      (∀ l, l < 32 → (activeOf i s).getLsbD l = true → ∀ p, polSeg (s.v b.toNat l) ≠ 1 → polSeg (s.v b.toNat l) ≠ 2 →
        segFault s l (polSeg (s.v b.toNat l)) (s.v a.toNat l).toNat 1 false = none →
        pieceAt s accRead (segVa s l (polSeg (s.v b.toNat l)) (s.v a.toNat l).toNat) 1 = .ok p →
          ∃ e, tlbFind s.core s.job.uid p.va = some e ∧ tlbServes accRead e.leaf = true) →
      (s.frame.tx.active = true → ∀ l, l < 32 → (activeOf i s).getLsbD l = true →
        prefetchesHost s l (s.v a.toNat l) (s.v b.toNat l) = false) →
      ∃ t, exec i s = .next t ∧ Advanced s t ∧ t = { s.withReached t with
        warp := { (s.withReached t).warp with frame := { (s.withReached t).frame with pcs := t.frame.pcs } }
        core := { (s.withReached t).core with l1 := t.core.l1, ccache := t.core.ccache } } ∧
        SameResults s.warp t.warp ∧ t.warps.map Warp.unshared = s.warps.map Warp.unshared ∧
        t.cores.map Core.unshared = s.cores.map Core.unshared) ∧
    ∀ l e, l < 32 → (activeOf i s).getLsbD l = true → policyFault rule (s.v b.toNat l) l = some e →
      (∀ k, k < l → (activeOf i s).getLsbD k = true → policyFault rule (s.v b.toNat k) k = none) →
      exec i s = .next (raise (wordOf i) (activeOf i s) e s)
  pft (.pftL1 a b g) ∧ pft (.pftLlc a b g)) ∧
  (∀ (a : Reg) (g : Guard) (s : State) (as : List LaneAcc),
  let named (n : Nat) : Prop := ∃ x ∈ as, ∃ p ∈ x.pieces, ∃ y, p.loc = .mem y ∧ lineOf y = n
  let flush (i : Instr) (wb inv : Bool) : Prop :=
    let hit (n : Nat) : Prop := named n ∧ ¬ (wb = true ∧ inv = true ∧ 0xFF0000000000 ≤ n * 128 % 2 ^ 48)
    Executable i s →
    fixedAccess accRead (activeOf i s) 1 0 0 (s.v a.toNat) s = .ok as → Direct accRead as s →
    ∃ t, exec i s = .next t ∧ Advanced s t ∧ t.frame = { s.frame with pcs := t.frame.pcs, stuck := t.frame.stuck } ∧
      t.mem = s.mem ∧ (∀ n, hit n → (wb = true → amGet t.hbm n = none) ∧ (inv = true → ∀ c ∈ t.core.l1, c.line ≠ n) ∧
        (wb = true → inv = true → ∀ x ∈ t.llc, x.line ≠ n)) ∧
      (∀ n, ¬ hit n → amGet t.hbm n = amGet s.hbm n ∧ (∀ c, c.line = n → (c ∈ t.core.l1 ↔ c ∈ s.core.l1)) ∧
        ∀ x, x.line = n → (x ∈ t.llc ↔ x ∈ s.llc)) ∧
      (wb = false → t.hbm = s.hbm) ∧ (inv = false → t.core.l1 = s.core.l1)
  flush (.cflushWb a g) true false ∧ flush (.cflushInv a g) false true ∧ flush (.cflushWbinv a g) true true)

/-- R204, R334, R335: with every write of the core in flight bound for a home on this chip, and meeting lines under
its own key, and none in flight from another core that the warp made or that is released to it, FENCEW performs those
of its warp, and FENCE all of them; FENCE then returns and clears the lost mask at node or sys scope, and drops the L1
where its kind acquires at team scope or wider. Two readings of the model stand in it: that FENCE performs the other
warps' writes as well, and at every kind (log entry 65), and that it drops the L1 at team scope too, where R216 and
R334 name chip scope or wider (log entry 21). -/
def Obligations.Fences : Prop := ∀ (d : Reg) (sc k : BitVec 3) (g : Guard) (s : State),
  s.landable → (∀ c ∈ s.cores, ∀ e ∈ c.pend, e.observed s = false) →
  (Executable (.fencew g) s → ∃ t, exec (.fencew g) s = .next t ∧ Advanced s t ∧
    t.frame = { s.frame with pcs := t.frame.pcs, stuck := t.frame.stuck } ∧
    (activeOf (.fencew g) s ≠ 0 → t.core.pend = s.core.pend.filter (fun e => e.warp != s.warp.uid) ∧
      t.mem = landedMem s.mem (s.core.pend.filter fun e => e.warp == s.warp.uid)) ∧
    (activeOf (.fencew g) s = 0 → t.core = s.core ∧ t.mem = s.mem)) ∧
  (Executable (.fence d sc k) s → (activeOf (.fence d sc k) s ≠ 0 ∨ s.frame.tx.active = false) →
    ∃ t, exec (.fence d sc k) s = .next t ∧ Advanced s t ∧
      Wrote s t d.toNat (activeOf (.fence d sc k) s)
        (fun _ => if 4 ≤ sc.toNat ∧ k ≠ 1 then s.warp.lost.setWidth 32 else 0) ∧
      t.frame.flags = s.frame.flags ∧ t.frame.preds = s.frame.preds ∧
      t.warp.lost = (if 4 ≤ sc.toNat ∧ k ≠ 1 then 0 else s.warp.lost) ∧
      t.core.pend = [] ∧ t.mem = landedMem s.mem s.core.pend ∧
      (2 ≤ sc.toNat → (k = 0 ∨ k = 1) → t.core.l1 = []))

/-- R312 to R317: atomics within reach, in ascending order of lanes: ATOM and ATOMC return the old word, RED returns
nothing, AGGINC adds the sum of its lanes' increments once and gives each lane its slot. -/
def Obligations.Atomics : Prop := ∀ (d a b : Reg) (g : Guard) (s : State) (as : List LaneAcc), OneWord as → Settled as →
  Direct accWrite as s →
  let off := s.v a.toNat
  let pol := s.v b.toNat
  let op (l : Nat) (x : Word) : Word × Flags := atomOp (polAtop (pol l)) x (s.v d.toNat l)
  let swap (l : Nat) (x : Word) : Option Word := if x = s.v d.toNat l then some (s.v (d.toNat + 1) l) else none
  let below (i : Instr) (l : Nat) : Word := (((lanesIn (activeOf i s)).filter (· < l)).map (s.v d.toNat)).sum
  (Executable (.atom d a b g) s →
    atomChecked (atomRule [0, 1, 2, 3] atopOk) d (activeOf (.atom d a b g) s) off pol s = .ok as →
    ∃ t, exec (.atom d a b g) s = .next t ∧ Updated s t as (fun l x => some (op l x).1) ∧
      Returned (.atom d a b g) s t as d.toNat (fun l x => some (op l x).1) fun l x => (op l x).2) ∧
  (Executable (.atomc d a b g) s → Direct accRead as s →
    atomChecked (atomRule [0, 1, 2, 3] fun n => n == 0) d (activeOf (.atomc d a b g) s) off pol s = .ok as →
    ∃ t, exec (.atomc d a b g) s = .next t ∧ Updated s t as swap ∧
      Returned (.atomc d a b g) s t as d.toNat swap fun _ _ => 0) ∧
  (Executable (.red d a b g) s → atomChecked (atomRule [0, 2] atopOk) d (activeOf (.red d a b g) s) off pol s = .ok as →
    ∃ t, exec (.red d a b g) s = .next t ∧ Updated s t as (fun l x => some (op l x).1) ∧ t.frame.regs = s.frame.regs ∧
      t.frame.flags = s.frame.flags ∧ t.frame.preds = s.frame.preds) ∧
  (Executable (.agginc d a b g) s → activeOf (.agginc d a b g) s ≠ 0 →
    atomChecked (atomRule [0, 1, 2, 3] fun n => n == 0) d (lowMask (activeOf (.agginc d a b g) s)) off pol s = .ok as →
    ∃ t, exec (.agginc d a b g) s = .next t ∧
      Updated s t as (fun _ x => some (x + below (.agginc d a b g) 32)) ∧
      t.frame.flags = s.frame.flags ∧ t.frame.preds = s.frame.preds ∧
      ∀ x ∈ as, ∀ p, x.pieces = [p] → Wrote s t d.toNat (activeOf (.agginc d a b g) s)
        (fun l => p.loc.word s + below (.agginc d a b g) l))

/-- R268 to R276: the transaction family. TXB in a converged warp starts an attempt, and in a warp that is not
converged sends the stream to the abort target with DIVERGED; ORELSE pushes an alternative; TXE makes the buffered
bytes visible (stated where they meet lines under their own keys); RETRY takes the last alternative, or else goes back
to the TXB and sleeps on the lines read; TXA aborts with its lane's code; TXQ reads the status word. A nested TXB
aborts with cause 7. R269 to R271: what an abort leaves. A CONFLICT decided at a home is taken instead of the given
cause. -/
def Obligations.Transactions : Prop :=
  (∀ (i : BitVec 21) (d a : Reg) (g : Guard) (s : State),
  let tx := s.frame.tx
  let target : Word := s.pc + 4 + 4 * i.signExtend 32
  (Executable (.txb i) s →
    (tx.active = false → s.converged = true → s.together = true → s.frame.live &&& ~~~s.lanes = 0 →
      (∀ e ∈ s.core.pend, e.homeward s = false ∧ (e.observed s && e.isLocal s) = false) →
      ∃ t, exec (.txb i) s = .next t ∧ Advanced s t ∧ t.mem = s.mem ∧ t.frame = { s.frame with tx := t.frame.tx, pcs := t.frame.pcs } ∧ t.frame.tx.active = true ∧
      t.frame.tx.target = target ∧ t.frame.tx.txb = s.pc ∧ t.frame.tx.writes = [] ∧ t.frame.tx.rset = [] ∧
      t.frame.tx.wset = [] ∧ t.frame.tx.alts = [] ∧
      t.frame.tx.conflicts = (if tx.run = some s.pc then tx.conflicts else 0) ∧
      t.frame.tx.age = (if tx.run = some s.pc then tx.age else (s.part.tick, s.core.id, s.warp.slot))) ∧
    (tx.active = false → s.converged = false → ∃ t, exec (.txb i) s = .next t ∧
      t = s.updFrame (fun f => { f with tx := { f.tx with cause := 8, run := none }, pcs := t.frame.pcs }) ∧
      ∀ l, l < 32 → t.pcOf l = if s.lanes.getLsbD l then target else s.pcOf l) ∧
    (tx.active = true → exec (.txb i) s = .next (abortTx 7 0 s))) ∧
  (Executable (.orelse i) s → tx.active = true → tx.alts.length < 4 → ∃ t, exec (.orelse i) s = .next t ∧ Advanced s t ∧
    t = s.updFrame fun f => { f with
      tx := { tx with alts := { target := target, writes := tx.writes, homes := tx.homes, wset := tx.wset
                                clears := tx.clears, scope := tx.scope } :: tx.alts }
      pcs := t.frame.pcs }) ∧
  (Executable .txe s → tx.active = true → tx.pending = false → s.core.pend = [] →
    (∀ c ∈ s.cores, ∀ e ∈ c.pend, e.observed s = false) → tx.clears = [] →
    (∀ w ∈ tx.writes, ∀ n x, w.1 = .scratch n x → n = s.group.uid) →
    (∀ w ∈ tx.writes, ∀ x v n, w.1 = .mem x → amGet tx.homes (lineOf x) = some (v, some n) →
      (amGet s.epochs (lineOf x)).getD 0 = n) →
    ∃ t, exec .txe s = .next t ∧ Advanced s t ∧
      t.frame = { s.frame with tx := t.frame.tx, pcs := t.frame.pcs, stuck := t.frame.stuck } ∧ t.frame.tx.active = false ∧ t.frame.tx.cause = 0 ∧ t.frame.tx.conflicts = 0 ∧ t.frame.tx.user = 0 ∧
      t.frame.tx.altNo = tx.altNo ∧ t.frame.tx.writes = [] ∧
      ∀ x, readLoc t x = ((tx.writes.find? fun w => decide (w.1 = x)).map (·.2)).getD (readLoc s x)) ∧
  (Executable (.retry g) s → tx.active = true → tx.pending = false →
    (∀ x rest, tx.alts = x :: rest → ∃ t, exec (.retry g) s = .next t ∧ t.mem = s.mem ∧
      t.frame = { s.frame with pcs := t.frame.pcs, tx := { tx with
        alts := rest, writes := x.writes, homes := x.homes, wset := x.wset, clears := x.clears, scope := x.scope,
        altNo := tx.altNo + 1 } } ∧
      ∀ l, l < 32 → t.pcOf l = if s.frame.live.getLsbD l then x.target else s.pcOf l) ∧
    (tx.alts = [] → ∃ t, exec (.retry g) s = .next t ∧ t.mem = s.mem ∧ t.frame.regs = s.frame.regs ∧
      t.frame.tx.active = false ∧ t.frame.tx.writes = [] ∧
      (∀ l, l < 32 → t.pcOf l = if s.frame.live.getLsbD l then tx.txb else s.pcOf l) ∧
      ((t.warp.asleep = true ∧ t.warp.sleepSet = tx.rset) ∨ t.frame.tx.cause = 10))) ∧
  (Executable (.txa a g) s → tx.active = true → ∀ l, lowest s.frame.live = some l →
    exec (.txa a g) s = .next (abortTx 6 ((s.v a.toNat l).toNat % 256) s)) ∧
  SetsWord (.txq d g) d (fun s _ => s.frame.tx.status)) ∧
  (∀ (cause user : Nat) (s : State),
  let c := if s.frame.tx.pending then 1 else cause
  let t := abortTx cause user s
  t = ({ s with warp := { s.warp with hold := Hold.none } } : State).updFrame
      (fun f => { f with tx := t.frame.tx, pcs := t.frame.pcs, parked := [] }) ∧ t.frame.tx.active = false ∧
    t.frame.tx.cause = c ∧ t.frame.tx.writes = [] ∧ t.frame.tx.rset = [] ∧ t.frame.tx.wset = [] ∧
    t.frame.tx.clears = [] ∧ t.frame.tx.alts = [] ∧ t.frame.tx.user = (if c = 6 then user else 0) ∧
    t.frame.tx.conflicts = (if c = 1 then min (s.frame.tx.conflicts + 1) 255 else 0) ∧
    (c = 1 → t.frame.tx.backoff = some (s.core.cycle + min (64 * 2 ^ (min (s.frame.tx.conflicts + 1) 255 - 1)) 8192)) ∧
    ∀ l, l < 32 → t.pcOf l = if s.frame.live.getLsbD l then s.frame.tx.target else s.pcOf l)

/-- R278 to R281: the phaser instructions of the lowest active lane, on an object within reach. PHREG registers the
members MODE names at once before the first signaller, else from the next phase on, and returns the phase of the first
registration; PHDROP takes members away from the next phase on, and is the arrival of a dropped signaller; PHARR is an
arrival, of an object that has signallers; an arrival that completes the phase advances it. Counts that would leave 0 to
65535 change nothing and are a phaser fault, detail 3, naming the object. PHRD reads the phase. Every active lane of d
takes the phase number returned, and nothing else of the machine changes but the object. -/
def Obligations.Phasers : Prop := ∀ (d a : Reg) (g : Guard) (s : State) (l : Nat) (p : Piece) (ph : Phaser),
  s.frame.tx.active = false → (∀ lf, p.leaf = some lf → lf.migrating = false) →
  let x := s.v a.toNat l
  let sg : Nat := x.toNat % 2
  let wt : Nat := x.toNat / 2 % 2
  let fits (q : Phaser) : Prop := q.sig ≤ 65535 ∧ q.wait ≤ 65535 ∧ 0 ≤ (q.sig : Int) + q.psig ∧
    (q.sig : Int) + q.psig ≤ 65535 ∧ 0 ≤ (q.wait : Int) + q.pwait ∧ (q.wait : Int) + q.pwait ≤ 65535
  let arrived (q : Phaser) : Phaser := if (q.arr + 1) % 65536 = q.sig then
      { q with phase := q.phase + 1, arr := 0, psig := 0, pwait := 0, sig := ((q.sig : Int) + q.psig).toNat,
               wait := ((q.wait : Int) + q.pwait).toNat }
    else { q with arr := (q.arr + 1) % 65536 }
  let on (i : Instr) (counts : Bool) : Prop := Executable i s ∧ lowest (activeOf i s) = some l ∧
    phObject x counts accRw l s = .ok (p, ph, s)
  let refused (i : Instr) (det : Nat) : Prop :=
    exec i s = .next (raise (wordOf i) (activeOf i s) (exc 20 det (x.toNat / 32 * 32)) s)
  let gives (i : Instr) (r : Word) (q : Phaser) : Prop := Direct accWrite [p.alone] s →
    ∃ t, exec i s = .next t ∧ UpdateOnly s t ∧ Advanced s t ∧
      Wrote s t d.toNat (activeOf i s) (fun _ => r) ∧ t.frame.preds = s.frame.preds ∧ t.frame.flags = s.frame.flags ∧
      p.loc.bytes t 32 = q.bytes ∧ ∀ y, ¬ p.loc.holds 32 y → readLoc t y = readLoc s y
  let reg := Instr.phreg d a g
  let drop := Instr.phdrop d a g
  let arr := Instr.pharr d a g
  let read := Instr.phrd d a g
  (on reg true →
    let q : Phaser := if ph.sig = 0 then { ph with sig := ph.sig + sg, wait := ph.wait + wt }
      else { ph with psig := ph.psig + sg, pwait := ph.pwait + wt }
    (fits q → gives reg (if ph.sig = 0 then ph.phase else ph.phase + 1) q) ∧ (¬ fits q → refused reg 3)) ∧
  (on drop true →
    let q : Phaser := { ph with psig := ph.psig - sg, pwait := ph.pwait - wt }
    (fits q → gives drop (ph.phase + 1) (if sg = 1 then arrived q else q)) ∧ (¬ fits q → refused drop 3)) ∧
  (on arr false →
    (ph.sig = 0 → refused arr 2) ∧
    (ph.sig ≠ 0 → (ph.arr + 1) % 65536 = ph.sig → ¬ fits ph → refused arr 3) ∧
    (ph.sig ≠ 0 → ((ph.arr + 1) % 65536 = ph.sig → fits ph) → gives arr ph.phase (arrived ph))) ∧
  (Executable read s → lowest (activeOf read s) = some l → phObject x false accRead l s = .ok (p, ph, s) →
    Direct accRead [p.alone] s → ∃ t, exec read s = .next t ∧ Advanced s t ∧
      Wrote s t d.toNat (activeOf read s) (fun _ => ph.phase) ∧ t.frame.flags = s.frame.flags ∧
      t.frame.preds = s.frame.preds ∧ t.mem = s.mem ∧ t.group = s.group)

/-- R114, R121: QPUT and QTAKE move items between lanes in ascending order and the ring, as many as there is room for
or items; the predicate is set in the active lanes that were not served. Stated with header and slots within reach and
apart from one another. -/
def Obligations.PipelineQueues : Prop := ∀ (d a : Reg) (p : Pred) (q : BitVec 6) (g : Guard) (s : State) (hp : Piece)
    (slots : List Piece), queueHead q.toNat s = .ok hp → hp.n = 64 →
  (∀ x ∈ hp :: slots, ∀ lf, x.leaf = some lf → lf.migrating = false) →
  (hp :: slots).Pairwise (fun x y => ∀ z, x.loc.holds x.n z → ¬ y.loc.holds y.n z) →
  let h := qheadOf (hp.loc.bytes s 64)
  let held := (h.tail - h.head) % 2 ^ 64
  let lanes (i : Instr) : List Nat := lanesIn (activeOf i s)
  let put := Instr.qput p a q g
  let take := Instr.qtake d p q g
  (Executable put s → activeOf put s ≠ 0 → Direct accWrite ((hp :: slots).map Piece.alone) s →
    Direct accRead [hp.alone] s →
    let k := min (lanes put).length (h.cap - held)
    itemSlots h h.tail k accRw s = .ok slots →
    ∃ t, exec put s = .next t ∧ UpdateOnly s t ∧ Advanced s t ∧ t.frame.regs = s.frame.regs ∧
      t.frame.flags = s.frame.flags ∧
      WrotePred s t p (activeOf put s) (fun l => decide (l ∈ (lanes put).drop k)) ∧
      (∀ x ∈ (lanes put).zip slots, x.2.loc.word t = s.v a.toNat x.1) ∧
      (k ≠ 0 → fieldB (hp.loc.bytes t 64) 8 8 = (h.tail + k) % 2 ^ 64) ∧
      ∀ y, (∀ x ∈ slots, ¬ x.loc.holds 4 y) → (k = 0 ∨ ¬ (hp.loc.plus 8).holds 8 y) → readLoc t y = readLoc s y) ∧
  (Executable take s → activeOf take s ≠ 0 → Direct accRead ((hp :: slots).map Piece.alone) s →
    Direct accWrite [hp.alone] s →
    let k := min (lanes take).length held
    itemSlots h h.head k accRead s = .ok slots →
    ∃ t, exec take s = .next t ∧ UpdateOnly s t ∧ Advanced s t ∧ t.frame.flags = s.frame.flags ∧
      WrotePred s t p (activeOf take s) (fun l => decide (l ∈ (lanes take).drop k)) ∧
      Wrote s t d.toNat (activeOf take s) (fun l =>
        match ((lanes take).zip slots).find? (fun x => x.1 == l) with
        | some x => x.2.loc.word s
        | none => if h.qctl.testBit 16 then 1 else 0) ∧
      (k ≠ 0 → fieldB (hp.loc.bytes t 64) 0 8 = (h.head + k) % 2 ^ 64) ∧
      ∀ y, (k = 0 ∨ ¬ hp.loc.holds 8 y) → readLoc t y = readLoc s y)

/-- R255, R258, R261, R262: the TAG tests, outside a transaction, against the DONE bits of the group's tags; TAGCLR
clears status, and of a tag with nothing outstanding DONE and its shadows; XSTAT reads status words. -/
def Obligations.Tags : Prop := ∀ (p : Pred) (d a : Reg) (g : Guard) (s : State), s.frame.tx.active = false →
  let m (l : Nat) : DWord := s.pair a.toNat l
  let tests (i : Instr) (f : Nat → Bool) : Prop := Executable i s → ∃ t, exec i s = .next t ∧ PredsOnly s t ∧
    Advanced s t ∧ t.frame.flags = s.frame.flags ∧ WrotePred s t p (activeOf i s) f
  tests (.tagany p a g) (fun l => (List.range 64).any fun n => s.tagDone n && (m l).getLsbD n) ∧
  tests (.tagall p a g) (fun l => (List.range 64).all fun n => s.tagDone n || !(m l).getLsbD n) ∧
  (Executable (.tagff d a g) s → ∃ t, exec (.tagff d a g) s = .next t ∧ RegsOnly s t ∧ Advanced s t ∧
    Wrote s t d.toNat (activeOf (.tagff d a g) s) fun l => BitVec.ofNat 32
      (((List.range 64).find? fun n => s.tagDone n && (m l).getLsbD n).getD 64)) ∧
  (Executable (.tagclr a g) s → s.core.id = s.group.core →
    let named (n : Nat) : Prop := n < s.group.tags.length ∧
      ∃ l, l < 32 ∧ (activeOf (.tagclr a g) s).getLsbD l = true ∧ (m l).getLsbD n = true
    ∃ t, exec (.tagclr a g) s = .next t ∧ Advanced s t ∧ t.frame = { s.frame with pcs := t.frame.pcs } ∧ t.mem = s.mem ∧
      t.group = { s.group with tags := t.group.tags } ∧
      (∀ n, ¬ named n → t.tag n = s.tag n) ∧
      (∀ n x, named n → s.tag n = some x →
        t.tag n = some { x with err := false, code := 0, cflags := 0, done := x.done && x.out != 0 }) ∧
      ∀ b, b ∈ t.core.shadows ↔ b ∈ s.core.shadows ∧
        ¬ (b.group = s.group.uid ∧ named b.tag ∧ ∀ x, s.tag b.tag = some x → x.out = 0)) ∧
  ∃ f, SetsWord (.xstat d a g) d f ∧ ∀ s l,
    (s.tag (s.v a.toNat l).toNat = none → f s l = 0) ∧
    ∀ x, s.tag (s.v a.toNat l).toNat = some x →
      ((f s l).extractLsb' 0 4).toNat = x.code % 16 ∧ ((f s l).extractLsb' 8 7).toNat = x.out % 128 ∧
      (f s l).getLsbD 15 = x.done ∧ (f s l).getLsbD 16 = x.err ∧ (f s l).extractLsb' 18 7 = x.cflags ∧
      (f s l).getLsbD 17 = s.core.shadows.any fun b => b.group == s.group.uid && b.tag == (s.v a.toNat l).toNat

/-- R255, R258 to R261: XKICK hands its lanes' records to the hoist in ascending order; one lane's record of a copy
without handles that passes its checks becomes a copy of the core under its tag, and one that fails a check leaves
only its status. XCANCEL writes back the RESTART records of the copies it stops, and PUBLISH makes shadow bytes
visible (stated where the bytes' pages need no bit set, have not moved and are not migrating, and their lines are under
the bytes' own keys). -/
def Obligations.Copies : Prop := ∀ (d a : Reg) (g : Guard) (s : State),
  let kick := Instr.xkick d a g
  let cancel := Instr.xcancel d a g
  let pub := Instr.publish d a g
  (Executable kick s → activeOf kick s ≠ 0 → s.core.pend = [] →
    s.core.copies.length + (lanesIn (activeOf kick s)).length ≤ 96 →
    (∀ xs u, kickLanes (fun l => (s.v a.toNat l).toNat) (lanesIn (activeOf kick s)) s = .ok (xs, u) →
      u.frame.tx.active = false → ∃ t, exec kick s = .next t ∧ Advanced u t ∧ t.mem = u.mem ∧ t.core = u.core ∧ t.group = u.group ∧
        Wrote u t d.toNat (activeOf kick s) fun l => BitVec.ofNat 32 ((amGet xs l).getD 0)) ∧
    ∀ l, lanesIn (activeOf kick s) = [l] → (s.v a.toNat l).toNat % 64 = 0 →
      (s.v a.toNat l).toNat + 64 ≤ s.group.scratchLen →
      let bs := s.scratch s.group.uid (s.v a.toNat l).toNat 64
      let r := copyRecOf bs
      r.kind ≠ 3 → r.kind ≠ 5 → r.kind ≠ 6 → r.hsrc = false → r.hdst = false →
      (r.early s s.group [] = none → ∃ t c, exec kick s = .next t ∧ Advanced s t ∧ t.mem = s.mem ∧
        Wrote s t d.toNat (activeOf kick s) (fun _ => 0) ∧ t.core.copies = s.core.copies ++ [c] ∧ c.record = bs ∧
        c.group = s.group.uid ∧ c.warp = s.warp.id ∧ c.unit = 0 ∧
        (∀ n, n ≠ r.tag → t.tag n = s.tag n) ∧
        ∀ x, s.tag r.tag = some x → t.tag r.tag = some { x with out := x.out + 1, done := false }) ∧
      (∀ n, r.early s s.group [] = some n → ∃ t, exec kick s = .next t ∧ RegsOnly s.settled t ∧ Advanced s t ∧
        Wrote s t d.toNat (activeOf kick s) fun _ => BitVec.ofNat 32 n)) ∧
  (Executable cancel s → ∀ l, lowest (activeOf cancel s) = some l →
    let tag := (s.v a.toNat l).toNat % 64
    let o := (s.v a.toNat l).toNat / 64 * 64
    let cs := s.core.copies.filter fun c => c.group == s.group.uid && c.rec'.tag == tag && c.rewritable
    (s.tag tag = none → ∃ t, exec cancel s = .next t ∧ RegsOnly s t ∧ Advanced s t ∧
      Wrote s t d.toNat (activeOf cancel s) fun _ => 3) ∧
    ∀ x, s.tag tag = some x → o + 64 * x.out ≤ s.group.scratchLen → (∀ c ∈ s.group.restarts, c.rec'.tag ≠ tag) →
      (∀ c ∈ cs, ∀ r ∈ s.rewrites, r.2 ≠ c.uid) → ∃ t, exec cancel s = .next t ∧ Advanced s t ∧
      Wrote s t d.toNat (activeOf cancel s) (fun _ => BitVec.ofNat 32 cs.length) ∧ t.mem = s.mem ∧
      (∀ c, c ∈ t.core.copies ↔ c ∈ s.core.copies ∧ ∀ k ∈ cs, k.uid ≠ c.uid) ∧
      (∀ k c, cs[k]? = some c → t.scratch s.group.uid (o + 64 * k) 64 = c.restart.take 64) ∧
      (∀ n, n ≠ tag → t.tag n = s.tag n) ∧
      t.tag tag = some { x with
        out := x.out - cs.length, done := x.done || decide (x.out = cs.length)
        code := if cs.length = 0 then x.code else 11 }) ∧
  (Executable pub s → s.core.pend = [] → ∀ l, lowest (activeOf pub s) = some l →
    let named (n : Nat) : Bool := (s.pair a.toNat l).getLsbD n
    let some_ (f : Tag → Bool) : Prop := ∃ n x, named n = true ∧ s.tag n = some x ∧ f x = true
    let mine (b : ShadowByte) : Bool := b.group == s.group.uid && (named b.tag && (s.tag b.tag).isSome)
    (some_ (fun x => x.out != 0) → ∃ t, exec pub s = .next t ∧ RegsOnly s.settled t ∧ Advanced s t ∧
      Wrote s t d.toNat (activeOf pub s) fun _ => 1) ∧
    (¬ some_ (fun x => x.out != 0) → some_ (·.err) → ∃ t, exec pub s = .next t ∧ RegsOnly s.settled t ∧ Advanced s t ∧
      Wrote s t d.toNat (activeOf pub s) fun _ => 2) ∧
    let t0 : State := { s with core := { s.core with shadows := s.core.shadows.filter fun b => !mine b } }
    (¬ some_ (fun x => x.out != 0) → ¬ some_ (·.err) →
      (∀ b ∈ s.core.shadows, ∀ n x, b.loc = .scratch n x → n = s.group.uid) →
      (∀ b ∈ s.core.shadows, mine b = true → ∀ x, b.loc = .mem x →
        (∀ n, b.epoch = some n → (amGet s.epochs (lineOf x)).getD 0 = n) ∧
        ∀ u, HomeOnly t0 u →
          (∀ y, (∀ b ∈ s.core.shadows, mine b = true → b.loc ≠ y) → readLoc u y = readLoc s y) →
          touchPage (u.jobOf b.job) b.va accWrite u = u ∧ b.home u = (b.loc, b.epoch)) →
      (∀ x ∈ shadowPieces s.group.uid (tagNumbers s.group (s.pair a.toNat l)) s, ∀ lf, x.leaf = some lf →
        lf.migrating = false) →
      ∃ t, exec pub s = .next t ∧ Advanced s t ∧ Wrote s t d.toNat (activeOf pub s) (fun _ => 0) ∧
        t.core.shadows = s.core.shadows.filter (fun b => !mine b) ∧
        ∀ x, readLoc t x =
          (((s.core.shadows.filter mine).reverse.find? fun b => decide (b.loc = x)).map (·.byte)).getD (readLoc s x)))

/-- R284, R288: a warp that is converged, with its block inside the scratchpad and participants its group has, becomes
presented, on an engine that no other group holds; the first of these checks that fails decides the fault. -/
def Obligations.MatrixPresentation : Prop := ∀ (a b : Reg) (s : State),
  let presents (i : Instr) (fn : Nat) : Prop := Executable i s →
    (s.core.engine.owner = none ∨ s.core.engine.owner = some s.group.uid) →
    let o := (s.v a.toNat ((lowest (activeOf i s)).getD 0)).toNat
    let fits : Prop := o % 64 = 0 ∧ o + 64 ≤ s.group.scratchLen
    let fails (n : Nat) : Prop := exec i s = .next (raise (wordOf i) (activeOf i s) (exc 16 n) s)
    let pmask := fieldB (s.scratch s.group.uid o 64) 4 4
    (s.converged = true → fits → pmask < 2 ^ s.group.warps →
      exec i s = .next { s with warp := { s.warp with
        run := .presented
        present := some { fn := fn, block := o, lanes := activeOf i s, fmts := lanesOf (s.v b.toNat)
                          since := s.core.cycle, word := wordOf i, accepted := false } } }) ∧
    (s.converged = false → fails 4) ∧ (s.converged = true → ¬ fits → fails 1) ∧
    (s.converged = true → fits → 2 ^ s.group.warps ≤ pmask → fails 3)
  presents (.mlds a b) 0 ∧ presents (.mswp a b) 1 ∧ presents (.mstr a b) 2 ∧ presents (.mdrn a b) 3 ∧ presents (.mzero a b) 4

/-- R298: MRD reads and MWR writes four columns of an accumulator row per lane, where the group holds the engine and
no accepted work on those sets is left; a selector above 255, in the lowest such lane, is a collective fault, detail
8. -/
def Obligations.MatrixRows : Prop := ∀ (d a : Reg) (g : Guard) (s : State),
  let sel (l : Nat) : Nat := (s.v a.toNat l).toNat
  let ready (i : Instr) : Prop := Executable i s ∧ activeOf i s ≠ 0 ∧ s.core.id = s.group.core ∧
    s.core.engine.owner = some s.group.uid ∧
    ∀ l, l < 32 → (activeOf i s).getLsbD l = true → sel l < 256 ∧ s.core.engine.busyOn (sel l / 128) = false
  let rd := Instr.mrd d a g
  let wr := Instr.mwr d a g
  (ready rd → ∃ t, exec rd s = .next t ∧ RegsOnly s t ∧ Advanced s t ∧
    (∀ j l, j < 4 → l < 32 → t.v (d.toNat + j) l = if (activeOf rd s).getLsbD l then
      s.core.engine.get (sel l / 128) (sel l % 128) (4 * l + j) else s.v (d.toNat + j) l) ∧
    ∀ n, (∀ j, j < 4 → n ≠ s.arch (d.toNat + j)) → t.frame.reg n = s.frame.reg n) ∧
  (ready wr → ∃ t, exec wr s = .next t ∧ Advanced s t ∧
    t = { s with
      warp := { s.warp with frame := { s.frame with pcs := t.frame.pcs } }
      core := { s.core with engine := { s.core.engine with acc := t.core.engine.acc } } } ∧
    (∀ j l, j < 4 → l < 32 → (activeOf wr s).getLsbD l = true →
      t.core.engine.get (sel l / 128) (sel l % 128) (4 * l + j) = s.v (d.toNat + j) l) ∧
    ∀ set m n, m < 128 → n < 128 →
      ((activeOf wr s).getLsbD (n / 4) = false ∨ sel (n / 4) ≠ set * 128 + m) →
      t.core.engine.get set m n = s.core.engine.get set m n) ∧
  ∀ i, i = rd ∨ i = wr → Executable i s → s.core.id = s.group.core →
    (s.core.engine.owner = none ∨ s.core.engine.owner = some s.group.uid) →
    ∀ l, l < 32 → (activeOf i s).getLsbD l = true → 256 ≤ sel l →
    (∀ k, k < l → (activeOf i s).getLsbD k = true → sel k < 256) →
    exec i s = .next (raise (wordOf i) (activeOf i s) (exc 16 8) s)

/-- R57, R84, R225, R226: TLD and TST on dense elements of the issuing job, their records held and within reach:
finding the elements changes at most what home slices hold. TLD delivers integers and patterns as they are and other
floats as FP32; TST stores the pattern of the element's kind. -/
def Obligations.TensorElements : Prop := ∀ (d a b : Reg) (g : Guard) (s u : State) (ts : List (Nat × Target))
    (as : List LaneAcc), Reached s u →
  let ld := Instr.tld d a b g
  let st := Instr.tst d a b g
  let pol := s.v b.toNat
  let dense : Prop := ∀ y ∈ ts, y.2.shape.storage = 0 ∧ y.2.shape.kind ≠ 7 ∧ y.2.job.uid = s.group.job
  (Executable ld s → (∀ l, l < 32 → (activeOf ld s).getLsbD l = true → policyFault tldRule (pol l) l = none) →
    resolveLanes Quad.element (s.quad a.toNat) (fun _ => none) (lanesIn (activeOf ld s)) s = .ok (ts, u) →
    elemAccs (fun _ => accRead) ts pol u = .ok as → dense → Direct accRead as u →
    ∃ t, exec ld s = .next t ∧ LoadOnly s (t.updFrame fun f => { f with flags := s.frame.flags }) ∧ Advanced s t ∧
      (∀ l, l < 32 → t.frame.flags.getD l 0 = s.frame.flags.getD l 0) ∧
      (∀ y ∈ ts, ∀ x ∈ as, x.lane = y.1 → t.v d.toNat y.1 =
        denseValue y.2 [] (y.2.shape.pattern (y.2.shape.address (y.2.shape.offset y.2.coord)).2 (x.bytes s))) ∧
      (∀ l, l < 32 → (activeOf ld s).getLsbD l = false → t.v d.toNat l = s.v d.toNat l) ∧
      ∀ n, n ≠ s.arch d.toNat → t.frame.reg n = s.frame.reg n) ∧
  (Executable st s → (∀ l, l < 32 → (activeOf st s).getLsbD l = true → policyFault tstRule (pol l) l = none) →
    resolveLanes Quad.element (s.quad a.toNat) (fun r => if r.kind = 7 then some 2 else none)
      (lanesIn (activeOf st s)) s = .ok (ts, u) →
    elemAccs (fun _ => accWrite) ts pol u = .ok as → dense → (∀ y ∈ ts, kindWidth y.2.shape.kind ≠ 4) →
    Direct accWrite as u → Settled as →
    ∃ t, exec st s = .next t ∧ UpdateOnly s t ∧ Advanced s t ∧ t.frame.regs = s.frame.regs ∧
      t.frame.preds = s.frame.preds ∧
      Landed s t as (fun l => match amGet ts l with
        | some y => leBytes (kindBytes y.shape.kind) (tstPattern y (s.v d.toNat l)).1
        | none => []) ∧
      ∀ y ∈ ts, t.frame.flags.getD y.1 0 = s.frame.flags.getD y.1 0 ||| (tstPattern y.2 (s.v d.toNat y.1)).2)

/-- R102 to R104, R310: TQRY returns owner, local handle, tile number and generations of an unsharded tile, ZQRY a
tile's index entry and ZVER whether its slab decodes, or the cause, seam and bit offset of the first failure. Stated
where reading records and entries changes at most what home slices hold, and no core holds back a write that is released
to this device. -/
def Obligations.TileQueries : Prop := ∀ (d a : Reg) (g : Guard) (s u : State) (x : Nat → Target) (e : Nat → Nat),
  s.core.pend = [] → (∀ c ∈ s.cores, ∀ w ∈ c.pend, w.observed s = false) →
  let q (l : Nat) : Quad := s.quad a.toNat l
  let tq := Instr.tqry d a g
  let on (i : Instr) (p : Nat → Prop) : Prop := ∀ l, l < 32 → (activeOf i s).getLsbD l = true → p l
  let pairs (i : Instr) (r : Nat → DWord) : Prop := ∃ t, exec i s = .next t ∧ Advanced s t ∧
    WrotePair s t d.toNat (activeOf i s) r ∧ t.mem = s.mem ∧ t.group = s.group ∧ t.frame.flags = s.frame.flags ∧
    t.frame.preds = s.frame.preds
  (Executable tq s → Answers (fun l v => useRecord v.who (q l) v.job (q l).handle v) (fun l => (x l).shape)
      (lanesIn (activeOf tq s)) s u → Reached s u →
    (on tq fun l => (x l).shape.holds (q l).tile = true ∧ (x l).shape.storage ≠ 2) →
    ∃ t, exec tq s = .next t ∧ LoadOnly s t ∧ Advanced s t ∧
      (∀ l, l < 32 → (activeOf tq s).getLsbD l = true →
        let n := (x l).shape.tileNumber (q l).tile
        t.v d.toNat l = BitVec.ofNat 32 (n / 2 ^ 32 % 65536 * 65536 + 16 + s.node.chip % 16) ∧
        t.v (d.toNat + 1) l = BitVec.ofNat 32 (q l).handle ∧ t.v (d.toNat + 2) l = BitVec.ofNat 32 n ∧
        t.v (d.toNat + 3) l = BitVec.ofNat 32 ((x l).shape.gen * 65536)) ∧
      (∀ l j, l < 32 → (activeOf tq s).getLsbD l = false → t.v (d.toNat + j) l = s.v (d.toNat + j) l) ∧
      ∀ n, (∀ j, j < 4 → n ≠ s.arch (d.toNat + j)) → t.frame.reg n = s.frame.reg n) ∧
  (Executable (.zqry d a g) s →
    Answers (fun l v => do
      let (y, v) ← slabTarget (q l) v
      devNat v.who y.job accSlab y.entryAt 8 v) e (lanesIn (activeOf (.zqry d a g) s)) s u → Reached s u →
    pairs (.zqry d a g) fun l => BitVec.ofNat 64 (e l)) ∧
  ∀ r : Nat → Option (List Byte × Bool), Executable (.zver d a g) s →
    Answers (fun l v => do
      let (y, v) ← slabTarget (q l) v
      let (n, b, v) ← slabRead v.who y v
      return ((y, n, b), v)) (fun l => (x l, e l, r l)) (lanesIn (activeOf (.zver d a g) s)) s u → Reached s u →
    pairs (.zver d a g) fun l => match r l with
      | none => 6
      | some (bs, bad) =>
        match decodeSlab s.group.tables (x l).shape.kind (entLen (e l)) bad bs with
        | .ok _ => 0
        | .error f => BitVec.ofNat 64 (f.cause + f.seam * 16 + f.off * 2 ^ 32)

/-- R63, R304: ZLD delivers a tile of the lowest active lane's quad row by row, each lane its column: FP32 words, or
two rows in each word for the 16-bit kinds; flags gather over the lane's 32 elements. Overhang and absent tiles read
+0. -/
def Obligations.TileLoads : Prop := ∀ (d a b : Reg) (g : Guard) (s v u : State) (l0 : Nat) (x : Target) (view : TileView),
  let i := Instr.zld d a b g
  let q := s.quad a.toNat l0
  let w := (s.v b.toNat l0).toNat
  let book := (s.group.books.getD (w / 256 % 8) none).getD []
  Executable i s → lowest (activeOf i s) = some l0 → s.core.pend = [] → deliveryBad w = none → w / 16 % 8 ≠ 5 →
  resolveAt s.who s.job q q.tile (fun _ => none) s = .ok (x, v) → Reached s u → x.shape.kind ≤ 7 →
  (x.shape.kind = 7 → (s.group.books.getD (w / 256 % 8) none).isSome = true) →
  (x.shape.kind ≠ 7 → w / 256 % 8 = 0) →
  ((x.shape.storage = 0 ∧ denseView v.loader x book (List.range 1024) v = .ok (view, u)) ∨
    (x.shape.storage ≠ 0 ∧ ∃ e y, decodeAt v.loader v.group.tables q x v = .ok (e, y, u) ∧
      view = slabView x book (y.map (·.1)))) →
  let dk := w % 16
  let elem (r l : Nat) : Nat × Flags :=
    match (view.getD (32 * r + l) (none, false)).1 with
    | none => roundFloat dk (w / 16 % 8) (w.testBit 7) ((s.frame.rs.getD l 0).toNat / 65536) (.fin false 0 0)
    | some y => deliver dk (w / 16 % 8) (w.testBit 7) ((s.frame.rs.getD l 0).toNat / 65536) y.1 y.2
  ∃ t, exec i s = .next t ∧ Advanced s t ∧ WarpResult s t ∧ t.mem = s.mem ∧
    (∀ l, l < 32 → (activeOf i s).getLsbD l = true →
      (dk = 8 → ∀ r, r < 32 → t.v (d.toNat + r) l = BitVec.ofNat 32 (elem r l).1) ∧
      (dk ≠ 8 → ∀ r, r < 16 → t.v (d.toNat + r) l =
        BitVec.ofNat 32 ((elem (2 * r) l).1 % 65536 + (elem (2 * r + 1) l).1 % 65536 * 65536)) ∧
      t.frame.flags.getD l 0 = (List.range 32).foldl (fun f r => f ||| (elem r l).2) (s.frame.flags.getD l 0)) ∧
    (∀ l, l < 32 → (activeOf i s).getLsbD l = false →
      (∀ n, t.frame.word n l = s.frame.word n l) ∧ t.frame.flags.getD l 0 = s.frame.flags.getD l 0) ∧
    (∀ l, l < 32 → t.frame.rs.getD l 0 = s.frame.rs.getD l 0) ∧
    ∀ n, (∀ r, r < (if dk = 8 then 32 else 16) → n ≠ s.arch (d.toNat + r)) → t.frame.reg n = s.frame.reg n

/-- R305 to R308: ZST makes the new tile from the active lanes' values and the tile's old contents, and the encoder
writes it; past the encoder only flags, generators under mode RS and PCs change. R308: the symbols and scale ZST gives
the tile's row: under NEWSCALE the least scale for the row's exact values, else the old one; active columns take the
lanes' values, the others keep what they held unless the scale changes. -/
def Obligations.TileStores : Prop :=
  (∀ (d a b : Reg) (g : Guard) (s v u : State) (l0 : Nat) (x : Target) (fl : List Flags),
  let i := Instr.zst d a b g
  let q := s.quad a.toNat l0
  let w := (s.v b.toNat l0).toNat
  Executable i s → lowest (activeOf i s) = some l0 → s.core.pend = [] →
  (∀ c ∈ s.cores, ∀ e ∈ c.pend, e.observed s = false) → encodeBad w = none →
  resolveAt s.who s.job q q.tile (fun _ => none) s = .ok (x, v) → Reached s v → x.shape.storage = 1 →
  x.shape.kind ≠ 7 → encodeAt v.who v.group.tables q x
    (zstMake x w (activeOf i s) (s.v d.toNat) fun c => s.frame.rs.getD c 0) v = .ok (fl, u) →
  u.frame.tx.active = false →
  ∃ t, exec i s = .next t ∧ Advanced u t ∧ ResultOnly u.settled t ∧ t.frame.regs = u.frame.regs ∧
    ∀ l, l < 32 →
      (t.frame.flags.getD l 0 =
        if (activeOf i s).getLsbD l then u.frame.flags.getD l 0 ||| fl.getD l 0 else u.frame.flags.getD l 0) ∧
      t.frame.rs.getD l 0 =
        if (activeOf i s).getLsbD l = true ∧ w / 4096 % 8 = 5 then rsNext (u.frame.rs.getD l 0) else u.frame.rs.getD l 0) ∧
  (∀ (x : Target) (w : Nat) (act : Word) (v rs : Nat → Word) (old : Tile) (h : Nat),
  old.syms.length = 1024 → old.scales.length = 32 →
  let k := x.shape.kind
  let row := w % 32
  let mode := w / 4096 % 8
  let sk := w / 256 % 16
  let was := old.scales.getD row 127
  let mine (c : Nat) : (Nat × Nat) := (sk, (v c).toNat % 2 ^ kindWidth sk)
  let kept (c : Nat) : Nat × Nat := (k, old.syms.getD (32 * row + c) 0)
  let e := if w.testBit 15 then newScale k (lanesOf fun c =>
    if act.getLsbD c then elementValue (mine c) none else elementValue (kept c) (some was)) else was
  ∃ new, (zstMake x w act v rs (some (old, h))).1 = .code new (w / 2 ^ 20 % 16) (w / 65536 % 8 + 1) ∧
    new.syms.length = 1024 ∧ new.scales.length = 32 ∧ new.scales.getD row 0 = e ∧
    (∀ r, r < 32 → r ≠ row → new.scales.getD r 0 = old.scales.getD r 0) ∧
    (∀ p, p < 1024 → p / 32 ≠ row → new.syms.getD p 0 = old.syms.getD p 0) ∧
    ∀ c, c < 32 → new.syms.getD (32 * row + c) 0 =
      if act.getLsbD c then (toSymbol k mode (rsBits (rs c)) (mine c) none e).1
      else if e = was then old.syms.getD (32 * row + c) 0
      else (toSymbol k (if mode = 5 then 0 else mode) 0 (kept c) (some was) e).1)

/-- R98, R99: CTLOAD fills a slot of the group from memory within reach, a code table only when no length is above 12
and the lengths satisfy Kraft's inequality (R95), whether or not the code is complete, else it is a descriptor fault
with detail 7 (of a poisoned line as of any other: the model's choice, log entry 49); CTINV clears the slots of a mask
and returns those that were valid. -/
def Obligations.CodeTables : Prop := ∀ (slot : BitVec 3) (d a b : Reg) (g : Guard) (s : State) (l : Nat) (ps : List Piece),
  let o := (s.v a.toNat l).toNat
  let w := (s.v b.toNat l).toNat
  let bs := ps.flatMap fun p => p.loc.bytes s p.n
  let ready (i : Instr) (book : Bool) (n : Nat) : Prop := Executable i s ∧ lowest (activeOf i s) = some l ∧
    loadWordOk w book = true ∧ o % 8 = 0 ∧ segFault s l (w / 4 % 8) o n false = none ∧
    piecesOf s accRead l (w / 4 % 8) o n = .ok ps ∧ Direct accRead (ps.map Piece.alone) s
  let loads (i : Instr) (f : Group → Group) : Prop := ∃ t, exec i s = .next t ∧ Advanced s t ∧
    t.frame = { s.frame with pcs := t.frame.pcs, stuck := t.frame.stuck } ∧ t.group = f s.group ∧ t.mem = s.mem
  (ready (.ctloadCt slot a b g) false ([8, 32, 128].getD (w % 4) 0) →
    (tableOk (tableOf bs) = true → loads (.ctloadCt slot a b g) fun x =>
      { x with tables := x.tables.set slot.toNat (some (tableOf bs)) }) ∧
    (tableOk (tableOf bs) = false → exec (.ctloadCt slot a b g) s =
      .next (raise (wordOf (.ctloadCt slot a b g)) (activeOf (.ctloadCt slot a b g) s) (exc 12 7) s))) ∧
  (ready (.ctloadCb slot a b g) true 32 → loads (.ctloadCb slot a b g) fun x =>
    { x with books := x.books.set slot.toNat (some ((List.range 16).map fun i => BitVec.ofNat 16 (fieldB bs (2 * i) 2))) }) ∧
  (Executable (.ctinv d a g) s → lowest (activeOf (.ctinv d a g) s) = some l →
    let m := (s.v a.toNat l).toNat
    m < 65536 → ∃ t r, exec (.ctinv d a g) s = .next t ∧ Advanced s t ∧
      Wrote s t d.toNat (activeOf (.ctinv d a g) s) (fun _ => r) ∧
      (∀ k, k < 8 → r.getLsbD k = (s.group.tables.getD k none).isSome ∧
        r.getLsbD (8 + k) = (s.group.books.getD k none).isSome ∧
        t.group.tables.getD k none = (if m.testBit k then none else s.group.tables.getD k none) ∧
        t.group.books.getD k none = (if m.testBit (8 + k) then none else s.group.books.getD k none)) ∧
      t.group = { s.group with tables := t.group.tables, books := t.group.books } ∧ t.mem = s.mem)

/-- R89, R241: RECFENCE drops the named records of the job from every core's record cache; SHFENCE of entries that
stand alone changes no register of its warp, and leaves every entry open. Stated with no write in flight, and for
SHFENCE without counterparts on peers, no entry closed before or captured by an instruction that waits, a copy or an
intake, and the entries' pages held for writing. -/
def Obligations.RecordFences : Prop := ∀ (a : Reg) (g : Guard) (s : State),
  s.core.pend = [] → (∀ c ∈ s.cores, c.pend = []) →
  (Executable (.recfence a g) s →
    (∀ l, l < 32 → (activeOf (.recfence a g) s).getLsbD l = true →
      (s.v a.toNat l).toNat < s.job.recCount ∧ (s.v a.toNat l).toNat < 2 ^ 20) →
    let gone (r : CachedRecord) : Prop := r.job = s.group.job ∧
      ∃ l, l < 32 ∧ (activeOf (.recfence a g) s).getLsbD l = true ∧ r.handle = (s.v a.toNat l).toNat
    ∃ t, exec (.recfence a g) s = .next t ∧ Advanced s t ∧ t.frame = { s.frame with pcs := t.frame.pcs } ∧
      t.mem = s.mem ∧ (∀ r, r ∈ t.core.records ↔ r ∈ s.core.records ∧ ¬ gone r) ∧
      t.cores.length = s.cores.length ∧
      ∀ (k : Nat) (c : Core), s.cores[k]? = some c → ∃ c' : Core, t.cores[k]? = some c' ∧ ∀ r, r ∈ c'.records ↔ r ∈ c.records ∧ ¬ gone r) ∧
  let k (l : Nat) : Nat := (s.v a.toNat l).toNat
  ∀ (bs : Nat → List Byte) (u : State), Executable (.shfence a g) s → (∀ j ∈ s.jobs, j.chip = s.node.chip) →
    Answers (fun l v => shfenceEntry (k l) v) bs (lanesIn (activeOf (.shfence a g) s)) s u → Reached s u →
    (∀ l, l < 32 → (activeOf (.shfence a g) s).getLsbD l = true →
      captured u ((counterparts u).map (·.uid)) (k l) = false ∧ (∀ j ∈ s.jobs, k l ∉ j.closed) ∧
      ∀ j ∈ counterparts s, ∃ ps, devPieces s.who s j accWrite (j.shBase + 128 * k l) 128 = .ok ps ∧
        ∀ p ∈ ps, ∃ e, tlbFind s.core j.uid p.va = some e ∧ tlbServes accWrite e.leaf = true) →
    ∃ t, exec (.shfence a g) s = .next t ∧ Advanced s t ∧
      t.frame = { s.frame with pcs := t.frame.pcs, stuck := t.frame.stuck } ∧ t.jobs = s.jobs ∧ t.group = s.group

/-- R110, R112, R120: LAUNCH by the lowest active lane. A misaligned record or a bad policy word is status 4 and a
cancelled level status 9; a record of this chip that its checks refuse gives their status; one that they admit becomes
a launch of the issuer's graph, which has one more child (stated where no node of a graph is ready, for those start
first). R115 to R117: PHSTART by the lowest active lane: a misaligned offset is status 4; otherwise the record's 32
bytes start a phase, or not, with the status of R116, which goes to every active lane. A record in a poisoned line is
used as it stands (the model's choice, log entry 49). The counters of what starts may still wait to be written (log
entry 92). -/
def Obligations.LaunchesAndPhases : Prop :=
  (∀ (d a b : Reg) (g : Guard) (s : State) (l : Nat) (x : LaneAcc),
  let i := Instr.launch d a b g
  let off := s.v a.toNat l
  let pol := s.v b.toNat l
  let gr := s.launch.graph
  let only (n : Nat) : Prop := ∃ t, exec i s = .next t ∧ RegsOnly s.settled t ∧ Advanced s t ∧
    Wrote s t d.toNat (activeOf i s) fun _ => BitVec.ofNat 32 n
  Executable i s → lowest (activeOf i s) = some l →
  (off.toNat % 128 ≠ 0 ∨ (policyFault launchRule pol l).isSome = true → only 4) ∧
  (off.toNat % 128 = 0 → policyFault launchRule pol l = none → launchCancelled s = true → only 9) ∧
  (off.toNat % 128 = 0 → policyFault launchRule pol l = none → launchCancelled s = false →
    fixedAccess accRead (BitVec.twoPow 32 l) 128 0 pol (fun _ => off) s = .ok [x] → Direct accRead [x] s →
    let v := (loadLane x s).2
    (∀ n, launchBad v s.job (x.bytes s) (s.warp.level != .user) = some n →
      ∃ t, exec i s = .next t ∧ LoadOnly s t ∧ Advanced s t ∧
        Wrote s t d.toNat (activeOf i s) fun _ => BitVec.ofNat 32 n) ∧
    (launchBad v s.job (x.bytes s) (s.warp.level != .user) = none →
      (∃ y ∈ s.graphs, y.uid = gr) → readyNodes s s.job.part = [] →
      ∃ t, exec i s = .next t ∧ Advanced s t ∧ Wrote s t d.toNat (activeOf i s) (fun _ => 0) ∧
        t.launches = s.launches ++ [launchOfBytes (x.bytes s) s.fresh gr (s.graphOf gr).job none] ∧
        t.graphOf gr = { s.graphOf gr with outstanding := (s.graphOf gr).outstanding + 1 } ∧ t.fresh = s.fresh + 1))) ∧
  (∀ (d a : Reg) (g : Guard) (s : State) (l : Nat) (x : LaneAcc),
  let i := Instr.phstart d a g
  let off := s.v a.toNat l
  Executable i s → lowest (activeOf i s) = some l →
  (off.toNat % 32 ≠ 0 → ∃ t, exec i s = .next t ∧ RegsOnly s.settled t ∧ Advanced s t ∧
    Wrote s t d.toNat (activeOf i s) fun _ => 4) ∧
  (∀ n u v, off.toNat % 32 = 0 → fixedAccess accRead (BitVec.twoPow 32 l) 32 0 0xC0 (fun _ => off) s = .ok [x] →
    Direct accRead [x] s → v = (loadLane x s).2 →
    startPhase s.job.part ((s.seg 0).1.toNat + off.toNat) (some (x.bytes s)) v = (n, u) → u.frame.tx.active = false →
    ∃ t, exec i s = .next t ∧ Advanced u t ∧ RegsOnly u.settled t ∧
      Wrote u t d.toNat (activeOf i s) fun _ => BitVec.ofNat 32 n) ∧
  ∀ part at_ b j r u, readPhase part b s = some (j, r, u) →
    (2 ≤ j.inFlight → startPhase part at_ (some b) s = (2, u)) ∧
    (j.inFlight < 2 → j.contract = true → j.admitted = false → admits u j = false →
      (startPhase part at_ (some b) s).1 = 1) ∧
    (j.inFlight < 2 → j.contract = false → j.held = none → (u.partOf part).hold = true →
      startPhase part at_ (some b) s = (3, u.updJob j.uid fun y => { y with held := some (r.graph, r.counter) })))

/-- R119, R120: the status of CANCEL for the word of the lowest active lane: 4 for a malformed word, 6 or 7 where no
live level owns the counter, 8 where the level is already cancelled as strongly; else 0, and the level's CANCEL field
holds the mode. -/
def Obligations.Cancels : Prop := ∀ (d a : Reg) (g : Guard) (s : State) (l : Nat),
  let i := Instr.cancel d a g
  let x := (s.v a.toNat l).toNat
  let counter := (s.seg 0).1.toNat + x / 8 * 8
  let live := liveLevel s s.job counter
  let only (n : Nat) : Prop := ∃ t, exec i s = .next t ∧ RegsOnly s.settled t ∧ Advanced s t ∧
    Wrote s t d.toNat (activeOf i s) fun _ => BitVec.ofNat 32 n
  Executable i s → lowest (activeOf i s) = some l →
  (x / 2 % 4 ≠ 0 → only 4) ∧
  (x / 2 % 4 = 0 → live = none → only (if pastLevel s s.job counter then 7 else 6)) ∧
  ∀ y, x / 2 % 4 = 0 → live = some y →
    (x % 2 + 1 ≤ y.cancel s → only 8) ∧
    (y.cancel s < x % 2 + 1 → s.job ∈ s.jobs → (cancelAt s.job counter (x % 2) s).2.frame.tx.active = false →
      ∃ t, exec i s = .next t ∧ y.cancel t = x % 2 + 1 ∧
        Wrote (cancelAt s.job counter (x % 2) s).2 t d.toNat (activeOf i s) fun _ => 0)

/-- R112, R135, R136: SRD returns the selected register to its lanes and latches the high half of a counter whose low
half it reads; SWR writes the four writable registers; the words of some selectors. R212: SEGLD loads a segment from
the quad of the stream's lowest lane and marks the warp as re-segmented; a base or limit it does not admit is a
segment fault with detail 1. That its record gives ADDR 0 and the segment in AUX is the model's reading (log entry
33). -/
def Obligations.SpecialAndSegmentRegisters : Prop :=
  (∀ (d a : Reg) (k : BitVec 11) (s : State),
  let rd := Instr.srd d k
  let wr := Instr.swr a k
  let low := (lowest s.lanes).getD 0
  (Executable rd s → ∃ t, exec rd s = .next t ∧ Advanced s t ∧
    Wrote s t d.toNat (activeOf rd s) (fun l => specialReg s k.toNat l) ∧
    t = { s with warp := { s.warp with
      frame := { s.frame with regs := t.frame.regs, pcs := t.frame.pcs }
      cycHi := if k = 0x20 then BitVec.ofNat 32 (s.core.cycle / 2 ^ 32) else s.warp.cycHi
      tickHi := if k = 0x22 then BitVec.ofNat 32 (s.part.tick / 2 ^ 32) else s.warp.tickHi } }) ∧
  (Executable wr s → ∃ t, exec wr s = .next t ∧ Advanced s t ∧
    t = { s with
      warp := { s.warp with frame := { s.frame with
        flags := if k = 0x10 then t.frame.flags else s.frame.flags
        rs := if k = 0x13 then t.frame.rs else s.frame.rs
        stklim := if k = 0x12 then s.v a.toNat low &&& 0xFFFFFFF0 else s.frame.stklim
        pcs := t.frame.pcs } }
      core := { s.core with
        wcbage := if k = 0x60 then min (max (s.v a.toNat low).toNat 16) 65535 else s.core.wcbage } } ∧
    ∀ l, l < 32 →
      (k = 0x10 → t.frame.flags.getD l 0 = if s.lanes.getLsbD l then (s.v a.toNat l).setWidth 7 else s.frame.flags.getD l 0) ∧
      (k = 0x13 → t.frame.rs.getD l 0 =
        if s.lanes.getLsbD l then (if s.v a.toNat l = 0 then 1 else s.v a.toNat l) else s.frame.rs.getD l 0)) ∧
  ∀ l, specialReg s 0x000 l = BitVec.ofNat 32 l ∧ specialReg s 0x001 l = BitVec.ofNat 32 s.warp.id ∧
    specialReg s 0x008 l = s.lanes ∧ specialReg s 0x012 l = s.frame.stklim ∧
    specialReg s 0x020 l = BitVec.ofNat 32 s.core.cycle ∧ specialReg s 0x021 l = s.warp.cycHi ∧
    specialReg s 0x022 l = BitVec.ofNat 32 s.part.tick ∧ specialReg s 0x023 l = s.warp.tickHi ∧
    specialReg s 0x040 l = (s.seg 0).1.setWidth 32 ∧ specialReg s 0x043 l = ((s.seg 0).2 >>> 32).setWidth 32) ∧
  (∀ (a : Reg) (sg : BitVec 3) (s : State),
  let i := Instr.segld a sg
  let l := (lowest s.lanes).getD 0
  let base := s.pair a.toNat l
  let lim := s.pair (a.toNat + 2) l
  let good : Prop := base.toNat % 128 = 0 ∧ base.toNat ≤ lim.toNat ∧ lim.toNat ≤ 2 ^ 48 ∧
    (sg = 3 → lim.toNat - base.toNat ≤ 65536)
  Executable i s →
  (good → (activeOf i s ≠ 0 ∨ s.frame.tx.active = false) → ∃ t, exec i s = .next t ∧ Advanced s t ∧
    t = { s with warp := { s.warp with
      frame := { s.frame with segs := s.frame.segs.set sg.toNat (base, lim), pcs := t.frame.pcs }, reseg := true } }) ∧
  (¬ good → exec i s = .next (raise (wordOf i) (activeOf i s) (exc 5 1 0 sg.toNat) s)))

/-- R368 to R371: the GRP family. GRPRD reads the selected items; GRPWR writes an item, which then reads back, and no
other item changes; GRPRES halts and resumes another warp of the group, or says why not; a warp that halts has nothing
left in its window; TRET restores the user frame, with the lanes of LANES that are still live at RPC. A selector that
R368 does not admit is a group-state fault. Three readings of the model stand in it: TRET returns to system level in a
launch of system level, where R371 says user level (log entry 16); a write to a live item clears or refuses by bit 0
of the word, and GRPRD and GRPWR reach the frame a warp runs in (log entries 29 and 16). -/
def Obligations.GroupState : Prop := ∀ (d a : Reg) (g : Guard) (s : State),
  let rd := Instr.grprd d a g
  let wr := Instr.grpwr d a g
  let res := Instr.grpres d a g
  let back (q : Sel) (v : Word) : Word :=
    if q.space = 1 ∧ q.index = 1 then 0 else if q.space = 1 ∧ q.index = 3 then v &&& 0xFE
    else if q.space = 1 ∧ q.index = 4 then v &&& 0x7F else if q.space = 2 ∧ q.index = 3 then v &&& 0xFFFF else v
  (Executable rd s →
    ((∀ l, l < 32 → (activeOf rd s).getLsbD l = true → selOk s (s.v a.toNat l) = true) →
      ∃ t, exec rd s = .next t ∧ RegsOnly s t ∧ Advanced s t ∧
        Wrote s t d.toNat (activeOf rd s) fun l => readItem s (s.v a.toNat l)) ∧
    ∀ l, l < 32 → (activeOf rd s).getLsbD l = true → selOk s (s.v a.toNat l) = false →
      (∀ k, k < l → (activeOf rd s).getLsbD k = true → selOk s (s.v a.toNat k) = true) →
      exec rd s = .next (raise (wordOf rd) (activeOf rd s) (excGroup 1 (s.v a.toNat l)) s)) ∧
  (Executable wr s → s.frame.tx.active = false → s.warp.saved.isSome = true → (s.allWarps.map (·.uid)).Nodup →
    (∀ w ∈ s.allWarps, let f := selFrame s w
      f.pcs.length = 32 ∧ f.sds.length = 32 ∧ f.preds.length = 7 ∧ f.flags.length = 32 ∧ f.rs.length = 32) →
    ∀ l, lanesIn (activeOf wr s) = [l] → writeItemFault s (s.v a.toNat l) (s.v d.toNat l) = none →
      let x := s.v a.toNat l
      ∃ t, exec wr s = .next t ∧ Advanced s t ∧ readItem t x = back (selOf x) (s.v d.toNat l) ∧ t.mem = s.mem ∧
        t.frame.regs = s.frame.regs ∧
        ∀ y, selOk s y = true → selOf y ≠ selOf x →
          ¬ ((selOf x).space = 0 ∧ (selOf y).space = 6 ∧ (selOf y).warp = (selOf x).warp ∧
            (selOf y).index = (selOf x).index) → readItem t y = readItem s y) ∧
  (Executable res s → ∀ l w, lowest (activeOf res s) = some l → (s.v a.toNat l).toNat < 512 →
    (s.v a.toNat l).toNat / 32 % 8 = 0 → s.warpNo ((s.v a.toNat l).toNat % 32) = some w →
    let resume := (s.v a.toNat l).getLsbD 8
    let shut : Prop := w.uid = s.warp.uid ∨ w.level = .handler ∨ w.run = .wedged ∨ w.run = .presented
    let only (n : Nat) : Prop := ∃ t, exec res s = .next t ∧ RegsOnly s.settled t ∧ Advanced s t ∧
      Wrote s t d.toNat (activeOf res s) fun _ => BitVec.ofNat 32 n
    (shut → only 3) ∧ (¬ shut → w.run = .ended → only 2) ∧
    (¬ shut → w.run ≠ .ended → (resume = true ↔ w.run ≠ .halted) → only 1) ∧
    (¬ shut → w.run ≠ .ended → (resume = true ↔ w.run = .halted) → Focused s → (s.allWarps.map (·.uid)).Nodup →
      (resume = false → w.atomic = false) → (∀ r ∈ s.rewrites, r.2 ≠ w.uid) →
      (∀ e ∈ s.core.pend, e.warp = s.warp.uid ∨ e.warp = w.uid → e.isLocal s = false ∧ e.stack = false) →
      ∃ t, exec res s = .next t ∧ Advanced s t ∧ Wrote s t d.toNat (activeOf res s) (fun _ => 0) ∧ t.mem = s.mem ∧
        (resume = true → t.warps = s.warps.map fun y => if y.uid = w.uid then
          { y with run := if y.frame.live = 0 then .ended else .running } else y) ∧
        (resume = false → (∃ v ∈ t.warps, v.uid = w.uid ∧ v.run = .halted ∧ v.window = [] ∧ v.staging = [] ∧
            v.frame.regs = w.frame.regs ∧ v.frame.pcs = w.frame.pcs ∧ v.frame.live = w.frame.live) ∧
          ∀ y, y.uid ≠ w.uid → (y ∈ t.warps ↔ y ∈ s.warps)))) ∧
  (Executable (.tret g) s → activeOf (.tret g) s ≠ 0 → ∀ f, s.warp.saved = some f → f.tx.active = false → f.live ≠ 0 →
    (∀ e ∈ s.core.pend, e.homeward s = false) → ∃ t, exec (.tret g) s = .next t ∧ t.frame = { f with pcs := t.frame.pcs } ∧
      t.warp.level = (if s.warp.system then .system else .user) ∧ t.warp.saved = none ∧
      t.warp.fault = { s.warp.fault with ctl := s.warp.fault.ctl &&& 0x7FFFFFFF } ∧ t.mem = s.mem ∧ t.group = s.group ∧
      ∀ l, l < 32 → t.pcOf l =
        if (s.warp.fault.lanes &&& f.live).getLsbD l then s.warp.fault.rpc else f.pcs.getD l 0)

/-- R242, R244, R274: TLBINV and TLBINV2 drop the cached translations whose own-stage page holds PAGE (all, with ALL
set) of every core and every C-die, the L1 and the global-load memo entries of every core, raise the generation and
disturb transactions and sleepers; XLATE reports each lane's translation, or its failure. Stated with no write in
flight. That the invalidation reaches the entries whose own-stage page holds PAGE, and that XLATE gives stage and
level 0 for a malformed request (R244: detail 3), are the model's readings (log entry 23). -/
def Obligations.Translations : Prop := ∀ (d a : Reg) (g : Guard) (s : State),
  let inv (i : Instr) (two : Bool) : Prop := ∀ l, Executable i s → lowest (activeOf i s) = some l → s.core.pend = [] →
    (∀ c ∈ s.cores, c.pend = []) →
    let x := s.pair a.toNat l
    let vm := x.toNat / 16 % 16
    let hit (e : TlbEntry) : Prop :=
      (if two then e.vm = vm ∧ (s.jobOf e.job).part = s.job.part else e.job = s.group.job) ∧
        (x.getLsbD 0 = true ∨ (if two then e.inter / 2 ^ e.span2 else e.page / 2 ^ e.span1) =
          x.toNat / 4096 % 2 ^ 36 * 4096 / 2 ^ (if two then e.span2 else e.span1))
    invWordOk x two = true → (two = true → s.warp.level = .handler → vm = s.job.vm) →
    ∃ t, exec i s = .next t ∧ Advanced s t ∧ t.mem = s.mem ∧
      t.frame = { s.frame with pcs := t.frame.pcs, stuck := t.frame.stuck } ∧
      (∀ e, e ∈ t.core.tlb ↔ e ∈ s.core.tlb ∧ ¬ hit e) ∧ t.core.l1 = [] ∧
      (∀ n e, e ∈ t.dieTlb n ↔ e ∈ s.dieTlb n ∧ ¬ hit e) ∧
      (∀ e ∈ t.core.memo, e.globalLoad = false) ∧ t.cores.length = s.cores.length ∧
      (∀ (k : Nat) (c : Core), s.cores[k]? = some c → ∃ c' : Core, t.cores[k]? = some c' ∧ c'.l1 = [] ∧
        ∀ e, e ∈ c'.tlb ↔ e ∈ c.tlb ∧ ¬ hit e) ∧
      (∀ (k : Nat) (w : Warp), s.warps[k]? = some w → ∃ w' : Warp, t.warps[k]? = some w' ∧
        (w.frame.tx.active = true → w'.frame.tx.pending = true) ∧ (w.asleep = true → w'.woken = true) ∧
        w'.frame.regs = w.frame.regs) ∧
      (two = false → ∀ j, j ∈ s.jobs → j.uid = s.group.job → ∃ j' ∈ t.jobs, j' = { j with gen1 := (j.gen1 + 1) % 2 ^ 64 })
  inv (.tlbinv a g) false ∧ inv (.tlbinv2 a g) true ∧
  (Executable (.xlate d a g) s → ∃ t, exec (.xlate d a g) s = .next t ∧ RegsOnly s t ∧ Advanced s t ∧
    (∀ l, l < 32 → (activeOf (.xlate d a g) s).getLsbD l = true →
      let x := (s.pair a.toNat l).toNat
      let w (k : Nat) : Word := t.v (d.toNat + k) l
      (x < 2 ^ 50 → ∀ r, walk s s.job (x % 2 ^ 48) (xlateAcc (x / 2 ^ 48)) = .ok r →
        w 0 = BitVec.ofNat 32 (r.leaf.phys (x % 2 ^ 48)) ∧
        w 1 = BitVec.ofNat 32 (r.leaf.aperture * 2 ^ 16 + r.leaf.phys (x % 2 ^ 48) / 2 ^ 32 % 2 ^ 16) ∧ w 3 = 0) ∧
      (x < 2 ^ 50 → ∀ f, walk s s.job (x % 2 ^ 48) (xlateAcc (x / 2 ^ 48)) = .error f →
        w 0 = 0 ∧ w 1 = 0 ∧ w 2 = 0 ∧ w 3 = BitVec.ofNat 32 (f.level * 512 + (f.stage - 1) * 256 + f.detail)) ∧
      (2 ^ 50 ≤ x → w 0 = 0 ∧ w 1 = 0 ∧ w 2 = 0 ∧ w 3 = 3)) ∧
    (∀ l k, l < 32 → (activeOf (.xlate d a g) s).getLsbD l = false → t.v (d.toNat + k) l = s.v (d.toNat + k) l) ∧
    ∀ n, (∀ k, k < 4 → n ≠ s.arch (d.toNat + k)) → t.frame.reg n = s.frame.reg n)

/-- R48, R138, R139, R157, R159, R238, R267, R271, R273, R365: what becomes due for the warp in the issuing place: the
limit on J, a wake, an abort decided at a home, the end of a back-off, a walk on a MIGRATING page, a load's last lane,
an engine fault; and the exceptions of a word that is no instruction or cannot be fetched. Naming keeps the value.
That the record of a failed fetch has WORD 0 is the model's reading (log entry 19). -/
def Obligations.WarpEvents : Prop := ∀ s : State, Focused s →
  let f := s.frame
  let now := s.core.cycle
  let u := s.warp.uid
  (∀ j, f.join = some j → f.joinAt + 4096 ≤ now → s.group.onCore = true →
    exec (.joinTimeout u) s = .next (s.updFrame fun f => { f with join := none })) ∧
  (s.warp.asleep = true → ∃ t, exec (.warpWake u) s = .next t ∧
    t = { s with
      warp := { s.warp with
        asleep := false, sleepSet := [], woken := false
        frame := { f with pcs := t.frame.pcs, tx := { f.tx with cause := 10 } } }
      watches := s.watches.filter fun w => w.2 != u } ∧
    ∀ l, l < 32 → t.pcOf l = if f.live.getLsbD l then f.tx.txb else s.pcOf l) ∧
  (f.tx.active = true → f.tx.pending = true → exec (.txAbortDeliver u) s = .next (abortTx 1 0 s)) ∧
  (∀ n, f.tx.backoff = some n → n ≤ now →
    exec (.conflictBackoffEnd u) s = .next (s.updFrame fun f => { f with tx := { f.tx with backoff := none } })) ∧
  (s.reductions.filter Reduction.full = [] → s.lateLogs = [] → s.lateWrites = [] →
    let walked (h : Hold) : Hold := match h.migrating with
      | some (n, _) => { h with migrating := some (n, decide (n + 20000 ≤ now)), migReady := true }
      | .none => h
    let again (x : Frame) : Frame := { x with parked := x.parked.map fun p => (p.1, walked p.2) }
    exec (.migratingRewalk u) s = .next { s with warp := { s.warp with
      hold := walked s.warp.hold, frame := again f, saved := s.warp.saved.map again } }) ∧
  (∀ r e, s.warp.staging.find? (fun e => e.dest == r) = some e → ∃ t, exec (.loadArrival u r) s = .next t ∧
    t = { s with
      core := { s.core with pool := t.core.pool, memo := t.core.memo }
      warp := { s.warp with
        frame := { f with names := t.frame.names, stuck := t.frame.stuck }
        staging := s.warp.staging.erase e
        stalled := t.warp.stalled } } ∧
    t.warp.stalled = (if t.warp.short then some (s.warp.stalled.getD now) else none) ∧
    ∀ n c, nameFor (f.reg r) (sweep s).core = some (n, c) → t.frame.nameOf r = n) ∧
  (∀ v c n d, nameFor v c = some (n, d) → (v.zero = true → n = 0 ∧ d = c) ∧
    (v.zero = false → ∃ e, d.entryOf n = some e ∧ e.words = v.full ∧ e.poison = v.poison ∧ e.live = true)) ∧
  (CanEnter s → s.warp.run = .running → s.group.status = .resident → s.warp.present.any (·.accepted) = false →
    s.warp.atomic = false → f.tx.backoff = none → ∀ e l, lowest f.live = some l → s.group.elog.find? (fun e => e.warp == s.warp.id) = some e →
    ∃ t, exec (.asyncFaultTake u) s = .next t ∧ t.warp.level = .handler ∧
      (Unburdened s → t.group = { s.group with elog := s.group.elog.erase e } ∧ t.mem = s.mem) ∧
      t.warp.saved.map (·.regs) = some f.regs ∧ t.warp.saved.map (·.pcs) = some f.pcs ∧
      t.frame.pcs = List.replicate 32 0 ∧
      t.warp.fault = { e.record with
        fpc := s.pcOf l, rpc := s.pcOf l
        ctl := e.record.ctl ||| BitVec.ofNat 32 (s.warp.level.rank * 2 ^ 24) }) ∧
  (CanEnter s → ∀ w e, decode w = .error e → (e = .reserved → (wordLevel w).1 ≤ s.warp.level.rank) →
    ∃ t, exec (.illegalInstruction w) s = .next t ∧ t.warp.fault.word = w ∧
      Entered s t 1 (match e with
        | .opcode => 1
        | .function => 2
        | .reserved => if guardBits w = 8 then 3 else 4) s.pc s.lanes) ∧
  (CanEnter s → ∀ x, fetchWord s s.pc = .error x →
    ∃ t, exec .instructionFetchFault s = .next t ∧ t.warp.fault.word = 0 ∧ Entered s t 3 x.detail s.pc s.lanes)

/-- R120, R129, R154, R372 to R374, R378: pre-emption is asked of a whole team; the urgency comparison boosts the
team's slowest group below 15/16 of the fastest and clears the counts; pool pressure asks it of the group that started
last; a group asked to stop is saved, or discarded after an abort; a group whose warps have ended completes. The
packing of an event's payload is the model's choice (log entry 18). -/
def Obligations.GroupEvents : Prop := ∀ s : State, s.group.core = s.core.id → (s.allGroups.map (·.uid)).Nodup →
  s.group.uid ≠ 0 →
  let g := s.group
  let mate (x : Group) : Bool := x.status != .completed && x.launch == g.launch && x.team == g.team &&
    (x.uid == g.uid || decide (1 < g.teamSize)) && x.onCore
  let ms := s.allGroups.filter mate
  let low (x : Group) : Prop := ∀ y ∈ ms, x.progress < y.progress ∨ (x.progress = y.progress ∧ x.rank ≤ y.rank)
  let gone (t : State) : Prop := (∀ x ∈ t.allGroups, x.uid ≠ g.uid) ∧ ∀ w ∈ t.allWarps, w.group ≠ g.uid
  let quiet : Prop := (s.partOf s.job.part).preemptAt = none ∧ ∃ l ∈ s.launches, l.uid = g.launch
  let one (b : Bool) (t : State) : Prop := s.launch.done = false → 1 < s.launch.outstanding →
    (t.launchOf g.launch).outstanding = s.launch.outstanding - 1 ∧
      (t.launchOf g.launch).faulted = if b then min (s.launch.faulted + 1) 65535 else s.launch.faulted
  (∃ t, exec (.preemptRequest g.uid) s = .next t ∧ t = { s with group := t.group, groups := t.groups } ∧
    t.allGroups = s.allGroups.map fun x => if mate x then { x with preempt := true } else x) ∧
  (2 ≤ ms.length → (ms.map (·.rank)).Nodup → ∃ t, exec (.urgencyCompare g.uid) s = .next t ∧
    t = { s with group := t.group, groups := t.groups } ∧ t.allGroups.length = s.allGroups.length ∧
    ∀ (k : Nat) (x : Group), s.allGroups[k]? = some x → ∃ y : Group, t.allGroups[k]? = some y ∧ (mate x = false → y = x) ∧
      (mate x = true → y = { x with progress := 0, boost := y.boost } ∧
        (y.boost = true ↔ low x ∧ ∃ z ∈ ms, 16 * x.progress < 15 * z.progress))) ∧
  (∀ x ∈ s.groupsOn s.core.id, (∀ y ∈ s.groupsOn s.core.id, y = x ∨ y.order < x.order) →
    (∃ y ∈ s.groupsOn s.core.id, ∃ w ∈ s.warpsOf y.uid, w.frame.live ≠ 0) →
    (∀ y ∈ s.groupsOn s.core.id, y.preempt = false ∧ ∀ w ∈ s.warpsOf y.uid, w.frame.live ≠ 0 →
      (∃ c, w.stalled = some c ∧ c + 65536 ≤ s.core.cycle) ∧ (settleNames (s.focus w.uid)).2 = false) →
    exec (.poolPressure s.core.id) s = .next (requestPreempt x.uid
      (postEvent 10 (s.jobOf x.job).part (s.jobOf x.job).jobno (s.core.id, x.number, 0, 0) s))) ∧
  (g.onCore = true → g.preempt = true → quiet → (∀ w ∈ s.warpsOf g.uid, w.atomic = false) → s.writing g.uid = [] →
    (g.abort = true → ∃ t, exec (.groupCaptured g.uid) s = .next t ∧ gone t ∧ one true t) ∧
    (g.abort = false → (s.allWarps.map (·.uid)).Nodup → (∀ r ∈ s.rewrites, ∀ w ∈ s.warpsOf g.uid, r.2 ≠ w.uid) →
      (∀ c ∈ s.core.copies, c.group = g.uid → c.followed = false ∧ ∀ r ∈ s.rewrites, r.2 ≠ c.uid) →
      (∀ x ∈ s.graphs, x.move = none) → ∃ t, exec (.groupCaptured g.uid) s = .next t ∧
      t.mem = s.mem ∧ (∃ x ∈ t.allGroups, x.uid = g.uid ∧ x.status = .saved ∧ x.preempt = false ∧ x.scratch = g.scratch) ∧
      t.allWarps.length = s.allWarps.length ∧
      ∀ w ∈ s.allWarps, ∃ v ∈ t.allWarps, v.uid = w.uid ∧ (w.group ≠ g.uid → v = { w with present := v.present }) ∧
        (w.group = g.uid → v.frame.regs = w.frame.regs ∧ v.frame.preds = w.frame.preds ∧ v.frame.live = w.frame.live ∧
          v.frame.tx.active = false ∧ v.window = [] ∧ v.staging = [] ∧ v.run ≠ .presented ∧
          (w.frame.tx.active = false → v.frame.pcs = w.frame.pcs)))) ∧
  (g.onCore = true → g.abort = false → (∀ w ∈ s.warpsOf g.uid, w.run = .ended) → quiet → g.elog = [] →
    g.restarts = [] → s.writing g.uid = [] → (∀ k ∈ s.core :: s.cores, ∀ c ∈ k.copies, c.group ≠ g.uid) → (∀ b ∈ s.core.shadows, b.group ≠ g.uid) →
    s.core.engine.owner ≠ some g.uid → s.encoders = [] →
    ∃ t, exec (.groupComplete g.uid) s = .next t ∧ gone t ∧ one g.faulted t)

/-- R112, R113, R131 to R134: placement takes the head of a tier's queue while HOLD is clear, and its next team goes to
the cores R132 chooses; the node of a partition that became ready first starts its launch, or completes as faulted
where its record is refused, and no other node starts; a pipeline's sample is counted every 65 536 cycles, and at most
one donor is asked to stop for a receiving stage, where no move is under way and HOLD is clear; its first group takes
the core of a donor that can be saved at once. That a move whose receiver does not fit gives the cores back is a
reading of the model (log entry 57), and that a waiting item stays in its queue is its choice (log entry 80). -/
def Obligations.Placement : Prop := ∀ s : State,
  (∀ n, (s.partOf n).hold = true → waitingRestarts s n = [] → exec (.groupPlace n) s = .next s) ∧
  (∀ n k l cs, (∃ p ∈ s.parts, p.num = n) → (∃ y ∈ s.launches, y.uid = l) → (s.partOf n).hold = false → k < 3 →
    (s.partOf n).queues = (List.replicate 3 []).set k [.fresh l] → waitingRestarts s n = [] →
    let x := s.launchOf l
    x.done = false → x.next < x.groups → 1 ≤ x.team → chooseFresh (s.partCores n) x s = some cs →
    let size := min x.team (x.groups - x.next)
    ∃ t gs rest, exec (.groupPlace n) s = .next t ∧ t.groups = s.groups ++ gs ++ rest ∧ gs.length = size ∧ t.mem = s.mem ∧
      (∀ (i : Nat) (g : Group), gs[i]? = some g → g.uid = s.fresh + i * (x.warps + 1) ∧ g.launch = l ∧
        g.number = x.next + i ∧ cs[i]? = some g.core ∧ g.rank = i ∧ g.teamSize = size ∧ g.status = .resident ∧
        g.warps = x.warps ∧ g.scratch = [] ∧
        g.tags = List.replicate x.tags { out := 0, done := false, err := false, code := 0, cflags := 0 }) ∧
      (x.next + size = x.groups → rest = [] ∧ (t.partOf n).queues = [[], [], []] ∧ (t.launchOf l).next = x.groups)) ∧
  (∀ u k x, (s.graphOf u).nodes[k]? = some x →
    let j := s.jobOf (s.graphOf u).job
    let start := exec (.launchStart u k) s
    (firstNode s j.part ≠ some (u, k) → start = .next s) ∧
    (firstNode s j.part = some (u, k) →
      (∀ bs t, x.lrec % 128 = 0 → localRead j x.lrec 128 s = some (bs, t) → launchBad t j bs true = none →
        ∃ v, start = .next v ∧ launchOfBytes bs t.fresh u (t.graphOf u).job (some k) ∈ v.launches ∧
          ((v.graphOf u).nodes[k]?).map (·.state) = some (.started t.fresh)) ∧
      (x.lrec % 128 ≠ 0 ∨ localRead j x.lrec 128 s = none ∨
        (∃ bs t st, localRead j x.lrec 128 s = some (bs, t) ∧ launchBad t j bs true = some st) →
        ∃ v, start = .next v ∧ v.launches = s.launches ∧
          ((v.graphOf u).nodes[k]?).map (·.state) = some (.complete true)))) ∧
  ∀ u, (∃ g ∈ s.graphs, g.uid = u) →
    let g := s.graphOf u
    let j := s.jobOf g.job
    let due : Prop := g.pipeline = true ∧ g.done = false ∧ g.samples < (partCycle s j.part - g.startCycle) / 65536
    let w := s.updGraph u fun x => { x with samples := x.samples + 1 }
    let qs := (sampleQueues g w).1
    let w := (sampleQueues g w).2
    let free : Prop := g.cancel = 0 ∧ (w.jobOf g.job).overrun = false ∧ moving w g = false ∧
      (w.partOf (w.jobOf g.job).part).hold = false
    let sample := exec (.pipelineSample u) s
    (¬ due → sample = .next s) ∧
    (due → ¬ free ∨ receiverQueue w g qs = none ∨
      (∃ r, receiverQueue w g qs = some r ∧ donorStage w g qs r = none) → sample = .next w) ∧
    ∀ r k d l, due → free → receiverQueue w g qs = some r → donorStage w g qs r = some k →
      d ∈ stageGroups w g k → (∀ x ∈ stageGroups w g k, x = d ∨ x.order < d.order) →
      let v := requestPreempt d.uid (w.updGraph u fun x => { x with move := some (d.uid, r.consumer) })
      ((∃ x ∈ teamOf v d, capturable v x.uid = false) → sample = .next v) ∧
      (d.teamSize ≤ 1 → capturable v d.uid = true → (w.allGroups.map (·.uid)).Nodup →
        (∀ x ∈ s.graphs, x.uid ≠ u → ∀ m, x.move = some m → m.1 ≠ d.uid) →
        stageLaunch w g r.consumer = some l → l.team ≤ 1 → d.launch ≠ l.uid →
        (∀ x ∈ s.allGroups, x.launch = l.uid → x.status ≠ .saved) →
        canTake (saveGroup d.uid v) (needOf l l.teamNext false) d.core = true →
        ∃ t, sample = .next t ∧ (t.groupOf d.uid).status = .saved ∧
          ∃ y ∈ t.groups, y.launch = l.uid ∧ y.number = l.next ∧ y.core = d.core ∧ y.status = .resident)

/-- R116, R122, R123: for every job, a held start that is due completes: it begins a phase, or is given up with an
event where its graph no longer reads; a budget overrun completes: a charge above its budget puts the job in overrun;
a deadline expiry completes: a phase late for its deadline is told; once each in a period. A held start is not tested
for admission again (log entry 81). A period lasts until the next one begins, and the packing of an event's payload is
the model's choice (log entries 56 and 18). That the graph record is read again as a held start begins, and what then
fails is told as event 8 with status 4, is the model's reading (log entry 31). -/
def Obligations.PeriodsAndHeldStarts : Prop := ∀ (u : Nat) (s : State), (∃ x ∈ s.jobs, x.uid = u) →
  let j := s.jobOf u
  (∀ g c, j.held = some (g, c) → (s.partOf j.part).hold = false → j.inFlight < 2 →
    (∀ t, j.perStart = some t → j.contract = false ∨ t + j.period ≤ (s.partOf j.part).tick) →
    (readGraph j g s = none → ∃ t, exec (.heldStart u) s = .next t ∧
      t = postEvent 8 j.part j.jobno (g % 2 ^ 32, g / 2 ^ 32, 4, 0) (s.updJob u fun x => { x with held := none })) ∧
    ∀ x v, readGraph j g s = some (x, v) →
      ∃ t, exec (.heldStart u) s = .next t ∧ beginPhase j g c s = some t ∧
        (x.pipeline = false → j.cancel = 0 → (t.jobOf u).held = none ∧ (t.jobOf u).inFlight = j.inFlight + 1 ∧
          (∃ p ∈ t.phases, p.uid = v.fresh ∧ p.job = u ∧ p.counter = c ∧ p.outstanding = 1 ∧ p.done = false) ∧
          ∃ y ∈ t.graphs, y.uid = v.fresh + 1 ∧ y.phase = v.fresh ∧ y.record = g ∧ y.outstanding = x.nodes.length ∧
            y.nodes.map (·.lrec) = x.nodes.map (·.1) ∧
            ∀ (k : Nat) (n : Node), y.nodes[k]? = some n →
              (n.state = .ready ↔ n.pred = 0) ∧ (n.state = .waiting ↔ n.pred ≠ 0))) ∧
  (j.held ≠ none → (s.partOf j.part).hold = true → exec (.heldStart u) s = .next s) ∧
  (∀ p, j.perStart = some p → j.contract = true → j.admitted = true → j.overrun = false → j.budget < j.charge →
    ∃ t, exec (.budgetOverrun u) s = .next t ∧
      t = postEvent 5 j.part j.jobno (p % 2 ^ 32, p / 2 ^ 32, 0, 0) (s.updJob u fun x => { x with overrun := true })) ∧
  ∀ p, j.perStart = some p → j.contract = true → j.deadlineSeen = false → (s.phaseOf j.perPhase).done = false →
    p + j.deadline ≤ (s.partOf j.part).tick →
    ∃ t, exec (.deadlineExpiry u) s = .next t ∧
      t = postEvent 6 j.part j.jobno (p % 2 ^ 32, p / 2 ^ 32, 0, 0) (s.updJob u fun x => { x with deadlineSeen := true })

/-- R250, R254 to R259, R299, R318, R319: a copy whose bytes have all landed completes its tag and adds its bytes to
its barrier; one that failed as it was kicked ends under its tag with that status; a follow-on command starts an
intake; a shadow copy starts once there is room; the encoder rewrites a copy's next tile; a reduction waits for every
contributor. How the 8192 shadow lines are counted is the model's reading (log entry 54). -/
def Obligations.CopyEvents : Prop := ∀ (s : State) (c : Copy), s.group.core = s.core.id → c.group = s.group.uid →
  s.core.copies.find? (fun x => x.uid == c.uid) = some c →
  let done := Instr.copyComplete s.core.id c.uid
  let r := c.rec'
  let others (t : State) : Prop := ∀ n, n ≠ r.tag → t.tag n = s.tag n
  let gone (t : State) : Prop := t.core.copies = s.core.copies.filter fun x => x.uid != c.uid
  (c.late = none → c.held = false → c.accepted = false → r.does ≠ 4 → r.does ≠ 5 → c.units ≤ c.unit →
    r.folw = false ∨ c.followed = true → (∀ y ∈ s.rewrites, y.2 ≠ c.uid) → ∃ t, exec done s = .next t ∧ gone t ∧ others t ∧ t.mem = s.mem ∧
      (∀ x, s.tag r.tag = some x → t.tag r.tag = some { x with out := x.out - 1, done := x.done || x.out == 1 }) ∧
      (r.hasBar = true → t.scratch s.group.uid r.bar 8 =
        leBytes 8 (leNat (s.scratch s.group.uid r.bar 8) + c.landed)) ∧
      ∀ a, r.hasBar = false ∨ a < r.bar ∨ r.bar + 8 ≤ a →
        Memory.get t.group.scratch a = Memory.get s.group.scratch a) ∧
  (∀ cls det addr aux, c.late = some (cls, det, addr, aux) →
    let st := statusOf (exc cls det addr aux)
    st ≠ 0 → st ≠ 11 → c.held = false → ∃ t, exec done s = .next t ∧ gone t ∧ others t ∧
      ∀ x, s.tag r.tag = some x → t.tag r.tag =
        some { x with out := x.out - 1, done := x.done || x.out == 1, code := st, err := true }) ∧
  (let block := s.scratch s.group.uid r.follow 64
   let f := (cmdOf block).fmt
   c.lands = true → r.folw = true → c.followed = false → c.following = false → c.units ≤ c.unit →
   s.core.engine.owner = some s.group.uid → s.core.engine.intake = none →
   blockCheck s 2 (cmdOf block) f [s.group] (0, 0) 0 false = none →
   let k : Intake :=
     { fn := 2, block := block, offset := r.follow, fmt := f, tiles := [], waiting := false, copy := some c.uid
       refs := [], tables := s.group.tables, books := s.group.books }
   ∀ refs u, resolveRefs (intakeTiles k s.group) s = .ok (refs, u) →
   exec (.followOnIssue s.core.id c.uid) s = .next { u with core := { u.core with
     engine := { u.core.engine with intake := some { k with refs := refs } }
     copies := u.core.copies.map fun x => if x.uid = c.uid then { x with following := true } else x } }) ∧
  (firstHeld s.core = some c → (r.pub = true → c.late = none → shadowHeld s.core + c.lines ≤ 8192) →
    ∃ t, exec (.shadowCopyStart s.core.id c.uid) s = .next t ∧
    t = { s with core := { s.core with copies := t.core.copies } } ∧
    t.core.copies.find? (fun x => x.uid == c.uid) = some { c with held := false }) ∧
  (c.lands = true → c.tiles ≠ [] → c.unit < c.units →
    (∃ b, (c.tiles.getD c.unit (none, none)).2 = some b ∧ b.shape.storage = 1) → ∀ u, landTile c s = .ok u →
    exec (.slabEncode s.core.id c.uid) s = .next u ∧ ∀ x, (s.copyOf? c.uid) = some x →
      ∃ y, u.copyOf? c.uid = some y ∧ y.unit = x.unit + 1 ∧ x.landed ≤ y.landed) ∧
  ∀ k : Contribution, k.mask.getLsbD k.src = true → s.reductions.length < 256 →
    (∀ x ∈ s.reductions, sameReduction x.first k = false) → (∃ n, n < 16 ∧ n ≠ k.src ∧ k.mask.getLsbD n = true) →
    lostContributor s { first := k, parts := [k], since := none } = none →
    exec (.reduceContribution k) s = .next
      { s with reductions := { first := k, parts := [k], since := none } :: s.reductions }

/-- R322, R331, R332, R239: a plain write in flight is performed at its home, after those before it to the same line; a
line of the write-combining buffer held for WCBAGE cycles drains; a walk installs its translation, or restarts where a
generation was raised since it began. -/
def Obligations.WritesAndWalks : Prop := ∀ s : State,
  (∀ n e, s.core.pend[n]? = some e → e.buffered = false → e.isLocal s = true → e.keyed s →
    (∀ m x, s.core.pend[m]? = some x → m ≠ n → x.buffered = false → x.loc.line = e.loc.line →
      n < m ∧ ¬ (x.step = e.step ∧ x.warp = e.warp)) → (s.core.pend.filter fun x => decide (x = e)) = [e] →
    ∃ t, exec (.writePerformed s.core.id n) s = .next t ∧ t.core.pend = s.core.pend.filter (fun x => decide (x ≠ e)) ∧
      t.mem = landedMem s.mem [e] ∧ t.frame.regs = s.frame.regs) ∧
  (∀ l, s.core.pend ≠ [] → (∀ e ∈ s.core.pend, e.buffered = true ∧ e.loc.line = l ∧ e.since + s.core.wcbage ≤ s.core.cycle ∧
      e.keyed s ∧ (e.isLocal s = true ∨ (s.partOf e.part).failed.getLsbD e.chip = false ∧ s.silentPeer e.chip = false)) →
    ∃ t, exec (.wcbAgeDrain s.core.id) s = .next t ∧ t.core.pend = [] ∧ t.mem = landedMem s.mem s.core.pend ∧
      t.frame.regs = s.frame.regs) ∧
  ∀ w rest j, s.core.walks = w :: rest → s.jobOf? w.job = some j →
    let gen2 := (s.partOf j.part).vmgens.getD j.vm 0
    (w.gen1 ≠ j.gen1 ∨ w.gen2 ≠ gen2 → exec (.pageWalkComplete s.core.id) s = .next { s with
      core := { s.core with walks := { w with gen1 := j.gen1, gen2 := gen2 } :: rest } }) ∧
    (w.gen1 = j.gen1 → w.gen2 = gen2 → ∀ r, walk s j w.va (if w.write then accWrite else accRead) = .ok r →
      (w.write = true → r.leaf.migrating = false) → ∃ t, exec (.pageWalkComplete s.core.id) s = .next t ∧
        t.core.walks = rest ∧ tlbEntryOf j w.va w.write r ∈ t.core.tlb ∧ t.frame.regs = s.frame.regs) ∧
    (w.gen1 = j.gen1 → w.gen2 = gen2 → ∀ f, walk s j w.va (if w.write then accWrite else accRead) = .error f →
      exec (.pageWalkComplete s.core.id) s = .next { s with core := { s.core with walks := rest } })

/-- R72, R283, R288 to R297, R301, R305: the matrix engine's events, for a collective of one warp of the group that
holds the engine: acceptance of each command, its faults for participants that disagree and after 2^20 cycles, the
decoded tiles of an intake and what it delivers, one chunk of an MSTR, and the rows and the end of a drain to
scratchpad. That an intake's descriptors are read at its acceptance is the model's reading (log entry 26). -/
def Obligations.MatrixEvents : Prop := ∀ s : State, s.group.core = s.core.id → s.group.onCore = true →
  s.core.engine.owner = some s.group.uid →
  let e := s.core.engine
  let id := s.core.id
  let g := s.group
  let v := s.warp.presented
  let u : State := { s with lanes := v.lanes, warp := { s.warp with run := .running, present := none } }
  let idle : Prop := ∀ a rest, e.work ≠ .zero a :: rest
  let resumed (t : State) : Prop :=
    t.warp = { s.warp with
        run := .running, present := none, window := ([] :: s.warp.window).take 8, stalled := t.warp.stalled
        frame := { s.frame with pcs := t.frame.pcs, names := t.frame.names, stuck := t.frame.stuck } } ∧
      t.group.progress = g.progress + 1 ∧ ∀ l, l < 32 → t.pcOf l = if v.lanes.getLsbD l then s.pcOf l + 4 else s.pcOf l
  let zeroed (a : Nat) (t : State) : Prop := t.core.engine.flagWord a = 0 ∧
    ∀ m n, m < 128 → n < 128 → t.core.engine.get a m n = 0
  (∀ bs f, collective s g = some ([g], [s.warp], bs) → e.intake = none →
    let c := cmdOf bs
    let accept := Instr.collectiveAccept g.uid
    (participantsAgree s [s.warp] bs = true → c.zerosOk v.fn = true → c.team = false → formatVote [s.warp] = .ok f →
      blockCheck s v.fn c f [g] (s.frame.segs.getD 0 (0, 0)) ((lowest v.lanes).getD 0) true = none →
      (v.fn = 1 → ∃ t, exec accept s = .next t ∧ resumed t ∧ t.mem = s.mem ∧
        t.core.engine = { e with active := e.shadow, shadow := e.active }) ∧
      (v.fn = 4 → e.work = [] → ∃ t, exec accept s = .next t ∧ resumed t ∧ t.mem = s.mem ∧ zeroed c.acc t ∧
        ∀ m n, m < 128 → n < 128 → t.core.engine.get (1 - c.acc) m n = e.get (1 - c.acc) m n) ∧
      (v.fn = 3 → idle → c.tagEn = false → s.core.pend = [] → (∀ k ∈ s.cores, k.pend = []) →
        ∃ t, exec accept s = .next t ∧ resumed t ∧ t.mem = s.mem ∧
          t.core.engine = { e with work := e.work ++ [.drain bs f v.block 0 s.warp.id none] }) ∧
      (v.fn = 0 ∨ v.fn = 2 → s.core.pend = [] → (∀ k ∈ s.cores, k.pend = []) →
        let k : Intake :=
          { fn := v.fn, block := bs, offset := v.block, fmt := f, tiles := [], waiting := false, copy := none
            refs := [], tables := g.tables, books := g.books }
        ∀ refs w, resolveRefs (intakeTiles k g) s = .ok (refs, w) → exec accept s = .next { w with
          warp := { w.warp with present := w.warp.present.map fun p => { p with accepted := true } }
          core := { w.core with engine := { w.core.engine with intake := some { k with refs := refs } } } })) ∧
    (CanEnter s → participantsAgree s [s.warp] bs = false →
      ∃ t, exec accept s = .next t ∧ t.warp.fault.word = v.word ∧ Entered u t 16 5 u.pc v.lanes)) ∧
  (CanEnter s → presentedOf s g = [s.warp] → v.since + 2 ^ 20 ≤ s.core.cycle → (cmdOf (blockOf s s.warp)).team = false →
    ∃ t, exec (.collectiveTimeout g.uid) s = .next t ∧ t.warp.fault.word = v.word ∧ Entered u t 16 6 u.pc v.lanes) ∧
  (∀ k, e.intake = some k →
    (k.copy.isSome = true ∨ (cmdOf k.block).team = false →
      exec (.decoderPendingWake id) s = .next
        { s with core := { s.core with engine := { e with intake := some { k with waiting := false } } } } ∧
      ∀ q r rows t, (intakeTiles k g)[k.tiles.length]? = some q → k.refs[k.tiles.length]? = some r →
        k.waiting = false → intakeTile k q r s = .ok (rows, t) → exec (.seamDecode id) s =
          .next (t.updCore id fun x => Core.updIntake (fun y => { y with tiles := y.tiles ++ [rows] }) { x with l1 := [] })) ∧
    (let c := cmdOf k.block
     let rows := if c.byTile then tileRows k g else denseRows s k g
     k.copy = none → c.team = false → k.tiles.length = (intakeTiles k g).length → intakeWarps s k g = [s.warp] →
     ∃ t, exec (.intakeComplete id) s = .next t ∧ resumed t ∧ t.mem = s.mem ∧
       (k.fn = 0 → t.core.engine = { e with
         intake := none, shadow := { k := c.k, n := c.cols g, kind := fmtB k.fmt, rows := rows } }) ∧
       (k.fn ≠ 0 → idle → t.core.engine = { e with
         intake := none, work := e.work ++ [.stream c.acc rows e.active 0] }))) ∧
  (∀ a rows p n rest, e.work = .stream a rows p n :: rest → rows.length ≤ 128 → p.n ≤ 128 →
    32 * (n + 1) < p.k ∨ rest = [] →
    let el (m j : Nat) : Word × Flags := accumulate (((rows.getD m []).drop (32 * n)).take 32)
      (((p.rows.drop (32 * n)).take 32).map fun b => b.getD j (.fin false 0 0)) (e.get a m j)
    ∃ t, exec (.mstrBackground id) s = .next t ∧ t = { s with core := { s.core with engine := t.core.engine } } ∧
      t.core.engine.work = (if 32 * (n + 1) < p.k then .stream a rows p (n + 1) :: rest else []) ∧
      (∀ m j, m < rows.length → j < p.n → t.core.engine.get a m j = (el m j).1) ∧
      (∀ b m j, m < 128 → j < 128 → b ≠ a ∨ rows.length ≤ m ∨ p.n ≤ j → t.core.engine.get b m j = e.get b m j) ∧
      ∀ k, (t.core.engine.flagWord a).getLsbD k = true ↔ (e.flagWord a).getLsbD k = true ∨
        ∃ m j, m < rows.length ∧ j < p.n ∧ (el m j).2.getLsbD k = true) ∧
  ∀ b f o row n since rest, e.work = .drain b f o row n since :: rest →
    let c := cmdOf b
    let x := spanOf 3 c f g c.k
    let a := x.start + row * c.stride
    let r := drainRow f e c.acc row x.cols (if drainDraws f then (engineDraws x.cols s).1 else [])
    let drain := Instr.drainBackground id
    c.dseg = true →
    (row < x.rows → x.cols ≠ 0 → 8 ≤ kindWidth x.kind → ∃ t, exec drain s = .next t ∧ t.mem = s.mem ∧
      t.core.engine = { e.orFlags c.acc (r.foldl (fun h y => h ||| y.2) 0) with
        work := .drain b f o (row + 1) n none :: rest } ∧
      t.scratch g.uid a (rowBytes x.kind x.cols) = r.flatMap (fun y => leBytes (kindBytes x.kind) y.1) ∧
      ∀ y, y < a ∨ a + rowBytes x.kind x.cols ≤ y → Memory.get t.group.scratch y = Memory.get g.scratch y) ∧
    (x.rows ≤ row ∨ x.cols = 0 → c.maxEn = false → c.flagEn = false → rest = [] → ∃ t, exec drain s = .next t ∧
      t.mem = s.mem ∧ t.core.engine.work = [] ∧ (c.clr = true → zeroed c.acc t) ∧
      (c.clr = false → t.core.engine = { e with work := [] }) ∧
      (c.tagEn = true → ∀ y, s.tag c.tag = some y →
        t.tag c.tag = some { y with out := y.out - 1, done := y.done || y.out == 1 }))

/-- R167, R344 to R355: a peer's load, store and compare-and-swap at this device, and its refusals; the removal of
global-load memo entries; a flit in order is taken and its message delivered once, or forwarded on a detour, a damaged
one is answered by a NAK under REPLAY; idle flits; links that go down and come up; a peer declared failed, and
readmitted once the partition's functions are open (R394). What a flit of a detour does here, and how many message
numbers are remembered, are readings of the model (log entries 66 and 34), and so are the notice of a detour's end and
what a flit sent again counts for (log entries 86 and 87). -/
def Obligations.FabricEvents : Prop := ∀ s : State,
  (∀ m : PeerMsg, s.inbox = [] →
    let run := exec (.remoteAccess m) s
    let home (a n : Nat) : Prop := ∃ p, s.parts.find? (fun p => p.num == m.part) = some p ∧
      inStorage p.dies p.carve a = true ∧ inStorage p.dies p.carve (a + n - 1) = true
    let wrote (a : Nat) (bs ans : List Byte) : Prop := ∃ t o, run = .next t ∧
      t.mem = Memory.write s.mem (memKey s.node.chip a) bs ∧ t.out = s.out ++ o ++ [.answer m.src ans] ∧
      t.frame.regs = s.frame.regs ∧ t.group.scratch = s.group.scratch
    let old (a : Nat) : Word := wordOfList (s.read (memKey s.node.chip a) 4)
    ((∀ p ∈ s.parts, p.num ≠ m.part) → (∀ c, m.body ≠ .linkControl c) → run = .next { s with out := s.out ++ [.refusal m.src 1] }) ∧
    (∀ a n reuse, m.body = .load a n reuse → home a n → ∃ t o, run = .next t ∧
      t.out = s.out ++ o ++ [.answer m.src (s.read (memKey s.node.chip a) n)] ∧ t.mem = s.mem ∧
      t.frame.regs = s.frame.regs ∧
      (reuse = true → m.src ∈ (amGet t.marks (lineOf (memKey s.node.chip a))).getD [])) ∧
    (∀ a bs, m.body = .store a bs → home a bs.length → wrote a bs []) ∧
    (∀ op a y, m.body = .atom op a y → home a 4 → let r := atomOp op (old a) y
      wrote a (leBytes 4 r.1.toNat) (leBytes 4 (old a).toNat ++ leBytes 1 r.2.toNat)) ∧
    (∀ op a y, m.body = .red op a y → home a 4 → wrote a (leBytes 4 (atomOp op (old a) y).1.toNat) []) ∧
    (∀ a x y, m.body = .atomc a x y → home a 4 →
      (old a = x → wrote a (leBytes 4 y.toNat) (leBytes 4 (old a).toNat)) ∧
      (old a ≠ x → run = .next { s with out := s.out ++ [.answer m.src (leBytes 4 (old a).toNat)] })) ∧
    ∀ a n reuse p, m.body = .load a n reuse → s.parts.find? (fun p => p.num == m.part) = some p → inStorage p.dies p.carve a = false →
      run = .next { s with out := s.out ++ [.refusal m.src 2] }) ∧
  (∀ chip, ∃ t, exec (.memoRemovalMessage chip) s = .next t ∧ t.out = s.out ++ [.answer chip []] ∧
    t.core = { s.core with memo := s.core.memo.filter fun e => !e.globalLoad } ∧
    t.cores = s.cores.map fun c => { c with memo := c.memo.filter fun e => !e.globalLoad }) ∧
  (∀ port idx k peer far, s.linkOf port idx = some k → s.portPeer port = some (peer, far) → k.up = true →
    (∀ f n m, f.intact = true → f.nak = false → f.seq = k.rxSeq + 1 → 4 < f.fcch.toNat → f.msgs = [(n, m)] →
      f.fwd = none ∨ f.fwd = some s.node.chip → (s.partOf m.part).failed.getLsbD m.src = false → ∀ p, s.peerOf m.src = some p →
      ∃ t, exec (.flitReceive port idx f) s = .next t ∧ t.mem = s.mem ∧ (t.linkOf port idx).map (·.rxSeq) = some f.seq ∧
        t.inbox = (if (m.body.channel, n) ∈ p.seen then s.inbox
          else s.inbox ++ [{ port := port, link := idx, since := none, msg := m }]) ∧
        ((t.peerOf m.src).map fun p => decide ((m.body.channel, n) ∈ p.seen)) = some true) ∧
    (∀ f chip l, f.intact = true → f.nak = false → f.seq = k.rxSeq + 1 → 4 < f.fcch.toNat → f.fwd = some chip →
      chip ≠ s.node.chip → chip ≠ peer → s.queued = [] →
      nextLink (acknowledge port idx f.ack s) (outPort s chip) = some l →
      hasCredit s (((s.portPeer (outPort s chip)).map (·.1)).getD 16) 4 = true →
      ∃ t x, exec (.flitReceive port idx f) s = .next t ∧ t.mem = s.mem ∧ t.inbox = s.inbox ∧
        t.out = s.out ++ [.flit l.port l.idx x] ∧ x.ch = 4 ∧ x.msgs = f.msgs ∧ x.fwd = some chip) ∧
    (∀ f, f.intact = false → (s.portPart port).fabpol.getLsbD 0 = true → s.queued = [] → k.retry.length < 256 → ∃ t x, exec (.flitReceive port idx f) s = .next t ∧
      t.out = s.out ++ [.flit port idx x] ∧ x.nak = true ∧ x.ack = k.rxSeq ∧ t.inbox = s.inbox ∧ t.mem = s.mem) ∧
    (k.retry.length < 256 → ∃ t x, exec (.idleFlit port idx) s = .next t ∧ t.out = s.out ++ [.flit port idx x] ∧
      x.ch = 7 ∧ x.nak = false ∧ x.msgs = [] ∧ x.seq = k.txSeq + 1 ∧ x.ack = k.rxSeq ∧
      t.linkOf port idx = some { k with txSeq := k.txSeq + 1, retry := k.retry ++ [x] }) ∧
    (∃ t, exec (.linkDown port idx) s = .next t ∧ (t.linkOf port idx).map (·.up) = some false) ∧
    (liveLinks s peer = [k] → (s.portPart (primaryPort s peer)).fabpol.getLsbD 2 = false → (∃ p ∈ s.peers, p.chip = peer) →
      ∃ t, exec (.linkDown port idx) s = .next t ∧ (t.peerOf peer).map (·.silent) = some true)) ∧
  (∀ port idx peer far, s.portPeer port = some (peer, far) → idx < 4 →
    (∃ t k, exec (.linkTraining port idx peer far) s = .next t ∧ t.linkOf port idx = some k ∧ k.up = true ∧ k.rxSeq = 0 ∧
      (∀ y, s.linkOf port idx = some y → ∀ f ∈ y.retry, ∃ g ∈ k.retry, g.ch = f.ch ∧ g.msgs = f.msgs ∧ g.fwd = f.fwd) ∧
      ∀ p, t.peerOf peer = some p → p.silent = false ∧ p.detour = none) ∧
    ∀ x y, (x, y) ≠ (peer, far) → ∃ t, exec (.linkTraining port idx x y) s = .next t ∧
      (t.linkOf port idx).map (·.up) ≠ some true) ∧
  (∀ peer, peer < 16 → peer ≠ s.node.chip → liveLinks s peer = [] → detourNow s peer = none →
    (∃ p ∈ s.parts, p.failed.getLsbD peer = false) → ∃ t, exec (.peerFailed peer) s = .next t ∧
      (∀ n, (∃ p ∈ s.parts, p.num = n) → (t.partOf n).failed.getLsbD peer = true) ∧
      (((s.core :: s.cores).map (·.id)).Nodup →
        ∀ c ∈ t.core :: t.cores, ∀ e ∈ c.pend, ∀ a, e.loc = .mem a → a / 2 ^ 48 ≠ peer)) ∧
  ∀ part mask, (s.boot ≠ .running ∨ (s.partOf part).opened = false → exec (.failedClear part mask) s = .next s) ∧
    (s.boot = .running → (s.partOf part).opened = true → ∃ t, exec (.failedClear part mask) s = .next t ∧
      t = { s with parts := t.parts } ∧
      ((∃ p ∈ s.parts, p.num = part) → (t.partOf part).failed = (s.partOf part).failed &&& ~~~mask) ∧
      ∀ n, n ≠ part → t.partOf n = s.partOf n)

/-- R107 to R109, R119, R120, R124, R125, R358 to R360, R379: the host's commands, their statuses and what they do; a
REMOVE that waits for what is in flight has no status yet (log entry 89); the ring behind the doorbell; accesses
through CXL.mem and through the BAR2 window; a snooped line. That a CANCEL for a job not installed answers 6 whatever
its operand is the model's choice (log entry 59), and so is what an access through an empty or foreign key slot does
(log entry 35). What stops the ring at a place outside its storage is the model's choice (log entry 82). That walks of
a VM start from the VMROOT that stood at its first INSTALL is the model's reading (log entry 74). -/
def Obligations.HostSide : Prop := ∀ (part : Nat) (s : State),
  let tells (n : Nat) (t : State) : Prop := ∃ o, t.out = s.out ++ o ++ [.status part n]
  let only (i : Instr) (n : Nat) : Prop := exec i s = .next { s with out := s.out ++ [.status part n] }
  let opensUp : Prop := s.boot = .running ∧ (s.partOf part).opened = true
  let key (a : Nat) : Nat := memKey s.node.chip a
  (∀ a, physRead s part a 128 = none → only (.install part a) 4) ∧
  (∀ a bs, physRead s part a 128 = some bs →
    (contextOk bs = false → only (.install part a) 4) ∧
    (contextOk bs = true → (∃ j ∈ s.jobs, j.chip = s.node.chip ∧ j.part = part ∧ j.jobno = fieldB bs 0x44 4) →
      only (.install part a) 4) ∧
    (contextOk bs = true → fieldB bs 0x28 4 = 0 → jobIn s part (fieldB bs 0x44 4) = none →
      let j0 := jobOfContext s part bs
      let v := if (s.jobs.any fun x => x.chip == j0.chip && x.part == part && x.vm == j0.vm) = true then s
        else s.updPart part fun p => { p with vmlive := p.vmlive.set j0.vm (p.vmroots.getD j0.vm 0) }
      counterOk v j0 (fieldB bs 0x48 8) = true →
      ∃ t j, exec (.install part a) s = .next t ∧ tells 0 t ∧ t.jobs = s.jobs ++ [j] ∧ t.fresh = s.fresh + 1 ∧
        j.uid = s.fresh ∧ j.chip = s.node.chip ∧ j.part = part ∧ j.jobno = fieldB bs 0x44 4 ∧ j.ptroot = fieldB bs 0 8 ∧
        j.recBase = fieldB bs 8 8 ∧ j.recCount = fieldB bs 0x10 4 ∧ j.counter = fieldB bs 0x48 8 ∧ j.inFlight = 0 ∧
        j.cancel = 0 ∧ j.admitted = false ∧ j.tables = List.replicate 8 none ∧ j.books = List.replicate 8 none)) ∧
  (∀ n, jobIn s part n = none → only (.remove part n) 6 ∧ only (.release part n) 6 ∧
    ∀ x, only (.hostCancel part x n) 6) ∧
  (∀ n j, jobIn s part n = some j →
    (let v := if j.removing.isSome then s
        else abortJob part j.uid (s.updJob j.uid fun x => { x with removing := some false })
     (jobClear v j.uid = true → j.removing ≠ some true →
        ∃ t, exec (.remove part n) s = .next t ∧ tells 0 t ∧ ∀ k ∈ t.jobs, k.uid ≠ j.uid) ∧
     (jobClear v j.uid = false → exec (.remove part n) s = .next v)) ∧
    (exec (.release part n) s = .next { s with
      jobs := s.jobs.map fun x => if x.uid = j.uid then { x with admitted := false } else x
      out := s.out ++ [.status part 0] }) ∧
    ∀ x : DWord, let a := x.toNat / 8 * 8
      (x.toNat / 2 % 4 ≠ 0 → only (.hostCancel part x n) 4) ∧
      (x.toNat / 2 % 4 = 0 → liveLevel s j a = none → only (.hostCancel part x n) (if pastLevel s j a then 7 else 6)) ∧
      ∀ y, x.toNat / 2 % 4 = 0 → liveLevel s j a = some y →
        (x.toNat % 2 + 1 ≤ y.cancel s → only (.hostCancel part x n) 8) ∧
        (y.cancel s < x.toNat % 2 + 1 → j ∈ s.jobs →
          ∃ t, exec (.hostCancel part x n) s = .next t ∧ tells 0 t ∧ y.cancel t = x.toNat % 2 + 1)) ∧
  (∀ a, a % 32 ≠ 0 → only (.phasestart part a) 4) ∧
  (∀ a n u, a % 32 = 0 → startPhase part a (physRead s part a 32) s = (n, u) →
    exec (.phasestart part a) s = .next { u with out := u.out ++ [.status part n] }) ∧
  (∀ v : DWord, (¬ opensUp ∨ v.toNat < (s.partOf part).doorbell.toNat) → exec (.doorbell part v) s = .next s) ∧
  (∀ v hd bs, opensUp → (s.partOf part).doorbell.toNat ≤ v.toNat → (∃ p ∈ s.parts, p.num = part) →
    ringHeld s part = false →
    let base := (s.partOf part).ringbase.toNat
    let head := fieldB hd 0 8
    let cmd := fieldB hd 16 8 + 64 * (head % fieldB hd 24 4)
    physRead s part base 64 = some hd → fieldB hd 24 4 ≠ 0 → v.toNat = head + 1 → physRead s part cmd 64 = some bs →
    fieldB bs 0 4 = 0 ∨ 6 ≤ fieldB bs 0 4 → ∃ t, exec (.doorbell part v) s = .next t ∧ (t.partOf part).doorbell = v ∧
      (t.partOf part).ringhead = v ∧ t.jobs = s.jobs ∧ t.frame.regs = s.frame.regs ∧
      t.mem = Memory.write (Memory.write s.mem (key (cmd + 4)) (leBytes 4 4)) (key base) (leBytes 8 v.toNat)) ∧
  (∀ a n, 0 < n →
    let inside : Prop := s.boot = .running ∧ (hbmPart s a).isSome = true ∧ (hbmPart s (a + n - 1)).isSome = true
    (inside → ∃ t o, exec (.hostMemAccess a (.read n)) s = .next t ∧ t.out = s.out ++ o ++ [.data (s.read (key a) n)] ∧
      t.mem = s.mem ∧ t.frame.regs = s.frame.regs ∧ t.jobs = s.jobs) ∧
    (¬ inside → exec (.hostMemAccess a (.read n)) s = .next { s with out := s.out ++ [.data (List.replicate n 0xFF)] }) ∧
    ∀ bs : List Byte, (s.boot = .running → hbmPart s a ≠ none → hbmPart s (a + bs.length - 1) ≠ none →
      ∃ t, exec (.hostMemAccess a (.write bs)) s = .next t ∧ t.mem = Memory.write s.mem (key a) bs ∧
        t.frame.regs = s.frame.regs ∧ t.jobs = s.jobs) ∧
      (s.boot ≠ .running → exec (.hostMemAccess a (.write bs)) s = .next s)) ∧
  (∀ a k, s.keyOf (s.partOf part).winkey = some k →
    let ep := if k.bypass then 0 else k.epoch
    let mine (n : Nat) : Prop := ∀ i, i < n → isHbm (a + i) = true ∧ (s.partOf part).dies.contains ((a + i) / 2 ^ 37) = true
    let clean (n : Nat) : Prop := ∀ i, i < n → amGet s.hbm (lineOf (key a + i)) = none ∧
      (amGet s.epochs (lineOf (key a + i))).getD 0 = ep
    (¬ opensUp ∨ k.owner ≠ part → ∀ n bs,
      exec (.bar2Access part a (.read n)) s = .next { s with out := s.out ++ [.data (List.replicate n 0xFF)] } ∧
      exec (.bar2Access part a (.write bs)) s = .next s) ∧
    (opensUp → k.owner = (s.partOf part).num → ∀ n, mine n → clean n → exec (.bar2Access part a (.read n)) s =
      .next { s with free := s.free + 1, out := s.out ++ [.data (s.read (key a) n)] }) ∧
    (opensUp → k.owner = (s.partOf part).num → ∀ bs : List Byte, bs ≠ [] → mine bs.length → clean bs.length →
      lineOf (key a + bs.length - 1) = lineOf (key a) →
      exec (.bar2Access part a (.write bs)) s = .next { s with mem := Memory.write s.mem (key a) bs })) ∧
  ∀ line, line ∈ s.hostLines →
    (exec (.cxlCacheSnoop line false) s = .next { s with out := s.out ++ [.data (s.read (line * 128) 128)] }) ∧
    ∃ t o, exec (.cxlCacheSnoop line true) s = .next t ∧ t.out = s.out ++ [.data (s.read (line * 128) 128)] ++ o ∧
      t.hostLines = s.hostLines.filter (· ≠ line) ∧ t.mem = s.mem

/-- R131, R219, R243, R359, R399 to R401, R403, R407: registers of a partition written and read over the management
channel, PREEMPT and HOLD, the dirty-page log's overflow, the carve-out, the configuration in reset-hold, and key
slots. R394: before a function opens, its BAR0 reads all ones and ignores writes. The bits a write drops, the values
it refuses and the places in BAR0 that no table gives are the model's (log entry 35). When CAPTURED is cleared, and
that a changed carve-out reads as never written, are the model's (log entries 36 and 1). -/
def Obligations.Registers : Prop := ∀ (part : Nat) (s : State),
  let tells (n : Nat) (t : State) : Prop := ∃ o, t.out = s.out ++ o ++ [.mgmt n 0]
  let refuses (i : Instr) (n : Nat) : Prop := exec i s = .next { s with out := s.out ++ [.mgmt n 0] }
  let busy : Prop := ∃ j ∈ s.jobs, j.chip = s.node.chip ∧ j.part = part
  let reads (t : State) (off : Nat) (v : DWord) : Prop := exec (.rdreg part off) t = .next { t with out := t.out ++ [.mgmt 0 v] }
  let keeps (off : Nat) (f : DWord → DWord) : Prop := ∀ v, (∃ p ∈ s.parts, p.num = part) →
    ∃ t, exec (.registerWrite part off v) s = .next t ∧ exec (.wrreg part off v) s = .next t ∧
      t = { s with parts := t.parts, out := s.out ++ [.mgmt 0 0] } ∧ reads t off (f v) ∧
      ∀ n, n ≠ part → t.partOf n = s.partOf n
  (keeps 0x008 (fun v => v >>> 12 <<< 12 ||| v &&& 1) ∧ keeps 0x010 (fun v => v >>> 12 <<< 12) ∧ keeps 0x018 id ∧
    keeps 0x020 id ∧ keeps 0x028 id ∧ keeps 0x030 (· &&& 0xFFFFFFFFFFE1) ∧ keeps 0x038 id ∧
    keeps 0x048 (fun v => v >>> 21 <<< 21) ∧ keeps 0x050 id ∧ keeps 0x520 (fun v => (v.setWidth 2).setWidth 64) ∧
    ((s.partOf part).vmroots.length = 16 → ∀ k, k < 16 → keeps (0x080 + 8 * k) (fun v => v >>> 12 <<< 12))) ∧
  (opened s part = true → keeps 0x10000 (fun v => v >>> 6 <<< 6) ∧ keeps 0x10018 (· &&& 511) ∧
    keeps 0x10030 (fun v => ((s.partOf part).failed &&& ~~~(v.setWidth 16)).setWidth 64) ∧ reads s 0x10008 0 ∧
    ∀ v, (∃ p ∈ s.parts, p.num = part) → ∃ t, exec (.registerWrite part 0x10028 v) s = .next t ∧
      exec (.wrreg part 0x10028 v) s = .next t ∧ tells 0 t ∧ reads t 0x10028 ((v.setWidth 3).setWidth 64)) ∧
  (opened s part = false → ∀ off, 0x10000 ≤ off → off < 0x20000 → reads s off (BitVec.allOnes 64) ∧
    ∀ v, refuses (.registerWrite part off v) 0 ∧ refuses (.wrreg part off v) 0) ∧
  (∀ v, ∀ off ∈ [0x10010, 0x10020], refuses (.registerWrite part off v) 0 ∧ refuses (.wrreg part off v) 0) ∧
  (busy → ∀ v, refuses (.registerWrite part 0x058 v) 2 ∧ refuses (.registerWrite part 0x060 v) 2) ∧
  (¬ busy → keeps 0x060 (fun v => v &&& 1) ∧ ∀ v : DWord, 4 < v.toNat → refuses (.registerWrite part 0x058 v) 1) ∧
  (∀ v, refuses (.registerWrite part 0x004 v) 1 ∧ refuses (.wrreg part 0x004 v) 1 ∧ refuses (.rdreg part 0x004) 1) ∧
  ((s.allGroups.map (·.uid)).Nodup → (∃ p ∈ s.parts, p.num = part) → ∃ t, exec (.preempt part) s = .next t ∧ tells 0 t ∧
    (t.partOf part).hold = true ∧
    let mine (g : Group) : Prop := g.onCore = true ∧ (s.jobOf g.job).part = part
    ((∃ g ∈ s.allGroups, mine g) → (t.partOf part).captured = false ∧ t.mem = s.mem ∧
      ∀ g ∈ s.allGroups, mine g → ∃ x ∈ t.allGroups, x = { g with preempt := true }) ∧
    ((∀ g ∈ s.allGroups, ¬ mine g) → (t.partOf part).captured = true ∧ (t.partOf part).preemptAt = none ∧
      t.allGroups = s.allGroups)) ∧
  (∃ t, exec (.holdWrite part true) s = .next t ∧ t = { s with parts := t.parts, out := s.out ++ [.mgmt 0 0] } ∧
    ∀ n, t.partOf n = if n = part ∧ (∃ p ∈ s.parts, p.num = part) then { s.partOf n with hold := true } else s.partOf n) ∧
  ((s.partOf part).queues = [[], [], []] → (∃ p ∈ s.parts, p.num = part) → ∃ t, exec (.holdWrite part false) s = .next t ∧
    t = { s with parts := t.parts, out := s.out ++ [.mgmt 0 0] } ∧
    t.partOf part = { s.partOf part with hold := false, captured := false }) ∧
  ((∃ p ∈ s.parts, p.num = part) → ∃ t, exec (.logovfClear part) s = .next t ∧
    t = { s with parts := t.parts, out := s.out ++ [.mgmt 0 0] } ∧ t.partOf part = { s.partOf part with logovf := false }) ∧
  (∀ d n, (busy → refuses (.carveWrite part d n) 2) ∧
    (¬ busy → 8 < n ∨ (s.partOf part).dies.length ≤ d → refuses (.carveWrite part d n) 1) ∧
    (¬ busy → n ≤ 8 → d < (s.partOf part).dies.length → (∃ p ∈ s.parts, p.num = part) →
      ∃ t, exec (.carveWrite part d n) s = .next t ∧ tells 0 t ∧ (t.partOf part).carve.getD d 0 = n ∧
        (∀ k, k < (s.partOf part).dies.length → k ≠ d → (t.partOf part).carve.getD k 0 = (s.partOf part).carve.getD k 0) ∧
        ∀ o, o < 2 ^ 32 → (s.partOf part).dies.getD d 0 < 8 →
          Memory.get t.mem (memKey s.node.chip (0xFF0000000000 + (s.partOf part).dies.getD d 0 * 2 ^ 32 + o)) = 0)) ∧
  (∀ ns c, inHold s = false → refuses (.partcfgWrite ns) 1 ∧ refuses (.nodecfgWrite c) 1) ∧
  (∀ ns, inHold s = true → (partcfgOk ns = false → refuses (.partcfgWrite ns) 1) ∧
    (partcfgOk ns = true → ∃ t, exec (.partcfgWrite ns) s = .next t ∧
      t = { s with parts := t.parts, out := s.out ++ [.mgmt 0 0] } ∧
      ∀ d, d < 8 → ∃ p ∈ t.parts, p = Part.reset (ns.getD d 0) p.dies ∧ ∀ k, k ∈ p.dies ↔ k < 8 ∧ ns.getD k 0 = ns.getD d 0)) ∧
  (∀ c, inHold s = true → (nodecfgOk c = false → refuses (.nodecfgWrite c) 1) ∧
    (nodecfgOk c = true → ∃ t, exec (.nodecfgWrite c) s = .next t ∧
      t = { s with node := c, links := [], queued := [], stripes := [], credits := [], peers := t.peers, out := s.out ++ [.mgmt 0 0] } ∧
      ∀ k, k < c.size → k ≠ c.chip → ∃ p, t.peerOf k = some p ∧ p.silent = false)) ∧
  ∀ slot owner key bypass,
    (slot < 512 → (∃ t k, exec (.keyload slot owner key bypass) s = .next t ∧ t.keyOf slot = some k ∧ k.owner = owner ∧
        k.key = key ∧ k.bypass = bypass ∧ t = { s with keys := t.keys, material := t.material, out := s.out ++ [.mgmt 0 0] } ∧
        ∀ n, n ≠ slot → t.keyOf n = s.keyOf n) ∧
      ∃ t, exec (.keyclr slot) s = .next t ∧ t.keyOf slot = none ∧
        t = { s with keys := t.keys, out := s.out ++ [.mgmt 0 0] } ∧ ∀ n, n ≠ slot → t.keyOf n = s.keyOf n) ∧
    (512 ≤ slot → refuses (.keyload slot owner key bypass) 1 ∧ refuses (.keyclr slot) 1)

/-- R394 to R398, R402, R404 to R407: power-on and device reset check an image, which opens the device or leaves it in
reset-hold; a reset partition; the fused SVN; attestation and telemetry; frame-sync edges, clock steps, thermal
thresholds and HBM errors. What memory holds after a reset, the unit of the clock and the packing of an event's
payload are the model's choices (log entries 1, 36, 13 and 18), and the device's key pairs and random bytes are free
values. That a step up of the clock counts its 100 µs anew, and that PRESET keeps bytes of dirty lines, are the
model's (log entries 37 and 61); the signature schemes and SHA-384 are those of their public standards (log entry 91).
What the device does while THERMTRIP holds it is the model's choice (log entry 42). -/
def Obligations.BootAndPlatform : Prop := ∀ (part : Nat) (s : State),
  let fresh (t : State) : Prop := t.jobs = [] ∧ t.groups = [] ∧ t.warps = [] ∧ t.keys = [] ∧ t.launches = [] ∧
    t.core = Core.reset 0 ∧ t.cores = [] ∧ t.warp = Warp.idle ∧ t.group = Group.idle ∧ t.pwrcap = 8000 ∧ t.hbm = [] ∧
    t.fuseSvn = s.fuseSvn ∧ (∀ a, Memory.get t.mem a = if outside s a then Memory.get s.mem a else 0)
  let refuses (i : Instr) : Prop := exec i s = .next { s with out := s.out ++ [.mgmt 1 0] }
  let boots (i : Instr) (bs : List Byte) : Prop := ∃ t, exec i s = .next t ∧ fresh t ∧
    let n := imageStatus s.fuseSvn (imageOf bs)
    t.out = s.out ++ [.boot n] ∧ (∀ p ∈ t.parts, p.opened = false) ∧ (n ≠ 0 → t.boot = .hold n) ∧
    (n = 0 → t.boot = .checked ∧ t.image = imageOf bs)
  let p := s.partOf part
  let exists_ : Prop := ∃ p ∈ s.parts, p.num = part
  let clock (i : Instr) (n : Nat) : Prop := ∃ t, exec i s = .next t ∧ (t.partOf part).clockStep = n ∧
    t.frame.regs = s.frame.regs ∧ t.jobs = s.jobs
  let warm (d n : Nat) : State := { s with
    sensors := amPut d { (amGet s.sensors d).getD { current := 0, power := 0, tenths := 0 } with tenths := n } s.sensors }
  let low (p : Part) : Prop := ∃ n, p.coolSince = some n ∧ n + 10000 ≤ p.tick
  (∀ img, boots (.powerOn img) img ∧ (s.boot ≠ .tripped → boots (.deviceReset img) img) ∧
    (s.boot = .tripped → exec (.deviceReset img) s = .next s)) ∧
  (s.agenda = [] → s.boot = .checked → ∃ t, step s = .next t ∧ t.boot = .running ∧ ∀ p ∈ t.parts, p.opened = true) ∧
  (∀ fuse (img : FwImage), let n := imageStatus fuse img
    let header : Prop := img.magic = 0x4C505846 ∧ img.bodyLen.toNat = img.body.length ∧ img.bodyLen.toNat % 256 = 0 ∧
      ∀ b ∈ img.zeros, b = 0
    let digests : Prop := sha384 (img.modulus ++ leBytes 4 img.exponent.toNat) = Config.fusedDigests.1 ∧
      sha384 img.slhKey = Config.fusedDigests.2
    let rsa : Prop := pssVerify (beNat img.modulus) img.exponent.toNat (messageOf img) img.rsaSig = true
    let slh : Prop := slhVerify img.slhKey (messageOf img) img.slhSig = true
    (¬ header → n = 1) ∧ (header → ¬ digests → n = 2) ∧ (header → digests → ¬ rsa → n = 3) ∧
      (header → digests → rsa → ¬ slh → n = 4) ∧ (header → digests → rsa → slh → img.svn.toNat < fuse → n = 5) ∧
      (header → digests → rsa → slh → fuse ≤ img.svn.toNat → n = 0)) ∧
  (¬ exists_ → refuses (.preset part)) ∧
  (exists_ → ∃ t, exec (.preset part) s = .next t ∧
    (∀ j ∈ t.jobs, ¬ (j.chip = t.node.chip ∧ j.part = part)) ∧ (∀ m ∈ t.inbox, m.msg.part ≠ part) ∧
    t.partOf part = { Part.reset part p.dies with
      clockStep := p.clockStep, coolSince := p.coolSince.map fun _ => 0, opened := p.opened } ∧
    ∀ c ∈ t.core :: t.cores, p.dies.contains (c.id / 36) = true → c = Core.reset c.id) ∧
  (s.boot = .running → exec .svnup s = .next { s with
    fuseSvn := max s.fuseSvn s.image.svn.toNat, out := s.out ++ [.mgmt 0 0] }) ∧
  (s.boot ≠ .running → refuses .svnup ∧ ∀ nonce, refuses (.attest nonce part)) ∧
  (s.boot = .running → exists_ → ∀ nonce,
    let body := beBytes 48 nonce.toNat ++ Config.serial ++ leBytes 4 s.image.svn.toNat ++ sha384 (messageOf s.image) ++
      sha384 (configBytes s part)
    ∃ salt random, salt.length = 48 ∧ random.length = 24 ∧ exec (.attest nonce part) s = .next { s with
      free := s.free + 1
      out := s.out ++ [.report body (pssSign Config.rsaIdentity.1 Config.rsaIdentity.2.2 body salt)
        (slhSign Config.slhIdentity body random), .mgmt 0 0] }) ∧
  (∀ d q r, s.parts.find? (fun q => q.dies.contains d) = some q → amGet s.sensors d = some r →
    let say (n : Nat) : Output := .mgmt 0 (BitVec.ofNat 64 n)
    exec (.telem d) s = .next { s with
      out := s.out ++ [say r.power, say r.current, say r.tenths, say (1900000 - 118750 * q.clockStep)] }) ∧
  (p.sync.getLsbD 0 = false ∨ (∃ n, p.lastEdge = some n ∧ p.tick < n + 100) →
    exec (.frameSyncEdge part) s = .next s) ∧
  (p.sync.getLsbD 0 = true → (∀ n, p.lastEdge = some n → n + 100 ≤ p.tick) →
    let a := bits p.sync.toNat 47 5 * 32
    ∀ n u, startPhase part a (physRead s part a 32) (s.updPart part fun q => { q with lastEdge := some p.tick }) = (n, u) →
      exec (.frameSyncEdge part) s = .next (postEvent 9 part
        (((physRead s part a 32).map fun b => fieldB b 0x10 4).getD 0) (a % 2 ^ 32, a / 2 ^ 32, n, 0) u)) ∧
  (exists_ → p.clockStep ≤ 8 →
    16000 < (s.sensors.map (·.2.current)).sum ∨ s.pwrcap < (s.sensors.map (·.2.power)).sum →
    clock (.clockLower part) (min 8 (p.clockStep + 1))) ∧
  ((s.sensors.map (·.2.current)).sum ≤ 16000 → (s.sensors.map (·.2.power)).sum ≤ s.pwrcap →
    exec (.clockLower part) s = .next s) ∧
  (exists_ → low p → clock (.clockRaise part) (p.clockStep - 1)) ∧ (¬ low p → exec (.clockRaise part) s = .next s) ∧
  (∀ d n, 1150 ≤ n → ∃ t, exec (.thermalThreshold d n) s = .next t ∧ t.boot = .tripped ∧ fresh t ∧
    ∀ img, exec (.deviceReset img) t = .next t) ∧
  (∀ d n, 1050 ≤ n → n < 1150 → dieNumber s d = part → p.clockStep < 8 → exists_ → clock (.thermalThreshold d n) (p.clockStep + 1)) ∧
  (∀ d n, 950 ≤ n → n < 1050 → exec (.thermalThreshold d n) s =
    .next (postEvent 24 (dieNumber s d) 0 (d, n, 0, 0) (warm d n))) ∧
  (∀ d n, n < 950 → exec (.thermalThreshold d n) s = .next (warm d n)) ∧
  ∀ line q, line * 128 / 2 ^ 48 = s.node.chip →
    let pa := line * 128 % 2 ^ 48
    let load : Payload := (pa / 2 ^ 36, pa % 2 ^ 32, pa / 2 ^ 32, 0)
    hbmPart s pa = some q →
    (q.relpol.getLsbD 1 = true → exec (.hbmEccError line true) s = .next (postEvent 25 q.num 0 load s)) ∧
    ∃ t, exec (.hbmEccError line false) s = .next (postEvent 26 q.num 0 load t) ∧
      t = { s with badLines := t.badLines } ∧ ∀ n, n ∈ t.badLines ↔ n = line ∨ n ∈ s.badLines

/-- R388 to R392: an encoder takes a record with the phase it is to wait for; it reads a frame once that phase has
advanced, a frame that continues an unknown stream ends with status 15; a finished frame's record leaves its encoder,
with status 14 where the output ring has no room. The bitstream is a free value, as log entry 12 says. -/
def Obligations.Encoders : Prop := ∀ s : State, s.group.core = s.core.id →
  (∀ c ps p u, c.group = s.group.uid → s.core.copies.find? (fun x => x.uid == c.uid) = some c → c.rec'.does = 5 →
    c.accepted = false → c.held = false → (encoderOf s c.rec'.enc).queue.length < 64 → readPhaser s.group c.rec'.s0 s = .ok (ps, p, u) →
    ∃ t v, exec (.vencAccept s.core.id c.uid) s = .next t ∧ (t.copyOf? c.uid).map (·.accepted) = some true ∧
      (encoderOf t c.rec'.enc).queue = (encoderOf s c.rec'.enc).queue ++ [v] ∧ v.copy = c.uid ∧ v.core = s.core.id ∧
      v.group = c.group ∧ v.record = c.record ∧ v.phase0 = p.phase ∧ v.reading = false ∧ v.dropped = false) ∧
  ∀ enc slot v, v.group = s.group.uid → v.core = s.core.id →
    let e := encoderOf s enc
    let r := v.rec'
    let start := Instr.vencFrameStart enc slot
    let gone (t : State) : Prop := (encoderOf t enc).queue = e.queue.filter fun y => y.copy != v.copy
    (e.queue.find? (fun y => y.rec'.slot == slot) = some v → v.reading = false →
      ∀ ps p u, readPhaser s.group r.s0 s = .ok (ps, p, u) →
      (p.phase = v.phase0 → exec start s = .next s) ∧
      (p.phase ≠ v.phase0 → r.key = false → (∀ x, e.slotOf slot = some x → x.config ≠ r.stream) →
        ∃ t, exec start s = .next t ∧ gone t) ∧
      ∀ x w, p.phase ≠ v.phase0 → r.key = false → e.slotOf slot = some x → x.config = r.stream →
        frameReadable (u.jobOf v.job) r u = .ok w →
        let q := { v with reading := true, observed := (w.partOf (u.jobOf v.job).part).tick }
        let t := putEncoder { e with queue := e.queue.map fun y => if y.copy = v.copy then q else y }
          { w with free := w.free + 1 }
        ∀ z, arriveTaken v t = .ok z → exec start s = .next z) ∧
    (e.queue.find? (fun y => y.rec'.slot == slot && y.reading) = some v → ∀ j, s.jobOf? v.job = some j →
      let key := r.key || ((e.slotOf slot).map (·.forceKey)).getD false
      let bs := frameBytes r key v.observed (Config.bitstream s.free)
      ∀ a u, appendFrame v.who j r bs { s with free := s.free + 1 } = .ok (a, u) → v.dropped = true ∨ u.copyOf? v.copy = none →
        ∃ t, exec (.vencFrameDone enc slot) s = .next t ∧ gone t ∧ t.mem = u.mem ∧
          (a = true → r.eos = true → (encoderOf t enc).slotOf slot = none) ∧
          (a = false → ∀ x, e.slotOf slot = some x → (encoderOf t enc).slotOf slot = some { x with forceKey := true })) ∧
    (e.queue.find? (fun y => y.rec'.slot == slot && y.reading) = some v → ∀ j, s.jobOf? v.job = some j →
      let key := r.key || ((e.slotOf slot).map (·.forceKey)).getD false
      let bs := frameBytes r key v.observed (Config.bitstream s.free)
      ∀ u c, appendFrame v.who j r bs { s with free := s.free + 1 } = .ok (true, u) → v.dropped = false →
        u.copyOf? v.copy = some c → c.group = u.group.uid → c.rec'.hasBar = false →
        ∃ t, exec (.vencFrameDone enc slot) s = .next t ∧ gone t ∧ t.mem = u.mem ∧
          ∀ y, u.tag c.rec'.tag = some y →
            t.tag c.rec'.tag = some { y with out := y.out - 1, done := y.done || y.out == 1 })

/-- R50: an encoded word whose level is too low raises the privilege fault, before guard 0b1000, the other encoding
faults and a misaligned pair or quad, in this order; that a misaligned pair or quad comes last of the encoding faults
is the model's choice, for R50 gives those of its step 4 no order (log entry 69). R361 to R363: the record names the
word; the warp enters the handler. R366: at handler level, or with no valid handler, the fault is nested and the warp
wedged. R267, R269: inside a transaction the attempt aborts with cause FAULT, and the record resumes at the abort
target; a pending CONFLICT abort is taken instead. -/
def Obligations.WordFaults : Prop := ∀ (i : Instr) (s : State) (cls detail req : Nat), encode i ≠ [] →
  let need := levelNeeded i
  (s.warp.level.rank < need.1 ∧ cls = 2 ∧ detail = need.2 ∧ req = need.1) ∨
    (need.1 ≤ s.warp.level.rank ∧ cls = 1 ∧ req = 0 ∧
      ((guardOf i = 8 ∧ detail = 3) ∨
        (guardOf i ≠ 8 ∧ wellFormed i = false ∧ detail = 4) ∨
        (guardOf i ≠ 8 ∧ wellFormed i = true ∧ pairsOk i = false ∧ detail = 7))) →
  let tx := s.frame.tx
  let report (t : State) : Prop := encode i = [t.warp.fault.word] ∧ t.warp.fault.fpc = s.pc ∧ t.warp.fault.lanes = s.lanes
  let handler (t : State) : Prop := t.warp.level = .handler ∧ t.frame.pcs = List.replicate 32 0 ∧
    t.frame.live = BitVec.allOnes 32 ∧ t.warp.saved.map (·.regs) = some s.frame.regs ∧
    (Unburdened s → t.mem = s.mem ∧ t.group = s.group)
  (CanEnter s → ∃ t, exec i s = .next t ∧ report t ∧ handler t ∧ t.warp.fault.rpc = s.pc ∧
    t.warp.fault.ctl = ctlWord false false false req s.warp.level detail cls ∧
    t.warp.saved.map (·.pcs) = some s.frame.pcs) ∧
  (tx.active = false → (s.warp.level = .handler ∨ s.handlerValid = false) → ∃ t, exec i s = .next t ∧ report t ∧
    t.warp.fault.ctl = ctlWord true false false req s.warp.level detail cls ∧ t.warp.run = .wedged ∧
    t.warp.level = s.warp.level ∧ t.frame = s.frame ∧ t.group.faulted = true) ∧
  (tx.active = true → tx.pending = false → s.warp.level ≠ .handler → s.handlerValid = true →
    ∃ t f, exec i s = .next t ∧ report t ∧ handler t ∧ t.warp.fault.rpc = tx.target ∧
      t.warp.fault.ctl = ctlWord false true false req s.warp.level detail cls ∧ t.warp.saved = some f ∧
      f.tx.active = false ∧ f.tx.cause = 9 ∧ f.tx.writes = [] ∧
      ∀ l, l < 32 → s.frame.live.getLsbD l = true → f.pcs.getD l 0 = tx.target) ∧
  (tx.active = true → tx.pending = true → ∃ t, exec i s = .next t ∧
    t = { s with warp := { s.warp with
      hold := Hold.none, frame := { s.frame with tx := t.frame.tx, pcs := t.frame.pcs, parked := [] } } } ∧
    t.frame.tx.active = false ∧ t.frame.tx.cause = 1 ∧ t.frame.tx.writes = [] ∧
    ∀ l, l < 32 → s.frame.live.getLsbD l = true → t.frame.pcs.getD l 0 = tx.target)

/-- A step runs what comes next: the head of the agenda, or else the stream a scheduler picks or what is due (the
order among schedulers and events is the model's choice, log entry 2); an accepted image finishes its boot first
(R394), and a device held by THERMTRIP answers what runHeld gives (R406, R407; what it answers is the model's choice,
log entry 42). R34, R137, R138, R44, R140, R152, R153, R267: a stream whose warp may issue and whose turn has come
runs the instruction that the four bytes at its PC, under the key of their page, decode to, once its registers,
staging entries and names are there: the step is the meaning of that instruction, or what the memo holds for it
(R164), and what it leaves is named (settleIssue), or kept at its PC while it waits (thenPark). A decided abort of its
transaction comes first; an undecodable word, a failed fetch and one in a stack region (R210) take their faults. That
a fetch gives the bytes the home holds is the model's choice (log entry 75). How much time passes before it, and
whether the unit it needs accepts an issue, are free values (log entry 11). -/
def Obligations.StepRunsDecoded : Prop :=
  (∀ (s : State) (x : Input) (rest : List Input), s.agenda = x :: rest →
    let u := { s with agenda := rest, clock := s.clock + 1 }
    (s.boot = .tripped → step s = runHeld x u) ∧
    (s.boot ≠ .tripped → (∀ i, x = .event i → isEvent i = true → step s = exec i u) ∧
      (∀ uid stream, x = .issue uid stream → step s = issueStream uid stream u))) ∧
  (∀ s : State, s.boot ≠ .tripped → s.boot ≠ .checked → s.agenda = [] →
    let u := timePasses (s.clock + 1) { s with clock := s.clock + 1 }
    let due := dueEvents u
    (∀ uid stream, u.clock % 2 = 0 ∨ due = [] → pickIssue (u.clock / 2) u = some (uid, stream) →
      step s = thenRetry uid (selectStream uid stream u).pc (issueStream uid stream u)) ∧
    (∀ d, u.clock % 2 = 1 → due[u.clock / 2 % due.length]? = some d → step s = thenRetry 0 0 (d.run u))) ∧
  (∀ s : State, s.boot = .tripped → s.agenda = [] → step s = .next { s with clock := s.clock + 1 }) ∧
  ∀ (s : State) (uid stream : Nat),
    let c := selectStream uid stream s
    let t := if stream = 0 then selectStream uid stream (countPassed uid s) else c
    let runs (r : Host.Outcome State Fault Refusal) : Prop := issueStream uid stream s = thenPark t.pc r
    let a := t.fetchAddr t.pc
    let u := useTranslation t.job a accExec t
    (canIssue c = false ∨ mayIssue s uid stream = false → issueStream uid stream s = .next s) ∧
    (canIssue c = true → mayIssue s uid stream = true →
      (c.frame.tx.active = true → c.frame.tx.pending = true → issueStream uid stream s = .next (abortTx 1 0 c)) ∧
      (c.frame.tx.active = false ∨ c.frame.tx.pending = false →
        (foreignFetch t t.pc = true → runs (exec .instructionFetchFault t)) ∧
        (∀ x, translate t t.job a accExec = .error x → runs (exec .instructionFetchFault t)) ∧
        ∀ l, foreignFetch t t.pc = false → translate t t.job a accExec = .ok l →
          let bytes := (List.range 4).map fun k => homeByte t l a (memKey l.aperture (l.phys a) + k)
          (∀ i x, wordOfBytes bytes = some (x, []) → decodeBytes bytes = some (.ok i, []) →
            let w := takeWords stream x u
            (registersReady i w = false ∨ stagingRoom i w = false → runs (.next w)) ∧
            (registersReady i w = true → stagingRoom i w = true →
              (∀ v, settleNames w = (v, false) → runs (.next v)) ∧
              ∀ v, settleNames w = (v, true) →
                (∀ y, hitLoad i (startIssue v) = some y → runs (.next (settleIssue i (startIssue v) y))) ∧
                (hitLoad i (startIssue v) = none → runs (match exec i (startIssue v) with
                  | .next y => .next (settleIssue i (startIssue v) y)
                  | r => r)))) ∧
          ∀ x e, wordOfBytes bytes = some (x, []) → decode x = .error e →
            runs (exec (.illegalInstruction x) (takeWords stream x u))))

/-- Words written out from the spec's bit patterns decode to what they stand for (R44, R45), and the words of R50's
table that stand for no instruction are refused for the reason the table gives. -/
def Obligations.DecodeWords : Prop :=
  decode 0x00000000 = .ok .nop ∧ decode 0x34182050 = .ok (.bperm 6 4 5 0) ∧ decode 0x3A183020 = .ok (.ineg 6 6 0) ∧
  decode 0x400C1800 = .ok (.iaddi 3 3 0) ∧ decode 0x4A0C0803 = .ok (.shli 3 1 3) ∧
  decode 0x50442000 = .ok (.icmpi 2 1 4 0) ∧ decode 0x52501000 = .ok (.movl 20 0x1000) ∧
  decode 0x10500960 = .ok (.imadwN 20 1 22 0) ∧ decode 0x9A142060 = .ok (.shflXor 5 4 6 0) ∧
  decode 0x9C201840 = .ok (.redwAddS32 8 3 0) ∧ decode 0xFA143030 = .ok (.phstart 5 6 0) ∧
  decode 0xAA1418A0 = .ok (.ld64 5 3 10 0) ∧ decode 0x02000008 = .ok (.iadd 0 0 0 8) ∧
  decode 0x00000001 = .error .opcode ∧ decode 0x3E000000 = .error .opcode ∧ decode 0x3A0410B0 = .error .function ∧
  decode 0x4A0C0823 = .error .reserved

/-- R34 to R38, R44, R45, R49: decoding the word of an instruction gives it back, with every operand at every value its
field holds, and a word that decodes is the word of what it decodes to; every well-formed instruction that a word can
bring has exactly one. -/
def Obligations.RoundTrip : Prop :=
  (∀ (i : Instr) (w : Word), encode i = [w] ↔ decode w = .ok i) ∧
  ∀ i : Instr, encode i = [] ∨ ∃ w, encode i = [w] ∧ decodeBytes (leBytes 4 w.toNat) = some (.ok i, [])

/-- Every step keeps memory and every scratchpad in canonical form: addresses strictly rising, and no entry equal to
what an unlisted address reads as (log entry 1). -/
def Obligations.StepKeepsMemory : Prop := ∀ s t : State, s.memoryOk → step s = .next t → t.memoryOk

/-- R394, R398, R400, R359, R405: right after power-on the device is in reset-hold, every register of a partition holds
the reset value of its table, its tick counter reads 0, PWRCAP is 8 000 W, nothing is in flight, and memory is in
canonical form. That memory then lists nothing is the model's choice (log entry 1), and so is that one partition holds
all eight dies (log entry 4). -/
def Obligations.ResetState : Prop :=
  State.reset.memoryOk ∧ State.reset.boot = .hold 0 ∧ State.reset.pwrcap = 8000 ∧ State.reset.fuseSvn = 0 ∧
  State.reset.jobs = [] ∧ State.reset.groups = [] ∧ State.reset.keys = [] ∧ State.reset.mem = [] ∧
  State.reset.parts.length = 1 ∧
  ∀ p ∈ State.reset.parts, p.hold = false ∧ p.captured = false ∧ p.hbase = 0 ∧ p.hstack = 0 ∧ p.savebase = 0 ∧
    p.evqbase = 0 ∧ p.hevqbase = 0 ∧ p.sync = 0 ∧ p.dlogbase = 0 ∧ p.dlogOn = false ∧ p.logovf = false ∧ p.arena = 0 ∧
    p.arenalen = 0 ∧ p.tenant = 0 ∧ p.s2 = false ∧ p.vmroots = List.replicate 16 0 ∧ p.jobtags = [] ∧ p.carve = [] ∧
    p.relpol = 1 ∧ p.ringbase = 0 ∧ p.ringhead = 0 ∧ p.winkey = 0 ∧ p.fabpol = 0 ∧ p.failed = 0 ∧ p.tick = 0 ∧
    p.clockStep = 0
end

