-- ==== Sys2Proof/Laws/Lists.lean ====
section
/-!
SUPPORT. The laws of the keyed lists, of memory in its canonical form, and of lists and masks of lanes.
-/
namespace Sys2Proof.Machine

theorem amGet_amPut_same {β : Type} (a : Nat) (b : β) (m : List (Nat × β)) : amGet (amPut a b m) a = some b := by
  induction m with
  | nil => simp [amPut, amGet]
  | cons p m ih =>
    obtain ⟨k, v⟩ := p
    simp only [amPut]
    split
    · simp [amGet]
    · split
      · simp [amGet]
      · rename_i h
        simp [amGet, Ne.symm h, ih]

theorem amGet_amPut_ne {β : Type} {a c : Nat} (h : c ≠ a) (b : β) (m : List (Nat × β)) :
    amGet (amPut a b m) c = amGet m c := by
  induction m with
  | nil => simp [amPut, amGet, Ne.symm h]
  | cons p m ih =>
    obtain ⟨k, v⟩ := p
    simp only [amPut]
    split
    · simp [amGet, Ne.symm h]
    · split
      · rename_i e
        subst e
        simp [amGet, Ne.symm h]
      · simp [amGet, ih]

theorem amGet_amPut {β : Type} (a c : Nat) (b : β) (m : List (Nat × β)) :
    amGet (amPut a b m) c = if c = a then some b else amGet m c := by
  split
  · rename_i h
    subst h
    exact amGet_amPut_same ..
  · exact amGet_amPut_ne ‹_› ..

theorem amGet_amDel {β : Type} (a c : Nat) (m : List (Nat × β)) :
    amGet (amDel a m) c = if c = a then none else amGet m c := by
  induction m with
  | nil => simp [amDel, amGet]
  | cons p m ih =>
    obtain ⟨k, v⟩ := p
    simp only [amDel]
    split
    · rename_i e
      subst e
      rw [ih]
      by_cases h : c = k
      · simp [h]
      · simp [amGet, h, Ne.symm h]
    · rename_i e
      simp only [amGet, ih]
      by_cases h : c = a
      · subst h
        simp [e]
      · simp [h]

/-- A read after a write of one byte. -/
theorem Memory.get_put (m : List Host.Cell) (a c : Nat) (b : Byte) :
    Memory.get (Memory.put m a b) c = if c = a then b else Memory.get m c := by
  unfold Memory.get Memory.put
  split
  · rename_i h
    rw [amGet_amDel]
    split <;> simp [h]
  · rw [amGet_amPut]
    split <;> simp

theorem Memory.get_write (bs : List Byte) : ∀ (m : List Host.Cell) (a c : Nat),
    Memory.get (Memory.write m a bs) c = if a ≤ c ∧ c < a + bs.length then bs.getD (c - a) 0 else Memory.get m c := by
  induction bs with
  | nil => intro m a c; simp [Memory.write]
  | cons b bs ih =>
    intro m a c
    simp only [Memory.write, ih, Memory.get_put, List.length_cons]
    by_cases h : c = a
    · subst h
      simp
    · by_cases h' : a + 1 ≤ c ∧ c < a + 1 + bs.length
      · rw [if_pos h', if_pos (by omega)]
        obtain ⟨k, hk⟩ : ∃ k, c - a = k + 1 := ⟨c - a - 1, by omega⟩
        rw [hk, List.getD_cons_succ, show c - (a + 1) = k by omega]
      · rw [if_neg h', if_neg h, if_neg (by omega)]

theorem Memory.above_mono {a b : Nat} (h : b ≤ a) : ∀ m, Memory.above a m = true → Memory.above b m = true := by
  intro m
  induction m with
  | nil => simp [Memory.above]
  | cons p m ih =>
    simp only [Memory.above, Bool.and_eq_true, decide_eq_true_eq]
    exact fun ⟨h1, h2⟩ => ⟨by omega, ih h2⟩

theorem Memory.above_amPut {k a : Nat} (b : Byte) (h : k < a) : ∀ m, Memory.above k m = true →
    Memory.above k (amPut a b m) = true := by
  intro m
  induction m with
  | nil => simp [Memory.above, amPut, h]
  | cons p m ih =>
    obtain ⟨c, v⟩ := p
    simp only [Memory.above, Bool.and_eq_true, decide_eq_true_eq, amPut]
    intro ⟨h1, h2⟩
    split
    · simp [Memory.above, h, h1, h2]
    · split
      · simp [Memory.above, h, h2]
      · simp [Memory.above, h1, ih h2]

theorem Memory.above_amDel {k : Nat} (a : Nat) : ∀ m, Memory.above k m = true → Memory.above k (amDel a m) = true := by
  intro m
  induction m with
  | nil => simp [Memory.above, amDel]
  | cons p m ih =>
    obtain ⟨c, v⟩ := p
    simp only [Memory.above, Bool.and_eq_true, decide_eq_true_eq, amDel]
    intro ⟨h1, h2⟩
    split
    · exact ih h2
    · simp [Memory.above, h1, ih h2]

/-- A write of one byte keeps the canonical form. -/
theorem Memory.wf_put (m : List Host.Cell) (a : Nat) (b : Byte) (h : Memory.wf m = true) :
    Memory.wf (Memory.put m a b) = true := by
  unfold Memory.put
  split
  · induction m with
    | nil => rfl
    | cons p m ih =>
      obtain ⟨k, v⟩ := p
      simp only [Memory.wf, Bool.and_eq_true, decide_eq_true_eq] at h
      simp only [amDel]
      split
      · exact ih h.2
      · simp [Memory.wf, Memory.above_amDel a m h.1.1, h.1.2, ih h.2]
  · rename_i hb
    induction m with
    | nil => simp [amPut, Memory.wf, Memory.above, hb]
    | cons p m ih =>
      obtain ⟨k, v⟩ := p
      simp only [Memory.wf, Bool.and_eq_true, decide_eq_true_eq] at h
      simp only [amPut]
      split
      · rename_i hk
        have := Memory.above_mono (by omega : a ≤ k) m h.1.1
        simp [Memory.wf, Memory.above, hk, hb, h.1.1, h.1.2, h.2, this]
      · split
        · rename_i e
          subst e
          simp [Memory.wf, hb, h.1.1, h.2]
        · simp [Memory.wf, Memory.above_amPut b (by omega : k < a) m h.1.1, h.1.2, ih h.2]

/-- A write of bytes keeps the canonical form. -/
theorem Memory.wf_write (bs : List Byte) : ∀ (m : List Host.Cell) (a : Nat), Memory.wf m = true →
    Memory.wf (Memory.write m a bs) = true := by
  induction bs with
  | nil => exact fun _ _ h => h
  | cons b bs ih => exact fun m a h => ih _ _ (Memory.wf_put m a b h)

theorem Memory.above_filter {a : Nat} (q : Host.Cell → Bool) : ∀ m, Memory.above a m = true →
    Memory.above a (m.filter q) = true := by
  intro m
  induction m with
  | nil => exact fun h => h
  | cons x xs ih =>
    intro h
    simp only [Memory.above, Bool.and_eq_true] at h
    rw [List.filter_cons]
    split
    · simpa [Memory.above, ih h.2] using h.1
    · exact ih h.2

/-- Leaving cells out (a reset, a change of carved ways) keeps memory canonical. -/
theorem Memory.wf_filter (q : Host.Cell → Bool) : ∀ m, Memory.wf m = true → Memory.wf (m.filter q) = true := by
  intro m
  induction m with
  | nil => exact fun h => h
  | cons x xs ih =>
    intro h
    simp only [Memory.wf, Bool.and_eq_true] at h
    rw [List.filter_cons]
    split
    · simp only [Memory.wf, Bool.and_eq_true]
      exact ⟨⟨Memory.above_filter q xs h.1.1, h.1.2⟩, ih h.2⟩
    · exact ih h.2

/-- In canonical form two memories that read alike at every address are equal. -/
theorem Memory.wf_ext : ∀ {m n : List Host.Cell}, Memory.wf m = true → Memory.wf n = true →
    (∀ a, Memory.get m a = Memory.get n a) → m = n := by
  have low : ∀ {m : List Host.Cell} {k a : Nat}, Memory.above k m = true → a ≤ k → Memory.get m a = emptyByte := by
    intro m k a
    induction m with
    | nil => intros; rfl
    | cons p m ih =>
      obtain ⟨c, v⟩ := p
      simp only [Memory.above, Bool.and_eq_true, decide_eq_true_eq]
      intro h ha
      have := ih h.2 ha
      simp only [Memory.get, amGet] at *
      rwa [if_neg (by omega)]
  have hd : ∀ {m : List Host.Cell} {k : Nat} {v : Byte}, Memory.get ((k, v) :: m) k = v := by
    intro m k v; simp [Memory.get, amGet]
  intro m
  induction m with
  | nil =>
    intro n _ hn h
    cases n with
    | nil => rfl
    | cons p n =>
      obtain ⟨k, v⟩ := p
      have := h k
      rw [hd] at this
      simp only [Memory.wf, Bool.and_eq_true, decide_eq_true_eq] at hn
      exact absurd this.symm hn.1.2
  | cons p m ih =>
    obtain ⟨k, v⟩ := p
    intro n hm hn h
    cases n with
    | nil =>
      have := h k
      rw [hd] at this
      simp only [Memory.wf, Bool.and_eq_true, decide_eq_true_eq] at hm
      exact absurd this hm.1.2
    | cons q n =>
      obtain ⟨c, w⟩ := q
      have hk := h k
      have hc := h c
      rw [hd] at hk hc
      simp only [Memory.wf, Bool.and_eq_true, decide_eq_true_eq] at hm hn
      have e : k = c := by
        by_contra ne
        rcases Nat.lt_or_gt_of_ne ne with lt | gt
        · have : Memory.get ((c, w) :: n) k = emptyByte := by
            have := low hn.1.1 (Nat.le_of_lt lt)
            simp only [Memory.get, amGet] at *
            rwa [if_neg (by omega)]
          exact hm.1.2 (hk.trans this)
        · have : Memory.get ((k, v) :: m) c = emptyByte := by
            have := low hm.1.1 (Nat.le_of_lt gt)
            simp only [Memory.get, amGet] at *
            rwa [if_neg (by omega)]
          exact hn.1.2 (hc.symm.trans this)
      subst e
      have ev : v = w := by rw [hk, hd]
      subst ev
      congr 1
      refine ih hm.2 hn.2 fun a => ?_
      by_cases ha : a = k
      · subst ha
        rw [low hm.1.1 (Nat.le_refl _), low hn.1.1 (Nat.le_refl _)]
      · have := h a
        simp only [Memory.get, amGet] at *
        rwa [if_neg (Ne.symm ha), if_neg (Ne.symm ha)] at this

theorem getD_lanesOf {α : Type} (f : Nat → α) (d : α) (l : Nat) :
    (lanesOf f).getD l d = if l < 32 then f l else d := by
  unfold lanesOf lanes32
  by_cases h : l < 32
  · simp [List.getD, h]
  · simp [List.getD, h]

theorem mem_lanesIn (m : Word) (l : Nat) : l ∈ lanesIn m ↔ l < 32 ∧ m.getLsbD l = true := by
  simp [lanesIn, lanes32]

/-- Bit l of the mask of a test is the test at l. -/
theorem getLsbD_maskOf (f : Nat → Bool) (l : Nat) : (maskOf f).getLsbD l = (decide (l < 32) && f l) := by
  have gen : ∀ (ls : List Nat) (acc : Word),
      (ls.foldl (fun acc l => if f l then acc ||| BitVec.twoPow 32 l else acc) acc).getLsbD l =
        (acc.getLsbD l || (decide (l < 32) && f l && decide (l ∈ ls))) := by
    intro ls
    induction ls with
    | nil => simp
    | cons k ls ih =>
      intro acc
      rw [List.foldl_cons, ih]
      by_cases hk : k = l
      · subst hk
        split
        · rename_i hf
          rw [BitVec.getLsbD_or, BitVec.getLsbD_twoPow, hf]
          by_cases h : k < 32 <;> simp [h]
        · rename_i hf
          simp [hf]
      · have : ¬l = k := fun e => hk e.symm
        split <;> simp [BitVec.getLsbD_twoPow, hk, this]
  unfold maskOf lanes32
  rw [gen]
  by_cases h : l < 32 <;> simp [h]

end Sys2Proof.Machine
end

