-- ==== Sys2Proof/Laws/State.lean ====
section
/-!
SUPPORT. What each update of the state leaves alone and what it sets: one lemma for each field.
-/
namespace Sys2Proof.Machine

-- updFrame

@[simp] theorem updFrame_group (g : Frame → Frame) (s : State) : (s.updFrame g).group = s.group := rfl
@[simp] theorem updFrame_core (g : Frame → Frame) (s : State) : (s.updFrame g).core = s.core := rfl
@[simp] theorem updFrame_lanes (g : Frame → Frame) (s : State) : (s.updFrame g).lanes = s.lanes := rfl
@[simp] theorem updFrame_warps (g : Frame → Frame) (s : State) : (s.updFrame g).warps = s.warps := rfl
@[simp] theorem updFrame_groups (g : Frame → Frame) (s : State) : (s.updFrame g).groups = s.groups := rfl
@[simp] theorem updFrame_cores (g : Frame → Frame) (s : State) : (s.updFrame g).cores = s.cores := rfl
@[simp] theorem updFrame_jobs (g : Frame → Frame) (s : State) : (s.updFrame g).jobs = s.jobs := rfl
@[simp] theorem updFrame_phases (g : Frame → Frame) (s : State) : (s.updFrame g).phases = s.phases := rfl
@[simp] theorem updFrame_graphs (g : Frame → Frame) (s : State) : (s.updFrame g).graphs = s.graphs := rfl
@[simp] theorem updFrame_launches (g : Frame → Frame) (s : State) : (s.updFrame g).launches = s.launches := rfl
@[simp] theorem updFrame_parts (g : Frame → Frame) (s : State) : (s.updFrame g).parts = s.parts := rfl
@[simp] theorem updFrame_keys (g : Frame → Frame) (s : State) : (s.updFrame g).keys = s.keys := rfl
@[simp] theorem updFrame_node (g : Frame → Frame) (s : State) : (s.updFrame g).node = s.node := rfl
@[simp] theorem updFrame_links (g : Frame → Frame) (s : State) : (s.updFrame g).links = s.links := rfl
@[simp] theorem updFrame_credits (g : Frame → Frame) (s : State) : (s.updFrame g).credits = s.credits := rfl
@[simp] theorem updFrame_queued (g : Frame → Frame) (s : State) : (s.updFrame g).queued = s.queued := rfl
@[simp] theorem updFrame_stripes (g : Frame → Frame) (s : State) : (s.updFrame g).stripes = s.stripes := rfl
@[simp] theorem updFrame_peers (g : Frame → Frame) (s : State) : (s.updFrame g).peers = s.peers := rfl
@[simp] theorem updFrame_reductions (g : Frame → Frame) (s : State) : (s.updFrame g).reductions = s.reductions := rfl
@[simp] theorem updFrame_encoders (g : Frame → Frame) (s : State) : (s.updFrame g).encoders = s.encoders := rfl
@[simp] theorem updFrame_boot (g : Frame → Frame) (s : State) : (s.updFrame g).boot = s.boot := rfl
@[simp] theorem updFrame_fuseSvn (g : Frame → Frame) (s : State) : (s.updFrame g).fuseSvn = s.fuseSvn := rfl
@[simp] theorem updFrame_image (g : Frame → Frame) (s : State) : (s.updFrame g).image = s.image := rfl
@[simp] theorem updFrame_pwrcap (g : Frame → Frame) (s : State) : (s.updFrame g).pwrcap = s.pwrcap := rfl
@[simp] theorem updFrame_sensors (g : Frame → Frame) (s : State) : (s.updFrame g).sensors = s.sensors := rfl
@[simp] theorem updFrame_mem (g : Frame → Frame) (s : State) : (s.updFrame g).mem = s.mem := rfl
@[simp] theorem updFrame_hbm (g : Frame → Frame) (s : State) : (s.updFrame g).hbm = s.hbm := rfl
@[simp] theorem updFrame_epochs (g : Frame → Frame) (s : State) : (s.updFrame g).epochs = s.epochs := rfl
@[simp] theorem updFrame_lateLogs (g : Frame → Frame) (s : State) : (s.updFrame g).lateLogs = s.lateLogs := rfl
@[simp] theorem updFrame_lateWrites (g : Frame → Frame) (s : State) : (s.updFrame g).lateWrites = s.lateWrites := rfl
@[simp] theorem updFrame_badLines (g : Frame → Frame) (s : State) : (s.updFrame g).badLines = s.badLines := rfl
@[simp] theorem updFrame_badScratch (g : Frame → Frame) (s : State) : (s.updFrame g).badScratch = s.badScratch := rfl
@[simp] theorem updFrame_healing (g : Frame → Frame) (s : State) : (s.updFrame g).healing = s.healing := rfl
@[simp] theorem updFrame_marks (g : Frame → Frame) (s : State) : (s.updFrame g).marks = s.marks := rfl
@[simp] theorem updFrame_hostLines (g : Frame → Frame) (s : State) : (s.updFrame g).hostLines = s.hostLines := rfl
@[simp] theorem updFrame_llc (g : Frame → Frame) (s : State) : (s.updFrame g).llc = s.llc := rfl
@[simp] theorem updFrame_watches (g : Frame → Frame) (s : State) : (s.updFrame g).watches = s.watches := rfl
@[simp] theorem updFrame_rewrites (g : Frame → Frame) (s : State) : (s.updFrame g).rewrites = s.rewrites := rfl
@[simp] theorem updFrame_dieTlbs (g : Frame → Frame) (s : State) : (s.updFrame g).dieTlbs = s.dieTlbs := rfl
@[simp] theorem updFrame_tableTlb (g : Frame → Frame) (s : State) : (s.updFrame g).tableTlb = s.tableTlb := rfl
@[simp] theorem updFrame_delay (g : Frame → Frame) (s : State) : (s.updFrame g).delay = s.delay := rfl
@[simp] theorem updFrame_agenda (g : Frame → Frame) (s : State) : (s.updFrame g).agenda = s.agenda := rfl
@[simp] theorem updFrame_inbox (g : Frame → Frame) (s : State) : (s.updFrame g).inbox = s.inbox := rfl
@[simp] theorem updFrame_out (g : Frame → Frame) (s : State) : (s.updFrame g).out = s.out := rfl
@[simp] theorem updFrame_fresh (g : Frame → Frame) (s : State) : (s.updFrame g).fresh = s.fresh := rfl
@[simp] theorem updFrame_starts (g : Frame → Frame) (s : State) : (s.updFrame g).starts = s.starts := rfl
@[simp] theorem updFrame_material (g : Frame → Frame) (s : State) : (s.updFrame g).material = s.material := rfl
@[simp] theorem updFrame_free (g : Frame → Frame) (s : State) : (s.updFrame g).free = s.free := rfl
@[simp] theorem updFrame_clock (g : Frame → Frame) (s : State) : (s.updFrame g).clock = s.clock := rfl

@[simp] theorem updFrame_warp_uid (g : Frame → Frame) (s : State) : (s.updFrame g).warp.uid = s.warp.uid := rfl
@[simp] theorem updFrame_warp_group (g : Frame → Frame) (s : State) : (s.updFrame g).warp.group = s.warp.group := rfl
@[simp] theorem updFrame_warp_id (g : Frame → Frame) (s : State) : (s.updFrame g).warp.id = s.warp.id := rfl
@[simp] theorem updFrame_warp_slot (g : Frame → Frame) (s : State) : (s.updFrame g).warp.slot = s.warp.slot := rfl
@[simp] theorem updFrame_warp_allot (g : Frame → Frame) (s : State) : (s.updFrame g).warp.allot = s.warp.allot := rfl
@[simp] theorem updFrame_warp_level (g : Frame → Frame) (s : State) : (s.updFrame g).warp.level = s.warp.level := rfl
@[simp] theorem updFrame_warp_system (g : Frame → Frame) (s : State) : (s.updFrame g).warp.system = s.warp.system := rfl
@[simp] theorem updFrame_warp_saved (g : Frame → Frame) (s : State) : (s.updFrame g).warp.saved = s.warp.saved := rfl
@[simp] theorem updFrame_warp_lost (g : Frame → Frame) (s : State) : (s.updFrame g).warp.lost = s.warp.lost := rfl
@[simp] theorem updFrame_warp_cycHi (g : Frame → Frame) (s : State) : (s.updFrame g).warp.cycHi = s.warp.cycHi := rfl
@[simp] theorem updFrame_warp_tickHi (g : Frame → Frame) (s : State) : (s.updFrame g).warp.tickHi = s.warp.tickHi := rfl
@[simp] theorem updFrame_warp_fault (g : Frame → Frame) (s : State) : (s.updFrame g).warp.fault = s.warp.fault := rfl
@[simp] theorem updFrame_warp_run (g : Frame → Frame) (s : State) : (s.updFrame g).warp.run = s.warp.run := rfl
@[simp] theorem updFrame_warp_hbase (g : Frame → Frame) (s : State) : (s.updFrame g).warp.hbase = s.warp.hbase := rfl
@[simp] theorem updFrame_warp_asleep (g : Frame → Frame) (s : State) : (s.updFrame g).warp.asleep = s.warp.asleep := rfl
@[simp] theorem updFrame_warp_sleepSet (g : Frame → Frame) (s : State) : (s.updFrame g).warp.sleepSet = s.warp.sleepSet := rfl
@[simp] theorem updFrame_warp_woken (g : Frame → Frame) (s : State) : (s.updFrame g).warp.woken = s.warp.woken := rfl
@[simp] theorem updFrame_warp_window (g : Frame → Frame) (s : State) : (s.updFrame g).warp.window = s.warp.window := rfl
@[simp] theorem updFrame_warp_staging (g : Frame → Frame) (s : State) : (s.updFrame g).warp.staging = s.warp.staging := rfl
@[simp] theorem updFrame_warp_stalled (g : Frame → Frame) (s : State) : (s.updFrame g).warp.stalled = s.warp.stalled := rfl
@[simp] theorem updFrame_warp_reseg (g : Frame → Frame) (s : State) : (s.updFrame g).warp.reseg = s.warp.reseg := rfl
@[simp] theorem updFrame_warp_hold (g : Frame → Frame) (s : State) : (s.updFrame g).warp.hold = s.warp.hold := rfl
@[simp] theorem updFrame_warp_resharding (g : Frame → Frame) (s : State) : (s.updFrame g).warp.resharding = s.warp.resharding := rfl
@[simp] theorem updFrame_warp_passed (g : Frame → Frame) (s : State) : (s.updFrame g).warp.passed = s.warp.passed := rfl
@[simp] theorem updFrame_warp_laneAt (g : Frame → Frame) (s : State) : (s.updFrame g).warp.laneAt = s.warp.laneAt := rfl
@[simp] theorem updFrame_warp_present (g : Frame → Frame) (s : State) : (s.updFrame g).warp.present = s.warp.present := rfl
@[simp] theorem updFrame_warp_frame (g : Frame → Frame) (s : State) : (s.updFrame g).warp.frame = g s.warp.frame := rfl
@[simp] theorem updFrame_frame (g : Frame → Frame) (s : State) : (s.updFrame g).frame = g s.frame := rfl
theorem updFrame_updFrame (g h : Frame → Frame) (s : State) : (s.updFrame g).updFrame h = s.updFrame fun f => h (g f) := rfl

-- updJob

@[simp] theorem updJob_warp (k : Nat) (g : Job → Job) (s : State) : (s.updJob k g).warp = s.warp := rfl
@[simp] theorem updJob_group (k : Nat) (g : Job → Job) (s : State) : (s.updJob k g).group = s.group := rfl
@[simp] theorem updJob_core (k : Nat) (g : Job → Job) (s : State) : (s.updJob k g).core = s.core := rfl
@[simp] theorem updJob_lanes (k : Nat) (g : Job → Job) (s : State) : (s.updJob k g).lanes = s.lanes := rfl
@[simp] theorem updJob_warps (k : Nat) (g : Job → Job) (s : State) : (s.updJob k g).warps = s.warps := rfl
@[simp] theorem updJob_groups (k : Nat) (g : Job → Job) (s : State) : (s.updJob k g).groups = s.groups := rfl
@[simp] theorem updJob_cores (k : Nat) (g : Job → Job) (s : State) : (s.updJob k g).cores = s.cores := rfl
@[simp] theorem updJob_phases (k : Nat) (g : Job → Job) (s : State) : (s.updJob k g).phases = s.phases := rfl
@[simp] theorem updJob_graphs (k : Nat) (g : Job → Job) (s : State) : (s.updJob k g).graphs = s.graphs := rfl
@[simp] theorem updJob_launches (k : Nat) (g : Job → Job) (s : State) : (s.updJob k g).launches = s.launches := rfl
@[simp] theorem updJob_parts (k : Nat) (g : Job → Job) (s : State) : (s.updJob k g).parts = s.parts := rfl
@[simp] theorem updJob_keys (k : Nat) (g : Job → Job) (s : State) : (s.updJob k g).keys = s.keys := rfl
@[simp] theorem updJob_node (k : Nat) (g : Job → Job) (s : State) : (s.updJob k g).node = s.node := rfl
@[simp] theorem updJob_links (k : Nat) (g : Job → Job) (s : State) : (s.updJob k g).links = s.links := rfl
@[simp] theorem updJob_credits (k : Nat) (g : Job → Job) (s : State) : (s.updJob k g).credits = s.credits := rfl
@[simp] theorem updJob_queued (k : Nat) (g : Job → Job) (s : State) : (s.updJob k g).queued = s.queued := rfl
@[simp] theorem updJob_stripes (k : Nat) (g : Job → Job) (s : State) : (s.updJob k g).stripes = s.stripes := rfl
@[simp] theorem updJob_peers (k : Nat) (g : Job → Job) (s : State) : (s.updJob k g).peers = s.peers := rfl
@[simp] theorem updJob_reductions (k : Nat) (g : Job → Job) (s : State) : (s.updJob k g).reductions = s.reductions := rfl
@[simp] theorem updJob_encoders (k : Nat) (g : Job → Job) (s : State) : (s.updJob k g).encoders = s.encoders := rfl
@[simp] theorem updJob_boot (k : Nat) (g : Job → Job) (s : State) : (s.updJob k g).boot = s.boot := rfl
@[simp] theorem updJob_fuseSvn (k : Nat) (g : Job → Job) (s : State) : (s.updJob k g).fuseSvn = s.fuseSvn := rfl
@[simp] theorem updJob_image (k : Nat) (g : Job → Job) (s : State) : (s.updJob k g).image = s.image := rfl
@[simp] theorem updJob_pwrcap (k : Nat) (g : Job → Job) (s : State) : (s.updJob k g).pwrcap = s.pwrcap := rfl
@[simp] theorem updJob_sensors (k : Nat) (g : Job → Job) (s : State) : (s.updJob k g).sensors = s.sensors := rfl
@[simp] theorem updJob_mem (k : Nat) (g : Job → Job) (s : State) : (s.updJob k g).mem = s.mem := rfl
@[simp] theorem updJob_hbm (k : Nat) (g : Job → Job) (s : State) : (s.updJob k g).hbm = s.hbm := rfl
@[simp] theorem updJob_epochs (k : Nat) (g : Job → Job) (s : State) : (s.updJob k g).epochs = s.epochs := rfl
@[simp] theorem updJob_lateLogs (k : Nat) (g : Job → Job) (s : State) : (s.updJob k g).lateLogs = s.lateLogs := rfl
@[simp] theorem updJob_lateWrites (k : Nat) (g : Job → Job) (s : State) : (s.updJob k g).lateWrites = s.lateWrites := rfl
@[simp] theorem updJob_badLines (k : Nat) (g : Job → Job) (s : State) : (s.updJob k g).badLines = s.badLines := rfl
@[simp] theorem updJob_badScratch (k : Nat) (g : Job → Job) (s : State) : (s.updJob k g).badScratch = s.badScratch := rfl
@[simp] theorem updJob_healing (k : Nat) (g : Job → Job) (s : State) : (s.updJob k g).healing = s.healing := rfl
@[simp] theorem updJob_marks (k : Nat) (g : Job → Job) (s : State) : (s.updJob k g).marks = s.marks := rfl
@[simp] theorem updJob_hostLines (k : Nat) (g : Job → Job) (s : State) : (s.updJob k g).hostLines = s.hostLines := rfl
@[simp] theorem updJob_llc (k : Nat) (g : Job → Job) (s : State) : (s.updJob k g).llc = s.llc := rfl
@[simp] theorem updJob_watches (k : Nat) (g : Job → Job) (s : State) : (s.updJob k g).watches = s.watches := rfl
@[simp] theorem updJob_rewrites (k : Nat) (g : Job → Job) (s : State) : (s.updJob k g).rewrites = s.rewrites := rfl
@[simp] theorem updJob_dieTlbs (k : Nat) (g : Job → Job) (s : State) : (s.updJob k g).dieTlbs = s.dieTlbs := rfl
@[simp] theorem updJob_tableTlb (k : Nat) (g : Job → Job) (s : State) : (s.updJob k g).tableTlb = s.tableTlb := rfl
@[simp] theorem updJob_delay (k : Nat) (g : Job → Job) (s : State) : (s.updJob k g).delay = s.delay := rfl
@[simp] theorem updJob_agenda (k : Nat) (g : Job → Job) (s : State) : (s.updJob k g).agenda = s.agenda := rfl
@[simp] theorem updJob_inbox (k : Nat) (g : Job → Job) (s : State) : (s.updJob k g).inbox = s.inbox := rfl
@[simp] theorem updJob_out (k : Nat) (g : Job → Job) (s : State) : (s.updJob k g).out = s.out := rfl
@[simp] theorem updJob_fresh (k : Nat) (g : Job → Job) (s : State) : (s.updJob k g).fresh = s.fresh := rfl
@[simp] theorem updJob_starts (k : Nat) (g : Job → Job) (s : State) : (s.updJob k g).starts = s.starts := rfl
@[simp] theorem updJob_material (k : Nat) (g : Job → Job) (s : State) : (s.updJob k g).material = s.material := rfl
@[simp] theorem updJob_free (k : Nat) (g : Job → Job) (s : State) : (s.updJob k g).free = s.free := rfl
@[simp] theorem updJob_clock (k : Nat) (g : Job → Job) (s : State) : (s.updJob k g).clock = s.clock := rfl

-- updPart

@[simp] theorem updPart_warp (k : Nat) (g : Part → Part) (s : State) : (s.updPart k g).warp = s.warp := rfl
@[simp] theorem updPart_group (k : Nat) (g : Part → Part) (s : State) : (s.updPart k g).group = s.group := rfl
@[simp] theorem updPart_core (k : Nat) (g : Part → Part) (s : State) : (s.updPart k g).core = s.core := rfl
@[simp] theorem updPart_lanes (k : Nat) (g : Part → Part) (s : State) : (s.updPart k g).lanes = s.lanes := rfl
@[simp] theorem updPart_warps (k : Nat) (g : Part → Part) (s : State) : (s.updPart k g).warps = s.warps := rfl
@[simp] theorem updPart_groups (k : Nat) (g : Part → Part) (s : State) : (s.updPart k g).groups = s.groups := rfl
@[simp] theorem updPart_cores (k : Nat) (g : Part → Part) (s : State) : (s.updPart k g).cores = s.cores := rfl
@[simp] theorem updPart_jobs (k : Nat) (g : Part → Part) (s : State) : (s.updPart k g).jobs = s.jobs := rfl
@[simp] theorem updPart_phases (k : Nat) (g : Part → Part) (s : State) : (s.updPart k g).phases = s.phases := rfl
@[simp] theorem updPart_graphs (k : Nat) (g : Part → Part) (s : State) : (s.updPart k g).graphs = s.graphs := rfl
@[simp] theorem updPart_launches (k : Nat) (g : Part → Part) (s : State) : (s.updPart k g).launches = s.launches := rfl
@[simp] theorem updPart_keys (k : Nat) (g : Part → Part) (s : State) : (s.updPart k g).keys = s.keys := rfl
@[simp] theorem updPart_node (k : Nat) (g : Part → Part) (s : State) : (s.updPart k g).node = s.node := rfl
@[simp] theorem updPart_links (k : Nat) (g : Part → Part) (s : State) : (s.updPart k g).links = s.links := rfl
@[simp] theorem updPart_credits (k : Nat) (g : Part → Part) (s : State) : (s.updPart k g).credits = s.credits := rfl
@[simp] theorem updPart_queued (k : Nat) (g : Part → Part) (s : State) : (s.updPart k g).queued = s.queued := rfl
@[simp] theorem updPart_stripes (k : Nat) (g : Part → Part) (s : State) : (s.updPart k g).stripes = s.stripes := rfl
@[simp] theorem updPart_peers (k : Nat) (g : Part → Part) (s : State) : (s.updPart k g).peers = s.peers := rfl
@[simp] theorem updPart_reductions (k : Nat) (g : Part → Part) (s : State) : (s.updPart k g).reductions = s.reductions := rfl
@[simp] theorem updPart_encoders (k : Nat) (g : Part → Part) (s : State) : (s.updPart k g).encoders = s.encoders := rfl
@[simp] theorem updPart_boot (k : Nat) (g : Part → Part) (s : State) : (s.updPart k g).boot = s.boot := rfl
@[simp] theorem updPart_fuseSvn (k : Nat) (g : Part → Part) (s : State) : (s.updPart k g).fuseSvn = s.fuseSvn := rfl
@[simp] theorem updPart_image (k : Nat) (g : Part → Part) (s : State) : (s.updPart k g).image = s.image := rfl
@[simp] theorem updPart_pwrcap (k : Nat) (g : Part → Part) (s : State) : (s.updPart k g).pwrcap = s.pwrcap := rfl
@[simp] theorem updPart_sensors (k : Nat) (g : Part → Part) (s : State) : (s.updPart k g).sensors = s.sensors := rfl
@[simp] theorem updPart_mem (k : Nat) (g : Part → Part) (s : State) : (s.updPart k g).mem = s.mem := rfl
@[simp] theorem updPart_hbm (k : Nat) (g : Part → Part) (s : State) : (s.updPart k g).hbm = s.hbm := rfl
@[simp] theorem updPart_epochs (k : Nat) (g : Part → Part) (s : State) : (s.updPart k g).epochs = s.epochs := rfl
@[simp] theorem updPart_lateLogs (k : Nat) (g : Part → Part) (s : State) : (s.updPart k g).lateLogs = s.lateLogs := rfl
@[simp] theorem updPart_lateWrites (k : Nat) (g : Part → Part) (s : State) : (s.updPart k g).lateWrites = s.lateWrites := rfl
@[simp] theorem updPart_badLines (k : Nat) (g : Part → Part) (s : State) : (s.updPart k g).badLines = s.badLines := rfl
@[simp] theorem updPart_badScratch (k : Nat) (g : Part → Part) (s : State) : (s.updPart k g).badScratch = s.badScratch := rfl
@[simp] theorem updPart_healing (k : Nat) (g : Part → Part) (s : State) : (s.updPart k g).healing = s.healing := rfl
@[simp] theorem updPart_marks (k : Nat) (g : Part → Part) (s : State) : (s.updPart k g).marks = s.marks := rfl
@[simp] theorem updPart_hostLines (k : Nat) (g : Part → Part) (s : State) : (s.updPart k g).hostLines = s.hostLines := rfl
@[simp] theorem updPart_llc (k : Nat) (g : Part → Part) (s : State) : (s.updPart k g).llc = s.llc := rfl
@[simp] theorem updPart_watches (k : Nat) (g : Part → Part) (s : State) : (s.updPart k g).watches = s.watches := rfl
@[simp] theorem updPart_rewrites (k : Nat) (g : Part → Part) (s : State) : (s.updPart k g).rewrites = s.rewrites := rfl
@[simp] theorem updPart_dieTlbs (k : Nat) (g : Part → Part) (s : State) : (s.updPart k g).dieTlbs = s.dieTlbs := rfl
@[simp] theorem updPart_tableTlb (k : Nat) (g : Part → Part) (s : State) : (s.updPart k g).tableTlb = s.tableTlb := rfl
@[simp] theorem updPart_delay (k : Nat) (g : Part → Part) (s : State) : (s.updPart k g).delay = s.delay := rfl
@[simp] theorem updPart_agenda (k : Nat) (g : Part → Part) (s : State) : (s.updPart k g).agenda = s.agenda := rfl
@[simp] theorem updPart_inbox (k : Nat) (g : Part → Part) (s : State) : (s.updPart k g).inbox = s.inbox := rfl
@[simp] theorem updPart_out (k : Nat) (g : Part → Part) (s : State) : (s.updPart k g).out = s.out := rfl
@[simp] theorem updPart_fresh (k : Nat) (g : Part → Part) (s : State) : (s.updPart k g).fresh = s.fresh := rfl
@[simp] theorem updPart_starts (k : Nat) (g : Part → Part) (s : State) : (s.updPart k g).starts = s.starts := rfl
@[simp] theorem updPart_material (k : Nat) (g : Part → Part) (s : State) : (s.updPart k g).material = s.material := rfl
@[simp] theorem updPart_free (k : Nat) (g : Part → Part) (s : State) : (s.updPart k g).free = s.free := rfl
@[simp] theorem updPart_clock (k : Nat) (g : Part → Part) (s : State) : (s.updPart k g).clock = s.clock := rfl

-- updLaunch

@[simp] theorem updLaunch_warp (k : Nat) (g : Launch → Launch) (s : State) : (s.updLaunch k g).warp = s.warp := rfl
@[simp] theorem updLaunch_group (k : Nat) (g : Launch → Launch) (s : State) : (s.updLaunch k g).group = s.group := rfl
@[simp] theorem updLaunch_core (k : Nat) (g : Launch → Launch) (s : State) : (s.updLaunch k g).core = s.core := rfl
@[simp] theorem updLaunch_lanes (k : Nat) (g : Launch → Launch) (s : State) : (s.updLaunch k g).lanes = s.lanes := rfl
@[simp] theorem updLaunch_warps (k : Nat) (g : Launch → Launch) (s : State) : (s.updLaunch k g).warps = s.warps := rfl
@[simp] theorem updLaunch_groups (k : Nat) (g : Launch → Launch) (s : State) : (s.updLaunch k g).groups = s.groups := rfl
@[simp] theorem updLaunch_cores (k : Nat) (g : Launch → Launch) (s : State) : (s.updLaunch k g).cores = s.cores := rfl
@[simp] theorem updLaunch_jobs (k : Nat) (g : Launch → Launch) (s : State) : (s.updLaunch k g).jobs = s.jobs := rfl
@[simp] theorem updLaunch_phases (k : Nat) (g : Launch → Launch) (s : State) : (s.updLaunch k g).phases = s.phases := rfl
@[simp] theorem updLaunch_graphs (k : Nat) (g : Launch → Launch) (s : State) : (s.updLaunch k g).graphs = s.graphs := rfl
@[simp] theorem updLaunch_parts (k : Nat) (g : Launch → Launch) (s : State) : (s.updLaunch k g).parts = s.parts := rfl
@[simp] theorem updLaunch_keys (k : Nat) (g : Launch → Launch) (s : State) : (s.updLaunch k g).keys = s.keys := rfl
@[simp] theorem updLaunch_node (k : Nat) (g : Launch → Launch) (s : State) : (s.updLaunch k g).node = s.node := rfl
@[simp] theorem updLaunch_links (k : Nat) (g : Launch → Launch) (s : State) : (s.updLaunch k g).links = s.links := rfl
@[simp] theorem updLaunch_credits (k : Nat) (g : Launch → Launch) (s : State) : (s.updLaunch k g).credits = s.credits := rfl
@[simp] theorem updLaunch_queued (k : Nat) (g : Launch → Launch) (s : State) : (s.updLaunch k g).queued = s.queued := rfl
@[simp] theorem updLaunch_stripes (k : Nat) (g : Launch → Launch) (s : State) : (s.updLaunch k g).stripes = s.stripes := rfl
@[simp] theorem updLaunch_peers (k : Nat) (g : Launch → Launch) (s : State) : (s.updLaunch k g).peers = s.peers := rfl
@[simp] theorem updLaunch_reductions (k : Nat) (g : Launch → Launch) (s : State) : (s.updLaunch k g).reductions = s.reductions := rfl
@[simp] theorem updLaunch_encoders (k : Nat) (g : Launch → Launch) (s : State) : (s.updLaunch k g).encoders = s.encoders := rfl
@[simp] theorem updLaunch_boot (k : Nat) (g : Launch → Launch) (s : State) : (s.updLaunch k g).boot = s.boot := rfl
@[simp] theorem updLaunch_fuseSvn (k : Nat) (g : Launch → Launch) (s : State) : (s.updLaunch k g).fuseSvn = s.fuseSvn := rfl
@[simp] theorem updLaunch_image (k : Nat) (g : Launch → Launch) (s : State) : (s.updLaunch k g).image = s.image := rfl
@[simp] theorem updLaunch_pwrcap (k : Nat) (g : Launch → Launch) (s : State) : (s.updLaunch k g).pwrcap = s.pwrcap := rfl
@[simp] theorem updLaunch_sensors (k : Nat) (g : Launch → Launch) (s : State) : (s.updLaunch k g).sensors = s.sensors := rfl
@[simp] theorem updLaunch_mem (k : Nat) (g : Launch → Launch) (s : State) : (s.updLaunch k g).mem = s.mem := rfl
@[simp] theorem updLaunch_hbm (k : Nat) (g : Launch → Launch) (s : State) : (s.updLaunch k g).hbm = s.hbm := rfl
@[simp] theorem updLaunch_epochs (k : Nat) (g : Launch → Launch) (s : State) : (s.updLaunch k g).epochs = s.epochs := rfl
@[simp] theorem updLaunch_lateLogs (k : Nat) (g : Launch → Launch) (s : State) : (s.updLaunch k g).lateLogs = s.lateLogs := rfl
@[simp] theorem updLaunch_lateWrites (k : Nat) (g : Launch → Launch) (s : State) : (s.updLaunch k g).lateWrites = s.lateWrites := rfl
@[simp] theorem updLaunch_badLines (k : Nat) (g : Launch → Launch) (s : State) : (s.updLaunch k g).badLines = s.badLines := rfl
@[simp] theorem updLaunch_badScratch (k : Nat) (g : Launch → Launch) (s : State) : (s.updLaunch k g).badScratch = s.badScratch := rfl
@[simp] theorem updLaunch_healing (k : Nat) (g : Launch → Launch) (s : State) : (s.updLaunch k g).healing = s.healing := rfl
@[simp] theorem updLaunch_marks (k : Nat) (g : Launch → Launch) (s : State) : (s.updLaunch k g).marks = s.marks := rfl
@[simp] theorem updLaunch_hostLines (k : Nat) (g : Launch → Launch) (s : State) : (s.updLaunch k g).hostLines = s.hostLines := rfl
@[simp] theorem updLaunch_llc (k : Nat) (g : Launch → Launch) (s : State) : (s.updLaunch k g).llc = s.llc := rfl
@[simp] theorem updLaunch_watches (k : Nat) (g : Launch → Launch) (s : State) : (s.updLaunch k g).watches = s.watches := rfl
@[simp] theorem updLaunch_rewrites (k : Nat) (g : Launch → Launch) (s : State) : (s.updLaunch k g).rewrites = s.rewrites := rfl
@[simp] theorem updLaunch_dieTlbs (k : Nat) (g : Launch → Launch) (s : State) : (s.updLaunch k g).dieTlbs = s.dieTlbs := rfl
@[simp] theorem updLaunch_tableTlb (k : Nat) (g : Launch → Launch) (s : State) : (s.updLaunch k g).tableTlb = s.tableTlb := rfl
@[simp] theorem updLaunch_delay (k : Nat) (g : Launch → Launch) (s : State) : (s.updLaunch k g).delay = s.delay := rfl
@[simp] theorem updLaunch_agenda (k : Nat) (g : Launch → Launch) (s : State) : (s.updLaunch k g).agenda = s.agenda := rfl
@[simp] theorem updLaunch_inbox (k : Nat) (g : Launch → Launch) (s : State) : (s.updLaunch k g).inbox = s.inbox := rfl
@[simp] theorem updLaunch_out (k : Nat) (g : Launch → Launch) (s : State) : (s.updLaunch k g).out = s.out := rfl
@[simp] theorem updLaunch_fresh (k : Nat) (g : Launch → Launch) (s : State) : (s.updLaunch k g).fresh = s.fresh := rfl
@[simp] theorem updLaunch_starts (k : Nat) (g : Launch → Launch) (s : State) : (s.updLaunch k g).starts = s.starts := rfl
@[simp] theorem updLaunch_material (k : Nat) (g : Launch → Launch) (s : State) : (s.updLaunch k g).material = s.material := rfl
@[simp] theorem updLaunch_free (k : Nat) (g : Launch → Launch) (s : State) : (s.updLaunch k g).free = s.free := rfl
@[simp] theorem updLaunch_clock (k : Nat) (g : Launch → Launch) (s : State) : (s.updLaunch k g).clock = s.clock := rfl

-- updGraph

@[simp] theorem updGraph_warp (k : Nat) (g : Graph → Graph) (s : State) : (s.updGraph k g).warp = s.warp := rfl
@[simp] theorem updGraph_group (k : Nat) (g : Graph → Graph) (s : State) : (s.updGraph k g).group = s.group := rfl
@[simp] theorem updGraph_core (k : Nat) (g : Graph → Graph) (s : State) : (s.updGraph k g).core = s.core := rfl
@[simp] theorem updGraph_lanes (k : Nat) (g : Graph → Graph) (s : State) : (s.updGraph k g).lanes = s.lanes := rfl
@[simp] theorem updGraph_warps (k : Nat) (g : Graph → Graph) (s : State) : (s.updGraph k g).warps = s.warps := rfl
@[simp] theorem updGraph_groups (k : Nat) (g : Graph → Graph) (s : State) : (s.updGraph k g).groups = s.groups := rfl
@[simp] theorem updGraph_cores (k : Nat) (g : Graph → Graph) (s : State) : (s.updGraph k g).cores = s.cores := rfl
@[simp] theorem updGraph_jobs (k : Nat) (g : Graph → Graph) (s : State) : (s.updGraph k g).jobs = s.jobs := rfl
@[simp] theorem updGraph_phases (k : Nat) (g : Graph → Graph) (s : State) : (s.updGraph k g).phases = s.phases := rfl
@[simp] theorem updGraph_launches (k : Nat) (g : Graph → Graph) (s : State) : (s.updGraph k g).launches = s.launches := rfl
@[simp] theorem updGraph_parts (k : Nat) (g : Graph → Graph) (s : State) : (s.updGraph k g).parts = s.parts := rfl
@[simp] theorem updGraph_keys (k : Nat) (g : Graph → Graph) (s : State) : (s.updGraph k g).keys = s.keys := rfl
@[simp] theorem updGraph_node (k : Nat) (g : Graph → Graph) (s : State) : (s.updGraph k g).node = s.node := rfl
@[simp] theorem updGraph_links (k : Nat) (g : Graph → Graph) (s : State) : (s.updGraph k g).links = s.links := rfl
@[simp] theorem updGraph_credits (k : Nat) (g : Graph → Graph) (s : State) : (s.updGraph k g).credits = s.credits := rfl
@[simp] theorem updGraph_queued (k : Nat) (g : Graph → Graph) (s : State) : (s.updGraph k g).queued = s.queued := rfl
@[simp] theorem updGraph_stripes (k : Nat) (g : Graph → Graph) (s : State) : (s.updGraph k g).stripes = s.stripes := rfl
@[simp] theorem updGraph_peers (k : Nat) (g : Graph → Graph) (s : State) : (s.updGraph k g).peers = s.peers := rfl
@[simp] theorem updGraph_reductions (k : Nat) (g : Graph → Graph) (s : State) : (s.updGraph k g).reductions = s.reductions := rfl
@[simp] theorem updGraph_encoders (k : Nat) (g : Graph → Graph) (s : State) : (s.updGraph k g).encoders = s.encoders := rfl
@[simp] theorem updGraph_boot (k : Nat) (g : Graph → Graph) (s : State) : (s.updGraph k g).boot = s.boot := rfl
@[simp] theorem updGraph_fuseSvn (k : Nat) (g : Graph → Graph) (s : State) : (s.updGraph k g).fuseSvn = s.fuseSvn := rfl
@[simp] theorem updGraph_image (k : Nat) (g : Graph → Graph) (s : State) : (s.updGraph k g).image = s.image := rfl
@[simp] theorem updGraph_pwrcap (k : Nat) (g : Graph → Graph) (s : State) : (s.updGraph k g).pwrcap = s.pwrcap := rfl
@[simp] theorem updGraph_sensors (k : Nat) (g : Graph → Graph) (s : State) : (s.updGraph k g).sensors = s.sensors := rfl
@[simp] theorem updGraph_mem (k : Nat) (g : Graph → Graph) (s : State) : (s.updGraph k g).mem = s.mem := rfl
@[simp] theorem updGraph_hbm (k : Nat) (g : Graph → Graph) (s : State) : (s.updGraph k g).hbm = s.hbm := rfl
@[simp] theorem updGraph_epochs (k : Nat) (g : Graph → Graph) (s : State) : (s.updGraph k g).epochs = s.epochs := rfl
@[simp] theorem updGraph_lateLogs (k : Nat) (g : Graph → Graph) (s : State) : (s.updGraph k g).lateLogs = s.lateLogs := rfl
@[simp] theorem updGraph_lateWrites (k : Nat) (g : Graph → Graph) (s : State) : (s.updGraph k g).lateWrites = s.lateWrites := rfl
@[simp] theorem updGraph_badLines (k : Nat) (g : Graph → Graph) (s : State) : (s.updGraph k g).badLines = s.badLines := rfl
@[simp] theorem updGraph_badScratch (k : Nat) (g : Graph → Graph) (s : State) : (s.updGraph k g).badScratch = s.badScratch := rfl
@[simp] theorem updGraph_healing (k : Nat) (g : Graph → Graph) (s : State) : (s.updGraph k g).healing = s.healing := rfl
@[simp] theorem updGraph_marks (k : Nat) (g : Graph → Graph) (s : State) : (s.updGraph k g).marks = s.marks := rfl
@[simp] theorem updGraph_hostLines (k : Nat) (g : Graph → Graph) (s : State) : (s.updGraph k g).hostLines = s.hostLines := rfl
@[simp] theorem updGraph_llc (k : Nat) (g : Graph → Graph) (s : State) : (s.updGraph k g).llc = s.llc := rfl
@[simp] theorem updGraph_watches (k : Nat) (g : Graph → Graph) (s : State) : (s.updGraph k g).watches = s.watches := rfl
@[simp] theorem updGraph_rewrites (k : Nat) (g : Graph → Graph) (s : State) : (s.updGraph k g).rewrites = s.rewrites := rfl
@[simp] theorem updGraph_dieTlbs (k : Nat) (g : Graph → Graph) (s : State) : (s.updGraph k g).dieTlbs = s.dieTlbs := rfl
@[simp] theorem updGraph_tableTlb (k : Nat) (g : Graph → Graph) (s : State) : (s.updGraph k g).tableTlb = s.tableTlb := rfl
@[simp] theorem updGraph_delay (k : Nat) (g : Graph → Graph) (s : State) : (s.updGraph k g).delay = s.delay := rfl
@[simp] theorem updGraph_agenda (k : Nat) (g : Graph → Graph) (s : State) : (s.updGraph k g).agenda = s.agenda := rfl
@[simp] theorem updGraph_inbox (k : Nat) (g : Graph → Graph) (s : State) : (s.updGraph k g).inbox = s.inbox := rfl
@[simp] theorem updGraph_out (k : Nat) (g : Graph → Graph) (s : State) : (s.updGraph k g).out = s.out := rfl
@[simp] theorem updGraph_fresh (k : Nat) (g : Graph → Graph) (s : State) : (s.updGraph k g).fresh = s.fresh := rfl
@[simp] theorem updGraph_starts (k : Nat) (g : Graph → Graph) (s : State) : (s.updGraph k g).starts = s.starts := rfl
@[simp] theorem updGraph_material (k : Nat) (g : Graph → Graph) (s : State) : (s.updGraph k g).material = s.material := rfl
@[simp] theorem updGraph_free (k : Nat) (g : Graph → Graph) (s : State) : (s.updGraph k g).free = s.free := rfl
@[simp] theorem updGraph_clock (k : Nat) (g : Graph → Graph) (s : State) : (s.updGraph k g).clock = s.clock := rfl

-- updPhase

@[simp] theorem updPhase_warp (k : Nat) (g : Phase → Phase) (s : State) : (s.updPhase k g).warp = s.warp := rfl
@[simp] theorem updPhase_group (k : Nat) (g : Phase → Phase) (s : State) : (s.updPhase k g).group = s.group := rfl
@[simp] theorem updPhase_core (k : Nat) (g : Phase → Phase) (s : State) : (s.updPhase k g).core = s.core := rfl
@[simp] theorem updPhase_lanes (k : Nat) (g : Phase → Phase) (s : State) : (s.updPhase k g).lanes = s.lanes := rfl
@[simp] theorem updPhase_warps (k : Nat) (g : Phase → Phase) (s : State) : (s.updPhase k g).warps = s.warps := rfl
@[simp] theorem updPhase_groups (k : Nat) (g : Phase → Phase) (s : State) : (s.updPhase k g).groups = s.groups := rfl
@[simp] theorem updPhase_cores (k : Nat) (g : Phase → Phase) (s : State) : (s.updPhase k g).cores = s.cores := rfl
@[simp] theorem updPhase_jobs (k : Nat) (g : Phase → Phase) (s : State) : (s.updPhase k g).jobs = s.jobs := rfl
@[simp] theorem updPhase_graphs (k : Nat) (g : Phase → Phase) (s : State) : (s.updPhase k g).graphs = s.graphs := rfl
@[simp] theorem updPhase_launches (k : Nat) (g : Phase → Phase) (s : State) : (s.updPhase k g).launches = s.launches := rfl
@[simp] theorem updPhase_parts (k : Nat) (g : Phase → Phase) (s : State) : (s.updPhase k g).parts = s.parts := rfl
@[simp] theorem updPhase_keys (k : Nat) (g : Phase → Phase) (s : State) : (s.updPhase k g).keys = s.keys := rfl
@[simp] theorem updPhase_node (k : Nat) (g : Phase → Phase) (s : State) : (s.updPhase k g).node = s.node := rfl
@[simp] theorem updPhase_links (k : Nat) (g : Phase → Phase) (s : State) : (s.updPhase k g).links = s.links := rfl
@[simp] theorem updPhase_credits (k : Nat) (g : Phase → Phase) (s : State) : (s.updPhase k g).credits = s.credits := rfl
@[simp] theorem updPhase_queued (k : Nat) (g : Phase → Phase) (s : State) : (s.updPhase k g).queued = s.queued := rfl
@[simp] theorem updPhase_stripes (k : Nat) (g : Phase → Phase) (s : State) : (s.updPhase k g).stripes = s.stripes := rfl
@[simp] theorem updPhase_peers (k : Nat) (g : Phase → Phase) (s : State) : (s.updPhase k g).peers = s.peers := rfl
@[simp] theorem updPhase_reductions (k : Nat) (g : Phase → Phase) (s : State) : (s.updPhase k g).reductions = s.reductions := rfl
@[simp] theorem updPhase_encoders (k : Nat) (g : Phase → Phase) (s : State) : (s.updPhase k g).encoders = s.encoders := rfl
@[simp] theorem updPhase_boot (k : Nat) (g : Phase → Phase) (s : State) : (s.updPhase k g).boot = s.boot := rfl
@[simp] theorem updPhase_fuseSvn (k : Nat) (g : Phase → Phase) (s : State) : (s.updPhase k g).fuseSvn = s.fuseSvn := rfl
@[simp] theorem updPhase_image (k : Nat) (g : Phase → Phase) (s : State) : (s.updPhase k g).image = s.image := rfl
@[simp] theorem updPhase_pwrcap (k : Nat) (g : Phase → Phase) (s : State) : (s.updPhase k g).pwrcap = s.pwrcap := rfl
@[simp] theorem updPhase_sensors (k : Nat) (g : Phase → Phase) (s : State) : (s.updPhase k g).sensors = s.sensors := rfl
@[simp] theorem updPhase_mem (k : Nat) (g : Phase → Phase) (s : State) : (s.updPhase k g).mem = s.mem := rfl
@[simp] theorem updPhase_hbm (k : Nat) (g : Phase → Phase) (s : State) : (s.updPhase k g).hbm = s.hbm := rfl
@[simp] theorem updPhase_epochs (k : Nat) (g : Phase → Phase) (s : State) : (s.updPhase k g).epochs = s.epochs := rfl
@[simp] theorem updPhase_lateLogs (k : Nat) (g : Phase → Phase) (s : State) : (s.updPhase k g).lateLogs = s.lateLogs := rfl
@[simp] theorem updPhase_lateWrites (k : Nat) (g : Phase → Phase) (s : State) : (s.updPhase k g).lateWrites = s.lateWrites := rfl
@[simp] theorem updPhase_badLines (k : Nat) (g : Phase → Phase) (s : State) : (s.updPhase k g).badLines = s.badLines := rfl
@[simp] theorem updPhase_badScratch (k : Nat) (g : Phase → Phase) (s : State) : (s.updPhase k g).badScratch = s.badScratch := rfl
@[simp] theorem updPhase_healing (k : Nat) (g : Phase → Phase) (s : State) : (s.updPhase k g).healing = s.healing := rfl
@[simp] theorem updPhase_marks (k : Nat) (g : Phase → Phase) (s : State) : (s.updPhase k g).marks = s.marks := rfl
@[simp] theorem updPhase_hostLines (k : Nat) (g : Phase → Phase) (s : State) : (s.updPhase k g).hostLines = s.hostLines := rfl
@[simp] theorem updPhase_llc (k : Nat) (g : Phase → Phase) (s : State) : (s.updPhase k g).llc = s.llc := rfl
@[simp] theorem updPhase_watches (k : Nat) (g : Phase → Phase) (s : State) : (s.updPhase k g).watches = s.watches := rfl
@[simp] theorem updPhase_rewrites (k : Nat) (g : Phase → Phase) (s : State) : (s.updPhase k g).rewrites = s.rewrites := rfl
@[simp] theorem updPhase_dieTlbs (k : Nat) (g : Phase → Phase) (s : State) : (s.updPhase k g).dieTlbs = s.dieTlbs := rfl
@[simp] theorem updPhase_tableTlb (k : Nat) (g : Phase → Phase) (s : State) : (s.updPhase k g).tableTlb = s.tableTlb := rfl
@[simp] theorem updPhase_delay (k : Nat) (g : Phase → Phase) (s : State) : (s.updPhase k g).delay = s.delay := rfl
@[simp] theorem updPhase_agenda (k : Nat) (g : Phase → Phase) (s : State) : (s.updPhase k g).agenda = s.agenda := rfl
@[simp] theorem updPhase_inbox (k : Nat) (g : Phase → Phase) (s : State) : (s.updPhase k g).inbox = s.inbox := rfl
@[simp] theorem updPhase_out (k : Nat) (g : Phase → Phase) (s : State) : (s.updPhase k g).out = s.out := rfl
@[simp] theorem updPhase_fresh (k : Nat) (g : Phase → Phase) (s : State) : (s.updPhase k g).fresh = s.fresh := rfl
@[simp] theorem updPhase_starts (k : Nat) (g : Phase → Phase) (s : State) : (s.updPhase k g).starts = s.starts := rfl
@[simp] theorem updPhase_material (k : Nat) (g : Phase → Phase) (s : State) : (s.updPhase k g).material = s.material := rfl
@[simp] theorem updPhase_free (k : Nat) (g : Phase → Phase) (s : State) : (s.updPhase k g).free = s.free := rfl
@[simp] theorem updPhase_clock (k : Nat) (g : Phase → Phase) (s : State) : (s.updPhase k g).clock = s.clock := rfl

-- updWarp

@[simp] theorem updWarp_group (k : Nat) (g : Warp → Warp) (s : State) : (s.updWarp k g).group = s.group := by unfold State.updWarp; split <;> rfl
@[simp] theorem updWarp_core (k : Nat) (g : Warp → Warp) (s : State) : (s.updWarp k g).core = s.core := by unfold State.updWarp; split <;> rfl
@[simp] theorem updWarp_lanes (k : Nat) (g : Warp → Warp) (s : State) : (s.updWarp k g).lanes = s.lanes := by unfold State.updWarp; split <;> rfl
@[simp] theorem updWarp_groups (k : Nat) (g : Warp → Warp) (s : State) : (s.updWarp k g).groups = s.groups := by unfold State.updWarp; split <;> rfl
@[simp] theorem updWarp_cores (k : Nat) (g : Warp → Warp) (s : State) : (s.updWarp k g).cores = s.cores := by unfold State.updWarp; split <;> rfl
@[simp] theorem updWarp_jobs (k : Nat) (g : Warp → Warp) (s : State) : (s.updWarp k g).jobs = s.jobs := by unfold State.updWarp; split <;> rfl
@[simp] theorem updWarp_phases (k : Nat) (g : Warp → Warp) (s : State) : (s.updWarp k g).phases = s.phases := by unfold State.updWarp; split <;> rfl
@[simp] theorem updWarp_graphs (k : Nat) (g : Warp → Warp) (s : State) : (s.updWarp k g).graphs = s.graphs := by unfold State.updWarp; split <;> rfl
@[simp] theorem updWarp_launches (k : Nat) (g : Warp → Warp) (s : State) : (s.updWarp k g).launches = s.launches := by unfold State.updWarp; split <;> rfl
@[simp] theorem updWarp_parts (k : Nat) (g : Warp → Warp) (s : State) : (s.updWarp k g).parts = s.parts := by unfold State.updWarp; split <;> rfl
@[simp] theorem updWarp_keys (k : Nat) (g : Warp → Warp) (s : State) : (s.updWarp k g).keys = s.keys := by unfold State.updWarp; split <;> rfl
@[simp] theorem updWarp_node (k : Nat) (g : Warp → Warp) (s : State) : (s.updWarp k g).node = s.node := by unfold State.updWarp; split <;> rfl
@[simp] theorem updWarp_links (k : Nat) (g : Warp → Warp) (s : State) : (s.updWarp k g).links = s.links := by unfold State.updWarp; split <;> rfl
@[simp] theorem updWarp_credits (k : Nat) (g : Warp → Warp) (s : State) : (s.updWarp k g).credits = s.credits := by unfold State.updWarp; split <;> rfl
@[simp] theorem updWarp_queued (k : Nat) (g : Warp → Warp) (s : State) : (s.updWarp k g).queued = s.queued := by unfold State.updWarp; split <;> rfl
@[simp] theorem updWarp_stripes (k : Nat) (g : Warp → Warp) (s : State) : (s.updWarp k g).stripes = s.stripes := by unfold State.updWarp; split <;> rfl
@[simp] theorem updWarp_peers (k : Nat) (g : Warp → Warp) (s : State) : (s.updWarp k g).peers = s.peers := by unfold State.updWarp; split <;> rfl
@[simp] theorem updWarp_reductions (k : Nat) (g : Warp → Warp) (s : State) : (s.updWarp k g).reductions = s.reductions := by unfold State.updWarp; split <;> rfl
@[simp] theorem updWarp_encoders (k : Nat) (g : Warp → Warp) (s : State) : (s.updWarp k g).encoders = s.encoders := by unfold State.updWarp; split <;> rfl
@[simp] theorem updWarp_boot (k : Nat) (g : Warp → Warp) (s : State) : (s.updWarp k g).boot = s.boot := by unfold State.updWarp; split <;> rfl
@[simp] theorem updWarp_fuseSvn (k : Nat) (g : Warp → Warp) (s : State) : (s.updWarp k g).fuseSvn = s.fuseSvn := by unfold State.updWarp; split <;> rfl
@[simp] theorem updWarp_image (k : Nat) (g : Warp → Warp) (s : State) : (s.updWarp k g).image = s.image := by unfold State.updWarp; split <;> rfl
@[simp] theorem updWarp_pwrcap (k : Nat) (g : Warp → Warp) (s : State) : (s.updWarp k g).pwrcap = s.pwrcap := by unfold State.updWarp; split <;> rfl
@[simp] theorem updWarp_sensors (k : Nat) (g : Warp → Warp) (s : State) : (s.updWarp k g).sensors = s.sensors := by unfold State.updWarp; split <;> rfl
@[simp] theorem updWarp_mem (k : Nat) (g : Warp → Warp) (s : State) : (s.updWarp k g).mem = s.mem := by unfold State.updWarp; split <;> rfl
@[simp] theorem updWarp_hbm (k : Nat) (g : Warp → Warp) (s : State) : (s.updWarp k g).hbm = s.hbm := by unfold State.updWarp; split <;> rfl
@[simp] theorem updWarp_epochs (k : Nat) (g : Warp → Warp) (s : State) : (s.updWarp k g).epochs = s.epochs := by unfold State.updWarp; split <;> rfl
@[simp] theorem updWarp_lateLogs (k : Nat) (g : Warp → Warp) (s : State) : (s.updWarp k g).lateLogs = s.lateLogs := by unfold State.updWarp; split <;> rfl
@[simp] theorem updWarp_lateWrites (k : Nat) (g : Warp → Warp) (s : State) : (s.updWarp k g).lateWrites = s.lateWrites := by unfold State.updWarp; split <;> rfl
@[simp] theorem updWarp_badLines (k : Nat) (g : Warp → Warp) (s : State) : (s.updWarp k g).badLines = s.badLines := by unfold State.updWarp; split <;> rfl
@[simp] theorem updWarp_badScratch (k : Nat) (g : Warp → Warp) (s : State) : (s.updWarp k g).badScratch = s.badScratch := by unfold State.updWarp; split <;> rfl
@[simp] theorem updWarp_healing (k : Nat) (g : Warp → Warp) (s : State) : (s.updWarp k g).healing = s.healing := by unfold State.updWarp; split <;> rfl
@[simp] theorem updWarp_marks (k : Nat) (g : Warp → Warp) (s : State) : (s.updWarp k g).marks = s.marks := by unfold State.updWarp; split <;> rfl
@[simp] theorem updWarp_hostLines (k : Nat) (g : Warp → Warp) (s : State) : (s.updWarp k g).hostLines = s.hostLines := by unfold State.updWarp; split <;> rfl
@[simp] theorem updWarp_llc (k : Nat) (g : Warp → Warp) (s : State) : (s.updWarp k g).llc = s.llc := by unfold State.updWarp; split <;> rfl
@[simp] theorem updWarp_watches (k : Nat) (g : Warp → Warp) (s : State) : (s.updWarp k g).watches = s.watches := by unfold State.updWarp; split <;> rfl
@[simp] theorem updWarp_rewrites (k : Nat) (g : Warp → Warp) (s : State) : (s.updWarp k g).rewrites = s.rewrites := by unfold State.updWarp; split <;> rfl
@[simp] theorem updWarp_dieTlbs (k : Nat) (g : Warp → Warp) (s : State) : (s.updWarp k g).dieTlbs = s.dieTlbs := by unfold State.updWarp; split <;> rfl
@[simp] theorem updWarp_tableTlb (k : Nat) (g : Warp → Warp) (s : State) : (s.updWarp k g).tableTlb = s.tableTlb := by unfold State.updWarp; split <;> rfl
@[simp] theorem updWarp_delay (k : Nat) (g : Warp → Warp) (s : State) : (s.updWarp k g).delay = s.delay := by unfold State.updWarp; split <;> rfl
@[simp] theorem updWarp_agenda (k : Nat) (g : Warp → Warp) (s : State) : (s.updWarp k g).agenda = s.agenda := by unfold State.updWarp; split <;> rfl
@[simp] theorem updWarp_inbox (k : Nat) (g : Warp → Warp) (s : State) : (s.updWarp k g).inbox = s.inbox := by unfold State.updWarp; split <;> rfl
@[simp] theorem updWarp_out (k : Nat) (g : Warp → Warp) (s : State) : (s.updWarp k g).out = s.out := by unfold State.updWarp; split <;> rfl
@[simp] theorem updWarp_fresh (k : Nat) (g : Warp → Warp) (s : State) : (s.updWarp k g).fresh = s.fresh := by unfold State.updWarp; split <;> rfl
@[simp] theorem updWarp_starts (k : Nat) (g : Warp → Warp) (s : State) : (s.updWarp k g).starts = s.starts := by unfold State.updWarp; split <;> rfl
@[simp] theorem updWarp_material (k : Nat) (g : Warp → Warp) (s : State) : (s.updWarp k g).material = s.material := by unfold State.updWarp; split <;> rfl
@[simp] theorem updWarp_free (k : Nat) (g : Warp → Warp) (s : State) : (s.updWarp k g).free = s.free := by unfold State.updWarp; split <;> rfl
@[simp] theorem updWarp_clock (k : Nat) (g : Warp → Warp) (s : State) : (s.updWarp k g).clock = s.clock := by unfold State.updWarp; split <;> rfl

-- updGroup

@[simp] theorem updGroup_warp (k : Nat) (g : Group → Group) (s : State) : (s.updGroup k g).warp = s.warp := by unfold State.updGroup; split <;> rfl
@[simp] theorem updGroup_core (k : Nat) (g : Group → Group) (s : State) : (s.updGroup k g).core = s.core := by unfold State.updGroup; split <;> rfl
@[simp] theorem updGroup_lanes (k : Nat) (g : Group → Group) (s : State) : (s.updGroup k g).lanes = s.lanes := by unfold State.updGroup; split <;> rfl
@[simp] theorem updGroup_warps (k : Nat) (g : Group → Group) (s : State) : (s.updGroup k g).warps = s.warps := by unfold State.updGroup; split <;> rfl
@[simp] theorem updGroup_cores (k : Nat) (g : Group → Group) (s : State) : (s.updGroup k g).cores = s.cores := by unfold State.updGroup; split <;> rfl
@[simp] theorem updGroup_jobs (k : Nat) (g : Group → Group) (s : State) : (s.updGroup k g).jobs = s.jobs := by unfold State.updGroup; split <;> rfl
@[simp] theorem updGroup_phases (k : Nat) (g : Group → Group) (s : State) : (s.updGroup k g).phases = s.phases := by unfold State.updGroup; split <;> rfl
@[simp] theorem updGroup_graphs (k : Nat) (g : Group → Group) (s : State) : (s.updGroup k g).graphs = s.graphs := by unfold State.updGroup; split <;> rfl
@[simp] theorem updGroup_launches (k : Nat) (g : Group → Group) (s : State) : (s.updGroup k g).launches = s.launches := by unfold State.updGroup; split <;> rfl
@[simp] theorem updGroup_parts (k : Nat) (g : Group → Group) (s : State) : (s.updGroup k g).parts = s.parts := by unfold State.updGroup; split <;> rfl
@[simp] theorem updGroup_keys (k : Nat) (g : Group → Group) (s : State) : (s.updGroup k g).keys = s.keys := by unfold State.updGroup; split <;> rfl
@[simp] theorem updGroup_node (k : Nat) (g : Group → Group) (s : State) : (s.updGroup k g).node = s.node := by unfold State.updGroup; split <;> rfl
@[simp] theorem updGroup_links (k : Nat) (g : Group → Group) (s : State) : (s.updGroup k g).links = s.links := by unfold State.updGroup; split <;> rfl
@[simp] theorem updGroup_credits (k : Nat) (g : Group → Group) (s : State) : (s.updGroup k g).credits = s.credits := by unfold State.updGroup; split <;> rfl
@[simp] theorem updGroup_queued (k : Nat) (g : Group → Group) (s : State) : (s.updGroup k g).queued = s.queued := by unfold State.updGroup; split <;> rfl
@[simp] theorem updGroup_stripes (k : Nat) (g : Group → Group) (s : State) : (s.updGroup k g).stripes = s.stripes := by unfold State.updGroup; split <;> rfl
@[simp] theorem updGroup_peers (k : Nat) (g : Group → Group) (s : State) : (s.updGroup k g).peers = s.peers := by unfold State.updGroup; split <;> rfl
@[simp] theorem updGroup_reductions (k : Nat) (g : Group → Group) (s : State) : (s.updGroup k g).reductions = s.reductions := by unfold State.updGroup; split <;> rfl
@[simp] theorem updGroup_encoders (k : Nat) (g : Group → Group) (s : State) : (s.updGroup k g).encoders = s.encoders := by unfold State.updGroup; split <;> rfl
@[simp] theorem updGroup_boot (k : Nat) (g : Group → Group) (s : State) : (s.updGroup k g).boot = s.boot := by unfold State.updGroup; split <;> rfl
@[simp] theorem updGroup_fuseSvn (k : Nat) (g : Group → Group) (s : State) : (s.updGroup k g).fuseSvn = s.fuseSvn := by unfold State.updGroup; split <;> rfl
@[simp] theorem updGroup_image (k : Nat) (g : Group → Group) (s : State) : (s.updGroup k g).image = s.image := by unfold State.updGroup; split <;> rfl
@[simp] theorem updGroup_pwrcap (k : Nat) (g : Group → Group) (s : State) : (s.updGroup k g).pwrcap = s.pwrcap := by unfold State.updGroup; split <;> rfl
@[simp] theorem updGroup_sensors (k : Nat) (g : Group → Group) (s : State) : (s.updGroup k g).sensors = s.sensors := by unfold State.updGroup; split <;> rfl
@[simp] theorem updGroup_mem (k : Nat) (g : Group → Group) (s : State) : (s.updGroup k g).mem = s.mem := by unfold State.updGroup; split <;> rfl
@[simp] theorem updGroup_hbm (k : Nat) (g : Group → Group) (s : State) : (s.updGroup k g).hbm = s.hbm := by unfold State.updGroup; split <;> rfl
@[simp] theorem updGroup_epochs (k : Nat) (g : Group → Group) (s : State) : (s.updGroup k g).epochs = s.epochs := by unfold State.updGroup; split <;> rfl
@[simp] theorem updGroup_lateLogs (k : Nat) (g : Group → Group) (s : State) : (s.updGroup k g).lateLogs = s.lateLogs := by unfold State.updGroup; split <;> rfl
@[simp] theorem updGroup_lateWrites (k : Nat) (g : Group → Group) (s : State) : (s.updGroup k g).lateWrites = s.lateWrites := by unfold State.updGroup; split <;> rfl
@[simp] theorem updGroup_badLines (k : Nat) (g : Group → Group) (s : State) : (s.updGroup k g).badLines = s.badLines := by unfold State.updGroup; split <;> rfl
@[simp] theorem updGroup_badScratch (k : Nat) (g : Group → Group) (s : State) : (s.updGroup k g).badScratch = s.badScratch := by unfold State.updGroup; split <;> rfl
@[simp] theorem updGroup_healing (k : Nat) (g : Group → Group) (s : State) : (s.updGroup k g).healing = s.healing := by unfold State.updGroup; split <;> rfl
@[simp] theorem updGroup_marks (k : Nat) (g : Group → Group) (s : State) : (s.updGroup k g).marks = s.marks := by unfold State.updGroup; split <;> rfl
@[simp] theorem updGroup_hostLines (k : Nat) (g : Group → Group) (s : State) : (s.updGroup k g).hostLines = s.hostLines := by unfold State.updGroup; split <;> rfl
@[simp] theorem updGroup_llc (k : Nat) (g : Group → Group) (s : State) : (s.updGroup k g).llc = s.llc := by unfold State.updGroup; split <;> rfl
@[simp] theorem updGroup_watches (k : Nat) (g : Group → Group) (s : State) : (s.updGroup k g).watches = s.watches := by unfold State.updGroup; split <;> rfl
@[simp] theorem updGroup_rewrites (k : Nat) (g : Group → Group) (s : State) : (s.updGroup k g).rewrites = s.rewrites := by unfold State.updGroup; split <;> rfl
@[simp] theorem updGroup_dieTlbs (k : Nat) (g : Group → Group) (s : State) : (s.updGroup k g).dieTlbs = s.dieTlbs := by unfold State.updGroup; split <;> rfl
@[simp] theorem updGroup_tableTlb (k : Nat) (g : Group → Group) (s : State) : (s.updGroup k g).tableTlb = s.tableTlb := by unfold State.updGroup; split <;> rfl
@[simp] theorem updGroup_delay (k : Nat) (g : Group → Group) (s : State) : (s.updGroup k g).delay = s.delay := by unfold State.updGroup; split <;> rfl
@[simp] theorem updGroup_agenda (k : Nat) (g : Group → Group) (s : State) : (s.updGroup k g).agenda = s.agenda := by unfold State.updGroup; split <;> rfl
@[simp] theorem updGroup_inbox (k : Nat) (g : Group → Group) (s : State) : (s.updGroup k g).inbox = s.inbox := by unfold State.updGroup; split <;> rfl
@[simp] theorem updGroup_out (k : Nat) (g : Group → Group) (s : State) : (s.updGroup k g).out = s.out := by unfold State.updGroup; split <;> rfl
@[simp] theorem updGroup_fresh (k : Nat) (g : Group → Group) (s : State) : (s.updGroup k g).fresh = s.fresh := by unfold State.updGroup; split <;> rfl
@[simp] theorem updGroup_starts (k : Nat) (g : Group → Group) (s : State) : (s.updGroup k g).starts = s.starts := by unfold State.updGroup; split <;> rfl
@[simp] theorem updGroup_material (k : Nat) (g : Group → Group) (s : State) : (s.updGroup k g).material = s.material := by unfold State.updGroup; split <;> rfl
@[simp] theorem updGroup_free (k : Nat) (g : Group → Group) (s : State) : (s.updGroup k g).free = s.free := by unfold State.updGroup; split <;> rfl
@[simp] theorem updGroup_clock (k : Nat) (g : Group → Group) (s : State) : (s.updGroup k g).clock = s.clock := by unfold State.updGroup; split <;> rfl

-- updCore

@[simp] theorem updCore_warp (k : Nat) (g : Core → Core) (s : State) : (s.updCore k g).warp = s.warp := by unfold State.updCore; split; rfl; split <;> rfl
@[simp] theorem updCore_group (k : Nat) (g : Core → Core) (s : State) : (s.updCore k g).group = s.group := by unfold State.updCore; split; rfl; split <;> rfl
@[simp] theorem updCore_lanes (k : Nat) (g : Core → Core) (s : State) : (s.updCore k g).lanes = s.lanes := by unfold State.updCore; split; rfl; split <;> rfl
@[simp] theorem updCore_warps (k : Nat) (g : Core → Core) (s : State) : (s.updCore k g).warps = s.warps := by unfold State.updCore; split; rfl; split <;> rfl
@[simp] theorem updCore_groups (k : Nat) (g : Core → Core) (s : State) : (s.updCore k g).groups = s.groups := by unfold State.updCore; split; rfl; split <;> rfl
@[simp] theorem updCore_jobs (k : Nat) (g : Core → Core) (s : State) : (s.updCore k g).jobs = s.jobs := by unfold State.updCore; split; rfl; split <;> rfl
@[simp] theorem updCore_phases (k : Nat) (g : Core → Core) (s : State) : (s.updCore k g).phases = s.phases := by unfold State.updCore; split; rfl; split <;> rfl
@[simp] theorem updCore_graphs (k : Nat) (g : Core → Core) (s : State) : (s.updCore k g).graphs = s.graphs := by unfold State.updCore; split; rfl; split <;> rfl
@[simp] theorem updCore_launches (k : Nat) (g : Core → Core) (s : State) : (s.updCore k g).launches = s.launches := by unfold State.updCore; split; rfl; split <;> rfl
@[simp] theorem updCore_parts (k : Nat) (g : Core → Core) (s : State) : (s.updCore k g).parts = s.parts := by unfold State.updCore; split; rfl; split <;> rfl
@[simp] theorem updCore_keys (k : Nat) (g : Core → Core) (s : State) : (s.updCore k g).keys = s.keys := by unfold State.updCore; split; rfl; split <;> rfl
@[simp] theorem updCore_node (k : Nat) (g : Core → Core) (s : State) : (s.updCore k g).node = s.node := by unfold State.updCore; split; rfl; split <;> rfl
@[simp] theorem updCore_links (k : Nat) (g : Core → Core) (s : State) : (s.updCore k g).links = s.links := by unfold State.updCore; split; rfl; split <;> rfl
@[simp] theorem updCore_credits (k : Nat) (g : Core → Core) (s : State) : (s.updCore k g).credits = s.credits := by unfold State.updCore; split; rfl; split <;> rfl
@[simp] theorem updCore_queued (k : Nat) (g : Core → Core) (s : State) : (s.updCore k g).queued = s.queued := by unfold State.updCore; split; rfl; split <;> rfl
@[simp] theorem updCore_stripes (k : Nat) (g : Core → Core) (s : State) : (s.updCore k g).stripes = s.stripes := by unfold State.updCore; split; rfl; split <;> rfl
@[simp] theorem updCore_peers (k : Nat) (g : Core → Core) (s : State) : (s.updCore k g).peers = s.peers := by unfold State.updCore; split; rfl; split <;> rfl
@[simp] theorem updCore_reductions (k : Nat) (g : Core → Core) (s : State) : (s.updCore k g).reductions = s.reductions := by unfold State.updCore; split; rfl; split <;> rfl
@[simp] theorem updCore_encoders (k : Nat) (g : Core → Core) (s : State) : (s.updCore k g).encoders = s.encoders := by unfold State.updCore; split; rfl; split <;> rfl
@[simp] theorem updCore_boot (k : Nat) (g : Core → Core) (s : State) : (s.updCore k g).boot = s.boot := by unfold State.updCore; split; rfl; split <;> rfl
@[simp] theorem updCore_fuseSvn (k : Nat) (g : Core → Core) (s : State) : (s.updCore k g).fuseSvn = s.fuseSvn := by unfold State.updCore; split; rfl; split <;> rfl
@[simp] theorem updCore_image (k : Nat) (g : Core → Core) (s : State) : (s.updCore k g).image = s.image := by unfold State.updCore; split; rfl; split <;> rfl
@[simp] theorem updCore_pwrcap (k : Nat) (g : Core → Core) (s : State) : (s.updCore k g).pwrcap = s.pwrcap := by unfold State.updCore; split; rfl; split <;> rfl
@[simp] theorem updCore_sensors (k : Nat) (g : Core → Core) (s : State) : (s.updCore k g).sensors = s.sensors := by unfold State.updCore; split; rfl; split <;> rfl
@[simp] theorem updCore_mem (k : Nat) (g : Core → Core) (s : State) : (s.updCore k g).mem = s.mem := by unfold State.updCore; split; rfl; split <;> rfl
@[simp] theorem updCore_hbm (k : Nat) (g : Core → Core) (s : State) : (s.updCore k g).hbm = s.hbm := by unfold State.updCore; split; rfl; split <;> rfl
@[simp] theorem updCore_epochs (k : Nat) (g : Core → Core) (s : State) : (s.updCore k g).epochs = s.epochs := by unfold State.updCore; split; rfl; split <;> rfl
@[simp] theorem updCore_lateLogs (k : Nat) (g : Core → Core) (s : State) : (s.updCore k g).lateLogs = s.lateLogs := by unfold State.updCore; split; rfl; split <;> rfl
@[simp] theorem updCore_lateWrites (k : Nat) (g : Core → Core) (s : State) : (s.updCore k g).lateWrites = s.lateWrites := by unfold State.updCore; split; rfl; split <;> rfl
@[simp] theorem updCore_badLines (k : Nat) (g : Core → Core) (s : State) : (s.updCore k g).badLines = s.badLines := by unfold State.updCore; split; rfl; split <;> rfl
@[simp] theorem updCore_badScratch (k : Nat) (g : Core → Core) (s : State) : (s.updCore k g).badScratch = s.badScratch := by unfold State.updCore; split; rfl; split <;> rfl
@[simp] theorem updCore_healing (k : Nat) (g : Core → Core) (s : State) : (s.updCore k g).healing = s.healing := by unfold State.updCore; split; rfl; split <;> rfl
@[simp] theorem updCore_marks (k : Nat) (g : Core → Core) (s : State) : (s.updCore k g).marks = s.marks := by unfold State.updCore; split; rfl; split <;> rfl
@[simp] theorem updCore_hostLines (k : Nat) (g : Core → Core) (s : State) : (s.updCore k g).hostLines = s.hostLines := by unfold State.updCore; split; rfl; split <;> rfl
@[simp] theorem updCore_llc (k : Nat) (g : Core → Core) (s : State) : (s.updCore k g).llc = s.llc := by unfold State.updCore; split; rfl; split <;> rfl
@[simp] theorem updCore_watches (k : Nat) (g : Core → Core) (s : State) : (s.updCore k g).watches = s.watches := by unfold State.updCore; split; rfl; split <;> rfl
@[simp] theorem updCore_rewrites (k : Nat) (g : Core → Core) (s : State) : (s.updCore k g).rewrites = s.rewrites := by unfold State.updCore; split; rfl; split <;> rfl
@[simp] theorem updCore_dieTlbs (k : Nat) (g : Core → Core) (s : State) : (s.updCore k g).dieTlbs = s.dieTlbs := by unfold State.updCore; split; rfl; split <;> rfl
@[simp] theorem updCore_tableTlb (k : Nat) (g : Core → Core) (s : State) : (s.updCore k g).tableTlb = s.tableTlb := by unfold State.updCore; split; rfl; split <;> rfl
@[simp] theorem updCore_delay (k : Nat) (g : Core → Core) (s : State) : (s.updCore k g).delay = s.delay := by unfold State.updCore; split; rfl; split <;> rfl
@[simp] theorem updCore_agenda (k : Nat) (g : Core → Core) (s : State) : (s.updCore k g).agenda = s.agenda := by unfold State.updCore; split; rfl; split <;> rfl
@[simp] theorem updCore_inbox (k : Nat) (g : Core → Core) (s : State) : (s.updCore k g).inbox = s.inbox := by unfold State.updCore; split; rfl; split <;> rfl
@[simp] theorem updCore_out (k : Nat) (g : Core → Core) (s : State) : (s.updCore k g).out = s.out := by unfold State.updCore; split; rfl; split <;> rfl
@[simp] theorem updCore_fresh (k : Nat) (g : Core → Core) (s : State) : (s.updCore k g).fresh = s.fresh := by unfold State.updCore; split; rfl; split <;> rfl
@[simp] theorem updCore_starts (k : Nat) (g : Core → Core) (s : State) : (s.updCore k g).starts = s.starts := by unfold State.updCore; split; rfl; split <;> rfl
@[simp] theorem updCore_material (k : Nat) (g : Core → Core) (s : State) : (s.updCore k g).material = s.material := by unfold State.updCore; split; rfl; split <;> rfl
@[simp] theorem updCore_free (k : Nat) (g : Core → Core) (s : State) : (s.updCore k g).free = s.free := by unfold State.updCore; split; rfl; split <;> rfl
@[simp] theorem updCore_clock (k : Nat) (g : Core → Core) (s : State) : (s.updCore k g).clock = s.clock := by unfold State.updCore; split; rfl; split <;> rfl

end Sys2Proof.Machine
end

