-- ==== Sys2Proof/Laws/Operands.lean ====
section
/-!
SUPPORT. What writing a register, a pair, a predicate or the PCs does to a frame, each said once.
-/
namespace Sys2Proof.Machine

theorem Frame.reg_setRegP (f : Frame) (n k : Nat) (m bad : Word) (g : Nat → Word) :
    (f.setRegP n m bad g).reg k =
      if k = n then
        { words := lanesOf fun l => if m.getLsbD l then g l else f.word n l
          poison := ((f.reg n).poison &&& ~~~m) ||| (bad &&& m) }
      else f.reg k := by
  unfold Frame.reg Frame.setRegP
  simp only [amGet_amPut]
  split <;> rfl

theorem Frame.word_setRegP (f : Frame) (n k : Nat) (m bad : Word) (g : Nat → Word) (l : Nat) (h : l < 32) :
    (f.setRegP n m bad g).word k l = if k = n ∧ m.getLsbD l = true then g l else f.word k l := by
  unfold Frame.word
  rw [Frame.reg_setRegP]
  by_cases e : k = n
  · subst e
    rw [if_pos rfl, getD_lanesOf, if_pos h]
    simp [Frame.word]
  · simp [e]

@[simp] theorem arch_setV (s : State) (n k : Nat) (m : Word) (g : Nat → Word) : (s.setV n m g).arch k = s.arch k := rfl

theorem arch_inj {s : State} {n k : Nat} : s.arch n = s.arch k ↔ n = k := by simp [State.arch]

theorem reg_setV (s : State) (n k : Nat) (m : Word) (g : Nat → Word) :
    (s.setV n m g).frame.reg k =
      if k = s.arch n then
        { words := lanesOf fun l => if m.getLsbD l then g l else s.v n l
          poison := (s.frame.reg (s.arch n)).poison &&& ~~~m }
      else s.frame.reg k := by
  unfold State.setV
  rw [updFrame_frame, Frame.reg_setRegP]
  simp [State.arch, State.v]
  rfl

theorem v_setV (s : State) (n k : Nat) (m : Word) (g : Nat → Word) (l : Nat) (h : l < 32) :
    (s.setV n m g).v k l = if k = n ∧ m.getLsbD l = true then g l else s.v k l := by
  have e : (s.setV n m g).v k l = (s.frame.setRegP (s.arch n) m 0 g).word (s.arch k) l := rfl
  rw [e, Frame.word_setRegP _ _ _ _ _ _ _ h]
  simp only [arch_inj]
  rfl

/-- Only registers and PCs of the issuing warp's frame change by a register write followed by an advance. -/
theorem wrote_setV (s : State) (d : Nat) (m : Word) (g : Nat → Word) : Wrote s (s.setV d m g).advance d m g where
  lane l h := by
    have e : (s.setV d m g).advance.v d l = (s.setV d m g).v d l := rfl
    rw [e, v_setV _ _ _ _ _ _ h]
    simp only [true_and]
  poison := by
    have := reg_setV s d (s.arch d) m g
    simp only [if_true] at this
    exact congrArg RegVal.poison this
  others n h := by
    have := reg_setV s d n m g
    rwa [if_neg h] at this

theorem pcOf_setPcs (s : State) (m : Word) (g : Nat → Word) (l : Nat) (h : l < 32) :
    (s.setPcs m g).pcOf l = if m.getLsbD l then g l else s.pcOf l := by
  unfold State.pcOf State.setPcs
  rw [updFrame_frame, getD_lanesOf, if_pos h]

theorem pcOf_advance (s : State) (l : Nat) (h : l < 32) :
    s.advance.pcOf l = if s.lanes.getLsbD l then s.pcOf l + 4 else s.pcOf l := pcOf_setPcs _ _ _ _ h

theorem wrotePair_setPair (s : State) (d : Nat) (m : Word) (g : Nat → DWord) :
    WrotePair s (s.setPair d m g).advance d m g where
  lane l h := by
    have e (k : Nat) : (s.setPair d m g).advance.v k l = (s.setPair d m g).v k l := rfl
    unfold State.pair
    rw [e, e]
    unfold State.setPair
    rw [v_setV _ _ _ _ _ _ h, v_setV _ _ _ _ _ _ h, v_setV _ _ _ _ _ _ h, v_setV _ _ _ _ _ _ h]
    by_cases hm : m.getLsbD l = true
    · simp only [hm, and_true]
      simp only [if_true, Nat.left_eq_add, Nat.one_ne_zero, if_false]
      ext i hi
      simp only [BitVec.getElem_append, BitVec.getElem_setWidth, BitVec.getLsbD_ushiftRight]
      split
      · rfl
      · rename_i h'
        rw [show 32 + (i - 32) = i by omega]
        rfl
    · simp [hm]
  poison k hk := by
    have e (n : Nat) : (s.setPair d m g).advance.frame.reg n = (s.setPair d m g).frame.reg n := rfl
    rw [e]
    unfold State.setPair
    rw [reg_setV, arch_setV]
    rcases (by omega : k = 0 ∨ k = 1) with rfl | rfl
    · rw [if_neg (by simp [State.arch]), reg_setV, if_pos (by simp [State.arch])]
      rfl
    · rw [if_pos rfl, reg_setV, if_neg (by simp [State.arch])]
  others n h1 h2 := by
    have e : (s.setPair d m g).advance.frame.reg n = (s.setPair d m g).frame.reg n := rfl
    rw [e]
    unfold State.setPair
    rw [reg_setV, if_neg (by simpa using h2), reg_setV, if_neg h1]

theorem pred_setPred (s : State) (p q : Pred) (hp : p ≠ 0) (m v : Word) :
    (s.setPred p.toNat m v).pred q = if q = p then (s.pred p &&& ~~~m) ||| (v &&& m) else s.pred q := by
  unfold State.pred State.setPred
  rw [updFrame_frame]
  have hp' : p.toNat ≠ 0 := fun h => hp (BitVec.eq_of_toNat_eq h)
  by_cases hq : q = 0
  · rw [if_pos hq, if_neg (fun e => hp (e.symm.trans hq)), if_pos hq]
  · have hq' : q.toNat ≠ 0 := fun h => hq (BitVec.eq_of_toNat_eq h)
    have hlt := q.isLt
    have h7 : q.toNat - 1 < 7 := by omega
    simp only [hq, if_false, hp]
    rw [List.getD_eq_getElem?_getD, List.getElem?_map, List.getElem?_range h7]
    simp only [Option.map_some, Option.getD_some]
    by_cases e : q = p
    · subst e
      simp [show q.toNat - 1 + 1 = q.toNat by omega]
    · have : q.toNat ≠ p.toNat := fun h => e (BitVec.eq_of_toNat_eq h)
      rw [if_neg (by omega), if_neg e]

theorem wrotePred_setPred (s : State) (p : Pred) (hp : p ≠ 0) (m v : Word) (f : Nat → Bool)
    (hv : ∀ l, l < 32 → m.getLsbD l = true → v.getLsbD l = f l) :
    WrotePred s (s.setPred p.toNat m v).advance p m f where
  lane l h := by
    have e : (s.setPred p.toNat m v).advance.pred p = (s.setPred p.toNat m v).pred p := rfl
    rw [e, pred_setPred _ _ _ hp, if_pos rfl]
    simp only [BitVec.getLsbD_or, BitVec.getLsbD_and, BitVec.getLsbD_not]
    cases hm : m.getLsbD l
    · simp [h]
    · rw [hv l h hm]
      simp [h]
  others q hq := by
    have e : (s.setPred p.toNat m v).advance.pred q = (s.setPred p.toNat m v).pred q := rfl
    rw [e, pred_setPred _ _ _ hp, if_neg hq]

end Sys2Proof.Machine
end

