-- ==== Sys2Proof/Laws/Ops.lean ====
section
/-!
SUPPORT. What the shared operations of an instruction can do, each said once: the checks before its entry, the regrouping
after it, an instruction that cannot fault past its word, and the lane-by-lane instructions.
-/
namespace Sys2Proof.Machine

theorem poisonedUse_none (uses : List (Nat × Word)) (s : State)
    (h : ∀ u ∈ uses, u.2 &&& (s.frame.reg (s.arch u.1)).poison = 0) : poisonedUse uses s = none := by
  unfold poisonedUse
  have e : ∀ l, (List.map (fun u : Nat × Word => (u.1, u.2 &&& (s.frame.reg (s.arch u.1)).poison)) uses).find?
      (fun u => u.2.getLsbD l) = none := by
    intro l
    rw [List.find?_eq_none]
    intro u hu
    obtain ⟨w, hw, rfl⟩ := List.mem_map.mp hu
    rw [h w hw]
    simp
  have : lanes32.filterMap (fun l => (((List.map (fun u : Nat × Word =>
      (u.1, u.2 &&& (s.frame.reg (s.arch u.1)).poison)) uses).find? fun u => u.2.getLsbD l).map
        fun u => (u.1, l))) = [] := by
    rw [List.filterMap_eq_nil_iff]
    intro l _
    rw [e]
    rfl
  simp only [this]
  rfl

/-- An executable word passes every check before its own entry. -/
theorem prior_none {i : Instr} {s : State} (h : Executable i s) : prior i (activeOf i s) s = none := by
  unfold prior wordFault
  have h1 := h.level
  have h2 := h.guard
  have h3 := h.formed
  have h4 := h.pairs
  rw [if_neg (by omega), if_neg h2, h3, h4]
  simp only [Bool.not_true, Bool.false_eq_true, if_false]
  rw [if_neg (fun ⟨a, b, c⟩ => c (h.admitted a b))]
  unfold poisonFault
  rw [poisonedUse_none _ _ h.clean]
  rfl

/-- The live lanes hold one PC exactly when any two of them do. -/
theorem together_iff (s : State) : s.together = true ↔
    ∀ l k, l < 32 → k < 32 → s.frame.live.getLsbD l = true → s.frame.live.getLsbD k = true → s.pcOf l = s.pcOf k := by
  unfold State.together
  have key (l : Nat) : l ∈ lanesIn s.frame.live ↔ l < 32 ∧ s.frame.live.getLsbD l = true := mem_lanesIn _ _
  cases e : lanesIn s.frame.live with
  | nil =>
    rw [e] at key
    simp only [List.not_mem_nil, false_iff] at key
    simp only [true_iff]
    exact fun l k hl _ hl' _ => absurd ⟨hl, hl'⟩ (key l)
  | cons a as =>
    rw [e] at key
    have ha := (key a).mp (List.mem_cons_self ..)
    simp only [List.all_eq_true, beq_iff_eq]
    constructor
    · intro h l k hl hk hl' hk'
      have f (j : Nat) (hj : j < 32) (hj' : s.frame.live.getLsbD j = true) : s.pcOf j = s.pcOf a := by
        rcases List.mem_cons.mp ((key j).mpr ⟨hj, hj'⟩) with rfl | m
        · rfl
        · exact h j m
      rw [f l hl hl', f k hk hk']
    · intro h k hk
      have := (key k).mp (List.mem_cons_of_mem _ hk)
      exact h k a this.1 ha.1 this.2 ha.2

/-- A regrouping in which the whole stream moved on aborts nothing. -/
theorem settle_of_advanced {i : Instr} {s t : State} (h : Executable i s) (hl : t.frame.live = s.frame.live)
    (hx : t.frame.tx.active = s.frame.tx.active) (ha : Advanced s t) : settle t = t := by
  unfold settle
  by_cases hc : s.frame.tx.active = true
  · obtain ⟨h1, h2⟩ := h.converged hc
    have : t.together = true := by
      rw [together_iff] at h1 ⊢
      rw [hl]
      intro l k hl' hk' pl pk
      have on (j : Nat) (hj : s.frame.live.getLsbD j = true) : s.lanes.getLsbD j = true := by
        have e : (s.frame.live &&& ~~~s.lanes).getLsbD j = false := by rw [h2]; simp
        rw [BitVec.getLsbD_and, BitVec.getLsbD_not, hj] at e
        simpa [BitVec.lt_of_getLsbD hj] using e
      rw [ha l hl', ha k hk', if_pos (on l pl), if_pos (on k pk), h1 l k hl' hk' pl pk]
    simp [this]
  · simp only [Bool.not_eq_true] at hc
    simp [hx, hc]

/-- An executable instruction whose entry succeeds and moves the whole stream on answers that entry's state. -/
theorem insn_ok {i : Instr} {s t : State} {body : Word → Except Stop State} (h : Executable i s)
    (hb : body (activeOf i s) = .ok t) (hl : t.frame.live = s.frame.live)
    (hx : t.frame.tx.active = s.frame.tx.active) (ha : Advanced s t) : insn i s body = .next t := by
  unfold insn
  have hp := prior_none h
  unfold activeOf at hp hb
  simp only [hp, hb, settle_of_advanced h hl hx ha]

/-- An executable instruction whose entry stops it: the stop is taken. -/
theorem insn_error {i : Instr} {s : State} {e : Stop} {body : Word → Except Stop State} (h : Executable i s)
    (hb : body (activeOf i s) = .error e) : insn i s body = .next (stop (wordOf i) (activeOf i s) e s) := by
  unfold insn
  have hp := prior_none h
  unfold activeOf at hp hb ⊢
  simp only [hp, hb]

/-- A word that a check before its entry stops. -/
theorem insn_prior {i : Instr} {s : State} {e : Stop} {body : Word → Except Stop State}
    (h : prior i (activeOf i s) s = some e) : insn i s body = .next (stop (wordOf i) (activeOf i s) e s) := by
  unfold insn
  unfold activeOf at h ⊢
  simp only [h]

theorem advanced_of {s t : State} (hp : t.frame.pcs = s.frame.pcs) (hl : t.lanes = s.lanes) : Advanced s t.advance := by
  intro l hl'
  rw [pcOf_advance _ _ hl', hl]
  unfold State.pcOf
  rw [hp]

/-- An instruction that cannot fault past its word answers its effect with the stream moved on. -/
theorem plain_ok {i : Instr} {s : State} {f : Word → State} (h : Executable i s)
    (hl : (f (activeOf i s)).frame.live = s.frame.live) (hx : (f (activeOf i s)).frame.tx = s.frame.tx)
    (hp : (f (activeOf i s)).frame.pcs = s.frame.pcs) (hs : (f (activeOf i s)).lanes = s.lanes) :
    plain i s f = .next (f (activeOf i s)).advance :=
  insn_ok h rfl hl (congrArg Tx.active hx) (advanced_of hp hs)

theorem setsWord_plain {i : Instr} {d : Reg} {f : State → Nat → Word}
    (hx : ∀ s, exec i s = plain i s fun act => s.setV d.toNat act (f s)) : SetsWord i d f := by
  intro s h
  exact ⟨_, (hx s).trans (plain_ok h rfl rfl rfl rfl), rfl, advanced_of rfl rfl, wrote_setV ..⟩

theorem flags_orFlags (s : State) (m : Word) (g : Nat → Flags) (l : Nat) (h : l < 32) :
    (s.orFlags m g).frame.flags.getD l 0 =
      if m.getLsbD l then s.frame.flags.getD l 0 ||| g l else s.frame.flags.getD l 0 := by
  unfold State.orFlags
  rw [updFrame_frame, getD_lanesOf, if_pos h]

/-- An instruction that writes one predicate and raises no flag; v is the mask it writes. -/
theorem setsPred_plain {i : Instr} {p : Pred} {f : State → Nat → Bool} {v : State → Word → Word}
    (hp : wellFormed i = true → p ≠ 0) (hx : ∀ s, exec i s = plain i s fun act => s.setPred p.toNat act (v s act))
    (hv : ∀ s l, l < 32 → (activeOf i s).getLsbD l = true → (v s (activeOf i s)).getLsbD l = f s l) :
    SetsPred i p f fun _ _ => 0 := by
  intro s h
  refine ⟨_, (hx s).trans (plain_ok h rfl rfl rfl rfl), rfl, advanced_of rfl rfl,
    wrotePred_setPred _ _ (hp h.formed) _ _ _ (hv s), ⟨fun l _ => ?_, fun _ _ => rfl⟩⟩
  have e : ((s.setPred p.toNat (activeOf i s) (v s (activeOf i s))).advance).frame.flags = s.frame.flags := rfl
  rw [e]
  simp

/-- An instruction that writes one register and ORs flags into the lanes it writes. -/
theorem setsFloat_plain {i : Instr} {d : Reg} {f : State → Nat → Word × Flags} {v : State → Word → Nat → Word}
    {w : State → Word → Nat → Flags}
    (hx : ∀ s, exec i s = plain i s fun act => (s.setV d.toNat act (v s act)).orFlags act (w s act))
    (h1 : ∀ s l, v s (activeOf i s) l = (f s l).1) (h2 : ∀ s l, w s (activeOf i s) l = (f s l).2) :
    SetsFloat i d f := by
  intro s h
  have e1 : v s (activeOf i s) = fun l => (f s l).1 := funext (h1 s)
  have e2 : w s (activeOf i s) = fun l => (f s l).2 := funext (h2 s)
  refine ⟨_, (hx s).trans (plain_ok h rfl rfl rfl rfl), rfl, advanced_of rfl rfl, ?_, ⟨?_, fun _ _ => rfl⟩⟩
  · rw [e1]
    have w' := wrote_setV s d.toNat (activeOf i s) (fun l => (f s l).1)
    exact ⟨w'.lane, w'.poison, w'.others⟩
  · intro l hl
    rw [e2]
    have := flags_orFlags (s.setV d.toNat (activeOf i s) (v s (activeOf i s))) (activeOf i s) (fun l => (f s l).2) l hl
    exact this

theorem firstFail_ok (m : Word) (chk : Nat → Option Exc) (h : ∀ l, l < 32 → m.getLsbD l = true → chk l = none) :
    firstFail m chk = .ok () := by
  unfold firstFail
  have : (lanesIn m).findSome? chk = none := by
    rw [List.findSome?_eq_none_iff]
    intro l hl
    exact h l ((mem_lanesIn m l).mp hl).1 ((mem_lanesIn m l).mp hl).2
  rw [this]

/-- A lane-by-lane instruction with no flags. -/
theorem setsWord_alu {i : Instr} {d : Reg} {u : Alu} {f : State → Nat → Word}
    {g : DWord → DWord → DWord → DWord} (hx : ∀ s, exec i s = aluExec i u s) (hd : u.d = d.toNat)
    (hp : u.dPair = false) (hf : u.fn = .int g) (hb : u.bad = fun _ => none)
    (hv : ∀ s l, (u.lane s 0 l).1.setWidth 32 = f s l) : SetsWord i d f := by
  intro s h
  have e : u.step s (activeOf i s) s = s.setV d.toNat (activeOf i s) (f s) := by
    unfold Alu.step Alu.write
    simp only [hf, hp, Bool.false_eq_true, if_false, hd]
    congr 1
    exact funext (hv s)
  refine ⟨(s.setV d.toNat (activeOf i s) (f s)).advance, ?_, rfl, advanced_of rfl rfl, wrote_setV ..⟩
  rw [hx]
  refine insn_ok h ?_ rfl rfl (advanced_of rfl rfl)
  rw [firstFail_ok _ _ (fun l _ _ => by simp [Alu.fault, hb]), e]
  rfl

theorem setsPair_alu {i : Instr} {d : Reg} {u : Alu} {f : State → Nat → DWord}
    {g : DWord → DWord → DWord → DWord} (hx : ∀ s, exec i s = aluExec i u s) (hd : u.d = d.toNat)
    (hp : u.dPair = true) (hf : u.fn = .int g) (hb : u.bad = fun _ => none)
    (hv : ∀ s l, (u.lane s 0 l).1 = f s l) : SetsPair i d f := by
  intro s h
  have e : u.step s (activeOf i s) s = s.setPair d.toNat (activeOf i s) (f s) := by
    unfold Alu.step Alu.write
    simp only [hf, hp, if_true, hd]
    congr 1
    exact funext (hv s)
  refine ⟨(s.setPair d.toNat (activeOf i s) (f s)).advance, ?_, rfl, advanced_of rfl rfl, wrotePair_setPair ..⟩
  rw [hx]
  refine insn_ok h ?_ rfl rfl (advanced_of rfl rfl)
  rw [firstFail_ok _ _ (fun l _ _ => by simp [Alu.fault, hb]), e]
  rfl

theorem rs_stepRs (s : State) (m : Word) (l : Nat) (h : l < 32) :
    (s.stepRs m).frame.rs.getD l 0 = if m.getLsbD l then rsNext (s.frame.rs.getD l 0) else s.frame.rs.getD l 0 := by
  unfold State.stepRs
  rw [updFrame_frame, getD_lanesOf, if_pos h]

/-- A lane-by-lane instruction with flags that draws nothing. -/
theorem setsFloat_alu {i : Instr} {d : Reg} {u : Alu} {f : State → Nat → Word × Flags}
    {g : DWord → DWord → DWord → Nat → DWord × Flags} (hx : ∀ s, exec i s = aluExec i u s) (hd : u.d = d.toNat)
    (hp : u.dPair = false) (hf : u.fn = .flt g) (hb : u.bad = fun _ => none) (hr : u.draws = fun _ => false)
    (hv : ∀ s w l, ((u.lane s w l).1.setWidth 32, (u.lane s w l).2) = f s l) : SetsFloat i d f := by
  intro s h
  have v1 (w l : Nat) : (u.lane s w l).1.setWidth 32 = (f s l).1 := by rw [← hv s w l]
  have v2 (w l : Nat) : (u.lane s w l).2 = (f s l).2 := by rw [← hv s w l]
  have hz : (maskOf fun _ => false) = 0 := by decide
  have e : u.step s (activeOf i s) s =
      ((s.setV d.toNat (activeOf i s) (fun l => (f s l).1)).orFlags (activeOf i s) (fun l => (f s l).2)).stepRs 0 := by
    unfold Alu.step Alu.write
    simp only [hf, hp, Bool.false_eq_true, if_false, hd, v1, v2, hr, hz]
    simp
  refine ⟨(((s.setV d.toNat (activeOf i s) (fun l => (f s l).1)).orFlags (activeOf i s)
    (fun l => (f s l).2)).stepRs 0).advance, ?_, rfl, advanced_of rfl rfl, ?_, ⟨?_, ?_⟩⟩
  · rw [hx]
    refine insn_ok h ?_ rfl rfl (advanced_of rfl rfl)
    rw [firstFail_ok _ _ (fun l _ _ => by simp [Alu.fault, hb]), e]
    rfl
  · have w := wrote_setV s d.toNat (activeOf i s) (fun l => (f s l).1)
    exact ⟨w.lane, w.poison, w.others⟩
  · intro l hl
    have e1 : (s.setV d.toNat (activeOf i s) fun l => (f s l).1).frame.flags = s.frame.flags := rfl
    have := flags_orFlags (s.setV d.toNat (activeOf i s) fun l => (f s l).1) (activeOf i s) (fun l => (f s l).2) l hl
    rw [e1] at this
    exact this
  · intro l hl
    have := rs_stepRs ((s.setV d.toNat (activeOf i s) (fun l => (f s l).1)).orFlags (activeOf i s)
      (fun l => (f s l).2)) 0 l hl
    rw [if_neg (by simp)] at this
    exact this

theorem SetsWord.congr {i : Instr} {d : Reg} {f g : State → Nat → Word} (h : SetsWord i d f)
    (e : ∀ s l, f s l = g s l) : SetsWord i d g := by
  rwa [show g = f from funext fun s => funext fun l => (e s l).symm]

theorem SetsPair.congr {i : Instr} {d : Reg} {f g : State → Nat → DWord} (h : SetsPair i d f)
    (e : ∀ s l, f s l = g s l) : SetsPair i d g := by
  rwa [show g = f from funext fun s => funext fun l => (e s l).symm]

theorem SetsFloat.congr {i : Instr} {d : Reg} {f g : State → Nat → Word × Flags} (h : SetsFloat i d f)
    (e : ∀ s l, f s l = g s l) : SetsFloat i d g := by
  rwa [show g = f from funext fun s => funext fun l => (e s l).symm]

theorem setWidth_up_down (x : Word) : (x.setWidth 64).setWidth 32 = x := by
  ext k hk
  simp only [BitVec.getElem_setWidth, BitVec.getLsbD_setWidth, show k < 64 by omega, decide_true, Bool.true_and]
  rfl

theorem setsWord_alu3 {i : Instr} {d a b : Reg} {f : Word → Word → Word}
    (hx : ∀ s, exec i s = aluExec i (alu3 d a b f) s) : SetsWord i d fun s l => f (s.v a.toNat l) (s.v b.toNat l) :=
  setsWord_alu hx rfl rfl rfl rfl fun s l => by
    simp only [Alu.lane, alu3, operand, Bool.false_eq_true, if_false, setWidth_up_down]

theorem setsWord_alu4 {i : Instr} {d a b : Reg} {f : Word → Word → Word → Word}
    (hx : ∀ s, exec i s = aluExec i (alu4 d a b f) s) :
    SetsWord i d fun s l => f (s.v d.toNat l) (s.v a.toNat l) (s.v b.toNat l) :=
  setsWord_alu hx rfl rfl rfl rfl fun s l => by
    simp only [Alu.lane, alu4, operand, Bool.false_eq_true, if_false, setWidth_up_down]

theorem setsWord_alu2 {i : Instr} {d a : Reg} {f : Word → Word} (hx : ∀ s, exec i s = aluExec i (alu2 d a f) s) :
    SetsWord i d fun s l => f (s.v a.toNat l) :=
  setsWord_alu hx rfl rfl rfl rfl fun s l => by
    simp only [Alu.lane, alu2, operand, Bool.false_eq_true, if_false, setWidth_up_down]

theorem setsPair_aluWide {i : Instr} {d a b : Reg} {f : DWord → Word → Word → DWord}
    (hx : ∀ s, exec i s = aluExec i (aluWide d a b f) s) :
    SetsPair i d fun s l => f (s.pair d.toNat l) (s.v a.toNat l) (s.v b.toNat l) :=
  setsPair_alu hx rfl rfl rfl rfl fun s l => by
    simp only [Alu.lane, aluWide, operand, Bool.false_eq_true, if_false, if_true, setWidth_up_down]

theorem setsPair_alu64 {i : Instr} {d a b : Reg} {f : DWord → DWord → DWord}
    (hx : ∀ s, exec i s = aluExec i (alu64 d a b f) s) :
    SetsPair i d fun s l => f (s.pair a.toNat l) (s.pair b.toNat l) :=
  setsPair_alu hx rfl rfl rfl rfl fun s l => by
    simp only [Alu.lane, alu64, operand, if_true]

theorem setsFloat_fpuW {i : Instr} {d a b : Reg} {f : Word → Word → Word → Word × Flags}
    (hx : ∀ s, exec i s = aluExec i (fpuW d a b f) s) :
    SetsFloat i d fun s l => f (s.v d.toNat l) (s.v a.toNat l) (s.v b.toNat l) :=
  setsFloat_alu hx rfl rfl rfl rfl rfl fun s w l => by
    simp only [Alu.lane, fpuW, operand, Bool.false_eq_true, if_false, setWidth_up_down]

theorem setsFloat_fpu2 {i : Instr} {d a : Reg} {f : Word → Word × Flags}
    (hx : ∀ s, exec i s = aluExec i (fpu2 d a f) s) : SetsFloat i d fun s l => f (s.v a.toNat l) :=
  setsFloat_fpuW hx

theorem fpOut_word (r : Nat × Flags) : ((fpOut r).1.setWidth 32, (fpOut r).2) = (BitVec.ofNat 32 r.1, r.2) := by
  unfold fpOut
  congr 1
  apply BitVec.eq_of_toNat_eq
  simp only [BitVec.toNat_setWidth, BitVec.toNat_ofNat]
  omega

theorem setsFloat_fpu3 {i : Instr} {d a b : Reg} {f : Nat → Nat → Nat × Flags}
    (hx : ∀ s, exec i s = aluExec i (fpu3 d a b f) s) :
    SetsFloat i d fun s l =>
      let r := f (s.v a.toNat l).toNat (s.v b.toNat l).toNat
      (BitVec.ofNat 32 r.1, r.2) :=
  setsFloat_alu hx rfl rfl rfl rfl rfl fun s w l => by
    simp only [Alu.lane, fpu3, operand, Bool.false_eq_true, if_false, setWidth_up_down]
    exact fpOut_word _

theorem setsFloat_fpu4 {i : Instr} {d a b : Reg} {f : Nat → Nat → Nat → Nat × Flags}
    (hx : ∀ s, exec i s = aluExec i (fpu4 d a b f) s) :
    SetsFloat i d fun s l =>
      let r := f (s.v d.toNat l).toNat (s.v a.toNat l).toNat (s.v b.toNat l).toNat
      (BitVec.ofNat 32 r.1, r.2) :=
  setsFloat_alu hx rfl rfl rfl rfl rfl fun s w l => by
    simp only [Alu.lane, fpu4, operand, Bool.false_eq_true, if_false, setWidth_up_down]
    exact fpOut_word _

/-- The lowest lane for which a check fails decides (R364). -/
theorem firstFail_at (m : Word) (chk : Nat → Option Exc) (l : Nat) (e : Exc) (hl : l < 32) (hm : m.getLsbD l = true)
    (he : chk l = some e) (hk : ∀ k, k < l → m.getLsbD k = true → chk k = none) : firstFail m chk = failWith e := by
  have : (lanesIn m).findSome? chk = some e := by
    unfold lanesIn lanes32
    have gen : ∀ n, l < n → ((List.range n).filter fun l => m.getLsbD l).findSome? chk = some e := by
      intro n hn
      induction n with
      | zero => omega
      | succ n ih =>
        rw [List.range_succ, List.filter_append, List.findSome?_append]
        by_cases h : l < n
        · rw [ih h]
          rfl
        · have : l = n := by omega
          subst this
          have h0 : ((List.range l).filter fun l => m.getLsbD l).findSome? chk = none := by
            rw [List.findSome?_eq_none_iff]
            intro k hk'
            obtain ⟨h1, h2⟩ := List.mem_filter.mp hk'
            exact hk k (List.mem_range.mp h1) h2
          rw [h0]
          simp [hm, he]
    exact gen 32 hl
  unfold firstFail
  rw [this]

/-- A branch of the active lanes. -/
theorem branches_of {i : Instr} {s : State} {body : Word → Except Stop State} {pc : Nat → Word}
    (h : Executable i s) (hx : exec i s = insn i s body) (hb : body (activeOf i s) = .ok (s.branch (activeOf i s) pc)) : Branches i s pc := by
  refine ⟨s.branch (activeOf i s) pc, ?_, rfl, fun l hl => ?_⟩
  · rw [hx]
    unfold insn
    have hp := prior_none h
    unfold activeOf at hp hb
    simp only [hp, hb]
    unfold settle
    have : (s.branch (s.active (guardOf i)) pc).frame.tx = s.frame.tx := rfl
    rw [this]
    unfold activeOf
    rfl
  · unfold State.branch
    rw [pcOf_setPcs _ _ _ _ hl]
    have ha : (activeOf i s).getLsbD l = true → s.lanes.getLsbD l = true := by
      
      unfold activeOf State.active
      rw [BitVec.getLsbD_and]
      simp only [Bool.and_eq_true]
      exact fun h => h.1
    by_cases h1 : (activeOf i s).getLsbD l = true
    · simp only [ha h1, h1, if_true]
    · simp only [h1]
      rfl

end Sys2Proof.Machine
end

