-- ==== Sys2Proof/Laws/Access.lean ====
section
/-!
SUPPORT. What checking, loading and storing the accesses of an instruction do when the bytes are within reach (Direct),
each said once.
-/
namespace Sys2Proof.Machine

theorem resolve_spec {s : State} {acc : Acc} : ∀ {ls as : List LaneAcc}, resolve s acc ls = .ok as →
    as.map (·.lane) = ls.map (·.lane) ∧
      ∀ a ∈ as, piecesOf s acc a.lane a.seg a.off a.w = .ok a.pieces := by
  intro ls
  induction ls with
  | nil =>
    intro as h
    simp only [resolve, List.mapM_nil] at h
    cases h
    simp
  | cons x xs ih =>
    intro as h
    unfold resolve at h ih
    rw [List.mapM_cons] at h
    cases hp : piecesOf s acc x.lane x.seg x.off x.w with
    | error e =>
      rw [hp] at h
      cases h
    | ok ps =>
      have hx : ((piecesOf s acc x.lane x.seg x.off x.w).map fun ps => ({ x with pieces := ps } : LaneAcc)) =
          .ok { x with pieces := ps } := by rw [hp]; rfl
      rw [hx] at h
      cases hr : List.mapM (fun a : LaneAcc =>
          (piecesOf s acc a.lane a.seg a.off a.w).map fun ps => ({ a with pieces := ps } : LaneAcc)) xs with
      | error e =>
        rw [hr] at h
        cases h
      | ok ys =>
        rw [hr] at h
        have h : Except.ok (({ x with pieces := ps } : LaneAcc) :: ys) = (Except.ok as : Except Stop _) := h
        simp only [Except.ok.injEq] at h
        subst h
        obtain ⟨h1, h2⟩ := ih hr
        refine ⟨by simp [h1], fun a ha => ?_⟩
        rcases List.mem_cons.mp ha with rfl | ha
        · exact hp
        · exact h2 a ha

/-- What is admitted is what was asked. -/
theorem admitted_ok {as bs : List LaneAcc} {s : State} (h : admitted as s = .ok bs) : bs = as := by
  unfold admitted at h
  split at h
  · cases h
  · split at h
    · cases h
    · cases h
      rfl

/-- An access list that passed its checks has one access for each active lane, in order, with its pieces. -/
theorem checked_spec {r : PolicyRule} {acc : Acc} {act : Word} {w : Nat} {off pol : Nat → Word} {s : State}
    {as : List LaneAcc} (h : checked r acc act w off pol s = .ok as) :
    as.map (·.lane) = lanesIn act ∧ ∀ a ∈ as, piecesOf s acc a.lane a.seg a.off a.w = .ok a.pieces := by
  unfold checked at h
  simp only [bind, Except.bind] at h
  split at h
  · cases h
  split at h
  · cases h
  split at h
  · cases h
  split at h
  · cases h
  rename_i hr
  obtain rfl := admitted_ok h
  obtain ⟨h1, h2⟩ := resolve_spec hr
  refine ⟨?_, h2⟩
  rw [h1, List.map_map]
  exact List.map_id _

/-- The same for an instruction without a policy word. -/
theorem fixedAccess_spec {acc : Acc} {act : Word} {w al : Nat} {pol : Word} {off : Nat → Word} {s : State}
    {as : List LaneAcc} (h : fixedAccess acc act w al pol off s = .ok as) :
    as.map (·.lane) = lanesIn act ∧ ∀ a ∈ as, piecesOf s acc a.lane a.seg a.off a.w = .ok a.pieces := by
  unfold fixedAccess at h
  simp only [bind, Except.bind] at h
  split at h
  · cases h
  split at h
  · cases h
  split at h
  · cases h
  rename_i hr
  obtain rfl := admitted_ok h
  obtain ⟨h1, h2⟩ := resolve_spec hr
  refine ⟨?_, h2⟩
  rw [h1, List.map_map]
  exact List.map_id _

theorem SameResults.refl (w : Warp) : SameResults w w := ⟨rfl, rfl, rfl⟩

theorem SameResults.trans {u v w : Warp} (h : SameResults u v) (k : SameResults v w) : SameResults u w :=
  ⟨k.staging.trans h.staging, k.stuck.trans h.stuck, k.saved.trans h.saved⟩

/-- A state that home slices have brought about from s (Reached), the instruction's own hold and copies unchanged. -/
structure Took (s t : State) : Prop where
  only : t = s.withReached t
  warp : SameResults s.warp t.warp
  warps : t.warps.map Warp.unshared = s.warps.map Warp.unshared
  cores : t.cores.map Core.unshared = s.cores.map Core.unshared

theorem Took.refl (s : State) : Took s s := ⟨rfl, .refl _, rfl, rfl⟩

theorem Took.trans {s t u : State} (h : Took s t) (k : Took t u) : Took s u := by
  refine ⟨?_, h.warp.trans k.warp, k.warps.trans h.warps, k.cores.trans h.cores⟩
  have k1 := k.only
  rw [h.only] at k1
  exact k1

/-- A further change of what slices hold, with no warp and no core touched. -/
theorem Took.same {s t : State} (h : t = { s with hbm := t.hbm, marks := t.marks, hostLines := t.hostLines, llc := t.llc, out := t.out }) :
    Took s t := by
  refine ⟨?_, ?_, ?_, ?_⟩ <;> rw [h]
  exact .refl _

theorem Reached.refl (s : State) : Reached s s := ⟨rfl, .refl _, rfl, rfl, fun _ h => h⟩

theorem Took.reached {s t : State} (h : Took s t) : Reached s t := by
  refine ⟨?_, h.warp, h.warps, h.cores, ?_⟩
  · rw [h.only]
  · rw [h.only]
    exact fun _ h => h

theorem Reached.trans {s t u : State} (h : Reached s t) (k : Reached t u) : Reached s u := by
  refine ⟨?_, h.warp.trans k.warp, k.warps.trans h.warps, k.cores.trans h.cores, fun c hc => h.copies c (k.copies c hc)⟩
  have k1 := k.only
  rw [h.only] at k1
  exact k1

theorem unshared_forget (hit : List (Nat × Nat) → Bool → Bool) (c : Core) : (c.forget hit).unshared = c.unshared := rfl

theorem forget_results (hit : List (Nat × Nat) → Bool → Bool) (w : Warp) : SameResults w (w.forget hit) := by
  have one : ∀ e : WinEntry, ({ e.forget hit with key := none } : WinEntry) = { e with key := none } := by
    intro e
    unfold WinEntry.forget
    split <;> rfl
  have all : ∀ es : List WinEntry, (es.map (WinEntry.forget hit)).map (fun e => { e with key := none }) =
      es.map fun e => { e with key := none } := by
    intro es
    rw [List.map_map]
    exact List.map_congr_left fun e _ => one e
  refine ⟨?_, all _, ?_⟩
  · unfold Warp.forget
    dsimp only
    rw [List.map_map]
    refine List.map_congr_left fun e _ => ?_
    dsimp only [Function.comp]
    split <;> rfl
  · unfold Warp.forget
    dsimp only
    rw [Option.map_map]
    congr 1
    funext f
    unfold Frame.unshared
    dsimp only [Function.comp]
    rw [all]

theorem unshared_forget_warp (hit : List (Nat × Nat) → Bool → Bool) (w : Warp) : (w.forget hit).unshared = w.unshared := by
  have h := forget_results hit w
  have hf : (w.forget hit).frame.unshared = w.frame.unshared := by
    unfold Frame.unshared
    rw [h.stuck]
    rfl
  unfold Warp.unshared
  rw [h.staging, hf, h.saved]
  rfl

/-- A removal from the memo takes entries and keys, and nothing else. -/
theorem forgetAll_took (hit : List (Nat × Nat) → Bool → Bool) (s : State) : Took s (forgetAll hit s) := by
  refine ⟨rfl, forget_results hit s.warp, ?_, ?_⟩
  · unfold forgetAll State.mapWarps
    rw [List.map_map]
    exact List.map_congr_left fun w _ => unshared_forget_warp hit w
  · unfold forgetAll State.mapCores
    dsimp only [State.mapWarps]
    rw [List.map_map]
    exact List.map_congr_left fun c _ => unshared_forget hit c

theorem clearMark_took (line : Nat) (s : State) : Took s (clearMark line s) := by
  unfold clearMark
  split
  · exact .refl s
  · exact (forgetAll_took _ s).trans (.same rfl)

theorem evictLine_took (line : Nat) (s : State) : Took s (evictLine line s) := by
  unfold evictLine
  exact (clearMark_took line s).trans (.same rfl)

theorem evictLines_took : ∀ (lines : List Nat) (s : State), Took s (evictLines lines s) := by
  intro lines
  induction lines with
  | nil => exact fun s => .refl s
  | cons x xs ih => exact fun s => (evictLine_took x s).trans (ih _)

/-- An access that reaches a home slice changes what the slices hold, and what leaves them. -/
theorem reachLine_took (v : Via) (line : Nat) (s : State) : Took s (reachLine v line s) := by
  unfold reachLine
  split
  · exact .refl s
  · split
    · exact .refl s
    · exact Took.trans (.same rfl) (evictLines_took _ _)

theorem dropCopy_reached (line : Nat) (s : State) : Reached s (dropCopy line s) :=
  ⟨rfl, .refl _, rfl, rfl, fun _ h => (List.mem_filter.mp h).1⟩

theorem reachRead_reached (v : Via) (line : Nat) (s : State) : Reached s (reachRead v line s) :=
  (reachLine_took v line s).reached.trans (dropCopy_reached line _)

/-- A state that loads of accesses have brought about from s: caches, what the home slices hold, marks, held host lines
and the counter of free values may differ, and every cached copy still agrees with memory. -/
structure LoadedFrom (as : List LaneAcc) (s t : State) : Prop where
  only : t = { s.withReached t with
    core := { (s.withReached t).core with l1 := t.core.l1, ccache := t.core.ccache }
    free := t.free }
  warp : SameResults s.warp t.warp
  warps : t.warps.map Warp.unshared = s.warps.map Warp.unshared
  cores : t.cores.map Core.unshared = s.cores.map Core.unshared
  fresh : ∀ c ∈ t.core.l1, ∀ k, k < 128 → c.bytes.getD k 0 = Memory.get s.mem (c.line * 128 + k)
  constant : ∀ a ∈ as, ∀ p ∈ a.pieces, ∀ x, p.loc = .mem x → ∀ c ∈ t.core.ccache, c.line = constLine s.group.job p.va →
    ∀ k, k < 128 → c.bytes.getD k 0 = Memory.get s.mem (lineOf x * 128 + k)

/-- The conditions on one piece under which it is read directly. -/
structure Reach (acc : Acc) (p : Piece) (s : State) : Prop where
  inLine : ∀ x k, p.loc = .mem x → k < p.n → lineOf (x + k) = lineOf x
  cached : p.leaf.isSome = true →
    p.through = none ∧ ∃ e, tlbFind s.core s.job.uid p.va = some e ∧ tlbServes acc e.leaf = true
  keyed : ∀ lf x e, p.leaf = some lf → p.loc = .mem x → epochFor s lf p.va = some e →
    (amGet s.epochs (lineOf x)).getD 0 = e

theorem Direct.reach {acc : Acc} {as : List LaneAcc} {s : State} (h : Direct acc as s) {a : LaneAcc} (ha : a ∈ as)
    {p : Piece} (hp : p ∈ a.pieces) : Reach acc p s :=
  ⟨h.inLine a ha p hp, h.cached a ha p hp, h.keyed a ha p hp⟩

/-- With the translation in the core's TLB, using a piece changes no more than the held host lines. -/
theorem usePiece_reach {acc : Acc} {p : Piece} {s : State} (h : Reach acc p s) :
    usePiece acc p s = { s with hostLines := (usePiece acc p s).hostLines } := by
  have hold : holdHost p s = { s with hostLines := (holdHost p s).hostLines } := by
    unfold holdHost
    split
    · split <;> rfl
    · rfl
  have huse : usePiece acc p s = holdHost p s := by
    unfold usePiece
    cases hl : p.leaf with
    | none => rfl
    | some lf =>
      obtain ⟨h1, e, h2, h3⟩ := h.cached (by simp [hl])
      rw [h1]
      dsimp only
      unfold useTranslation
      have e1 : (holdHost p s).core = s.core := by rw [hold]
      have e2 : (holdHost p s).job = s.job := by rw [hold]; rfl
      have e3 : (some e).filter (fun t => tlbServes acc t.leaf) = some e := by simp [Option.filter, h3]
      rw [e1, e2, h2, e3]
  rw [huse]
  exact hold

theorem markReuse_only (pol : Word) (p : Piece) (s : State) :
    markReuse pol p s = { s with marks := (markReuse pol p s).marks } := by
  unfold markReuse
  split
  · split <;> rfl
  · rfl

theorem lineOf_bounds {x y : Nat} (h : lineOf y = lineOf x) : lineOf x * 128 ≤ y ∧ y < lineOf x * 128 + 128 := by
  unfold lineOf at *
  omega

theorem LoadedFrom.refl {acc : Acc} {as : List LaneAcc} {s : State} (h : Direct acc as s) : LoadedFrom as s s :=
  ⟨rfl, .refl _, rfl, rfl, h.fresh, h.constant⟩

/-- An access on the way reaches its home slice. -/
theorem LoadedFrom.took {as : List LaneAcc} {s t u : State} (h : LoadedFrom as s t) (e : Took t u) : LoadedFrom as s u := by
  have o1 := h.only
  have o2 := e.only
  refine ⟨?_, h.warp.trans e.warp, e.warps.trans h.warps, e.cores.trans h.cores, ?_, ?_⟩
  · rw [o1] at o2
    rw [o2]
  · rw [o2]
    exact h.fresh
  · rw [o2]
    exact h.constant

/-- Fewer copies of lines. -/
theorem LoadedFrom.drop {as : List LaneAcc} {s t : State} (h : LoadedFrom as s t) (line : Nat) :
    LoadedFrom as s (dropCopy line t) := by
  refine ⟨?_, h.warp, h.warps, h.cores, fun c hc => h.fresh c (List.mem_filter.mp hc).1, h.constant⟩
  have := h.only
  unfold dropCopy
  rw [this]

/-- A further change of marks and held host lines. -/
theorem LoadedFrom.touch {as : List LaneAcc} {s t u : State} (h : LoadedFrom as s t)
    (e : u = { t with marks := u.marks, hostLines := u.hostLines }) : LoadedFrom as s u :=
  h.took (.same (by rw [e]))

theorem homeByte_keyed {s : State} {lf : Leaf} {va x : Nat}
    (h : ∀ e, epochFor s lf va = some e → (amGet s.epochs (lineOf x)).getD 0 = e) :
    homeByte s lf va x = Memory.get s.mem x := by
  unfold homeByte Spot.get
  cases he : epochFor s lf va with
  | none => rfl
  | some e => simp [h e he]

theorem mem_sawLine {who : Nat × Nat} {cs : List LineCopy} {line : Nat} {c : LineCopy} (h : c ∈ sawLine who cs line) :
    ∃ d ∈ cs, c.line = d.line ∧ c.bytes = d.bytes := by
  unfold sawLine at h
  obtain ⟨d, hd, rfl⟩ := List.mem_map.mp h
  refine ⟨d, hd, ?_, ?_⟩ <;> split <;> rfl

theorem mem_refilled {P : LineCopy → Prop} {cs : List LineCopy} {x y : Bool} {c0 : LineCopy} {who : Nat × Nat}
    {line : Nat} {g : LineCopy → Bool} (base : ∀ c ∈ cs, P c) (hsaw : ∀ c ∈ sawLine who cs line, P c) (h0 : P c0) :
    ∀ c ∈ (if x = true then sawLine who cs line else if y = true then c0 :: cs.filter g else cs), P c := by
  intro c hc
  split at hc
  · exact hsaw c hc
  · split at hc
    · rcases List.mem_cons.mp hc with rfl | hc
      · exact h0
      · exact base c (List.mem_filter.mp hc).1
    · exact base c hc

theorem ownView_sent {s : State} (h : s.core.pend = []) (l : Nat) (base : Loc → Byte) : s.ownView l base = base := by
  unfold State.ownView
  rw [h]
  rfl

theorem LoadedFrom.caches {as : List LaneAcc} {s t : State} (h : LoadedFrom as s t) (l1 cc : List LineCopy) (n : Nat)
    (h1 : ∀ c ∈ l1, ∀ k, k < 128 → c.bytes.getD k 0 = Memory.get s.mem (c.line * 128 + k))
    (h2 : ∀ a ∈ as, ∀ p ∈ a.pieces, ∀ x, p.loc = .mem x → ∀ c ∈ cc, c.line = constLine s.group.job p.va →
      ∀ k, k < 128 → c.bytes.getD k 0 = Memory.get s.mem (lineOf x * 128 + k)) :
    LoadedFrom as s { t with core := { t.core with l1 := l1, ccache := cc }, free := n } := by
  refine ⟨?_, h.warp, h.warps, h.cores, h1, h2⟩
  rw [h.only]

/-- The copy of a line that holds the line's bytes. -/
theorem copyOf_bytes {cs : List LineCopy} {tag line : Nat} {m : List Host.Cell}
    (h : ∀ c ∈ cs, c.line = tag → ∀ k, k < 128 → c.bytes.getD k 0 = Memory.get m (line * 128 + k)) {c : LineCopy}
    (hc : copyOf cs tag = some c) {x : Nat} (hx : lineOf x = line) : c.bytes.getD (x - line * 128) 0 = Memory.get m x := by
  have h1 := List.find?_some hc
  simp only [beq_iff_eq] at h1
  subst hx
  have hb := lineOf_bounds (rfl : lineOf x = lineOf x)
  rw [h c (List.mem_of_find?_eq_some hc) h1 _ (by omega), show lineOf x * 128 + (x - lineOf x * 128) = x by omega]

/-- A piece within reach reads the bytes of its place. -/
theorem readPiece_reach {as : List LaneAcc} {x : LaneAcc} {p : Piece} {s t : State} (l : Nat) (pol : Word) (const : Bool)
    (hd : Direct accRead as s) (hx : x ∈ as) (hp : p ∈ x.pieces) (hs : LoadedFrom as s t) :
    (readPiece l pol const p t).1 = (List.range p.n).map (fun k => readLoc s (p.loc.plus k)) ∧
      LoadedFrom as s (readPiece l pol const p t).2 := by
  have only := hs.only
  have h := hd.reach hx hp
  have own : ∀ base, t.ownView l base = base := ownView_sent (by rw [only]; exact hd.sent) l
  cases hloc : p.loc with
  | scratch g a =>
    unfold readPiece
    rw [hloc]
    simp only [own]
    refine ⟨List.map_congr_left fun i _ => ?_, hs⟩
    rw [only]
    rfl
  | mem a =>
    cases hleaf : p.leaf with
    | none =>
      unfold readPiece
      rw [hloc, hleaf]
      refine ⟨?_, hs⟩
      rw [only]
      rfl
    | some lf =>
      have hk : ∀ y, lineOf y = lineOf a → homeByte t lf p.va y = Memory.get s.mem y := by
        intro y hy
        have hm : t.mem = s.mem := by rw [only]
        rw [← hm]
        refine homeByte_keyed fun e he => ?_
        have e1 : epochFor t lf p.va = epochFor s lf p.va := by rw [only]; rfl
        have e2 : t.epochs = s.epochs := by rw [only]
        rw [e2, hy]
        exact h.keyed lf a e hleaf hloc (e1 ▸ he)
      have hg : t.group = s.group := by rw [only]
      have line1 : ∀ c ∈ t.core.l1, c.line = lineOf a → ∀ k, k < 128 →
          c.bytes.getD k 0 = Memory.get s.mem (lineOf a * 128 + k) := fun c hc e => e ▸ hs.fresh c hc
      have line2 := hs.constant x hx p hp a hloc
      have fill : ∀ k, k < 128 → ((List.range 128).map fun i => homeByte t lf p.va (lineOf a * 128 + i)).getD k 0 =
          Memory.get s.mem (lineOf a * 128 + k) := by
        intro k hk'
        have : lineOf (lineOf a * 128 + k) = lineOf a := by unfold lineOf; omega
        simp [List.getD, hk', hk _ this]
      have bytes : ∀ (stale : Bool) (old : Option LineCopy), (∀ c, old = some c → ∀ y, lineOf y = lineOf a →
            c.bytes.getD (y - lineOf a * 128) 0 = Memory.get s.mem y) → (stale = true → old.isSome = true) → ∀ i, i < p.n →
          (if stale = true then ((old.map (·.bytes)).getD []).getD (a + i - lineOf a * 128) 0
            else homeByte t lf p.va (a + i)) = Memory.get s.mem (a + i) := by
        intro stale old ho hso i hi
        have hline := h.inLine a i hloc hi
        split
        · rename_i e
          obtain ⟨c, rfl⟩ := Option.isSome_iff_exists.mp (hso e)
          exact ho c rfl _ hline
        · exact hk _ hline
      have after : ∀ (b : Bool), LoadedFrom as s (if b = true then t else reachRead (t.lineVia pol true p.va) (lineOf a) t) := by
        intro b
        split
        · exact hs
        · exact (hs.took (reachLine_took _ _ _)).drop _
      have some' : ∀ (old : Option LineCopy) (f : LineCopy → Bool),
          (match old with | some c => f c | none => false) = true → old.isSome = true := by
        intro old f h
        cases old with
        | none => cases h
        | some c => rfl
      unfold readPiece
      rw [hloc, hleaf]
      simp only [own, hg, Loc.plus, readLoc]
      cases const
      · simp only [Bool.false_or, Bool.false_eq_true, if_false]
        refine ⟨List.map_congr_left fun i hi => ?_, ?_⟩
        · refine bytes _ _ (fun c hc y hy => ?_) (some' _ _) i (List.mem_range.mp hi)
          split at hc
          · exact copyOf_bytes line1 hc hy
          · cases hc
        · refine (after _).caches _ _ _ (fun c hc => ?_) (after _).constant
          refine mem_refilled (P := fun c => ∀ k, k < 128 → c.bytes.getD k 0 = Memory.get s.mem (c.line * 128 + k))
            (after _).fresh (fun c hc k hk' => ?_) fill c (List.mem_of_mem_take hc)
          obtain ⟨d, hd', e1, e2⟩ := mem_sawLine hc
          rw [e1, e2]
          exact (after _).fresh d hd' k hk'
      · simp only [Bool.true_or, if_true]
        refine ⟨List.map_congr_left fun i hi => ?_, ?_⟩
        · refine bytes _ _ (fun c hc y hy => ?_) (some' _ _) i (List.mem_range.mp hi)
          split at hc
          · exact copyOf_bytes line2 hc hy
          · cases hc
        · refine (after _).caches _ _ _ (after _).fresh fun b hb q hq y hy c hc => ?_
          refine mem_refilled (P := fun c => c.line = constLine s.group.job q.va →
            ∀ k, k < 128 → c.bytes.getD k 0 = Memory.get s.mem (lineOf y * 128 + k))
            ((after _).constant b hb q hq y hy) (fun c hc e k hk' => ?_) (fun e => ?_) c (List.mem_of_mem_take hc)
          · obtain ⟨d, hd', e1, e2⟩ := mem_sawLine hc
            rw [e2]
            exact (after _).constant b hb q hq y hy d hd' (e1 ▸ e) k hk'
          · have : lineOf a = lineOf y := hd.mapped x hx p hp b hb q hq a y hloc hy (by
              simp only [constLine] at e
              omega)
            rw [← this]
            exact fill

theorem Reach.of_loaded {acc : Acc} {as : List LaneAcc} {p : Piece} {s t : State} (h : Reach acc p s)
    (hs : LoadedFrom as s t) : Reach acc p t := by
  have only := hs.only
  have ec : t.core.tlb = s.core.tlb := by rw [only]
  have ej : t.job = s.job := by rw [only]; rfl
  have ee : ∀ lf va, epochFor t lf va = epochFor s lf va := by intro lf va; rw [only]; rfl
  refine ⟨h.inLine, fun hl => ?_, fun lf x e h1 h2 h3 => ?_⟩
  · obtain ⟨h1, e, h2, h3⟩ := h.cached hl
    refine ⟨h1, e, ?_, h3⟩
    rw [ej]
    unfold tlbFind at *
    rw [ec]
    exact h2
  · have : t.epochs = s.epochs := by rw [only]
    rw [this]
    exact h.keyed lf x e h1 h2 (ee lf p.va ▸ h3)

/-- A lane within reach loads the bytes of its access, and their poison. -/
theorem loadLane_reach {as : List LaneAcc} {a : LaneAcc} {s t : State} (hd : Direct accRead as s) (ha : a ∈ as)
    (hs : LoadedFrom as s t) (h2 : a.seg ≠ 2) :
    (loadLane a t).1.1 = a.bytes s ∧ (loadLane a t).1.2 = a.taints s ∧ LoadedFrom as s (loadLane a t).2 := by
  have gen : ∀ (ps : List Piece), (∀ p ∈ ps, p ∈ a.pieces) → ∀ (bs : List Byte) (bad : List Bool) (t : State),
      LoadedFrom as s t →
      let r := ps.foldl (fun r p =>
        let t := markReuse a.pol p (usePiece accRead p r.2)
        let q := readPiece a.lane a.pol (a.seg == 3) p t
        ((r.1.1 ++ q.1, r.1.2 ++ (List.range p.n).map (badByte t p)), q.2)) ((bs, bad), t)
      r.1.1 = bs ++ ps.flatMap (fun p => (List.range p.n).map fun k => readLoc s (p.loc.plus k)) ∧
        r.1.2 = bad ++ ps.flatMap (fun p => (List.range p.n).map (badByte s p)) ∧ LoadedFrom as s r.2 := by
    intro ps
    induction ps with
    | nil => intro _ bs bad t ht; simpa using ht
    | cons p ps ih =>
      intro hps bs bad t ht
      have hp := hps p (List.mem_cons_self ..)
      have hu : LoadedFrom as s (markReuse a.pol p (usePiece accRead p t)) := by
        refine ht.touch ?_
        rw [markReuse_only, usePiece_reach ((hd.reach ha hp).of_loaded ht)]
      have hb : badByte (markReuse a.pol p (usePiece accRead p t)) p = badByte s p := by
        funext i
        have e1 : (markReuse a.pol p (usePiece accRead p t)).badLines = s.badLines := by rw [hu.only]
        have e2 : (markReuse a.pol p (usePiece accRead p t)).badScratch = s.badScratch := by rw [hu.only]
        unfold badByte State.badLine
        rw [e1, e2]
      obtain ⟨h1, h3⟩ := readPiece_reach a.lane a.pol (a.seg == 3) hd ha hp hu
      have := ih (fun q hq => hps q (List.mem_cons_of_mem _ hq)) (bs ++ (List.range p.n).map fun k => readLoc s (p.loc.plus k))
        (bad ++ (List.range p.n).map (badByte s p)) _ h3
      simp only [List.foldl_cons, hb, h1]
      simpa [List.append_assoc] using this
  have hx : t.frame.tx.active = false := by rw [hs.only]; exact hd.noTx
  have g := gen a.pieces (fun _ h => h) [] [] t hs
  unfold loadLane LaneAcc.bytes LaneAcc.taints
  rw [if_neg h2, if_neg h2]
  simp only [hx, Bool.false_and, Bool.false_eq_true, if_false]
  simpa using g

/-- The lanes of a load within reach load the bytes of their accesses. -/
theorem loadLanes_direct {as : List LaneAcc} {s : State} (h : Direct accRead as s) :
    (loadLanes as s).1 = as.map (fun a => (a.lane, a.bytes s, a.taints s)) ∧ LoadedFrom as s (loadLanes as s).2 := by
  have gen : ∀ (xs : List LaneAcc), (∀ x ∈ xs, x ∈ as) → ∀ (rs : List (Nat × List Byte × List Bool)) (t : State),
      LoadedFrom as s t →
      let r := xs.foldl (fun r a =>
        if a.seg = 2 then
          (r.1 ++ [(a.lane, (List.range a.w).map (fun i => regByte s a.lane (a.off + i)),
            (List.range a.w).map fun i => (s.frame.reg ((a.off + i) / 4)).poison.getLsbD a.lane)], r.2)
        else
          let q := loadLane a r.2
          (r.1 ++ [(a.lane, q.1.1, q.1.2)], q.2)) (rs, t)
      r.1 = rs ++ xs.map (fun a => (a.lane, a.bytes s, a.taints s)) ∧ LoadedFrom as s r.2 := by
    intro xs
    induction xs with
    | nil => intro _ rs t ht; simpa using ht
    | cons x xs ih =>
      intro hx rs t ht
      simp only [List.foldl_cons]
      by_cases h2 : x.seg = 2
      · have := ih (fun y hy => hx y (List.mem_cons_of_mem _ hy)) (rs ++ [(x.lane, x.bytes s, x.taints s)]) t ht
        simp only [h2, if_true] at this ⊢
        simpa [LaneAcc.bytes, LaneAcc.taints, h2] using this
      · obtain ⟨e1, e2, e3⟩ := loadLane_reach h (hx x (List.mem_cons_self ..)) ht h2
        have := ih (fun y hy => hx y (List.mem_cons_of_mem _ hy)) (rs ++ [(x.lane, x.bytes s, x.taints s)]) _ e3
        simp only [h2, if_false, e1, e2]
        simpa using this
  simpa [loadLanes] using gen as (fun _ h => h) [] s (LoadedFrom.refl h)

theorem drainWhere_none {s : State} (f : PWrite → Bool) (h : s.core.pend = []) : drainWhere f s = s := by
  unfold drainWhere
  rw [h]
  simp only [List.filter_nil, List.foldl_nil]
  rw [← h]

/-- Nothing to send on: no core's writes are of the kind that drains. -/
theorem drainCores_none {s : State} {f : PWrite → Bool} (h : s.core.pend = []) (k : ∀ c ∈ s.cores, ∀ e ∈ c.pend, f e = false) :
    drainCores f s = s := by
  have : (s.cores.filter fun c => c.pend.any f) = [] := by
    rw [List.filter_eq_nil_iff]
    intro c hc
    rw [Bool.not_eq_true, List.any_eq_false]
    intro e he
    simp [k c hc e he]
  unfold drainCores
  rw [this, drainWhere_none f h]
  rfl

/-- A core of the state after is one of the state before, but for its memo. -/
theorem pend_unshared {cs ds : List Core} (h : ds.map Core.unshared = cs.map Core.unshared) {d : Core} (hd : d ∈ ds) :
    ∃ c ∈ cs, c.pend = d.pend := by
  have : d.unshared ∈ cs.map Core.unshared := h ▸ List.mem_map.mpr ⟨d, hd, rfl⟩
  obtain ⟨c, hc, e⟩ := List.mem_map.mp this
  have p : c.unshared.pend = d.unshared.pend := by rw [e]
  exact ⟨c, hc, p⟩

theorem observed_far {s : State} {e : PWrite} (h : e.observed s = false) : (e.buffered && decide (3 ≤ e.shown)) = false := by
  unfold PWrite.observed at h
  simp only [Bool.or_eq_false_iff] at h
  rw [h.2, Bool.and_false]

/-- The warp has nothing on its way. -/
theorem Direct.answered {acc : Acc} {as : List LaneAcc} {s : State} (h : Direct acc as s) : s.sent = [] := by
  unfold State.sent
  rw [List.flatMap_cons, h.sent, List.filter_nil, List.nil_append, List.flatMap_eq_nil_iff]
  intro c hc
  rw [List.filter_eq_nil_iff]
  intro e he
  have := h.quiet c hc e he
  unfold PWrite.observed at this
  simp only [Bool.or_eq_false_iff] at this
  simp [this.1.1]

theorem strongWaits_answered (as : List LaneAcc) {s : State} (h : s.sent = []) : strongWaits as s = false := by
  unfold strongWaits
  simp [h]

theorem LoadedFrom.acquire {acc : Acc} {as : List LaneAcc} {s t : State} (hd : Direct acc as s) (h : LoadedFrom as s t)
    (scope : Nat) : LoadedFrom as s (acquire scope t) := by
  unfold Machine.acquire
  split
  · rw [drainCores_none (by rw [h.only]; exact hd.sent)]
    · exact h.caches [] _ _ (fun c hc => by cases hc) h.constant
    · intro c hc e he
      obtain ⟨d, hd', hp⟩ := pend_unshared h.cores hc
      exact observed_far (hd.quiet d hd' e (hp ▸ he))
  · exact h

/-- Loads within reach are performed: nothing stops them, and the continuation takes the bytes in a state that differs
in caches, marks, held host lines, memo keys and the counter of free values alone. -/
theorem performLoads_direct {as : List LaneAcc} {s : State} (h : Direct accRead as s)
    (k : List (Nat × List Byte × List Bool) → State → State) :
    ∃ u, performLoads as s k = .ok (k (as.map fun a => (a.lane, a.bytes s, a.taints s)) u).settled ∧ LoadedFrom as s u := by
  obtain ⟨e1, e2⟩ := loadLanes_direct h
  have noFail : (as.findSome? fun a => a.pieces.findSome? (failureFault s)) = none := by
    rw [List.findSome?_eq_none_iff]
    intro a ha
    rw [List.findSome?_eq_none_iff]
    intro p hp
    unfold failureFault
    rw [h.home a ha p hp]
    simp
  have inOrder : strongWaits as s = false := strongWaits_answered as h.answered
  have far : ∀ a ∈ as, (a.pieces.filter fun p => p.remote s) = [] := by
    intro a ha
    rw [List.filter_eq_nil_iff]
    intro p hp
    rw [h.home a ha p hp]
    simp
  have noWait : silentHomes s (as.flatMap (·.pieces)) = [] := by
    have : (as.flatMap (·.pieces)).filter (fun p => p.remote s && !s.failedPeer (p.chip s) && s.silentPeer (p.chip s)) = [] := by
      rw [List.filter_eq_nil_iff]
      intro p hp
      obtain ⟨a, ha, hp⟩ := List.mem_flatMap.mp hp
      rw [h.home a ha p hp]
      simp
    unfold silentHomes
    rw [this]
    rfl
  have noDrain : (as.filter fun a => polOrder a.pol ≠ 0).foldl (fun t a =>
      (a.pieces.filter (·.remote s)).foldl (fun t p => drainLine p.loc.line t) t) s = s := by
    have : ∀ xs : List LaneAcc, (∀ x ∈ xs, x ∈ as) → ∀ t : State, xs.foldl (fun t a =>
      (a.pieces.filter (·.remote s)).foldl (fun t p => drainLine p.loc.line t) t) t = t := by
      intro xs
      induction xs with
      | nil => intros; rfl
      | cons x xs ih =>
        intro hx t
        rw [List.foldl_cons, far x (hx x (List.mem_cons_self ..))]
        exact ih (fun y hy => hx y (List.mem_cons_of_mem _ hy)) t
    exact this _ (fun x hx => (List.mem_filter.mp hx).1) s
  have acq : LoadedFrom as s (acquireOf as (loadLanes as s).2) := by
    unfold acquireOf
    split
    · exact e2.acquire h _
    · exact e2
  refine ⟨_, ?_, acq⟩
  unfold performLoads
  rw [h.noTx, noFail]
  simp only [noWait, inOrder, Bool.false_eq_true, if_false, ne_eq, not_true_eq_false, bind, Except.bind, pure,
    Except.pure]
  refine (congrArg (fun z => Except.ok (k (loadLanes as z).1 (acquireOf as (loadLanes as z).2)).settled) noDrain).trans ?_
  simp only [e1]

theorem amGet_lanes {β : Type} {as : List LaneAcc} (f : LaneAcc → β) (nd : (as.map (·.lane)).Nodup) {x : LaneAcc}
    (hx : x ∈ as) : amGet (as.map fun a => (a.lane, f a)) x.lane = some (f x) := by
  induction as with
  | nil => cases hx
  | cons a as ih =>
    simp only [List.map_cons, List.nodup_cons, amGet] at nd ⊢
    rcases List.mem_cons.mp hx with rfl | hx
    · simp
    · have : a.lane ≠ x.lane := fun e => nd.1 (e ▸ List.mem_map.mpr ⟨x, hx, rfl⟩)
      rw [if_neg this]
      exact ih nd.2 hx

theorem nodup_lanesIn (m : Word) : (lanesIn m).Nodup := List.Nodup.filter _ List.nodup_range

theorem v_setVP (s : State) (n k : Nat) (m bad : Word) (g : Nat → Word) (l : Nat) (h : l < 32) :
    (s.setVP n m bad g).v k l = if k = n ∧ m.getLsbD l = true then g l else s.v k l := by
  have e : (s.setVP n m bad g).v k l = (s.frame.setRegP (s.arch n) m bad g).word (s.arch k) l := rfl
  rw [e, Frame.word_setRegP _ _ _ _ _ _ _ h]
  simp only [arch_inj]
  rfl

theorem poison_setVP (s : State) (n k : Nat) (m bad : Word) (g : Nat → Word) (l : Nat) (h : l < 32) :
    ((s.setVP n m bad g).frame.reg (s.arch k)).poison.getLsbD l =
      if k = n ∧ m.getLsbD l = true then bad.getLsbD l else (s.frame.reg (s.arch k)).poison.getLsbD l := by
  have e : (s.setVP n m bad g).frame.reg (s.arch k) = (s.frame.setRegP (s.arch n) m bad g).reg (s.arch k) := rfl
  rw [e, Frame.reg_setRegP]
  by_cases hk : k = n
  · subst hk
    rw [if_pos rfl]
    simp only [BitVec.getLsbD_or, BitVec.getLsbD_and, BitVec.getLsbD_not, true_and]
    cases hm : m.getLsbD l <;> simp [h]
  · rw [if_neg (by simpa [State.arch] using hk), if_neg (by simp [hk])]

theorem reg_setVP_ne (s : State) {n k : Nat} (m bad : Word) (g : Nat → Word) (h : k ≠ s.arch n) :
    (s.setVP n m bad g).frame.reg k = s.frame.reg k := by
  have e : (s.setVP n m bad g).frame.reg k = (s.frame.setRegP (s.arch n) m bad g).reg k := rfl
  rw [e, Frame.reg_setRegP, if_neg h]

/-- The k registers from operand d take their words in the lanes of a mask, and only registers change. -/
theorem setLoaded_spec (d : Nat) (act : Word) (word : List Byte → Nat → Word) (rs : List (Nat × List Byte × List Bool))
    (s : State) : ∀ k, let t := setLoaded d k act word rs s
      (t = s.updFrame fun f => { f with regs := t.frame.regs }) ∧
      (∀ j l, l < 32 → t.v (d + j) l = if j < k ∧ act.getLsbD l = true then word (bytesFor rs l) j else s.v (d + j) l) ∧
      (∀ j l, l < 32 → (t.frame.reg (s.arch (d + j))).poison.getLsbD l =
        if j < k ∧ act.getLsbD l = true then (poisonOf rs j).getLsbD l
        else (s.frame.reg (s.arch (d + j))).poison.getLsbD l) ∧
      ∀ n, (∀ j, j < k → n ≠ s.arch (d + j)) → t.frame.reg n = s.frame.reg n := by
  intro k
  induction k with
  | zero => exact ⟨rfl, fun j l _ => by simp [setLoaded], fun j l _ => by simp [setLoaded], fun n _ => rfl⟩
  | succ k ih =>
    obtain ⟨h1, h2, h4, h3⟩ := ih
    have e : setLoaded d (k + 1) act word rs s =
        (setLoaded d k act word rs s).setVP (d + k) act (poisonOf rs k) fun l => word (bytesFor rs l) k := by
      unfold setLoaded
      rw [List.range_succ, List.foldl_append]
      rfl
    have ha : ∀ n, (setLoaded d k act word rs s).arch n = s.arch n := by
      intro n
      rw [h1]
      rfl
    simp only
    have pick : ∀ (j l : Nat) {α : Type} (x y : α),
        (if d + j = d + k ∧ act.getLsbD l = true then x else if j < k ∧ act.getLsbD l = true then x else y) =
          if j < k + 1 ∧ act.getLsbD l = true then x else y := by
      intro j l α x y
      by_cases hb : act.getLsbD l = true
      · simp only [hb, and_true]
        by_cases hj : j = k
        · simp [hj]
        · by_cases hk : j < k
          · simp [hk, show j < k + 1 by omega]
          · simp [hj, hk, show ¬j < k + 1 by omega]
      · simp [hb]
    refine ⟨?_, fun j l hl => ?_, fun j l hl => ?_, fun n hn => ?_⟩
    · rw [e]
      unfold State.setVP
      rw [h1]
      rfl
    · rw [e, v_setVP _ _ _ _ _ _ _ hl, h2 j l hl, ← pick]
      by_cases hj : j = k <;> simp [hj]
    · rw [← ha, e, poison_setVP _ _ _ _ _ _ _ hl, ha, h4 j l hl, ← pick]
      by_cases hj : j = k <;> simp [hj]
    · rw [e, reg_setVP_ne, h3 n fun j hj => hn j (by omega)]
      rw [ha]
      exact hn k (by omega)

/-- Accesses within reach load k registers from operand d on. -/
theorem loaded_of_direct {i : Instr} {s : State} {as : List LaneAcc} {d k : Nat} {word : List Byte → Nat → Word}
    {body : Word → Except Stop State} (hx : Executable i s) (hl : as.map (·.lane) = lanesIn (activeOf i s))
    (h : Direct accRead as s)
    (hb : body (activeOf i s) = performLoads as s fun rs t => (setLoaded d k (activeOf i s) word rs t).advance) :
    ∃ t, insn i s body = .next t ∧ Loaded i s t as d k word := by
  obtain ⟨u, hu, hs⟩ := performLoads_direct h (fun rs t => (setLoaded d k (activeOf i s) word rs t).advance)
  rw [hu] at hb
  obtain ⟨h1, h2, h4, h3⟩ := setLoaded_spec d (activeOf i s) word (as.map fun a => (a.lane, a.bytes s, a.taints s)) u k
  generalize setLoaded d k (activeOf i s) word (as.map fun a => (a.lane, a.bytes s, a.taints s)) u = v at h1 h2 h3 h4 hb
  have only := hs.only
  have hadv : Advanced s v.advance := by
    refine advanced_of ?_ ?_
    · rw [h1, only]; rfl
    · rw [h1, only]; rfl
  have hv : ∀ n l, v.advance.settled.v n l = v.v n l := fun _ _ => rfl
  have hreg : ∀ n, v.advance.settled.frame.reg n = v.frame.reg n := fun _ => rfl
  have huv : ∀ n l, u.v n l = s.v n l := by intro n l; rw [only]; rfl
  have hua : ∀ n, u.arch n = s.arch n := by intro n; rw [only]; rfl
  refine ⟨_, insn_ok hx hb ?_ ?_ hadv, hl, ?_, hadv, fun x hxm j hj => ?_, fun x hxm j hj => ?_, fun l j hl' ha hj => ?_, fun n hn => ?_⟩
  · rw [h1, only]; rfl
  · rw [h1, only]; rfl
  · refine ⟨?_, ?_, ?_, ?_⟩
    · rw [h1, only]; rfl
    · rw [h1]; exact ⟨hs.warp.staging, hs.warp.stuck, hs.warp.saved⟩
    · rw [h1]; exact hs.warps
    · rw [h1]; exact hs.cores
  · have hm : x.lane ∈ lanesIn (activeOf i s) := hl ▸ List.mem_map.mpr ⟨x, hxm, rfl⟩
    obtain ⟨m1, m2⟩ := (mem_lanesIn _ _).mp hm
    rw [hv, h2 j _ m1, if_pos ⟨hj, m2⟩]
    unfold bytesFor
    rw [amGet_lanes (fun a => (a.bytes s, a.taints s)) (hl ▸ nodup_lanesIn _) hxm]
    rfl
  · have hm : x.lane ∈ lanesIn (activeOf i s) := hl ▸ List.mem_map.mpr ⟨x, hxm, rfl⟩
    obtain ⟨m1, m2⟩ := (mem_lanesIn _ _).mp hm
    rw [hreg, ← hua, h4 j _ m1, if_pos ⟨hj, m2⟩]
    unfold poisonOf
    rw [getLsbD_maskOf, amGet_lanes (fun a => (a.bytes s, a.taints s)) (hl ▸ nodup_lanesIn _) hxm]
    simp only [m1, decide_true, Bool.true_and]
    rfl
  · rw [hv, h2 j l hl', if_neg (by simp [ha]), huv]
  · rw [hreg, h3 n fun j hj => by rw [hua]; exact hn j hj, only]
    rfl

/-- The loads of R222, by their meaning. -/
theorem loadsBytes_of {i : Instr} {d a b : Reg} {w k : Nat} {word : List Byte → Nat → Word}
    (hx : ∀ s, exec i s = ldExec i d a b w k word s) : LoadsBytes i d a b w k word := by
  intro s as he hc hd
  rw [hx]
  refine loaded_of_direct he (checked_spec hc).1 hd ?_
  simp only [hc, bind, Except.bind]

end Sys2Proof.Machine
end

