-- ==== Sys2Proof/Laws/Stores.lean ====
section
/-!
SUPPORT. What a write does at its home, and what storing the accesses of an instruction does when the bytes are within
reach (Direct), each said once.
-/
namespace Sys2Proof.Machine

theorem HomeOnly.refl (s : State) : HomeOnly s s := ⟨rfl, .refl _, rfl, rfl⟩

theorem HomeOnly.trans {s t u : State} (h : HomeOnly s t) (k : HomeOnly t u) : HomeOnly s u := by
  refine ⟨?_, h.warp.trans k.warp, k.warps.trans h.warps, k.cores.trans h.cores⟩
  have h1 := h.state
  have k1 := k.state
  rw [h1] at k1
  exact k1

theorem map_unmarked {ws vs : List Warp} (h : vs.map Warp.unshared = ws.map Warp.unshared) :
    vs.map Warp.unmarked = ws.map Warp.unmarked := by
  have e : Warp.unmarked = (fun w : Warp => { w with woken := false, frame := { w.frame with tx := { w.frame.tx with pending := false } } }) ∘
      Warp.unshared := rfl
  rw [e, ← List.map_map, h, List.map_map]

theorem Took.home {s t : State} (h : Took s t) : HomeOnly s t := by
  refine ⟨?_, h.warp, map_unmarked h.warps, h.cores⟩
  rw [h.only]

theorem Took.mem {s t : State} (h : Took s t) : t.mem = s.mem := by rw [h.only]

theorem HomeOnly.noTx {s t : State} (h : HomeOnly s t) (hx : s.frame.tx.active = false) : t.frame.tx.active = false := by
  rw [h.state]
  exact hx

theorem unmarked_touchWarp (ln : Line) (w : Warp) : (touchWarp ln w).unmarked = w.unmarked := by
  unfold touchWarp
  dsimp only
  split <;> split <;> rfl

/-- A write that wakes or aborts others leaves a warp outside a transaction as it is, but for its wake. -/
theorem touchWarp_noTx (ln : Line) {w : Warp} (h : w.frame.tx.active = false) :
    touchWarp ln w = { w with woken := (touchWarp ln w).woken } := by
  unfold touchWarp
  simp only [h, Bool.false_eq_true, false_and, if_false]
  split <;> rfl

theorem touchLine_only (ln : Line) {s : State} (hx : s.frame.tx.active = false) : HomeOnly s (touchLine ln s) := by
  have hw := touchWarp_noTx ln hx
  refine ⟨?_, ?_, ?_, rfl⟩
  · unfold touchLine State.mapWarps
    rw [hw]
  · have : (touchLine ln s).warp = touchWarp ln s.warp := rfl
    rw [this, hw]
    exact ⟨rfl, rfl, rfl⟩
  · unfold touchLine State.mapWarps
    simp only [List.map_map]
    exact List.map_congr_left fun w _ => unmarked_touchWarp ln w

theorem markDirty_took (line : Nat) (s : State) : Took s (markDirty line s) := by
  unfold markDirty
  split
  · exact .same rfl
  · exact .refl s

/-- What comes before a line's bytes change: its slice, its marks and its HBM image. -/
theorem prepareLine_took (v : Via) (line : Nat) (s : State) :
    Took s (markDirty line (clearMark line (reachLine v line s))) :=
  ((reachLine_took v line s).trans (clearMark_took line _)).trans (markDirty_took line _)

/-- Poison goes from a line that is written whole. -/
theorem heal_only (ln : Line) (n lo hi : Nat) (s : State) :
    heal ln n lo hi s = { s with
      badLines := (heal ln n lo hi s).badLines
      badScratch := (heal ln n lo hi s).badScratch
      healing := (heal ln n lo hi s).healing } := by
  have : ∃ a b c, heal ln n lo hi s = { s with badLines := a, badScratch := b, healing := c } := by
    unfold heal
    split
    · exact ⟨s.badLines, s.badScratch, s.healing, rfl⟩
    · dsimp only
      repeat' split
      all_goals exact ⟨_, _, _, rfl⟩
  obtain ⟨a, b, c, h⟩ := this
  rw [h]

theorem heal_home (ln : Line) (n lo hi : Nat) (s : State) : HomeOnly s (heal ln n lo hi s) := by
  have h := heal_only ln n lo hi s
  refine ⟨?_, ?_, ?_, ?_⟩ <;> rw [h]
  exact .refl _

theorem heal_mem (ln : Line) (n lo hi : Nat) (s : State) :
    (heal ln n lo hi s).mem = s.mem ∧ (heal ln n lo hi s).group = s.group ∧ (heal ln n lo hi s).epochs = s.epochs := by
  rw [heal_only]
  exact ⟨rfl, rfl, rfl⟩

/-- A line opened under the key it already holds: the memory's bytes and the scratchpads stay. -/
theorem openLine_only {v : Via} {epoch : Option Nat} {line : Nat} {s : State} (hx : s.frame.tx.active = false)
    (he : ∀ e, epoch = some e → (amGet s.epochs line).getD 0 = e) :
    HomeOnly s (openLine v epoch line s) ∧ (openLine v epoch line s).mem = s.mem ∧
      (openLine v epoch line s).group = s.group := by
  unfold openLine
  have r := prepareLine_took v line s
  generalize markDirty line (clearMark line (reachLine v line s)) = u at r
  have hr : ∀ e, epoch = some e → rekey line e u = u := by
    intro e h
    have : u.epochs = s.epochs := by rw [r.only]
    unfold rekey
    simp [this, he e h]
  have hu : u.group = s.group := by rw [r.only]
  cases epoch with
  | none => exact ⟨r.home.trans (touchLine_only _ (r.home.noTx hx)), r.mem, hu⟩
  | some e =>
    dsimp only
    rw [hr e rfl]
    exact ⟨r.home.trans (touchLine_only _ (r.home.noTx hx)), r.mem, hu⟩

theorem openLines_only {v : Via} {epoch : Option Nat} {lo hi : Nat} : ∀ (lines : List Nat) {s : State},
    s.frame.tx.active = false → (∀ l ∈ lines, ∀ e, epoch = some e → (amGet s.epochs l).getD 0 = e) →
    let t := lines.foldl (fun t l => heal (.mem l) l lo hi (openLine v epoch l t)) s
    HomeOnly s t ∧ t.mem = s.mem ∧ t.group = s.group := by
  intro lines
  induction lines with
  | nil => exact fun _ _ => ⟨.refl _, rfl, rfl⟩
  | cons l lines ih =>
    intro s hx he
    obtain ⟨h1, m1, g1⟩ := openLine_only (v := v) hx (he l (List.mem_cons_self ..))
    have k1 := heal_home (.mem l) l lo hi (openLine v epoch l s)
    obtain ⟨n1, n2, n3⟩ := heal_mem (.mem l) l lo hi (openLine v epoch l s)
    have e1 : (openLine v epoch l s).epochs = s.epochs := by rw [h1.state]
    obtain ⟨h2, m2, g2⟩ := ih ((h1.trans k1).noTx hx) fun k hk e hke => by
      rw [n3, e1]
      exact he k (List.mem_cons_of_mem _ hk) e hke
    exact ⟨(h1.trans k1).trans h2, (m2.trans n1).trans m1, (g2.trans n2).trans g1⟩

/-- A write at its home: its bytes, and nothing else of memory or scratchpads. -/
theorem writeHome_spec {v : Via} {epoch : Option Nat} {a : Nat} {bs : List Byte} {s : State}
    (hx : s.frame.tx.active = false)
    (he : ∀ l ∈ linesOf a bs.length, ∀ e, epoch = some e → (amGet s.epochs l).getD 0 = e) :
    HomeOnly s (writeHome v epoch a bs s) ∧
      (writeHome v epoch a bs s).mem = Memory.write s.mem a bs ∧ (writeHome v epoch a bs s).group = s.group := by
  obtain ⟨h, m, g⟩ := openLines_only (v := v) (lo := a) (hi := a + bs.length) (linesOf a bs.length) hx he
  unfold writeHome
  refine ⟨h.trans ⟨rfl, .refl _, rfl, rfl⟩, ?_, g⟩
  simp only [m]

theorem readLoc_mem_eq {s t : State} (h : HomeOnly s t) (hm : t.group.scratch = s.group.scratch) (g x : Nat) :
    readLoc t (.scratch g x) = readLoc s (.scratch g x) := by
  have e : t.group = s.group := by
    rw [h.state]
    simp only
    rw [hm]
  have e2 : t.groups = s.groups := by rw [h.state]
  unfold readLoc State.groupOf
  rw [e, e2]

/-- A write to the scratchpad of the issuing warp's group. -/
theorem scratchWrite_spec {a : Nat} {bs : List Byte} {s : State} (hx : s.frame.tx.active = false) :
    HomeOnly s (scratchWrite s.group.uid a bs s) ∧
      (scratchWrite s.group.uid a bs s).group.scratch = Memory.write s.group.scratch a bs ∧
      (scratchWrite s.group.uid a bs s).mem = s.mem := by
  have gen : ∀ (lines : List Nat) (t : State), t.frame.tx.active = false →
      let r := lines.foldl (fun t l => heal (.scratch s.group.uid l) l a (a + bs.length)
        (touchLine (.scratch s.group.uid l) (forgetScratch s.group.uid l t))) t
      HomeOnly t r ∧ r.group = t.group ∧ r.mem = t.mem := by
    intro lines
    induction lines with
    | nil => exact fun t _ => ⟨.refl t, rfl, rfl⟩
    | cons l lines ih =>
      intro t ht
      have h0 : HomeOnly t (forgetScratch s.group.uid l t) := (forgetAll_took _ t).home
      have h1 := h0.trans (touchLine_only (.scratch s.group.uid l) (h0.noTx ht))
      have h2 := h1.trans (heal_home (.scratch s.group.uid l) l a (a + bs.length) _)
      obtain ⟨n1, n2, _⟩ := heal_mem (.scratch s.group.uid l) l a (a + bs.length)
        (touchLine (.scratch s.group.uid l) (forgetScratch s.group.uid l t))
      obtain ⟨h3, g3, m3⟩ := ih _ (h2.noTx ht)
      exact ⟨h2.trans h3, g3.trans n2, m3.trans n1⟩
  obtain ⟨h, g, m⟩ := gen (linesOf a bs.length) s hx
  unfold scratchWrite
  generalize (linesOf a bs.length).foldl (fun t l => heal (.scratch s.group.uid l) l a (a + bs.length)
    (touchLine (.scratch s.group.uid l) (forgetScratch s.group.uid l t))) s = r at h g m
  have e : r.updGroup s.group.uid (fun x => { x with scratch := Memory.write x.scratch a bs }) =
      { r with group := { r.group with scratch := Memory.write r.group.scratch a bs } } := by
    unfold State.updGroup
    rw [if_pos (by rw [g])]
  simp only [e]
  exact ⟨h.trans ⟨rfl, .refl _, rfl, rfl⟩, by rw [g], m⟩

theorem Reach.of_home {acc : Acc} {p : Piece} {s t : State} (h : Reach acc p s) (hs : HomeOnly s t) : Reach acc p t := by
  have st := hs.state
  have ec : t.core.tlb = s.core.tlb := by rw [st]
  have ej : t.job = s.job := by rw [st]; rfl
  have ee : ∀ lf va, epochFor t lf va = epochFor s lf va := by intro lf va; rw [st]; rfl
  refine ⟨h.inLine, fun hl => ?_, fun lf x e h1 h2 h3 => ?_⟩
  · obtain ⟨h1, e, h2, h3⟩ := h.cached hl
    refine ⟨h1, e, ?_, h3⟩
    rw [ej]
    unfold tlbFind at *
    rw [ec]
    exact h2
  · have : t.epochs = s.epochs := by rw [st]
    rw [this]
    exact h.keyed lf x e h1 h2 (ee lf p.va ▸ h3)

theorem drainLine_none {s : State} (line : Line) (h : s.core.pend = []) : drainLine line s = s := drainWhere_none _ h

theorem drainLines_none (lines : List Line) {s : State} (h : s.core.pend = []) : drainLines lines s = s := by
  unfold drainLines
  induction lines with
  | nil => rfl
  | cons l ls ih => rw [List.foldl_cons, drainLine_none l h, ih]

theorem drainFull_none {s : State} (h : s.core.pend = []) : drainFull s = s := by
  have hb : bufferedLines s.core = [] := by
    unfold bufferedLines
    rw [h]
    rfl
  unfold drainFull
  simp [hb]

theorem readLoc_mem (s : State) (x : Nat) : readLoc s (.mem x) = Memory.get s.mem x := rfl

theorem linesOf_inLine {a n : Nat} (h : ∀ k, k < n → lineOf (a + k) = lineOf a) {l : Nat} (hl : l ∈ linesOf a n) :
    l = lineOf a := by
  unfold linesOf at hl
  split at hl
  · cases hl
  · rename_i hn
    have := h (n - 1) (by omega)
    rw [show a + (n - 1) = a + n - 1 by omega] at this
    rw [this] at hl
    simpa using hl

/-- Bytes written at a place of memory whose line holds the key, or of the issuing group's scratchpad: these bytes, and
nothing else of memory or scratchpad. -/
theorem writeLoc_spec {v : Via} {epoch : Option Nat} {x : Loc} {bs : List Byte} {s : State} (hx : s.frame.tx.active = false)
    (own : ∀ g a, x = .scratch g a → g = s.group.uid)
    (he : ∀ a, x = .mem a → ∀ l ∈ linesOf a bs.length, ∀ e, epoch = some e → (amGet s.epochs l).getD 0 = e) :
    HomeOnly s (writeLoc v epoch x bs s) ∧
      (∀ k, k < bs.length → readLoc (writeLoc v epoch x bs s) (x.plus k) = bs.getD k 0) ∧
      ∀ y, (∀ k, k < bs.length → y ≠ x.plus k) → readLoc (writeLoc v epoch x bs s) y = readLoc s y := by
  cases x with
  | scratch g a =>
    obtain rfl := own g a rfl
    obtain ⟨h1, g1, m1⟩ := scratchWrite_spec (a := a) (bs := bs) hx
    have hgrp : (scratchWrite s.group.uid a bs s).group.uid = s.group.uid := by rw [h1.state]
    have hgs : (scratchWrite s.group.uid a bs s).groups = s.groups := by rw [h1.state]
    unfold writeLoc
    dsimp only
    refine ⟨h1, fun k hk => ?_, fun y hy => ?_⟩
    · simp only [Loc.plus, readLoc, State.groupOf, hgrp, if_true, g1]
      rw [Memory.get_write, if_pos (by omega), show a + k - a = k by omega]
    · cases y with
      | mem y => simp only [readLoc, m1]
      | scratch g y =>
        simp only [readLoc, State.groupOf, hgrp, hgs]
        split
        · rename_i hgu
          rw [g1, Memory.get_write, if_neg]
          intro hb
          exact hy (y - a) (by omega) (by simp only [Loc.plus, ← hgu, show a + (y - a) = y by omega])
        · rfl
  | mem a =>
    obtain ⟨h1, m1, g1⟩ := writeHome_spec (v := v) hx (he a rfl)
    unfold writeLoc
    dsimp only
    refine ⟨h1, fun k hk => ?_, fun y hy => ?_⟩
    · simp only [Loc.plus]
      rw [readLoc_mem, m1, Memory.get_write, if_pos (by omega), show a + k - a = k by omega]
    · cases y with
      | mem y =>
        rw [readLoc_mem, m1, Memory.get_write, if_neg, ← readLoc_mem]
        intro hb
        exact hy (y - a) (by omega) (by rw [Loc.plus, show a + (y - a) = y by omega])
      | scratch g y => exact readLoc_mem_eq h1 (by rw [g1]) g y

theorem usePiece_home {acc : Acc} {p : Piece} {s : State} (h : Reach acc p s) : HomeOnly s (usePiece acc p s) := by
  rw [usePiece_reach h]
  exact ⟨rfl, .refl _, rfl, rfl⟩

theorem readLoc_core (s : State) (c : Core) (x : Loc) : readLoc { s with core := c } x = readLoc s x := by
  cases x <;> rfl

theorem sawPlace_home (who : Nat × Nat) (l : Loc) (s : State) :
    HomeOnly s (sawPlace who l s) ∧ ∀ x, readLoc (sawPlace who l s) x = readLoc s x := by
  cases l with
  | mem a => exact ⟨⟨rfl, .refl _, rfl, rfl⟩, fun x => readLoc_core s _ x⟩
  | scratch g a => exact ⟨.refl s, fun _ => rfl⟩

theorem patchPlace_home (l : Loc) (bs : List Byte) (s : State) :
    HomeOnly s (patchPlace l bs s) ∧ ∀ x, readLoc (patchPlace l bs s) x = readLoc s x := by
  cases l with
  | mem a => exact ⟨⟨rfl, .refl _, rfl, rfl⟩, fun x => readLoc_core s _ x⟩
  | scratch g a => exact ⟨.refl s, fun _ => rfl⟩

/-- One piece of a store within reach: its bytes, and nothing else of memory or scratchpad. -/
theorem storePiece_reach {p : Piece} {s t : State} (l : Nat) (pol : Word) (seg : Nat) {bs : List Byte}
    (h : Reach accWrite p s) (hs : HomeOnly s t) (noTx : s.frame.tx.active = false) (sent : s.core.pend = [])
    (prompt : s.delay = false) (home : p.remote s = false) (own : ∀ g a, p.loc = .scratch g a → g = s.group.uid)
    (hn : bs.length ≤ p.n) :
    HomeOnly s (storePiece l pol seg p bs t) ∧
      (∀ k, k < bs.length → readLoc (storePiece l pol seg p bs t) (p.loc.plus k) = bs.getD k 0) ∧
      ∀ x, (∀ k, k < bs.length → x ≠ p.loc.plus k) → readLoc (storePiece l pol seg p bs t) x = readLoc t x := by
  have hr := h.of_home hs
  have r0 : ∀ x, readLoc (usePiece accWrite p t) x = readLoc t x := fun x => by rw [usePiece_reach hr]; rfl
  have h0 := hs.trans (usePiece_home hr)
  have e0 : p.epoch (usePiece accWrite p t) = p.epoch s := by
    unfold Piece.epoch
    cases p.leaf with
    | none => rfl
    | some lf => rw [h0.state]; rfl
  have e1 : ∃ e : PWrite, e.loc = p.loc ∧ e.bytes = bs ∧ e.op = none ∧ e.epoch = p.epoch s ∧
      storePiece l pol seg p bs t = e.perform (sawPlace ((usePiece accWrite p t).warp.uid, l) p.loc (usePiece accWrite p t)) := by
    refine ⟨{ (usePiece accWrite p t).newWrite l p pol with bytes := bs }, rfl, rfl, rfl, e0, ?_⟩
    have h1 := h0.trans (sawPlace_home ((usePiece accWrite p t).warp.uid, l) p.loc (usePiece accWrite p t)).1
    have hrem : p.remote (sawPlace ((usePiece accWrite p t).warp.uid, l) p.loc (usePiece accWrite p t)) = false := by
      rw [← home]
      unfold Piece.remote Piece.chip
      rw [h1.state]
    have hdel : (sawPlace ((usePiece accWrite p t).warp.uid, l) p.loc (usePiece accWrite p t)).delay = false := by
      rw [h1.state]; exact prompt
    have hpend : (sawPlace ((usePiece accWrite p t).warp.uid, l) p.loc (usePiece accWrite p t)).core.pend = [] := by
      rw [h1.state]; exact sent
    unfold storePiece
    simp only [h0.noTx noTx, Bool.false_and, Bool.false_eq_true, if_false, hrem, hdel, drainLine_none _ hpend]
  obtain ⟨e, e1, e2, e3, e4, e5⟩ := e1
  rw [e5]
  generalize usePiece accWrite p t = u at h0 r0
  obtain ⟨h1, r1⟩ := sawPlace_home (u.warp.uid, l) p.loc u
  have h1 := h0.trans h1
  generalize sawPlace (u.warp.uid, l) p.loc u = w at h1 r1
  unfold PWrite.perform PWrite.result
  rw [e1, e2, e3, e4]
  dsimp only
  obtain ⟨h2, v2, o2⟩ := writeLoc_spec (v := e.via) (epoch := p.epoch s) (x := p.loc) (bs := bs)
    (h1.noTx noTx) (fun g a e => by rw [h1.state]; exact own g a e) (fun a ha k hk e he => by
      rw [linesOf_inLine (fun j hj => h.inLine a j ha (by omega)) hk]
      have : w.epochs = s.epochs := by rw [h1.state]
      rw [this]
      cases hl : p.leaf with
      | none => rw [Piece.epoch, hl] at he; cases he
      | some lf =>
        rw [Piece.epoch, hl] at he
        exact h.keyed lf a e hl ha he)
  obtain ⟨h3, r3⟩ := patchPlace_home p.loc bs (writeLoc e.via (p.epoch s) p.loc bs w)
  refine ⟨(h1.trans h2).trans h3, fun k hk => ?_, fun x hx => ?_⟩
  · rw [r3, v2 k hk]
  · rw [r3, o2 x hx, r1, r0]

/-- The conditions on a piece under which it is stored to directly. -/
structure Near (p : Piece) (s : State) : Prop where
  reach : Reach accWrite p s
  home : p.remote s = false
  own : ∀ g a, p.loc = .scratch g a → g = s.group.uid

/-- Pieces within reach take a lane's bytes one after another. -/
theorem storePieces_reach {s : State} (l : Nat) (pol : Word) (seg : Nat) (noTx : s.frame.tx.active = false)
    (sent : s.core.pend = []) (prompt : s.delay = false) : ∀ (ps : List Piece), (∀ p ∈ ps, Near p s) →
    ∀ (t : State) (bs : List Byte), HomeOnly s t → (ps.map (·.n)).sum ≤ bs.length →
      let r := (ps.foldl (fun (r : State × List Byte) p =>
        (storePiece l pol seg p (r.2.take p.n) r.1, r.2.drop p.n)) (t, bs)).1
      HomeOnly s r ∧
        (∀ qs p rs k, ps = qs ++ p :: rs → k < p.n → (∀ q ∈ rs, ∀ j, j < q.n → q.loc.plus j ≠ p.loc.plus k) →
          readLoc r (p.loc.plus k) = bs.getD ((qs.map (·.n)).sum + k) 0) ∧
        ∀ x, (∀ p ∈ ps, ∀ k, k < p.n → x ≠ p.loc.plus k) → readLoc r x = readLoc t x := by
  intro ps
  induction ps with
  | nil => exact fun _ t bs ht _ => ⟨ht, fun qs p rs k h => by simp at h, fun _ _ => rfl⟩
  | cons p ps ih =>
    intro hp t bs ht hlen
    have hn := hp p (List.mem_cons_self ..)
    simp only [List.map_cons, List.sum_cons] at hlen
    have htake : (bs.take p.n).length = p.n := by rw [List.length_take]; omega
    obtain ⟨h1, v1, o1⟩ := storePiece_reach l pol seg hn.reach ht noTx sent prompt hn.home hn.own
      (bs := bs.take p.n) (by omega)
    rw [htake] at v1 o1
    obtain ⟨h2, v2, o2⟩ := ih (fun q hq => hp q (List.mem_cons_of_mem _ hq)) _ (bs.drop p.n) h1
      (by rw [List.length_drop]; omega)
    simp only [List.foldl_cons]
    refine ⟨h2, fun qs q rs k he hk hno => ?_, fun x hx => ?_⟩
    · cases qs with
      | nil =>
        simp only [List.nil_append, List.cons.injEq] at he
        obtain ⟨rfl, rfl⟩ := he
        rw [o2 _ fun r hr j hj => (hno r hr j hj).symm, v1 k hk]
        simp [List.getD, hk]
      | cons q0 qs =>
        simp only [List.cons_append, List.cons.injEq] at he
        obtain ⟨rfl, he⟩ := he
        rw [v2 qs q rs k he hk hno]
        simp [List.getD, List.getElem?_drop, Nat.add_assoc]
    · rw [o2 x fun q hq => hx q (List.mem_cons_of_mem _ hq), o1 x (hx p (List.mem_cons_self ..))]

/-- The pieces of an access split at line boundaries hold all its bytes. -/
theorem sum_splitLines (a n : Nat) : ((splitLines a n).map (·.2)).sum = n := by
  unfold splitLines linesOf
  by_cases h : n = 0
  · simp [h]
  · rw [if_neg h]
    simp only [List.map_map]
    have gen : ∀ m, m ≤ lineOf (a + n - 1) - lineOf a + 1 → m ≠ 0 →
        ((List.range m).map ((fun x : Nat × Nat => x.2) ∘ (fun l => (max a (l * 128), min (a + n) (l * 128 + 128) - max a (l * 128))) ∘
          fun i => lineOf a + i)).sum = min (a + n) ((lineOf a + m) * 128) - a := by
      intro m
      induction m with
      | zero => intro _ h; exact absurd rfl h
      | succ m ih =>
        intro hm _
        rw [List.range_succ, List.map_append, List.sum_append]
        by_cases h0 : m = 0
        · subst h0
          simp only [List.range_zero, List.map_nil, List.sum_nil, List.map_cons, Function.comp, List.sum_cons]
          unfold lineOf at *
          omega
        · rw [ih (by omega) h0]
          simp only [List.map_cons, List.map_nil, Function.comp, List.sum_cons, List.sum_nil]
          unfold lineOf at *
          omega
    have := gen _ (Nat.le_refl _) (by omega)
    simp only [Function.comp_def] at this ⊢
    rw [this]
    unfold lineOf
    omega

theorem mapM_ok {α β : Type} {f : α → Except Stop β} : ∀ {xs : List α} {ys : List β}, xs.mapM f = .ok ys →
    List.Forall₂ (fun x y => f x = .ok y) xs ys := by
  intro xs
  induction xs with
  | nil =>
    intro ys h
    rw [List.mapM_nil] at h
    cases h
    exact .nil
  | cons x xs ih =>
    intro ys h
    rw [List.mapM_cons] at h
    cases hx : f x with
    | error e => rw [hx] at h; cases h
    | ok y =>
      rw [hx] at h
      cases hs : xs.mapM f with
      | error e => rw [hs] at h; cases h
      | ok zs =>
        rw [hs] at h
        have h : Except.ok (y :: zs) = (Except.ok ys : Except Stop _) := h
        simp only [Except.ok.injEq] at h
        subst h
        exact .cons hx (ih hs)

/-- What the pieces of an access are: together its width, those in the scratchpad in that of the warp's own group. -/
theorem piecesOf_spec {s : State} {acc : Acc} {l seg o w : Nat} {ps : List Piece} (h : piecesOf s acc l seg o w = .ok ps) :
    (seg ≠ 2 → (ps.map (·.n)).sum = w) ∧ ∀ p ∈ ps, ∀ g a, p.loc = .scratch g a → g = s.group.uid := by
  unfold piecesOf at h
  split at h
  · cases h
    refine ⟨fun _ => ?_, fun p hp g a hg => ?_⟩
    · rw [List.map_map]
      exact sum_splitLines o w
    · obtain ⟨q, _, rfl⟩ := List.mem_map.mp hp
      simp only [Loc.scratch.injEq] at hg
      exact hg.1.symm
  · split at h
    · cases h
      rename_i h2
      exact ⟨fun h => absurd h2 h, fun p hp => by cases hp⟩
    · have hf := mapM_ok h
      have each : ∀ (x : Nat × Nat) (y : Piece), pieceAt s acc x.1 x.2 = .ok y → y.n = x.2 ∧ ∃ a, y.loc = .mem a := by
        intro x y hxy
        unfold pieceAt at hxy
        split at hxy
        · cases hxy
        · cases hxy
          exact ⟨rfl, _, rfl⟩
      constructor
      · intro _
        rw [← sum_splitLines (segVa s l seg o) w]
        congr 1
        clear h
        generalize splitLines (segVa s l seg o) w = xs at hf
        induction hf with
        | nil => rfl
        | cons h1 _ ih => rw [List.map_cons, List.map_cons, ih, (each _ _ h1).1]
      · intro p hp g a hg
        clear h
        generalize splitLines (segVa s l seg o) w = xs at hf
        induction hf with
        | nil => cases hp
        | cons h1 _ ih =>
          rcases List.mem_cons.mp hp with rfl | hp
          · obtain ⟨_, b, hb⟩ := each _ _ h1
            rw [hb] at hg
            cases hg
          · exact ih hp

theorem Direct.near {as : List LaneAcc} {s : State} (h : Direct accWrite as s) {a : LaneAcc} (ha : a ∈ as)
    (hp : piecesOf s accWrite a.lane a.seg a.off a.w = .ok a.pieces) {p : Piece} (hm : p ∈ a.pieces) : Near p s :=
  ⟨h.reach ha hm, h.home a ha p hm, (piecesOf_spec hp).2 p hm⟩

/-- The lanes of a store within reach, one after another. -/
theorem storeLanes_direct {as : List LaneAcc} {s : State} {data : Nat → List Byte} (h : Direct accWrite as s)
    (h2 : ∀ x ∈ as, x.seg ≠ 2) (hp : ∀ a ∈ as, piecesOf s accWrite a.lane a.seg a.off a.w = .ok a.pieces)
    (hw : ∀ a ∈ as, (data a.lane).length = a.w) :
    let t := as.foldl (fun t a => storeLane a (data a.lane) t) s
    HomeOnly s t ∧
      (∀ pre x post, as = pre ++ x :: post → ∀ qs p rs k, x.pieces = qs ++ p :: rs → k < p.n →
        (∀ y ∈ post, ¬ y.covers (p.loc.plus k)) → (∀ q ∈ rs, ∀ j, j < q.n → q.loc.plus j ≠ p.loc.plus k) →
          readLoc t (p.loc.plus k) = (data x.lane).getD ((qs.map (·.n)).sum + k) 0) ∧
      ∀ x, (∀ a ∈ as, ¬ a.covers x) → readLoc t x = readLoc s x := by
  have gen : ∀ (xs : List LaneAcc), (∀ x ∈ xs, x ∈ as) → ∀ t, HomeOnly s t →
      let r := xs.foldl (fun t a => storeLane a (data a.lane) t) t
      HomeOnly s r ∧
        (∀ pre x post, xs = pre ++ x :: post → ∀ qs p rs k, x.pieces = qs ++ p :: rs → k < p.n →
          (∀ y ∈ post, ¬ y.covers (p.loc.plus k)) → (∀ q ∈ rs, ∀ j, j < q.n → q.loc.plus j ≠ p.loc.plus k) →
            readLoc r (p.loc.plus k) = (data x.lane).getD ((qs.map (·.n)).sum + k) 0) ∧
        ∀ x, (∀ a ∈ xs, ¬ a.covers x) → readLoc r x = readLoc t x := by
    intro xs
    induction xs with
    | nil => exact fun _ t ht => ⟨ht, fun pre x post he => by simp at he, fun _ _ => rfl⟩
    | cons a xs ih =>
      intro hx t ht
      have ha := hx a (List.mem_cons_self ..)
      have hlen : (a.pieces.map (·.n)).sum ≤ (data a.lane).length := by
        rw [(piecesOf_spec (hp a ha)).1 (h2 a ha), hw a ha]
      obtain ⟨h1, v1, o1⟩ := storePieces_reach a.lane a.pol a.seg h.noTx h.sent h.prompt a.pieces
        (fun p hm => h.near ha (hp a ha) hm) t (data a.lane) ht hlen
      obtain ⟨h3, v3, o3⟩ := ih (fun y hy => hx y (List.mem_cons_of_mem _ hy)) _ h1
      simp only [List.foldl_cons]
      refine ⟨h3, fun pre x post he qs p rs k hxp hk hno hrs => ?_, fun x hno => ?_⟩
      · cases pre with
        | nil =>
          simp only [List.nil_append, List.cons.injEq] at he
          obtain ⟨rfl, rfl⟩ := he
          refine (o3 _ hno).trans ?_
          exact v1 qs p rs k hxp hk hrs
        | cons b pre =>
          simp only [List.cons_append, List.cons.injEq] at he
          exact v3 pre x post he.2 qs p rs k hxp hk hno hrs
      · refine (o3 x fun b hb => hno b (List.mem_cons_of_mem _ hb)).trans ?_
        exact o1 x fun p hm k hk e => hno a (List.mem_cons_self ..) ⟨p, hm, k, hk, e⟩
  exact gen as (fun _ h => h) s (.refl s)

theorem migrate_none {ps : List Piece} {s : State} (h : ∀ p ∈ ps, ∀ lf, p.leaf = some lf → lf.migrating = false) :
    migrate ps s = none := by
  unfold migrate
  have : (ps.find? fun p => (p.leaf.map (·.migrating)).getD false) = none := by
    rw [List.find?_eq_none]
    intro p hp
    cases hl : p.leaf with
    | none => simp
    | some lf => simp [h p hp lf hl]
  rw [this]

theorem showWrites_none (n : Nat) (f : PWrite → Bool) {s : State} (h : s.core.pend = []) : showWrites n f s = s := by
  unfold showWrites
  rw [h, List.map_nil, ← h]

theorem releaseFar_none {s : State} (h : s.core.pend = []) (q : ∀ c ∈ s.cores, ∀ e ∈ c.pend, e.observed s = false) :
    releaseFar s = s := by
  unfold releaseFar
  rw [drainWhere_none _ h, drainCores_none h fun c hc e he => observed_far (q c hc e he)]

theorem owed_none {s : State} (h : s.core.pend = []) (q : ∀ c ∈ s.cores, ∀ e ∈ c.pend, e.observed s = false) :
    s.owed = false := by
  unfold State.owed
  rw [List.any_cons, h, List.any_nil, Bool.false_or, List.any_eq_false]
  intro c hc
  rw [Bool.not_eq_true, List.any_eq_false]
  intro e he
  simp [q c hc e he]

/-- With nothing on its way and nothing observed that is, a release changes nothing and waits for nothing. -/
theorem release_none (scope : Nat) {s : State} (h : s.core.pend = []) (q : ∀ c ∈ s.cores, ∀ e ∈ c.pend, e.observed s = false) :
    release scope s = (s, true) := by
  unfold release releaseNear
  simp only [drainWhere_none _ h, showWrites_none _ _ h, releaseFar_none h q, owed_none h q, Bool.not_false]
  split
  · rfl
  · split <;> rfl

theorem releasing_none (as : List LaneAcc) {s : State} (h : s.core.pend = [])
    (q : ∀ c ∈ s.cores, ∀ e ∈ c.pend, e.observed s = false) (k : State → Except Stop State) :
    releasing as s k = k s := by
  unfold releasing
  split
  · rfl
  · rw [release_none _ h q]

theorem stored_of_home {i : Instr} {s u t : State} {as : List LaneAcc} {data : Nat → List Byte}
    (hl : as.map (·.lane) = lanesIn (activeOf i s)) (h : HomeOnly s u) (ht : t = u.settled.advance)
    (value : ∀ pre x post, as = pre ++ x :: post → ∀ qs p rs k, x.pieces = qs ++ p :: rs → k < p.n →
        (∀ y ∈ post, ¬ y.covers (p.loc.plus k)) → (∀ q ∈ rs, ∀ j, j < q.n → q.loc.plus j ≠ p.loc.plus k) →
          readLoc u (p.loc.plus k) = (data x.lane).getD ((qs.map (·.n)).sum + k) 0)
    (others : ∀ x, (∀ a ∈ as, ¬ a.covers x) → readLoc u x = readLoc s x) : Stored i s t as data := by
  subst ht
  have st := h.state
  have rl : ∀ x, readLoc u.settled.advance x = readLoc u x := fun x => by cases x <;> rfl
  refine ⟨hl, ⟨?_, ⟨h.warp.staging, h.warp.stuck, h.warp.saved⟩, h.warps, h.cores⟩, advanced_of ?_ ?_, fun pre x post he qs p rs k hx hk hno hrs => ?_, fun x hx => ?_⟩
  · rw [st]
    rfl
  · rw [st]
    rfl
  · rw [st]
    rfl
  · rw [rl]
    exact value pre x post he qs p rs k hx hk hno hrs
  · rw [rl]
    exact others x hx

theorem storeData_length (s : State) (d w l : Nat) : (storeData s d w l).length = w := by
  have le : ∀ n v, (leBytes n v).length = n := by
    intro n
    induction n with
    | zero => exact fun _ => rfl
    | succ n ih => exact fun v => by simp [leBytes, ih]
  have : ∀ k, ((List.range k).flatMap fun j => leBytes 4 (s.v (d + j) l).toNat).length = 4 * k := by
    intro k
    induction k with
    | zero => rfl
    | succ k ih => rw [List.range_succ, List.flatMap_append, List.length_append, ih]; simp [le]; omega
  unfold storeData
  rw [List.length_take, this]
  omega

theorem checked_width {r : PolicyRule} {acc : Acc} {act : Word} {w : Nat} {off pol : Nat → Word} {s : State}
    {as : List LaneAcc} (h : checked r acc act w off pol s = .ok as) : ∀ a ∈ as, a.w = w := by
  unfold checked at h
  simp only [bind, Except.bind] at h
  split at h
  · cases h
  split at h
  · cases h
  split at h
  · cases h
  split at h
  · cases h
  rename_i hr
  obtain rfl := admitted_ok h
  unfold resolve at hr
  have hf := mapM_ok hr
  rw [List.forall₂_map_left_iff] at hf
  have key : ∀ {ls : List Nat} {xs : List LaneAcc}, List.Forall₂ (fun (l : Nat) (y : LaneAcc) =>
      ((piecesOf s acc l (polSeg (pol l)) (off l).toNat w).map fun ps =>
        ({ lane := l, seg := polSeg (pol l), off := (off l).toNat, w := w, pol := pol l, pieces := ps } : LaneAcc)) =
        .ok y) ls xs → ∀ a ∈ xs, a.w = w := by
    intro ls xs hx
    induction hx with
    | nil => exact fun a ha => by cases ha
    | cons h1 _ ih =>
      intro a ha
      rcases List.mem_cons.mp ha with rfl | ha
      · simp only [Except.map] at h1
        split at h1
        · cases h1
        · cases h1
          rfl
      · exact ih a ha
  exact key hf

/-- The stores of R222, by their meaning. -/
theorem storesBytes_of {i : Instr} {d a b : Reg} {w : Nat} (hx : ∀ s, exec i s = stExec i d a b w s) :
    StoresBytes i d a b w := by
  intro s as he hc hd h2 hm
  obtain ⟨hl, hp⟩ := checked_spec hc
  obtain ⟨h1, v1, o1⟩ := storeLanes_direct (data := storeData s d.toNat w) hd h2 hp fun a ha => by
    rw [storeData_length, checked_width hc a ha]
  have e : ∀ (xs : List LaneAcc), (∀ x ∈ xs, x.seg ≠ 2) → ∀ t : State, xs.foldl (fun t a =>
      if a.seg = 2 then regStore a.lane a.off (storeData s d.toNat w a.lane) t
      else storeLane a (storeData s d.toNat w a.lane) t) t =
        xs.foldl (fun t a => storeLane a (storeData s d.toNat w a.lane) t) t := by
    intro xs
    induction xs with
    | nil => exact fun _ _ => rfl
    | cons x xs ih =>
      intro hx t
      rw [List.foldl_cons, List.foldl_cons, if_neg (hx x (List.mem_cons_self ..))]
      exact ih (fun y hy => hx y (List.mem_cons_of_mem _ hy)) _
  rw [hx]
  generalize hu : as.foldl (fun t a => storeLane a (storeData s d.toNat w a.lane) t) s = u at h1 v1 o1
  have res := stored_of_home (i := i) hl h1 rfl v1 o1
  have st := h1.state
  refine ⟨u.settled.advance, insn_ok he ?_ ?_ ?_ res.moved, res⟩
  · have perf : performStores as (storeData s d.toNat w) s = .ok u.settled.advance := by
      unfold performStores
      rw [hd.noTx, migrate_none fun p hp lf hlf => ?_]
      · have hu' : u.core.pend = [] := by rw [st]; exact hd.sent
        simp only [releasing_none as hd.sent hd.quiet, strongWaits_answered as hd.answered, Bool.false_eq_true, if_false,
          e as h2 s, hu, drainLines_none _ hu', drainFull_none hu']
      · obtain ⟨x, hx, hpx⟩ := List.mem_flatMap.mp hp
        exact hm x hx p hpx lf hlf
    simp only [hc, bind, Except.bind, perf]
  · rw [st]; rfl
  · rw [st]; rfl

end Sys2Proof.Machine
end

