-- ==== Sys2Proof/Laws/Exceptions.lean ====
section
/-!
SUPPORT. What taking an exception does, said once: a warp that halts writes its stores back and gives up what it has
begun; emptying the window changes names only; and a fault outside a transaction, below handler level and with a valid
handler image enters the handler with its record.
-/
namespace Sys2Proof.Machine

/-- Nothing has changed but the names of the issuing warp's registers, what waits for a name, and its core's pool and
memo. -/
def NamesOnly (s t : State) : Prop :=
  t = { s with
    core := { s.core with pool := t.core.pool, memo := t.core.memo }
    warp := { s.warp with frame := { s.warp.frame with names := t.warp.frame.names, stuck := t.warp.frame.stuck } } }

theorem NamesOnly.refl (s : State) : NamesOnly s s := rfl

theorem NamesOnly.trans {s t u : State} (h : NamesOnly s t) (k : NamesOnly t u) : NamesOnly s u := by
  unfold NamesOnly at *
  rw [h] at k
  exact k

theorem sweep_names (s : State) : NamesOnly s (sweep s) := rfl

theorem takeName_core {v : RegVal} {c d : Core} {n : Nat} {x y z : Option Nat} (h : takeName v c x y z = some (n, d)) :
    d = { c with pool := d.pool, memo := d.memo } := by
  unfold takeName at h
  split at h
  · cases h
    rfl
  · dsimp only at h
    rw [Option.some.injEq, Prod.mk.injEq] at h
    rw [← h.2]
    split <;> rfl
  · cases h
    rfl
  · cases h

theorem nameFor_core {v : RegVal} {c d : Core} {n : Nat} (h : nameFor v c = some (n, d)) :
    d = { c with pool := d.pool, memo := d.memo } := by
  unfold nameFor at h
  split at h
  · cases h
    rfl
  · exact takeName_core h

theorem nameRegs_names : ∀ (rs : List Nat) (s : State), NamesOnly s (nameRegs rs s).1 := by
  intro rs
  induction rs with
  | nil => exact fun s => rfl
  | cons r rs ih =>
    intro s
    unfold nameRegs
    dsimp only
    split
    · rename_i n c h
      refine ((sweep_names s).trans ?_).trans (ih _)
      have := nameFor_core h
      unfold NamesOnly State.updFrame Frame.bind
      rw [this]
    · have b : NamesOnly (sweep s) ((sweep s).updFrame (Frame.bind r 0)) := rfl
      exact ((sweep_names s).trans b).trans (ih _)

theorem enterResult_names (e : WinEntry) (named : Bool) (s : State) : NamesOnly s (enterResult e named s) := by
  have m : ∀ k ds fl sc g f c, enterMemo k ds fl sc g f c = { c with memo := (enterMemo k ds fl sc g f c).memo } := by
    intros
    unfold enterMemo
    dsimp only
    split <;> rfl
  unfold enterResult
  split
  · exact .refl s
  · split
    · exact .refl s
    · split
      · refine (sweep_names s).trans ?_
        unfold NamesOnly
        dsimp only
        rw [m]
      · rfl

theorem leaveOne_names (s : State) (e : WinEntry) : NamesOnly s (leaveOne s e) :=
  (nameRegs_names e.dests s).trans (enterResult_names _ _ _)

theorem leaveAll_names : ∀ (xs : List WinEntry) (s : State), NamesOnly s (xs.foldl leaveOne s) := by
  intro xs
  induction xs with
  | nil => exact fun s => rfl
  | cons x xs ih => exact fun s => (leaveOne_names s x).trans (ih _)

/-- A load's register that has come leaves its staging entry, and changes no more than names. -/
theorem arrive_names (e : Staged) (s : State) :
    NamesOnly { s with warp := { s.warp with staging := s.warp.staging.erase e } } (arrive e s) := by
  unfold arrive
  dsimp only
  split
  · exact nameRegs_names _ _
  · exact (nameRegs_names _ _).trans (enterResult_names _ _ _)

theorem arriveAll_names : ∀ (xs : List Staged) (s : State), s.warp.staging = xs →
    NamesOnly { s with warp := { s.warp with staging := [] } } (xs.foldl (fun t e => arrive e t) s) := by
  intro xs
  induction xs with
  | nil =>
    intro s h
    have e : ({ s with warp := { s.warp with staging := [] } } : State) = s := by rw [← h]
    rw [e]
    exact .refl s
  | cons x xs ih =>
    intro s h
    have k := arrive_names x s
    rw [h, List.erase_cons_head] at k
    have e : (arrive x s).warp.staging = xs := by
      unfold NamesOnly at k
      rw [k]
    refine NamesOnly.trans ?_ (ih (arrive x s) e)
    unfold NamesOnly at k ⊢
    rw [k]

/-- Emptying the window changes nothing but names, the core's pool and memo, the window and the staging entries. -/
theorem emptyWindow_spec (s : State) :
    NamesOnly { s with warp := { s.warp with window := [], staging := [] } } (emptyWindow s) := by
  unfold emptyWindow leaveWindow
  have h := leaveAll_names s.warp.window.reverse.flatten { s with warp := { s.warp with window := [] } }
  have e : (s.warp.window.reverse.flatten.foldl leaveOne { s with warp := { s.warp with window := [] } }).warp.staging =
      s.warp.staging := by
    unfold NamesOnly at h
    rw [h]
  refine NamesOnly.trans ?_ (arriveAll_names _ _ e)
  unfold NamesOnly at h ⊢
  rw [h]

/-- A warp outside a transaction has halted: writes at homes under whatever key, writes sent on or lost, index entries and
sharding entries given up. -/
structure Halted (s t : State) : Prop where
  only : t = { s.withHomes t with
    warp := { (s.withHomes t).warp with resharding := t.warp.resharding, lost := t.warp.lost }
    groups := t.groups
    core := { (s.withHomes t).core with pend := t.core.pend }
    jobs := t.jobs
    epochs := t.epochs
    rewrites := t.rewrites
    free := t.free }
  jobs : ∃ f : Job → List Nat, t.jobs = s.jobs.map fun j => { j with closed := f j }

theorem map_closed_id (js : List Job) : ∃ f : Job → List Nat, js = js.map fun j => { j with closed := f j } :=
  ⟨fun j => j.closed, by simp⟩

theorem Halted.refl (s : State) : Halted s s := ⟨rfl, map_closed_id _⟩

theorem Halted.trans {s t u : State} (h : Halted s t) (k : Halted t u) : Halted s u := by
  refine ⟨?_, ?_⟩
  · have k1 := k.only
    rw [h.only] at k1
    exact k1
  · obtain ⟨f, hf⟩ := h.jobs
    obtain ⟨g, hg⟩ := k.jobs
    refine ⟨fun j => g { j with closed := f j }, ?_⟩
    rw [hg, hf, List.map_map]
    rfl

theorem Halted.noTx {s t : State} (h : Halted s t) (hx : s.frame.tx.active = false) : t.frame.tx.active = false := by
  rw [h.only]
  exact hx

theorem HomeOnly.halted {s t : State} (h : HomeOnly s t) : Halted s t := by
  refine ⟨?_, ?_⟩ <;> rw [h.state]
  exact map_closed_id _

theorem rekey_halted (line epoch : Nat) (s : State) : Halted s (rekey line epoch s) := by
  unfold rekey
  dsimp only
  split
  · exact .refl s
  · exact ⟨rfl, map_closed_id _⟩

theorem openLine_halted (v : Via) (epoch : Option Nat) (line : Nat) {s : State} (hx : s.frame.tx.active = false) :
    Halted s (openLine v epoch line s) := by
  have h := (prepareLine_took v line s).home.halted
  unfold openLine
  cases epoch with
  | none => exact h.trans (touchLine_only _ (h.noTx hx)).halted
  | some e =>
    have k := h.trans (rekey_halted line e _)
    exact k.trans (touchLine_only _ (k.noTx hx)).halted

theorem writeHome_halted (v : Via) (epoch : Option Nat) (a : Nat) (bs : List Byte) {s : State}
    (hx : s.frame.tx.active = false) : Halted s (writeHome v epoch a bs s) := by
  have : ∀ (lines : List Nat) (t : State), t.frame.tx.active = false →
      Halted t (lines.foldl (fun t l => heal (.mem l) l a (a + bs.length) (openLine v epoch l t)) t) := by
    intro lines
    induction lines with
    | nil => exact fun t _ => .refl t
    | cons l lines ih =>
      intro t ht
      have h := (openLine_halted v epoch l ht).trans (heal_home (.mem l) l a (a + bs.length) _).halted
      exact h.trans (ih _ (h.noTx ht))
  unfold writeHome
  exact (this _ s hx).trans ⟨rfl, map_closed_id _⟩

theorem scratchWrite_halted (g a : Nat) (bs : List Byte) {s : State} (hx : s.frame.tx.active = false) :
    Halted s (scratchWrite g a bs s) := by
  have : ∀ (lines : List Nat) (t : State), t.frame.tx.active = false →
      Halted t (lines.foldl (fun t l => heal (.scratch g l) l a (a + bs.length)
        (touchLine (.scratch g l) (forgetScratch g l t))) t) := by
    intro lines
    induction lines with
    | nil => exact fun t _ => .refl t
    | cons l lines ih =>
      intro t ht
      have h0 : Halted t (forgetScratch g l t) := (forgetAll_took _ t).home.halted
      have h := (h0.trans (touchLine_only (.scratch g l) (h0.noTx ht)).halted).trans
        (heal_home (.scratch g l) l a (a + bs.length) _).halted
      exact h.trans (ih _ (h.noTx ht))
  unfold scratchWrite
  refine (this (linesOf a bs.length) s hx).trans ?_
  dsimp only
  generalize List.foldl _ s (linesOf a bs.length) = r
  by_cases hg : r.group.uid = g
  · subst hg
    simp only [State.updGroup, if_true]
    exact ⟨rfl, map_closed_id _⟩
  · simp only [State.updGroup, hg, if_false]
    exact ⟨rfl, map_closed_id _⟩

theorem writeSpots_halted (v : Via) (ps : List Spot) (bs : List Byte) {s : State} (hx : s.frame.tx.active = false) :
    Halted s (writeSpots v ps bs s) := by
  have each : ∀ (xs : List (Spot × Byte)) (t : State), t.frame.tx.active = false →
      Halted t (xs.foldl (fun t x => writeHome v x.1.epoch x.1.addr [x.2] t) t) := by
    intro xs
    induction xs with
    | nil => exact fun t _ => .refl t
    | cons x xs ih =>
      intro t ht
      have h := writeHome_halted v x.1.epoch x.1.addr [x.2] ht
      exact h.trans (ih _ (h.noTx ht))
  unfold writeSpots
  split
  · exact .refl s
  · split
    · exact writeHome_halted _ _ _ _ hx
    · exact each _ s hx

theorem ringWrite_halted {r : Ring} {a : Nat} {bs : List Byte} {s t : State} (hx : s.frame.tx.active = false)
    (h : r.write a bs s = some t) : Halted s t := by
  unfold Ring.write at h
  obtain ⟨ps, _, rfl⟩ := Option.map_eq_some_iff.mp h
  exact writeSpots_halted _ _ _ hx

/-- An event is written to its ring, with its message, or lost. -/
theorem appendEvent_halted (base code job : Nat) (p : Payload) (part : Nat) {s : State} (hx : s.frame.tx.active = false) :
    Halted s (appendEvent base code job p part s) := by
  have out : ∀ (t : State), Halted s t → Halted s { t with out := t.out ++ [.msix part code] } := by
    intro t h
    exact h.trans ⟨rfl, map_closed_id _⟩
  unfold appendEvent
  split
  · exact .refl s
  · unfold ringAppend
    split
    · rename_i t h
      split at h
      · split at h
        · split at h <;> cases h
        · split at h
          · cases h
          · rename_i u hu
            split at h
            · rename_i v hv
              cases h
              have k := ringWrite_halted hx hu
              exact out _ (k.trans (ringWrite_halted (k.noTx hx) hv))
            · cases h
      · cases h
    · rename_i t h
      split at h
      · split at h
        · split at h
          · rename_i u hu
            cases h
            exact out _ (ringWrite_halted hx hu)
          · cases h
        · split at h
          · cases h
          · split at h <;> cases h
      · cases h
    · exact .refl s

theorem postEvent_halted (code part job : Nat) (p : Payload) {s : State} (hx : s.frame.tx.active = false) :
    Halted s (postEvent code part job p s) := by
  unfold postEvent
  dsimp only
  split
  · exact appendEvent_halted _ _ _ _ _ hx
  · have h := appendEvent_halted (s.partOf part).evqbase.toNat code job p part hx
    split
    · exact h.trans (appendEvent_halted _ _ _ _ _ (h.noTx hx))
    · exact h

/-- A write to a peer that has failed is lost: the mask of its warp, and an event. -/
theorem loseWrite_halted (uid chip : Nat) {s : State} (hx : s.frame.tx.active = false) : Halted s (loseWrite uid chip s) := by
  unfold loseWrite
  dsimp only
  have h : Halted s (s.updWarp uid fun x => { x with lost := x.lost ||| BitVec.twoPow 16 chip }) := by
    unfold State.updWarp
    split
    · exact ⟨rfl, map_closed_id _⟩
    · exact ⟨rfl, map_closed_id _⟩
  exact h.trans (postEvent_halted _ _ _ _ (h.noTx hx))

theorem perform_halted (e : PWrite) {s : State} (hx : s.frame.tx.active = false) : Halted s (e.perform s) := by
  unfold PWrite.perform
  dsimp only
  refine Halted.trans ?_ (patchPlace_home _ _ _).1.halted
  unfold writeLoc
  split
  · exact scratchWrite_halted _ _ _ hx
  · exact writeHome_halted _ _ _ _ hx

theorem sendWrite_halted (e : PWrite) {s : State} (hx : s.frame.tx.active = false) : Halted s (sendWrite e s) := by
  unfold sendWrite
  split
  · exact loseWrite_halted _ _ hx
  · split
    · exact ⟨rfl, map_closed_id _⟩
    · exact perform_halted e hx

/-- The stores of the issuing warp that a halt writes back are sent on; with none, nothing changes. -/
theorem drainOwn_halted {s : State} (hx : s.frame.tx.active = false) :
    Halted s (drainOwn s) ∧ ((∀ e ∈ s.core.pend, e.homeward s = false) → drainOwn s = s) := by
  unfold drainOwn drainWhere
  dsimp only
  constructor
  · have : ∀ (es : List PWrite) (t : State), t.frame.tx.active = false →
        Halted t (es.foldl (fun t e => if e.isLocal s then e.perform t else sendWrite e t) t) := by
      intro es
      induction es with
      | nil => exact fun t _ => .refl t
      | cons e es ih =>
        intro t ht
        rw [List.foldl_cons]
        have h : Halted t (if e.isLocal s = true then e.perform t else sendWrite e t) := by
          split
          · exact perform_halted e ht
          · exact sendWrite_halted e ht
        exact h.trans (ih _ (h.noTx ht))
    refine Halted.trans ?_ (this _ _ hx)
    exact ⟨rfl, map_closed_id _⟩
  · intro h
    have none : ∀ e ∈ s.core.pend, (e.homeward s && !(e.away s)) = false := by
      intro e he
      rw [h e he, Bool.false_and]
    have h1 : (s.core.pend.filter fun e => e.homeward s && !(e.away s)) = [] := by
      rw [List.filter_eq_nil_iff]
      intro e he
      simp [none e he]
    have h2 : (s.core.pend.filter fun e => !(e.homeward s && !(e.away s))) = s.core.pend := by
      rw [List.filter_eq_self]
      intro e he
      simp [none e he]
    rw [h1, h2]
    rfl

/-- What a warp had begun is given up; memory changes only where it held an index entry. -/
theorem abandon_halted {s : State} (hx : s.frame.tx.active = false) :
    Halted s (abandon s) ∧ ((∀ r ∈ s.rewrites, r.2 ≠ s.warp.uid) → (abandon s).mem = s.mem ∧ (abandon s).group = s.group ∧
      (abandon s).core = s.core ∧ (abandon s).node = s.node ∧ (abandon s).launches = s.launches) := by
  have r : ∀ t : State, Halted t (reopenEntries t) := by
    intro t
    refine ⟨rfl, ⟨fun j => if j.part = t.job.part ∧ j.jobno = t.job.jobno ∧ !(t.failedPeer j.chip) then
      j.closed.filter fun k => !(t.warp.resharding.contains k) else j.closed, ?_⟩⟩
    unfold reopenEntries
    refine List.map_congr_left fun j _ => ?_
    by_cases hc : j.part = t.job.part ∧ j.jobno = t.job.jobno ∧ !(t.failedPeer j.chip)
    · simp only [if_pos hc]
    · simp only [if_neg hc]
  unfold abandon
  constructor
  · refine Halted.trans ?_ (r _)
    unfold dropRewrites
    generalize (s.rewrites.filter fun r => r.2 == s.warp.uid) = xs
    have : ∀ (xs : List (Nat × Nat)) (t : State), t.frame.tx.active = false → Halted t (xs.foldl (fun t r =>
        { writeHome (t.viaOf t.job none) none r.1 (leBytes 8 (t.readNat r.1 8 - (if (t.readNat r.1 8).testBit 1 then 2 else 0))) t with
          rewrites := t.rewrites.filter (· ≠ r) }) t) := by
      intro xs
      induction xs with
      | nil => exact fun t _ => .refl t
      | cons x xs ih =>
        intro t ht
        have h := (writeHome_halted (t.viaOf t.job none) none x.1
          (leBytes 8 (t.readNat x.1 8 - (if (t.readNat x.1 8).testBit 1 then 2 else 0))) ht)
        have h2 : Halted t { writeHome (t.viaOf t.job none) none x.1
            (leBytes 8 (t.readNat x.1 8 - (if (t.readNat x.1 8).testBit 1 then 2 else 0))) t with
            rewrites := t.rewrites.filter (· ≠ x) } := h.trans ⟨rfl, map_closed_id _⟩
        exact h2.trans (ih _ (h2.noTx ht))
    exact this xs s hx
  · intro h
    have : dropRewrites s.warp.uid s = s := by
      unfold dropRewrites
      have : (s.rewrites.filter fun r => r.2 == s.warp.uid) = [] := by
        rw [List.filter_eq_nil_iff]
        intro r hr
        simp [h r hr]
      rw [this]
      rfl
    rw [this]
    exact ⟨rfl, rfl, rfl, rfl, rfl⟩

theorem Halted.partOfJob {s t : State} (h : Halted s t) (uid : Nat) : (t.jobOf uid).part = (s.jobOf uid).part := by
  obtain ⟨f, hf⟩ := h.jobs
  unfold State.jobOf State.jobOf?
  rw [hf]
  generalize s.jobs = js
  induction js with
  | nil => rfl
  | cons j js ih =>
    simp only [List.map_cons, List.find?_cons]
    split <;> rename_i h1
    · rfl
    · exact ih

/-- Outside a transaction a regrouping aborts nothing. -/
theorem settle_noTx {t : State} (h : t.frame.tx.active = false) : settle t = t := by simp [settle, h]

/-- Taking an exception outside a transaction, below handler level, with a valid handler image: u is the machine after
the warp has halted. -/
theorem raise_enters {s : State} (w act : Word) (e : Exc) (hx : s.frame.tx.active = false)
    (hl : s.warp.level ≠ .handler) (hv : s.handlerValid = true) :
    ∃ u p m n k, Halted s u ∧ (Unburdened s → u.mem = s.mem ∧ u.group = s.group) ∧
      raise w act e s = { u with
        core := { u.core with pool := p, memo := m }
        warp := { u.warp with
          frame := handlerFrame s.launch.seed (s.group.number * s.group.warps + s.warp.id)
            { s.warp.frame with names := n, stuck := k }
          window := []
          staging := []
          fault := s.record w act e
          hold := Hold.none
          saved := some { s.warp.frame with names := n, stuck := k }
          hbase := s.part.hbase &&& 0xFFFFFFFFFFFFF000
          level := .handler } } := by
  obtain ⟨ha, ma⟩ := abandon_halted hx
  obtain ⟨hd, md⟩ := drainOwn_halted (ha.noTx hx)
  have hu := ha.trans hd
  have hm : Unburdened s → (drainOwn (abandon s)).mem = s.mem ∧ (drainOwn (abandon s)).group = s.group := by
    intro h
    obtain ⟨m1, g1, c1, n1, l1⟩ := ma h.whole
    have hw : (abandon s).warp.uid = s.warp.uid := by rw [ha.only]
    rw [md fun e he => ?_]
    · exact ⟨m1, g1⟩
    · have := h.sent e (c1 ▸ he)
      unfold PWrite.homeward PWrite.isLocal at *
      rw [hw, n1]
      exact this
  have names := emptyWindow_spec (drainOwn (abandon s))
  unfold raise
  rw [hx]
  simp only [Bool.false_and, Bool.false_eq_true, if_false]
  unfold takeRecord
  rw [if_neg (by simp [hl, hv])]
  unfold enterHandler
  generalize drainOwn (abandon s) = u at hu hm names
  generalize emptyWindow u = t at names
  refine ⟨u, t.core.pool, t.core.memo, t.warp.frame.names, t.warp.frame.stuck, hu, hm, ?_⟩
  have e1 : u.launch = s.launch := by
    unfold State.launch State.launchOf
    rw [hu.only]
  have e2 : u.part = s.part := by
    have hg : u.group.job = s.group.job := by rw [hu.only]
    have hp : u.parts = s.parts := by rw [hu.only]
    unfold State.part State.job State.partOf
    rw [hg, hu.partOfJob, hp]
  have e3 : t.launch = u.launch := by
    unfold NamesOnly at names
    rw [names]
    rfl
  have e4 : t.part = u.part := by
    unfold NamesOnly at names
    rw [names]
    rfl
  have e5 : u.warp.frame = { s.warp.frame with stuck := u.warp.frame.stuck } := by rw [hu.only]
  have e6 : u.warp.id = s.warp.id := by rw [hu.only]
  have e7 : u.group.number = s.group.number ∧ u.group.warps = s.group.warps := by rw [hu.only]; exact ⟨rfl, rfl⟩
  simp only [e3, e4, e1, e2]
  unfold NamesOnly at names
  rw [← e6, ← e7.1, ← e7.2]
  generalize t.core.pool = p at *
  generalize t.core.memo = m at *
  generalize t.warp.frame.names = n at *
  generalize t.warp.frame.stuck = k at *
  have e8 : ({ s.warp.frame with names := n, stuck := k } : Frame) = { u.warp.frame with names := n, stuck := k } := by
    rw [e5]
  rw [e8, names]

/-- What the record of such a fault says (R362). -/
theorem record_fields {s : State} (w act : Word) (e : Exc) (hx : s.frame.tx.active = false) (hl : s.warp.level ≠ .handler) :
    (s.record w act e).ctl = ctlWord false false false e.req s.warp.level e.detail e.cls ∧
      (s.record w act e).lanes = e.lanes.getD act ∧ (s.record w act e).fpc = s.pc ∧
      (s.record w act e).rpc = (if e.cls = 21 then s.pc + 4 else s.pc) := by
  unfold State.record
  refine ⟨?_, rfl, rfl, ?_⟩
  · simp only [hx, hl, decide_false]
  · simp [hx]

end Sys2Proof.Machine
end

