-- ==== Sys2Proof/Laws/PerInstr.lean ====
section
/-!
SUPPORT. The family WordShape: one lemma for each constructor of Instr, that an instruction is one 32-bit word (R34),
and that an operation or event of the part, which no fetch brings, has none.
-/
namespace Sys2Proof.Laws

/-- The instruction is one word, or an operation or event without words. -/
def WordShape.Statement (i : Instr) : Prop := encode i = [Machine.wordOf i] ∨ encode i = []

theorem WordShape.nop : WordShape.Statement .nop := Or.inl rfl
theorem WordShape.iadd (d a b : Reg) (g : Guard) : WordShape.Statement (.iadd d a b g) := Or.inl rfl
theorem WordShape.isub (d a b : Reg) (g : Guard) : WordShape.Statement (.isub d a b g) := Or.inl rfl
theorem WordShape.imul (d a b : Reg) (g : Guard) : WordShape.Statement (.imul d a b g) := Or.inl rfl
theorem WordShape.imulhS (d a b : Reg) (g : Guard) : WordShape.Statement (.imulhS d a b g) := Or.inl rfl
theorem WordShape.imulhN (d a b : Reg) (g : Guard) : WordShape.Statement (.imulhN d a b g) := Or.inl rfl
theorem WordShape.imad (d a b : Reg) (g : Guard) : WordShape.Statement (.imad d a b g) := Or.inl rfl
theorem WordShape.imadwS (d a b : Reg) (g : Guard) : WordShape.Statement (.imadwS d a b g) := Or.inl rfl
theorem WordShape.imadwN (d a b : Reg) (g : Guard) : WordShape.Statement (.imadwN d a b g) := Or.inl rfl
theorem WordShape.iadd64 (d a b : Reg) (g : Guard) : WordShape.Statement (.iadd64 d a b g) := Or.inl rfl
theorem WordShape.isub64 (d a b : Reg) (g : Guard) : WordShape.Statement (.isub64 d a b g) := Or.inl rfl
theorem WordShape.iminS (d a b : Reg) (g : Guard) : WordShape.Statement (.iminS d a b g) := Or.inl rfl
theorem WordShape.iminN (d a b : Reg) (g : Guard) : WordShape.Statement (.iminN d a b g) := Or.inl rfl
theorem WordShape.imaxS (d a b : Reg) (g : Guard) : WordShape.Statement (.imaxS d a b g) := Or.inl rfl
theorem WordShape.imaxN (d a b : Reg) (g : Guard) : WordShape.Statement (.imaxN d a b g) := Or.inl rfl
theorem WordShape.ishl (d a b : Reg) (g : Guard) : WordShape.Statement (.ishl d a b g) := Or.inl rfl
theorem WordShape.ishr (d a b : Reg) (g : Guard) : WordShape.Statement (.ishr d a b g) := Or.inl rfl
theorem WordShape.isar (d a b : Reg) (g : Guard) : WordShape.Statement (.isar d a b g) := Or.inl rfl
theorem WordShape.irot (d a b : Reg) (g : Guard) : WordShape.Statement (.irot d a b g) := Or.inl rfl
theorem WordShape.and (d a b : Reg) (g : Guard) : WordShape.Statement (.and d a b g) := Or.inl rfl
theorem WordShape.or (d a b : Reg) (g : Guard) : WordShape.Statement (.or d a b g) := Or.inl rfl
theorem WordShape.xor (d a b : Reg) (g : Guard) : WordShape.Statement (.xor d a b g) := Or.inl rfl
theorem WordShape.andn (d a b : Reg) (g : Guard) : WordShape.Statement (.andn d a b g) := Or.inl rfl
theorem WordShape.bfxS (d a b : Reg) (g : Guard) : WordShape.Statement (.bfxS d a b g) := Or.inl rfl
theorem WordShape.bfxN (d a b : Reg) (g : Guard) : WordShape.Statement (.bfxN d a b g) := Or.inl rfl
theorem WordShape.bfi (d a b : Reg) (g : Guard) : WordShape.Statement (.bfi d a b g) := Or.inl rfl
theorem WordShape.bperm (d a b : Reg) (g : Guard) : WordShape.Statement (.bperm d a b g) := Or.inl rfl
theorem WordShape.isel (d a b : Reg) (g : Guard) : WordShape.Statement (.isel d a b g) := Or.inl rfl
theorem WordShape.icmp (c : BitVec 4) (p : Pred) (a b : Reg) (g : Guard) : WordShape.Statement (.icmp c p a b g) :=
  Or.inl rfl
theorem WordShape.mov (d a : Reg) (g : Guard) : WordShape.Statement (.mov d a g) := Or.inl rfl
theorem WordShape.not (d a : Reg) (g : Guard) : WordShape.Statement (.not d a g) := Or.inl rfl
theorem WordShape.ineg (d a : Reg) (g : Guard) : WordShape.Statement (.ineg d a g) := Or.inl rfl
theorem WordShape.iabs (d a : Reg) (g : Guard) : WordShape.Statement (.iabs d a g) := Or.inl rfl
theorem WordShape.popc (d a : Reg) (g : Guard) : WordShape.Statement (.popc d a g) := Or.inl rfl
theorem WordShape.clz (d a : Reg) (g : Guard) : WordShape.Statement (.clz d a g) := Or.inl rfl
theorem WordShape.brev (d a : Reg) (g : Guard) : WordShape.Statement (.brev d a g) := Or.inl rfl
theorem WordShape.sext8 (d a : Reg) (g : Guard) : WordShape.Statement (.sext8 d a g) := Or.inl rfl
theorem WordShape.sext16 (d a : Reg) (g : Guard) : WordShape.Statement (.sext16 d a g) := Or.inl rfl
theorem WordShape.zext8 (d a : Reg) (g : Guard) : WordShape.Statement (.zext8 d a g) := Or.inl rfl
theorem WordShape.zext16 (d a : Reg) (g : Guard) : WordShape.Statement (.zext16 d a g) := Or.inl rfl
theorem WordShape.pand (d b a : Pred) (g : Guard) : WordShape.Statement (.pand d b a g) := Or.inl rfl
theorem WordShape.por (d b a : Pred) (g : Guard) : WordShape.Statement (.por d b a g) := Or.inl rfl
theorem WordShape.pxor (d b a : Pred) (g : Guard) : WordShape.Statement (.pxor d b a g) := Or.inl rfl
theorem WordShape.pnot (d a : Pred) (g : Guard) : WordShape.Statement (.pnot d a g) := Or.inl rfl
theorem WordShape.p2v (d : Reg) (g : Guard) : WordShape.Statement (.p2v d g) := Or.inl rfl
theorem WordShape.v2p (a : Reg) (g : Guard) : WordShape.Statement (.v2p a g) := Or.inl rfl
theorem WordShape.pset (d : Pred) (a : Reg) (g : Guard) : WordShape.Statement (.pset d a g) := Or.inl rfl
theorem WordShape.iaddi (d a : Reg) (i : BitVec 11) : WordShape.Statement (.iaddi d a i) := Or.inl rfl
theorem WordShape.imuli (d a : Reg) (i : BitVec 11) : WordShape.Statement (.imuli d a i) := Or.inl rfl
theorem WordShape.andi (d a : Reg) (i : BitVec 11) : WordShape.Statement (.andi d a i) := Or.inl rfl
theorem WordShape.ori (d a : Reg) (i : BitVec 11) : WordShape.Statement (.ori d a i) := Or.inl rfl
theorem WordShape.xori (d a : Reg) (i : BitVec 11) : WordShape.Statement (.xori d a i) := Or.inl rfl
theorem WordShape.shli (d a : Reg) (n : BitVec 5) : WordShape.Statement (.shli d a n) := Or.inl rfl
theorem WordShape.shri (d a : Reg) (n : BitVec 5) : WordShape.Statement (.shri d a n) := Or.inl rfl
theorem WordShape.sari (d a : Reg) (n : BitVec 5) : WordShape.Statement (.sari d a n) := Or.inl rfl
theorem WordShape.icmpi (c : BitVec 4) (p : Pred) (a : Reg) (i : BitVec 11) : WordShape.Statement (.icmpi c p a i) :=
  Or.inl rfl
theorem WordShape.movl (d : Reg) (i : BitVec 18) : WordShape.Statement (.movl d i) := Or.inl rfl
theorem WordShape.movh (d : Reg) (i : BitVec 18) : WordShape.Statement (.movh d i) := Or.inl rfl
theorem WordShape.bra (g : Guard) (i : BitVec 21) : WordShape.Statement (.bra g i) := Or.inl rfl
theorem WordShape.call (g : Guard) (i : BitVec 21) : WordShape.Statement (.call g i) := Or.inl rfl
theorem WordShape.brx (a : Reg) (g : Guard) : WordShape.Statement (.brx a g) := Or.inl rfl
theorem WordShape.callx (a : Reg) (g : Guard) : WordShape.Statement (.callx a g) := Or.inl rfl
theorem WordShape.ret (g : Guard) : WordShape.Statement (.ret g) := Or.inl rfl
theorem WordShape.exit (g : Guard) : WordShape.Statement (.exit g) := Or.inl rfl
theorem WordShape.join (i : BitVec 21) : WordShape.Statement (.join i) := Or.inl rfl
theorem WordShape.winb (i : BitVec 11) : WordShape.Statement (.winb i) := Or.inl rfl
theorem WordShape.trap (i : BitVec 11) : WordShape.Statement (.trap i) := Or.inl rfl
theorem WordShape.bpt (i : BitVec 11) : WordShape.Statement (.bpt i) := Or.inl rfl
theorem WordShape.xt (h c : BitVec 3) (s : BitVec 7) : WordShape.Statement (.xt h c s) := Or.inl rfl
theorem WordShape.fadd (d a b : Reg) (g : Guard) : WordShape.Statement (.fadd d a b g) := Or.inl rfl
theorem WordShape.fsub (d a b : Reg) (g : Guard) : WordShape.Statement (.fsub d a b g) := Or.inl rfl
theorem WordShape.fmul (d a b : Reg) (g : Guard) : WordShape.Statement (.fmul d a b g) := Or.inl rfl
theorem WordShape.ffma (d a b : Reg) (g : Guard) : WordShape.Statement (.ffma d a b g) := Or.inl rfl
theorem WordShape.ffms (d a b : Reg) (g : Guard) : WordShape.Statement (.ffms d a b g) := Or.inl rfl
theorem WordShape.fmin (d a b : Reg) (g : Guard) : WordShape.Statement (.fmin d a b g) := Or.inl rfl
theorem WordShape.fmax (d a b : Reg) (g : Guard) : WordShape.Statement (.fmax d a b g) := Or.inl rfl
theorem WordShape.fcmp (c : BitVec 4) (p : Pred) (a b : Reg) (g : Guard) : WordShape.Statement (.fcmp c p a b g) :=
  Or.inl rfl
theorem WordShape.fdiv (d a b : Reg) (g : Guard) : WordShape.Statement (.fdiv d a b g) := Or.inl rfl
theorem WordShape.fscale (d a b : Reg) (g : Guard) : WordShape.Statement (.fscale d a b g) := Or.inl rfl
theorem WordShape.hadd2 (d a b : Reg) (g : Guard) : WordShape.Statement (.hadd2 d a b g) := Or.inl rfl
theorem WordShape.hmul2 (d a b : Reg) (g : Guard) : WordShape.Statement (.hmul2 d a b g) := Or.inl rfl
theorem WordShape.hfma2 (d a b : Reg) (g : Guard) : WordShape.Statement (.hfma2 d a b g) := Or.inl rfl
theorem WordShape.badd2 (d a b : Reg) (g : Guard) : WordShape.Statement (.badd2 d a b g) := Or.inl rfl
theorem WordShape.bmul2 (d a b : Reg) (g : Guard) : WordShape.Statement (.bmul2 d a b g) := Or.inl rfl
theorem WordShape.bfma2 (d a b : Reg) (g : Guard) : WordShape.Statement (.bfma2 d a b g) := Or.inl rfl
theorem WordShape.fdot4 (d a b : Reg) (g : Guard) : WordShape.Statement (.fdot4 d a b g) := Or.inl rfl
theorem WordShape.fdot4E5 (d a b : Reg) (g : Guard) : WordShape.Statement (.fdot4E5 d a b g) := Or.inl rfl
theorem WordShape.fabs (d a : Reg) (g : Guard) : WordShape.Statement (.fabs d a g) := Or.inl rfl
theorem WordShape.fneg (d a : Reg) (g : Guard) : WordShape.Statement (.fneg d a g) := Or.inl rfl
theorem WordShape.frcp (d a : Reg) (g : Guard) : WordShape.Statement (.frcp d a g) := Or.inl rfl
theorem WordShape.fsqrt (d a : Reg) (g : Guard) : WordShape.Statement (.fsqrt d a g) := Or.inl rfl
theorem WordShape.frsq (d a : Reg) (g : Guard) : WordShape.Statement (.frsq d a g) := Or.inl rfl
theorem WordShape.fexp2 (d a : Reg) (g : Guard) : WordShape.Statement (.fexp2 d a g) := Or.inl rfl
theorem WordShape.flog2 (d a : Reg) (g : Guard) : WordShape.Statement (.flog2 d a g) := Or.inl rfl
theorem WordShape.fsin (d a : Reg) (g : Guard) : WordShape.Statement (.fsin d a g) := Or.inl rfl
theorem WordShape.fcos (d a : Reg) (g : Guard) : WordShape.Statement (.fcos d a g) := Or.inl rfl
theorem WordShape.ftanh (d a : Reg) (g : Guard) : WordShape.Statement (.ftanh d a g) := Or.inl rfl
theorem WordShape.fsigm (d a : Reg) (g : Guard) : WordShape.Statement (.fsigm d a g) := Or.inl rfl
theorem WordShape.fclass (d a : Reg) (g : Guard) : WordShape.Statement (.fclass d a g) := Or.inl rfl
theorem WordShape.frndRn (d a : Reg) (g : Guard) : WordShape.Statement (.frndRn d a g) := Or.inl rfl
theorem WordShape.frndRz (d a : Reg) (g : Guard) : WordShape.Statement (.frndRz d a g) := Or.inl rfl
theorem WordShape.frndRd (d a : Reg) (g : Guard) : WordShape.Statement (.frndRd d a g) := Or.inl rfl
theorem WordShape.frndRu (d a : Reg) (g : Guard) : WordShape.Statement (.frndRu d a g) := Or.inl rfl
theorem WordShape.fcvt (d a b : Reg) (g : Guard) : WordShape.Statement (.fcvt d a b g) := Or.inl rfl
theorem WordShape.shflIdx (d a b : Reg) (g : Guard) : WordShape.Statement (.shflIdx d a b g) := Or.inl rfl
theorem WordShape.shflUp (d a b : Reg) (g : Guard) : WordShape.Statement (.shflUp d a b g) := Or.inl rfl
theorem WordShape.shflDn (d a b : Reg) (g : Guard) : WordShape.Statement (.shflDn d a b g) := Or.inl rfl
theorem WordShape.shflXor (d a b : Reg) (g : Guard) : WordShape.Statement (.shflXor d a b g) := Or.inl rfl
theorem WordShape.voteAny (d a : Pred) (g : Guard) : WordShape.Statement (.voteAny d a g) := Or.inl rfl
theorem WordShape.voteAll (d a : Pred) (g : Guard) : WordShape.Statement (.voteAll d a g) := Or.inl rfl
theorem WordShape.voteBallot (d : Reg) (a : Pred) (g : Guard) : WordShape.Statement (.voteBallot d a g) := Or.inl rfl
theorem WordShape.voteCount (d : Reg) (a : Pred) (g : Guard) : WordShape.Statement (.voteCount d a g) := Or.inl rfl
theorem WordShape.redwAddS32 (d a : Reg) (g : Guard) : WordShape.Statement (.redwAddS32 d a g) := Or.inl rfl
theorem WordShape.redwAddF32 (d a : Reg) (g : Guard) : WordShape.Statement (.redwAddF32 d a g) := Or.inl rfl
theorem WordShape.redwMinS (d a : Reg) (g : Guard) : WordShape.Statement (.redwMinS d a g) := Or.inl rfl
theorem WordShape.redwMinN (d a : Reg) (g : Guard) : WordShape.Statement (.redwMinN d a g) := Or.inl rfl
theorem WordShape.redwMaxS (d a : Reg) (g : Guard) : WordShape.Statement (.redwMaxS d a g) := Or.inl rfl
theorem WordShape.redwMaxN (d a : Reg) (g : Guard) : WordShape.Statement (.redwMaxN d a g) := Or.inl rfl
theorem WordShape.redwMinF (d a : Reg) (g : Guard) : WordShape.Statement (.redwMinF d a g) := Or.inl rfl
theorem WordShape.redwMaxF (d a : Reg) (g : Guard) : WordShape.Statement (.redwMaxF d a g) := Or.inl rfl
theorem WordShape.redwAnd (d a : Reg) (g : Guard) : WordShape.Statement (.redwAnd d a g) := Or.inl rfl
theorem WordShape.redwOr (d a : Reg) (g : Guard) : WordShape.Statement (.redwOr d a g) := Or.inl rfl
theorem WordShape.redwXor (d a : Reg) (g : Guard) : WordShape.Statement (.redwXor d a g) := Or.inl rfl
theorem WordShape.scanwInclS32 (d a : Reg) (g : Guard) : WordShape.Statement (.scanwInclS32 d a g) := Or.inl rfl
theorem WordShape.scanwExclS32 (d a : Reg) (g : Guard) : WordShape.Statement (.scanwExclS32 d a g) := Or.inl rfl
theorem WordShape.scanwInclF32 (d a : Reg) (g : Guard) : WordShape.Statement (.scanwInclF32 d a g) := Or.inl rfl
theorem WordShape.scanwExclF32 (d a : Reg) (g : Guard) : WordShape.Statement (.scanwExclF32 d a g) := Or.inl rfl
theorem WordShape.matchL (d a : Reg) (g : Guard) : WordShape.Statement (.matchL d a g) := Or.inl rfl
theorem WordShape.fencew (g : Guard) : WordShape.Statement (.fencew g) := Or.inl rfl
theorem WordShape.ldN8 (d a b : Reg) (g : Guard) : WordShape.Statement (.ldN8 d a b g) := Or.inl rfl
theorem WordShape.ldS8 (d a b : Reg) (g : Guard) : WordShape.Statement (.ldS8 d a b g) := Or.inl rfl
theorem WordShape.ldN16 (d a b : Reg) (g : Guard) : WordShape.Statement (.ldN16 d a b g) := Or.inl rfl
theorem WordShape.ldS16 (d a b : Reg) (g : Guard) : WordShape.Statement (.ldS16 d a b g) := Or.inl rfl
theorem WordShape.ld32 (d a b : Reg) (g : Guard) : WordShape.Statement (.ld32 d a b g) := Or.inl rfl
theorem WordShape.ld64 (d a b : Reg) (g : Guard) : WordShape.Statement (.ld64 d a b g) := Or.inl rfl
theorem WordShape.ld128 (d a b : Reg) (g : Guard) : WordShape.Statement (.ld128 d a b g) := Or.inl rfl
theorem WordShape.st8 (d a b : Reg) (g : Guard) : WordShape.Statement (.st8 d a b g) := Or.inl rfl
theorem WordShape.st16 (d a b : Reg) (g : Guard) : WordShape.Statement (.st16 d a b g) := Or.inl rfl
theorem WordShape.st32 (d a b : Reg) (g : Guard) : WordShape.Statement (.st32 d a b g) := Or.inl rfl
theorem WordShape.st64 (d a b : Reg) (g : Guard) : WordShape.Statement (.st64 d a b g) := Or.inl rfl
theorem WordShape.st128 (d a b : Reg) (g : Guard) : WordShape.Statement (.st128 d a b g) := Or.inl rfl
theorem WordShape.ldc (d a b : Reg) (g : Guard) : WordShape.Statement (.ldc d a b g) := Or.inl rfl
theorem WordShape.tld (d a b : Reg) (g : Guard) : WordShape.Statement (.tld d a b g) := Or.inl rfl
theorem WordShape.tst (d a b : Reg) (g : Guard) : WordShape.Statement (.tst d a b g) := Or.inl rfl
theorem WordShape.pftL1 (a b : Reg) (g : Guard) : WordShape.Statement (.pftL1 a b g) := Or.inl rfl
theorem WordShape.pftLlc (a b : Reg) (g : Guard) : WordShape.Statement (.pftLlc a b g) := Or.inl rfl
theorem WordShape.cflushWb (a : Reg) (g : Guard) : WordShape.Statement (.cflushWb a g) := Or.inl rfl
theorem WordShape.cflushInv (a : Reg) (g : Guard) : WordShape.Statement (.cflushInv a g) := Or.inl rfl
theorem WordShape.cflushWbinv (a : Reg) (g : Guard) : WordShape.Statement (.cflushWbinv a g) := Or.inl rfl
theorem WordShape.atom (d a b : Reg) (g : Guard) : WordShape.Statement (.atom d a b g) := Or.inl rfl
theorem WordShape.atomc (d a b : Reg) (g : Guard) : WordShape.Statement (.atomc d a b g) := Or.inl rfl
theorem WordShape.red (d a b : Reg) (g : Guard) : WordShape.Statement (.red d a b g) := Or.inl rfl
theorem WordShape.agginc (d a b : Reg) (g : Guard) : WordShape.Statement (.agginc d a b g) := Or.inl rfl
theorem WordShape.fence (d : Reg) (s k : BitVec 3) : WordShape.Statement (.fence d s k) := Or.inl rfl
theorem WordShape.txb (i : BitVec 21) : WordShape.Statement (.txb i) := Or.inl rfl
theorem WordShape.txe : WordShape.Statement .txe := Or.inl rfl
theorem WordShape.orelse (i : BitVec 21) : WordShape.Statement (.orelse i) := Or.inl rfl
theorem WordShape.retry (g : Guard) : WordShape.Statement (.retry g) := Or.inl rfl
theorem WordShape.txa (a : Reg) (g : Guard) : WordShape.Statement (.txa a g) := Or.inl rfl
theorem WordShape.txq (d : Reg) (g : Guard) : WordShape.Statement (.txq d g) := Or.inl rfl
theorem WordShape.phreg (d a : Reg) (g : Guard) : WordShape.Statement (.phreg d a g) := Or.inl rfl
theorem WordShape.phdrop (d a : Reg) (g : Guard) : WordShape.Statement (.phdrop d a g) := Or.inl rfl
theorem WordShape.pharr (d a : Reg) (g : Guard) : WordShape.Statement (.pharr d a g) := Or.inl rfl
theorem WordShape.phrd (d a : Reg) (g : Guard) : WordShape.Statement (.phrd d a g) := Or.inl rfl
theorem WordShape.tagany (p : Pred) (a : Reg) (g : Guard) : WordShape.Statement (.tagany p a g) := Or.inl rfl
theorem WordShape.tagall (p : Pred) (a : Reg) (g : Guard) : WordShape.Statement (.tagall p a g) := Or.inl rfl
theorem WordShape.tagff (d a : Reg) (g : Guard) : WordShape.Statement (.tagff d a g) := Or.inl rfl
theorem WordShape.tagclr (a : Reg) (g : Guard) : WordShape.Statement (.tagclr a g) := Or.inl rfl
theorem WordShape.xkick (d a : Reg) (g : Guard) : WordShape.Statement (.xkick d a g) := Or.inl rfl
theorem WordShape.xcancel (d a : Reg) (g : Guard) : WordShape.Statement (.xcancel d a g) := Or.inl rfl
theorem WordShape.xstat (d a : Reg) (g : Guard) : WordShape.Statement (.xstat d a g) := Or.inl rfl
theorem WordShape.publish (d a : Reg) (g : Guard) : WordShape.Statement (.publish d a g) := Or.inl rfl
theorem WordShape.mlds (a b : Reg) : WordShape.Statement (.mlds a b) := Or.inl rfl
theorem WordShape.mswp (a b : Reg) : WordShape.Statement (.mswp a b) := Or.inl rfl
theorem WordShape.mstr (a b : Reg) : WordShape.Statement (.mstr a b) := Or.inl rfl
theorem WordShape.mdrn (a b : Reg) : WordShape.Statement (.mdrn a b) := Or.inl rfl
theorem WordShape.mzero (a b : Reg) : WordShape.Statement (.mzero a b) := Or.inl rfl
theorem WordShape.mrd (d a : Reg) (g : Guard) : WordShape.Statement (.mrd d a g) := Or.inl rfl
theorem WordShape.mwr (d a : Reg) (g : Guard) : WordShape.Statement (.mwr d a g) := Or.inl rfl
theorem WordShape.zld (d a b : Reg) (g : Guard) : WordShape.Statement (.zld d a b g) := Or.inl rfl
theorem WordShape.zst (d a b : Reg) (g : Guard) : WordShape.Statement (.zst d a b g) := Or.inl rfl
theorem WordShape.zqry (d a : Reg) (g : Guard) : WordShape.Statement (.zqry d a g) := Or.inl rfl
theorem WordShape.zver (d a : Reg) (g : Guard) : WordShape.Statement (.zver d a g) := Or.inl rfl
theorem WordShape.tqry (d a : Reg) (g : Guard) : WordShape.Statement (.tqry d a g) := Or.inl rfl
theorem WordShape.ctinv (d a : Reg) (g : Guard) : WordShape.Statement (.ctinv d a g) := Or.inl rfl
theorem WordShape.ctloadCt (s : BitVec 3) (a b : Reg) (g : Guard) : WordShape.Statement (.ctloadCt s a b g) :=
  Or.inl rfl
theorem WordShape.ctloadCb (s : BitVec 3) (a b : Reg) (g : Guard) : WordShape.Statement (.ctloadCb s a b g) :=
  Or.inl rfl
theorem WordShape.recfence (a : Reg) (g : Guard) : WordShape.Statement (.recfence a g) := Or.inl rfl
theorem WordShape.shfence (a : Reg) (g : Guard) : WordShape.Statement (.shfence a g) := Or.inl rfl
theorem WordShape.launch (d a b : Reg) (g : Guard) : WordShape.Statement (.launch d a b g) := Or.inl rfl
theorem WordShape.cntrd (d a : Reg) (g : Guard) : WordShape.Statement (.cntrd d a g) := Or.inl rfl
theorem WordShape.cancel (d a : Reg) (g : Guard) : WordShape.Statement (.cancel d a g) := Or.inl rfl
theorem WordShape.qput (p : Pred) (a : Reg) (q : BitVec 6) (g : Guard) : WordShape.Statement (.qput p a q g) :=
  Or.inl rfl
theorem WordShape.qtake (d : Reg) (p : Pred) (q : BitVec 6) (g : Guard) : WordShape.Statement (.qtake d p q g) :=
  Or.inl rfl
theorem WordShape.srd (d : Reg) (i : BitVec 11) : WordShape.Statement (.srd d i) := Or.inl rfl
theorem WordShape.swr (a : Reg) (i : BitVec 11) : WordShape.Statement (.swr a i) := Or.inl rfl
theorem WordShape.segld (a : Reg) (s : BitVec 3) : WordShape.Statement (.segld a s) := Or.inl rfl
theorem WordShape.grprd (d a : Reg) (g : Guard) : WordShape.Statement (.grprd d a g) := Or.inl rfl
theorem WordShape.grpwr (d a : Reg) (g : Guard) : WordShape.Statement (.grpwr d a g) := Or.inl rfl
theorem WordShape.grpres (d a : Reg) (g : Guard) : WordShape.Statement (.grpres d a g) := Or.inl rfl
theorem WordShape.tret (g : Guard) : WordShape.Statement (.tret g) := Or.inl rfl
theorem WordShape.tlbinv (a : Reg) (g : Guard) : WordShape.Statement (.tlbinv a g) := Or.inl rfl
theorem WordShape.tlbinv2 (a : Reg) (g : Guard) : WordShape.Statement (.tlbinv2 a g) := Or.inl rfl
theorem WordShape.xlate (d a : Reg) (g : Guard) : WordShape.Statement (.xlate d a g) := Or.inl rfl
theorem WordShape.phstart (d a : Reg) (g : Guard) : WordShape.Statement (.phstart d a g) := Or.inl rfl
theorem WordShape.asyncFaultTake (warp : Nat) : WordShape.Statement (.asyncFaultTake warp) := Or.inr rfl
theorem WordShape.loadArrival (warp reg : Nat) : WordShape.Statement (.loadArrival warp reg) := Or.inr rfl
theorem WordShape.joinTimeout (warp : Nat) : WordShape.Statement (.joinTimeout warp) := Or.inr rfl
theorem WordShape.urgencyCompare (team : Nat) : WordShape.Statement (.urgencyCompare team) := Or.inr rfl
theorem WordShape.poolPressure (core : Nat) : WordShape.Statement (.poolPressure core) := Or.inr rfl
theorem WordShape.pipelineSample (graph : Nat) : WordShape.Statement (.pipelineSample graph) := Or.inr rfl
theorem WordShape.groupPlace (part : Nat) : WordShape.Statement (.groupPlace part) := Or.inr rfl
theorem WordShape.heldStart (job : Nat) : WordShape.Statement (.heldStart job) := Or.inr rfl
theorem WordShape.launchStart (graph node : Nat) : WordShape.Statement (.launchStart graph node) := Or.inr rfl
theorem WordShape.groupComplete (group : Nat) : WordShape.Statement (.groupComplete group) := Or.inr rfl
theorem WordShape.budgetOverrun (job : Nat) : WordShape.Statement (.budgetOverrun job) := Or.inr rfl
theorem WordShape.deadlineExpiry (job : Nat) : WordShape.Statement (.deadlineExpiry job) := Or.inr rfl
theorem WordShape.copyComplete (core copy : Nat) : WordShape.Statement (.copyComplete core copy) := Or.inr rfl
theorem WordShape.followOnIssue (core copy : Nat) : WordShape.Statement (.followOnIssue core copy) := Or.inr rfl
theorem WordShape.shadowCopyStart (core copy : Nat) : WordShape.Statement (.shadowCopyStart core copy) := Or.inr rfl
theorem WordShape.collectiveAccept (group : Nat) : WordShape.Statement (.collectiveAccept group) := Or.inr rfl
theorem WordShape.collectiveTimeout (group : Nat) : WordShape.Statement (.collectiveTimeout group) := Or.inr rfl
theorem WordShape.mstrBackground (core : Nat) : WordShape.Statement (.mstrBackground core) := Or.inr rfl
theorem WordShape.drainBackground (core : Nat) : WordShape.Statement (.drainBackground core) := Or.inr rfl
theorem WordShape.seamDecode (core : Nat) : WordShape.Statement (.seamDecode core) := Or.inr rfl
theorem WordShape.slabEncode (core copy : Nat) : WordShape.Statement (.slabEncode core copy) := Or.inr rfl
theorem WordShape.decoderPendingWake (core : Nat) : WordShape.Statement (.decoderPendingWake core) := Or.inr rfl
theorem WordShape.warpWake (warp : Nat) : WordShape.Statement (.warpWake warp) := Or.inr rfl
theorem WordShape.txAbortDeliver (warp : Nat) : WordShape.Statement (.txAbortDeliver warp) := Or.inr rfl
theorem WordShape.conflictBackoffEnd (warp : Nat) : WordShape.Statement (.conflictBackoffEnd warp) := Or.inr rfl
theorem WordShape.pageWalkComplete (core : Nat) : WordShape.Statement (.pageWalkComplete core) := Or.inr rfl
theorem WordShape.migratingRewalk (warp : Nat) : WordShape.Statement (.migratingRewalk warp) := Or.inr rfl
theorem WordShape.wcbAgeDrain (core : Nat) : WordShape.Statement (.wcbAgeDrain core) := Or.inr rfl
theorem WordShape.remoteAccess (msg : PeerMsg) : WordShape.Statement (.remoteAccess msg) := Or.inr rfl
theorem WordShape.peerFailed (peer : Nat) : WordShape.Statement (.peerFailed peer) := Or.inr rfl
theorem WordShape.groupCaptured (group : Nat) : WordShape.Statement (.groupCaptured group) := Or.inr rfl
theorem WordShape.vencAccept (core copy : Nat) : WordShape.Statement (.vencAccept core copy) := Or.inr rfl
theorem WordShape.vencFrameStart (enc slot : Nat) : WordShape.Statement (.vencFrameStart enc slot) := Or.inr rfl
theorem WordShape.vencFrameDone (enc slot : Nat) : WordShape.Statement (.vencFrameDone enc slot) := Or.inr rfl
theorem WordShape.illegalInstruction (word : Word) : WordShape.Statement (.illegalInstruction word) := Or.inr rfl
theorem WordShape.instructionFetchFault : WordShape.Statement .instructionFetchFault := Or.inr rfl
theorem WordShape.intakeComplete (core : Nat) : WordShape.Statement (.intakeComplete core) := Or.inr rfl
theorem WordShape.writePerformed (core index : Nat) : WordShape.Statement (.writePerformed core index) := Or.inr rfl
theorem WordShape.reduceContribution (c : Contribution) : WordShape.Statement (.reduceContribution c) := Or.inr rfl
theorem WordShape.memoRemovalMessage (chip : Nat) : WordShape.Statement (.memoRemovalMessage chip) := Or.inr rfl
theorem WordShape.flitReceive (port link : Nat) (flit : Flit) : WordShape.Statement (.flitReceive port link flit) :=
  Or.inr rfl
theorem WordShape.idleFlit (port link : Nat) : WordShape.Statement (.idleFlit port link) := Or.inr rfl
theorem WordShape.linkDown (port link : Nat) : WordShape.Statement (.linkDown port link) := Or.inr rfl
theorem WordShape.linkTraining (port link farChip farPort : Nat) : WordShape.Statement (.linkTraining port link farChip farPort) :=
  Or.inr rfl
theorem WordShape.hostMemAccess (addr : Nat) (access : BusOp) : WordShape.Statement (.hostMemAccess addr access) :=
  Or.inr rfl
theorem WordShape.bar2Access (part addr : Nat) (access : BusOp) : WordShape.Statement (.bar2Access part addr access) :=
  Or.inr rfl
theorem WordShape.doorbell (part : Nat) (value : DWord) : WordShape.Statement (.doorbell part value) := Or.inr rfl
theorem WordShape.install (part addr : Nat) : WordShape.Statement (.install part addr) := Or.inr rfl
theorem WordShape.remove (part jobno : Nat) : WordShape.Statement (.remove part jobno) := Or.inr rfl
theorem WordShape.phasestart (part addr : Nat) : WordShape.Statement (.phasestart part addr) := Or.inr rfl
theorem WordShape.hostCancel (part : Nat) (operand : DWord) (jobno : Nat) : WordShape.Statement (.hostCancel part operand jobno) :=
  Or.inr rfl
theorem WordShape.release (part jobno : Nat) : WordShape.Statement (.release part jobno) := Or.inr rfl
theorem WordShape.failedClear (part : Nat) (mask : BitVec 16) : WordShape.Statement (.failedClear part mask) :=
  Or.inr rfl
theorem WordShape.registerWrite (part offset : Nat) (value : DWord) : WordShape.Statement (.registerWrite part offset value) :=
  Or.inr rfl
theorem WordShape.rdreg (part offset : Nat) : WordShape.Statement (.rdreg part offset) := Or.inr rfl
theorem WordShape.wrreg (part offset : Nat) (value : DWord) : WordShape.Statement (.wrreg part offset value) :=
  Or.inr rfl
theorem WordShape.preempt (part : Nat) : WordShape.Statement (.preempt part) := Or.inr rfl
theorem WordShape.holdWrite (part : Nat) (hold : Bool) : WordShape.Statement (.holdWrite part hold) := Or.inr rfl
theorem WordShape.logovfClear (part : Nat) : WordShape.Statement (.logovfClear part) := Or.inr rfl
theorem WordShape.partcfgWrite (numbers : List Nat) : WordShape.Statement (.partcfgWrite numbers) := Or.inr rfl
theorem WordShape.nodecfgWrite (cfg : NodeCfg) : WordShape.Statement (.nodecfgWrite cfg) := Or.inr rfl
theorem WordShape.keyload (slot owner : Nat) (key : BitVec 512) (bypass : Bool) : WordShape.Statement (.keyload slot owner key bypass) :=
  Or.inr rfl
theorem WordShape.keyclr (slot : Nat) : WordShape.Statement (.keyclr slot) := Or.inr rfl
theorem WordShape.attest (nonce : BitVec 384) (part : Nat) : WordShape.Statement (.attest nonce part) := Or.inr rfl
theorem WordShape.preset (part : Nat) : WordShape.Statement (.preset part) := Or.inr rfl
theorem WordShape.telem (die : Nat) : WordShape.Statement (.telem die) := Or.inr rfl
theorem WordShape.svnup : WordShape.Statement .svnup := Or.inr rfl
theorem WordShape.powerOn (image : List Byte) : WordShape.Statement (.powerOn image) := Or.inr rfl
theorem WordShape.deviceReset (image : List Byte) : WordShape.Statement (.deviceReset image) := Or.inr rfl
theorem WordShape.frameSyncEdge (part : Nat) : WordShape.Statement (.frameSyncEdge part) := Or.inr rfl
theorem WordShape.clockLower (part : Nat) : WordShape.Statement (.clockLower part) := Or.inr rfl
theorem WordShape.clockRaise (part : Nat) : WordShape.Statement (.clockRaise part) := Or.inr rfl
theorem WordShape.thermalThreshold (die tenths : Nat) : WordShape.Statement (.thermalThreshold die tenths) := Or.inr rfl
theorem WordShape.hbmEccError (line : Nat) (correctable : Bool) : WordShape.Statement (.hbmEccError line correctable) :=
  Or.inr rfl
theorem WordShape.preemptRequest (group : Nat) : WordShape.Statement (.preemptRequest group) := Or.inr rfl
theorem WordShape.carveWrite (part die ways : Nat) : WordShape.Statement (.carveWrite part die ways) := Or.inr rfl
theorem WordShape.cxlCacheSnoop (line : Nat) (invalidate : Bool) : WordShape.Statement (.cxlCacheSnoop line invalidate) :=
  Or.inr rfl

end Sys2Proof.Laws
end

