-- ==== Sys2Proof/Tests/Slice0.lean ====
section
/-!
SUPPORT. Tests of the model, each on a small state: decoding of a word of every instruction, the WellFormed smoke test,
one step of an instruction of each family with the result the spec gives, and, for every statement with hypotheses, a
state and operands that meet them (witness_<statement>).
-/
namespace Sys2Proof.Tests
open Sys2Proof Sys2Proof.Machine
set_option Elab.async false

-- The state of the tests

/-- A user-level warp of 32 live lanes, all in the issuing stream, with a 4 KiB page of memory at 0x10000 that may hold
slabs, a TLB entry for it, stacks of 64 bytes in its lower half, 4 KiB of scratchpad, and a valid handler image. -/
def t0 : State :=
  let s : State := State.reset.withProgram 0
  let s : State := { s with
    agenda := [], lanes := BitVec.allOnes 32, mem := Memory.write s.mem 0x4080 (leBytes 8 0x598F)
    warp := { s.warp with frame := { s.warp.frame with
      segs := List.replicate 6 (0, 0x100000000), stklim := 64, sds := List.replicate 32 8 } }
    group := { s.group with scratchLen := 4096, tags := List.replicate 4 { out := 0, done := true, err := false, code := 0, cflags := 0 } }
    launches := s.launches.map fun l => { l with glimit := 0x10000, stack := 64 } }
  useTranslation s.job 0x10000 accRead (s.updPart 0 fun p => { p with hbase := 0x20001 })

/-- A word in every lane of a register. -/
def reg (r : Nat) (v : Word) (s : State) : State :=
  s.updFrame fun f => { f with regs := amPut r { words := lanesOf fun _ => v, poison := 0 } f.regs }

/-- A word for each lane of a register. -/
def regs (r : Nat) (v : Nat → Word) (s : State) : State :=
  s.updFrame fun f => { f with regs := amPut r { words := lanesOf v, poison := 0 } f.regs }

/-- The issuing warp at another level. -/
def level (l : Level) (s : State) : State := { s with warp := { s.warp with level := l } }

/-- A transaction state in the issuing warp. -/
def tx (f : Tx → Tx) (s : State) : State := s.updFrame fun x => { x with tx := f x.tx }

/-- Only lane 0 issues. -/
def lane0 (s : State) : State := { s with lanes := 1 }

-- Deciding the hypotheses of the statements

/-- Executable, decided. -/
def canRun (i : Instr) (s : State) : Bool :=
  decide ((levelNeeded i).1 ≤ s.warp.level.rank ∧ guardOf i ≠ 8 ∧ wellFormed i = true ∧ pairsOk i = true ∧
    (s.frame.tx.active = true → unsupported i = true → activeOf i s = 0) ∧
    (∀ u ∈ usesOf i (activeOf i s) s, u.2 &&& (s.frame.reg (s.arch u.1)).poison = 0) ∧
    (s.frame.tx.active = true → s.together = true ∧ s.frame.live &&& ~~~s.lanes = 0))

theorem canRun_sound {i : Instr} {s : State} (h : canRun i s = true) : Executable i s :=
  let p := of_decide_eq_true h
  ⟨p.1, p.2.1, p.2.2.1, p.2.2.2.1, p.2.2.2.2.1, p.2.2.2.2.2.1, p.2.2.2.2.2.2⟩

theorem runs {xs : List Instr} {s : State} (h : (xs.all fun i => canRun i s) = true) : ∀ i ∈ xs, Executable i s :=
  fun i hi => canRun_sound (List.all_eq_true.mp h i hi)

/-- A property of every value an option may hold, decided. -/
def onSome {α : Type} (x : Option α) (p : α → Bool) : Bool :=
  match x with
  | some v => p v
  | none => true

theorem onSome_sound {α : Type} {x : Option α} {p : α → Bool} (h : onSome x p = true) (v : α) (e : x = some v) :
    p v = true := by
  subst e
  exact h

/-- Direct, decided. -/
def isDirect (acc : Acc) (as : List LaneAcc) (s : State) : Bool :=
  !s.frame.tx.active && s.core.pend.isEmpty && (s.cores.all fun c => c.pend.all fun e => !(e.observed s)) && !s.delay && as.all (fun a => a.pieces.all fun p =>
    !p.remote s &&
    (match p.loc with | .mem x => (List.range p.n).all fun k => lineOf (x + k) == lineOf x | _ => true) &&
    (p.leaf.isNone || (p.through.isNone && (s.core.tlb.any fun e => tlbFind s.core s.job.uid p.va == some e && tlbServes acc e.leaf))) &&
    (match p.leaf, p.loc with
      | some lf, .mem x => onSome (epochFor s lf p.va) fun e => (amGet s.epochs (lineOf x)).getD 0 == e
      | _, _ => true)) &&
  (s.core.l1 ++ s.core.ccache).isEmpty && as.all (fun a => a.pieces.all fun p => as.all fun b => b.pieces.all fun q =>
    match p.loc, q.loc with
    | .mem x, .mem y => p.va / 128 != q.va / 128 || lineOf x == lineOf y
    | _, _ => true)

theorem isDirect_sound {acc : Acc} {as : List LaneAcc} {s : State} (h : isDirect acc as s = true) : Direct acc as s := by
  simp only [isDirect, Bool.and_eq_true, Bool.not_eq_true', List.all_eq_true, List.isEmpty_iff] at h
  obtain ⟨⟨⟨⟨⟨⟨h1, h2⟩, hs⟩, h3⟩, h4⟩, h5⟩, h6⟩ := h
  rw [List.append_eq_nil_iff] at h5
  refine ⟨h1, h2, hs, h3, fun a ha p hp => (h4 a ha p hp).1.1.1, ?_, ?_, ?_, ?_, ?_, ?_⟩
  · intro a ha p hp x k hx hk
    have := (h4 a ha p hp).1.1.2
    rw [hx] at this
    simpa using List.all_eq_true.mp this k (List.mem_range.mpr hk)
  · intro a ha p hp hl
    have := (h4 a ha p hp).1.2
    rw [Bool.or_eq_true] at this
    rcases this with hn | hr
    · rw [Option.isNone_iff_eq_none] at hn
      rw [hn] at hl
      cases hl
    · rw [Bool.and_eq_true, List.any_eq_true] at hr
      obtain ⟨ht, e, _, he⟩ := hr
      rw [Bool.and_eq_true, beq_iff_eq] at he
      exact ⟨Option.isNone_iff_eq_none.mp ht, e, he.1, he.2⟩
  · intro a ha p hp lf x e hl hx he
    have := (h4 a ha p hp).2
    rw [hl, hx] at this
    simpa using onSome_sound this e he
  · intro c hc
    rw [h5.1] at hc
    cases hc
  · intro _ _ _ _ _ _ c hc
    rw [h5.2] at hc
    cases hc
  · intro a ha p hp b hb q hq x y hx hy hv
    have := h6 a ha p hp b hb q hq
    rw [hx, hy] at this
    simpa [hv] using this

/-- Reached, decided. -/
def isReached (s t : State) : Bool :=
  decide (t = { s.withReached t with
    warp := { (s.withReached t).warp with
      hold := { s.warp.hold with records := t.warp.hold.records, entries := t.warp.hold.entries } }
    core := { (s.withReached t).core with l1 := t.core.l1 } } ∧
    t.warp.staging.map (fun e => { e with key := none }) = s.warp.staging.map (fun e => { e with key := none }) ∧
    t.warp.frame.stuck.map (fun e => { e with key := none }) = s.warp.frame.stuck.map (fun e => { e with key := none }) ∧
    t.warp.saved.map Frame.unshared = s.warp.saved.map Frame.unshared ∧
    t.warps.map Warp.unshared = s.warps.map Warp.unshared ∧ t.cores.map Core.unshared = s.cores.map Core.unshared ∧
    ∀ c ∈ t.core.l1, c ∈ s.core.l1)

theorem isReached_sound {s t : State} (h : isReached s t = true) : Reached s t :=
  let p := of_decide_eq_true h
  ⟨p.1, ⟨p.2.1, p.2.2.1, p.2.2.2.1⟩, p.2.2.2.2.1, p.2.2.2.2.2.1, p.2.2.2.2.2.2⟩

/-- A computation answers a value of which a decided property holds. -/
def okB {ε α : Type} (x : Except ε α) (p : α → Bool) : Bool :=
  match x with
  | .ok v => p v
  | .error _ => false

theorem okWith {ε α : Type} {x : Except ε α} (p : α → Bool) (h : okB x p = true) : ∃ v, x = .ok v ∧ p v = true := by
  cases x with
  | ok v => exact ⟨v, rfl, h⟩
  | error _ => cases h

theorem okIs {ε α : Type} [BEq α] [LawfulBEq α] {x : Except ε α} {v : α} (h : okB x (· == v) = true) : x = .ok v := by
  obtain ⟨y, e, hy⟩ := okWith (· == v) h
  rw [e, eq_of_beq hy]

/-- An option holds a value of which a decided property holds. -/
def someB {α : Type} (x : Option α) (p : α → Bool) : Bool :=
  match x with
  | some v => p v
  | none => false

theorem someWith {α : Type} {x : Option α} (p : α → Bool) (h : someB x p = true) : ∃ v, x = some v ∧ p v = true := by
  cases x with
  | some v => exact ⟨v, rfl, h⟩
  | none => cases h

theorem test_decode_1 :
    decode 0x00000000 = .ok .nop ∧ decode 0x031D6B9B = .ok (.iadd 0x47 0x2d 0x39 0xb) ∧
    decode 0x051D6B9B = .ok (.isub 0x47 0x2d 0x39 0xb) ∧ decode 0x071D6B9B = .ok (.imul 0x47 0x2d 0x39 0xb) ∧
    decode 0x091D6B9B = .ok (.imulhS 0x47 0x2d 0x39 0xb) ∧ decode 0x0B1D6B9B = .ok (.imulhN 0x47 0x2d 0x39 0xb) ∧
    decode 0x0D1D6B9B = .ok (.imad 0x47 0x2d 0x39 0xb) ∧ decode 0x0F1D6B9B = .ok (.imadwS 0x47 0x2d 0x39 0xb) ∧
    decode 0x111D6B9B = .ok (.imadwN 0x47 0x2d 0x39 0xb) ∧ decode 0x131D6B9B = .ok (.iadd64 0x47 0x2d 0x39 0xb) ∧
    decode 0x151D6B9B = .ok (.isub64 0x47 0x2d 0x39 0xb) ∧ decode 0x171D6B9B = .ok (.iminS 0x47 0x2d 0x39 0xb) ∧
    decode 0x191D6B9B = .ok (.iminN 0x47 0x2d 0x39 0xb) ∧ decode 0x1B1D6B9B = .ok (.imaxS 0x47 0x2d 0x39 0xb) ∧
    decode 0x1D1D6B9B = .ok (.imaxN 0x47 0x2d 0x39 0xb) ∧ decode 0x1F1D6B9B = .ok (.ishl 0x47 0x2d 0x39 0xb) ∧
    decode 0x211D6B9B = .ok (.ishr 0x47 0x2d 0x39 0xb) ∧ decode 0x231D6B9B = .ok (.isar 0x47 0x2d 0x39 0xb) ∧
    decode 0x251D6B9B = .ok (.irot 0x47 0x2d 0x39 0xb) ∧ decode 0x271D6B9B = .ok (.and 0x47 0x2d 0x39 0xb) ∧
    decode 0x291D6B9B = .ok (.or 0x47 0x2d 0x39 0xb) ∧ decode 0x2B1D6B9B = .ok (.xor 0x47 0x2d 0x39 0xb) ∧
    decode 0x2D1D6B9B = .ok (.andn 0x47 0x2d 0x39 0xb) := by
  refine ⟨?_, ?_, ?_, ?_, ?_, ?_, ?_, ?_, ?_, ?_, ?_, ?_, ?_, ?_, ?_, ?_, ?_, ?_, ?_, ?_, ?_, ?_, ?_⟩ <;> rfl

theorem test_decode_2 :
    decode 0x2F1D6B9B = .ok (.bfxS 0x47 0x2d 0x39 0xb) ∧ decode 0x311D6B9B = .ok (.bfxN 0x47 0x2d 0x39 0xb) ∧
    decode 0x331D6B9B = .ok (.bfi 0x47 0x2d 0x39 0xb) ∧ decode 0x351D6B9B = .ok (.bperm 0x47 0x2d 0x39 0xb) ∧
    decode 0x371D6B9B = .ok (.isel 0x47 0x2d 0x39 0xb) ∧ decode 0x38CD6B9B = .ok (.icmp 6 3 0x2d 0x39 0xb) ∧
    decode 0x3B1D680B = .ok (.mov 0x47 0x2d 0xb) ∧ decode 0x3B1D681B = .ok (.not 0x47 0x2d 0xb) ∧
    decode 0x3B1D682B = .ok (.ineg 0x47 0x2d 0xb) ∧ decode 0x3B1D683B = .ok (.iabs 0x47 0x2d 0xb) ∧
    decode 0x3B1D684B = .ok (.popc 0x47 0x2d 0xb) ∧ decode 0x3B1D685B = .ok (.clz 0x47 0x2d 0xb) ∧
    decode 0x3B1D686B = .ok (.brev 0x47 0x2d 0xb) ∧ decode 0x3B1D687B = .ok (.sext8 0x47 0x2d 0xb) ∧
    decode 0x3B1D688B = .ok (.sext16 0x47 0x2d 0xb) ∧ decode 0x3B1D689B = .ok (.zext8 0x47 0x2d 0xb) ∧
    decode 0x3B1D68AB = .ok (.zext16 0x47 0x2d 0xb) ∧ decode 0x3C1DA80B = .ok (.pand 7 6 5 0xb) ∧
    decode 0x3C1DA81B = .ok (.por 7 6 5 0xb) ∧ decode 0x3C1DA82B = .ok (.pxor 7 6 5 0xb) ∧
    decode 0x3C1C283B = .ok (.pnot 7 5 0xb) ∧ decode 0x3D1C004B = .ok (.p2v 0x47 0xb) ∧
    decode 0x3C01685B = .ok (.v2p 0x2d 0xb) := by
  refine ⟨?_, ?_, ?_, ?_, ?_, ?_, ?_, ?_, ?_, ?_, ?_, ?_, ?_, ?_, ?_, ?_, ?_, ?_, ?_, ?_, ?_, ?_, ?_⟩ <;> rfl

theorem test_decode_3 :
    decode 0x3C1D686B = .ok (.pset 7 0x2d 0xb) ∧ decode 0x411D6AA5 = .ok (.iaddi 0x47 0x2d 0x2a5) ∧
    decode 0x431D6AA5 = .ok (.imuli 0x47 0x2d 0x2a5) ∧ decode 0x451D6AA5 = .ok (.andi 0x47 0x2d 0x2a5) ∧
    decode 0x471D6AA5 = .ok (.ori 0x47 0x2d 0x2a5) ∧ decode 0x491D6AA5 = .ok (.xori 0x47 0x2d 0x2a5) ∧
    decode 0x4B1D6813 = .ok (.shli 0x47 0x2d 0x13) ∧ decode 0x4D1D6813 = .ok (.shri 0x47 0x2d 0x13) ∧
    decode 0x4F1D6813 = .ok (.sari 0x47 0x2d 0x13) ∧ decode 0x50CD6AA5 = .ok (.icmpi 6 3 0x2d 0x2a5) ∧
    decode 0x531E01A5 = .ok (.movl 0x47 0x201a5) ∧ decode 0x551E01A5 = .ok (.movh 0x47 0x201a5) ∧
    decode 0x577001A5 = .ok (.bra 0xb 0x1001a5) ∧ decode 0x597001A5 = .ok (.call 0xb 0x1001a5) ∧
    decode 0x5A01680B = .ok (.brx 0x2d 0xb) ∧ decode 0x5C01680B = .ok (.callx 0x2d 0xb) ∧
    decode 0x5E00000B = .ok (.ret 0xb) ∧ decode 0x6000000B = .ok (.exit 0xb) ∧
    decode 0x621001A5 = .ok (.join 0x1001a5) ∧ decode 0x640002A5 = .ok (.winb 0x2a5) ∧
    decode 0x660002A5 = .ok (.trap 0x2a5) ∧ decode 0x680002A5 = .ok (.bpt 0x2a5) ∧
    decode 0x6A02E060 = .ok (.xt 5 6 3) := by
  refine ⟨?_, ?_, ?_, ?_, ?_, ?_, ?_, ?_, ?_, ?_, ?_, ?_, ?_, ?_, ?_, ?_, ?_, ?_, ?_, ?_, ?_, ?_, ?_⟩ <;> rfl

theorem test_decode_4 :
    decode 0x6D1D6B9B = .ok (.fadd 0x47 0x2d 0x39 0xb) ∧ decode 0x6F1D6B9B = .ok (.fsub 0x47 0x2d 0x39 0xb) ∧
    decode 0x711D6B9B = .ok (.fmul 0x47 0x2d 0x39 0xb) ∧ decode 0x731D6B9B = .ok (.ffma 0x47 0x2d 0x39 0xb) ∧
    decode 0x751D6B9B = .ok (.ffms 0x47 0x2d 0x39 0xb) ∧ decode 0x771D6B9B = .ok (.fmin 0x47 0x2d 0x39 0xb) ∧
    decode 0x791D6B9B = .ok (.fmax 0x47 0x2d 0x39 0xb) ∧ decode 0x7ACD6B9B = .ok (.fcmp 6 3 0x2d 0x39 0xb) ∧
    decode 0x7D1D6B9B = .ok (.fdiv 0x47 0x2d 0x39 0xb) ∧ decode 0x7F1D6B9B = .ok (.fscale 0x47 0x2d 0x39 0xb) ∧
    decode 0x811D6B9B = .ok (.hadd2 0x47 0x2d 0x39 0xb) ∧ decode 0x831D6B9B = .ok (.hmul2 0x47 0x2d 0x39 0xb) ∧
    decode 0x851D6B9B = .ok (.hfma2 0x47 0x2d 0x39 0xb) ∧ decode 0x871D6B9B = .ok (.badd2 0x47 0x2d 0x39 0xb) ∧
    decode 0x891D6B9B = .ok (.bmul2 0x47 0x2d 0x39 0xb) ∧ decode 0x8B1D6B9B = .ok (.bfma2 0x47 0x2d 0x39 0xb) ∧
    decode 0x8D1D6B9B = .ok (.fdot4 0x47 0x2d 0x39 0xb) ∧ decode 0x8F1D6B9B = .ok (.fdot4E5 0x47 0x2d 0x39 0xb) ∧
    decode 0x911D680B = .ok (.fabs 0x47 0x2d 0xb) ∧ decode 0x911D681B = .ok (.fneg 0x47 0x2d 0xb) ∧
    decode 0x911D682B = .ok (.frcp 0x47 0x2d 0xb) ∧ decode 0x911D683B = .ok (.fsqrt 0x47 0x2d 0xb) ∧
    decode 0x911D684B = .ok (.frsq 0x47 0x2d 0xb) := by
  refine ⟨?_, ?_, ?_, ?_, ?_, ?_, ?_, ?_, ?_, ?_, ?_, ?_, ?_, ?_, ?_, ?_, ?_, ?_, ?_, ?_, ?_, ?_, ?_⟩ <;> rfl

theorem test_decode_5 :
    decode 0x911D685B = .ok (.fexp2 0x47 0x2d 0xb) ∧ decode 0x911D686B = .ok (.flog2 0x47 0x2d 0xb) ∧
    decode 0x911D687B = .ok (.fsin 0x47 0x2d 0xb) ∧ decode 0x911D688B = .ok (.fcos 0x47 0x2d 0xb) ∧
    decode 0x911D689B = .ok (.ftanh 0x47 0x2d 0xb) ∧ decode 0x911D68AB = .ok (.fsigm 0x47 0x2d 0xb) ∧
    decode 0x911D68BB = .ok (.fclass 0x47 0x2d 0xb) ∧ decode 0x911D68CB = .ok (.frndRn 0x47 0x2d 0xb) ∧
    decode 0x911D68DB = .ok (.frndRz 0x47 0x2d 0xb) ∧ decode 0x911D68EB = .ok (.frndRd 0x47 0x2d 0xb) ∧
    decode 0x911D68FB = .ok (.frndRu 0x47 0x2d 0xb) ∧ decode 0x931D6B9B = .ok (.fcvt 0x47 0x2d 0x39 0xb) ∧
    decode 0x951D6B9B = .ok (.shflIdx 0x47 0x2d 0x39 0xb) ∧ decode 0x971D6B9B = .ok (.shflUp 0x47 0x2d 0x39 0xb) ∧
    decode 0x991D6B9B = .ok (.shflDn 0x47 0x2d 0x39 0xb) ∧ decode 0x9B1D6B9B = .ok (.shflXor 0x47 0x2d 0x39 0xb) ∧
    decode 0x9C1C280B = .ok (.voteAny 7 5 0xb) ∧ decode 0x9C1C281B = .ok (.voteAll 7 5 0xb) ∧
    decode 0x9D1C282B = .ok (.voteBallot 0x47 5 0xb) ∧ decode 0x9D1C283B = .ok (.voteCount 0x47 5 0xb) ∧
    decode 0x9D1D684B = .ok (.redwAddS32 0x47 0x2d 0xb) ∧ decode 0x9D1D685B = .ok (.redwAddF32 0x47 0x2d 0xb) ∧
    decode 0x9D1D686B = .ok (.redwMinS 0x47 0x2d 0xb) := by
  refine ⟨?_, ?_, ?_, ?_, ?_, ?_, ?_, ?_, ?_, ?_, ?_, ?_, ?_, ?_, ?_, ?_, ?_, ?_, ?_, ?_, ?_, ?_, ?_⟩ <;> rfl

theorem test_decode_6 :
    decode 0x9D1D687B = .ok (.redwMinN 0x47 0x2d 0xb) ∧ decode 0x9D1D688B = .ok (.redwMaxS 0x47 0x2d 0xb) ∧
    decode 0x9D1D689B = .ok (.redwMaxN 0x47 0x2d 0xb) ∧ decode 0x9D1D68AB = .ok (.redwMinF 0x47 0x2d 0xb) ∧
    decode 0x9D1D68BB = .ok (.redwMaxF 0x47 0x2d 0xb) ∧ decode 0x9D1D68CB = .ok (.redwAnd 0x47 0x2d 0xb) ∧
    decode 0x9D1D68DB = .ok (.redwOr 0x47 0x2d 0xb) ∧ decode 0x9D1D68EB = .ok (.redwXor 0x47 0x2d 0xb) ∧
    decode 0x9D1D68FB = .ok (.scanwInclS32 0x47 0x2d 0xb) ∧ decode 0x9D1D690B = .ok (.scanwExclS32 0x47 0x2d 0xb) ∧
    decode 0x9D1D691B = .ok (.scanwInclF32 0x47 0x2d 0xb) ∧ decode 0x9D1D692B = .ok (.scanwExclF32 0x47 0x2d 0xb) ∧
    decode 0x9D1D693B = .ok (.matchL 0x47 0x2d 0xb) ∧ decode 0x9C00014B = .ok (.fencew 0xb) ∧
    decode 0xA11D6B9B = .ok (.ldN8 0x47 0x2d 0x39 0xb) ∧ decode 0xA31D6B9B = .ok (.ldS8 0x47 0x2d 0x39 0xb) ∧
    decode 0xA51D6B9B = .ok (.ldN16 0x47 0x2d 0x39 0xb) ∧ decode 0xA71D6B9B = .ok (.ldS16 0x47 0x2d 0x39 0xb) ∧
    decode 0xA91D6B9B = .ok (.ld32 0x47 0x2d 0x39 0xb) ∧ decode 0xAB1D6B9B = .ok (.ld64 0x47 0x2d 0x39 0xb) ∧
    decode 0xAD1D6B9B = .ok (.ld128 0x47 0x2d 0x39 0xb) ∧ decode 0xAF1D6B9B = .ok (.st8 0x47 0x2d 0x39 0xb) ∧
    decode 0xB11D6B9B = .ok (.st16 0x47 0x2d 0x39 0xb) := by
  refine ⟨?_, ?_, ?_, ?_, ?_, ?_, ?_, ?_, ?_, ?_, ?_, ?_, ?_, ?_, ?_, ?_, ?_, ?_, ?_, ?_, ?_, ?_, ?_⟩ <;> rfl

theorem test_decode_7 :
    decode 0xB31D6B9B = .ok (.st32 0x47 0x2d 0x39 0xb) ∧ decode 0xB51D6B9B = .ok (.st64 0x47 0x2d 0x39 0xb) ∧
    decode 0xB71D6B9B = .ok (.st128 0x47 0x2d 0x39 0xb) ∧ decode 0xB91D6B9B = .ok (.ldc 0x47 0x2d 0x39 0xb) ∧
    decode 0xBB1D6B9B = .ok (.tld 0x47 0x2d 0x39 0xb) ∧ decode 0xBD1D6B9B = .ok (.tst 0x47 0x2d 0x39 0xb) ∧
    decode 0xBE016B9B = .ok (.pftL1 0x2d 0x39 0xb) ∧ decode 0xBE056B9B = .ok (.pftLlc 0x2d 0x39 0xb) ∧
    decode 0xC001680B = .ok (.cflushWb 0x2d 0xb) ∧ decode 0xC001681B = .ok (.cflushInv 0x2d 0xb) ∧
    decode 0xC001682B = .ok (.cflushWbinv 0x2d 0xb) ∧ decode 0xC31D6B9B = .ok (.atom 0x47 0x2d 0x39 0xb) ∧
    decode 0xC51D6B9B = .ok (.atomc 0x47 0x2d 0x39 0xb) ∧ decode 0xC71D6B9B = .ok (.red 0x47 0x2d 0x39 0xb) ∧
    decode 0xC91D6B9B = .ok (.agginc 0x47 0x2d 0x39 0xb) ∧ decode 0xCB1C001E = .ok (.fence 0x47 3 6) ∧
    decode 0xCC1001A5 = .ok (.txb 0x1001a5) ∧ decode 0xCE000000 = .ok .txe ∧
    decode 0xD01001A5 = .ok (.orelse 0x1001a5) ∧ decode 0xD200000B = .ok (.retry 0xb) ∧
    decode 0xD201681B = .ok (.txa 0x2d 0xb) ∧ decode 0xD31C002B = .ok (.txq 0x47 0xb) ∧
    decode 0xD51D680B = .ok (.phreg 0x47 0x2d 0xb) := by
  refine ⟨?_, ?_, ?_, ?_, ?_, ?_, ?_, ?_, ?_, ?_, ?_, ?_, ?_, ?_, ?_, ?_, ?_, ?_, ?_, ?_, ?_, ?_, ?_⟩ <;> rfl

theorem test_decode_8 :
    decode 0xD51D681B = .ok (.phdrop 0x47 0x2d 0xb) ∧ decode 0xD51D682B = .ok (.pharr 0x47 0x2d 0xb) ∧
    decode 0xD51D683B = .ok (.phrd 0x47 0x2d 0xb) ∧ decode 0xD60D680B = .ok (.tagany 3 0x2d 0xb) ∧
    decode 0xD60D681B = .ok (.tagall 3 0x2d 0xb) ∧ decode 0xD71D682B = .ok (.tagff 0x47 0x2d 0xb) ∧
    decode 0xD601683B = .ok (.tagclr 0x2d 0xb) ∧ decode 0xD91D680B = .ok (.xkick 0x47 0x2d 0xb) ∧
    decode 0xD91D681B = .ok (.xcancel 0x47 0x2d 0xb) ∧ decode 0xD91D682B = .ok (.xstat 0x47 0x2d 0xb) ∧
    decode 0xD91D683B = .ok (.publish 0x47 0x2d 0xb) ∧ decode 0xDA016B90 = .ok (.mlds 0x2d 0x39) ∧
    decode 0xDA056B90 = .ok (.mswp 0x2d 0x39) ∧ decode 0xDA096B90 = .ok (.mstr 0x2d 0x39) ∧
    decode 0xDA0D6B90 = .ok (.mdrn 0x2d 0x39) ∧ decode 0xDA116B90 = .ok (.mzero 0x2d 0x39) ∧
    decode 0xDD1D680B = .ok (.mrd 0x47 0x2d 0xb) ∧ decode 0xDF1D680B = .ok (.mwr 0x47 0x2d 0xb) ∧
    decode 0xE11D6B9B = .ok (.zld 0x47 0x2d 0x39 0xb) ∧ decode 0xE31D6B9B = .ok (.zst 0x47 0x2d 0x39 0xb) ∧
    decode 0xE51D680B = .ok (.zqry 0x47 0x2d 0xb) ∧ decode 0xE51D681B = .ok (.zver 0x47 0x2d 0xb) ∧
    decode 0xE51D682B = .ok (.tqry 0x47 0x2d 0xb) := by
  refine ⟨?_, ?_, ?_, ?_, ?_, ?_, ?_, ?_, ?_, ?_, ?_, ?_, ?_, ?_, ?_, ?_, ?_, ?_, ?_, ?_, ?_, ?_, ?_⟩ <;> rfl

theorem test_decode_9 :
    decode 0xE51D683B = .ok (.ctinv 0x47 0x2d 0xb) ∧ decode 0xE60D6B9B = .ok (.ctloadCt 3 0x2d 0x39 0xb) ∧
    decode 0xE62D6B9B = .ok (.ctloadCb 3 0x2d 0x39 0xb) ∧ decode 0xE801680B = .ok (.recfence 0x2d 0xb) ∧
    decode 0xE805680B = .ok (.shfence 0x2d 0xb) ∧ decode 0xEB1D6B9B = .ok (.launch 0x47 0x2d 0x39 0xb) ∧
    decode 0xED1D680B = .ok (.cntrd 0x47 0x2d 0xb) ∧ decode 0xED1D681B = .ok (.cancel 0x47 0x2d 0xb) ∧
    decode 0xEE0D6ADB = .ok (.qput 3 0x2d 0x2d 0xb) ∧ decode 0xF11C1ADB = .ok (.qtake 0x47 3 0x2d 0xb) ∧
    decode 0xF31C02A5 = .ok (.srd 0x47 0x2a5) ∧ decode 0xF4016AA5 = .ok (.swr 0x2d 0x2a5) ∧
    decode 0xF6016803 = .ok (.segld 0x2d 3) ∧ decode 0xF91D680B = .ok (.grprd 0x47 0x2d 0xb) ∧
    decode 0xF91D681B = .ok (.grpwr 0x47 0x2d 0xb) ∧ decode 0xF91D682B = .ok (.grpres 0x47 0x2d 0xb) ∧
    decode 0xF800003B = .ok (.tret 0xb) ∧ decode 0xFA01680B = .ok (.tlbinv 0x2d 0xb) ∧
    decode 0xFA01681B = .ok (.tlbinv2 0x2d 0xb) ∧ decode 0xFB1D682B = .ok (.xlate 0x47 0x2d 0xb) ∧
    decode 0xFB1D683B = .ok (.phstart 0x47 0x2d 0xb) := by
  refine ⟨?_, ?_, ?_, ?_, ?_, ?_, ?_, ?_, ?_, ?_, ?_, ?_, ?_, ?_, ?_, ?_, ?_, ?_, ?_, ?_, ?_⟩ <;> rfl

-- WellFormed refuses an ill-formed term for each of its checks (R36, R37, R40, R50)

theorem smoke_guard_1 :
    (([.iadd 1 1 1 8, .isub 1 1 1 8, .imul 1 1 1 8, .imulhS 1 1 1 8, .imulhN 1 1 1 8, .imad 1 1 1 8, .imadwS 1 1 1 8,
      .imadwN 1 1 1 8, .iadd64 1 1 1 8, .isub64 1 1 1 8, .iminS 1 1 1 8, .iminN 1 1 1 8, .imaxS 1 1 1 8,
      .imaxN 1 1 1 8, .ishl 1 1 1 8, .ishr 1 1 1 8, .isar 1 1 1 8, .irot 1 1 1 8, .and 1 1 1 8, .or 1 1 1 8,
      .xor 1 1 1 8, .andn 1 1 1 8, .bfxS 1 1 1 8, .bfxN 1 1 1 8, .bfi 1 1 1 8, .bperm 1 1 1 8, .isel 1 1 1 8,
      .icmp 1 1 1 1 8, .mov 1 1 8, .not 1 1 8, .ineg 1 1 8, .iabs 1 1 8, .popc 1 1 8, .clz 1 1 8, .brev 1 1 8,
      .sext8 1 1 8, .sext16 1 1 8, .zext8 1 1 8, .zext16 1 1 8, .pand 1 1 1 8, .por 1 1 1 8, .pxor 1 1 1 8,
      .pnot 1 1 8, .p2v 1 8, .v2p 1 8, .pset 1 1 8, .bra 8 1, .call 8 1, .brx 1 8, .callx 1 8, .ret 8, .exit 8,
      .fadd 1 1 1 8, .fsub 1 1 1 8, .fmul 1 1 1 8, .ffma 1 1 1 8, .ffms 1 1 1 8, .fmin 1 1 1 8, .fmax 1 1 1 8,
      .fcmp 1 1 1 1 8] : List Instr).all fun i => !wellFormed i) = true := by decide +kernel

theorem smoke_guard_2 :
    (([.fdiv 1 1 1 8, .fscale 1 1 1 8, .hadd2 1 1 1 8, .hmul2 1 1 1 8, .hfma2 1 1 1 8, .badd2 1 1 1 8, .bmul2 1 1 1 8,
      .bfma2 1 1 1 8, .fdot4 1 1 1 8, .fdot4E5 1 1 1 8, .fabs 1 1 8, .fneg 1 1 8, .frcp 1 1 8, .fsqrt 1 1 8,
      .frsq 1 1 8, .fexp2 1 1 8, .flog2 1 1 8, .fsin 1 1 8, .fcos 1 1 8, .ftanh 1 1 8, .fsigm 1 1 8, .fclass 1 1 8,
      .frndRn 1 1 8, .frndRz 1 1 8, .frndRd 1 1 8, .frndRu 1 1 8, .fcvt 1 1 1 8, .shflIdx 1 1 1 8, .shflUp 1 1 1 8,
      .shflDn 1 1 1 8, .shflXor 1 1 1 8, .voteAny 1 1 8, .voteAll 1 1 8, .voteBallot 1 1 8, .voteCount 1 1 8,
      .redwAddS32 1 1 8, .redwAddF32 1 1 8, .redwMinS 1 1 8, .redwMinN 1 1 8, .redwMaxS 1 1 8, .redwMaxN 1 1 8,
      .redwMinF 1 1 8, .redwMaxF 1 1 8, .redwAnd 1 1 8, .redwOr 1 1 8, .redwXor 1 1 8, .scanwInclS32 1 1 8,
      .scanwExclS32 1 1 8, .scanwInclF32 1 1 8, .scanwExclF32 1 1 8, .matchL 1 1 8, .fencew 8, .ldN8 1 1 1 8,
      .ldS8 1 1 1 8, .ldN16 1 1 1 8, .ldS16 1 1 1 8, .ld32 1 1 1 8, .ld64 1 1 1 8, .ld128 1 1 1 8, .st8 1 1 1 8] : List Instr).all fun i => !wellFormed i) = true := by decide +kernel

theorem smoke_guard_3 :
    (([.st16 1 1 1 8, .st32 1 1 1 8, .st64 1 1 1 8, .st128 1 1 1 8, .ldc 1 1 1 8, .tld 1 1 1 8, .tst 1 1 1 8,
      .pftL1 1 1 8, .pftLlc 1 1 8, .cflushWb 1 8, .cflushInv 1 8, .cflushWbinv 1 8, .atom 1 1 1 8, .atomc 1 1 1 8,
      .red 1 1 1 8, .agginc 1 1 1 8, .txq 1 8, .phreg 1 1 8, .phdrop 1 1 8, .pharr 1 1 8, .phrd 1 1 8, .tagany 1 1 8,
      .tagall 1 1 8, .tagff 1 1 8, .tagclr 1 8, .xkick 1 1 8, .xcancel 1 1 8, .xstat 1 1 8, .publish 1 1 8, .mrd 1 1 8,
      .mwr 1 1 8, .zld 1 1 1 8, .zst 1 1 1 8, .zqry 1 1 8, .zver 1 1 8, .tqry 1 1 8, .ctinv 1 1 8, .ctloadCt 1 1 1 8,
      .ctloadCb 1 1 1 8, .recfence 1 8, .shfence 1 8, .launch 1 1 1 8, .cntrd 1 1 8, .cancel 1 1 8, .qput 1 1 1 8,
      .qtake 1 1 1 8, .grprd 1 1 8, .grpwr 1 1 8, .grpres 1 1 8, .tret 8, .tlbinv 1 8, .tlbinv2 1 8, .xlate 1 1 8,
      .phstart 1 1 8] : List Instr).all fun i => !wellFormed i) = true := by decide +kernel

-- Witnesses: hypotheses that are Executable alone

theorem witness_IntegerArithmetic : ∀ i ∈ ([.iadd 3 1 2 0, .isub 3 1 2 0, .imul 3 1 2 0, .imulhS 3 1 2 0, .imulhN 3 1 2 0,
    .imad 3 1 2 0, .iminS 3 1 2 0, .iminN 3 1 2 0, .imaxS 3 1 2 0, .imaxN 3 1 2 15, .imadwS 4 1 2 0, .imadwN 4 1 2 0,
    .iadd64 126 2 4 0, .isub64 4 2 126 0] : List Instr), Executable i t0 := runs (by decide +kernel)

theorem witness_ShiftsAndLogic : ∀ i ∈ ([.ishl 3 1 2 0, .ishr 3 1 2 0, .isar 3 1 2 0, .irot 3 1 2 0, .and 3 1 2 0,
    .or 3 1 2 0, .xor 3 1 2 0, .andn 127 127 127 15] : List Instr), Executable i t0 := runs (by decide +kernel)

theorem witness_BitFields : ∀ i ∈ ([.bfxN 3 1 2 0, .bfxS 3 1 2 0, .bfi 3 1 2 7] : List Instr), Executable i t0 :=
  runs (by decide +kernel)

theorem witness_PermuteAndSelect : ∀ i ∈ ([.bperm 3 1 2 0, .isel 3 1 2 9] : List Instr), Executable i t0 :=
  runs (by decide +kernel)

theorem witness_IntegerUnary : ∀ i ∈ ([.mov 3 1 0, .not 3 1 0, .ineg 3 1 0, .iabs 3 1 0, .popc 3 1 0, .clz 3 1 0,
    .brev 3 1 0, .sext8 3 1 0, .sext16 3 1 0, .zext8 3 1 0, .zext16 3 1 0] : List Instr), Executable i t0 :=
  runs (by decide +kernel)

theorem witness_Immediates : ∀ i ∈ ([.iaddi 3 1 0x7FF, .imuli 3 1 0x400, .andi 3 1 0, .ori 3 1 1, .xori 3 1 2, .shli 3 1 31,
    .shri 3 1 0, .sari 3 1 31, .movl 3 0x3FFFF, .movh 3 0x20000, .nop] : List Instr), Executable i t0 := runs (by decide +kernel)

theorem witness_IntegerCompare : ∀ i ∈ ([.icmp 0 1 1 2 0, .icmp 9 7 1 2 0, .icmpi 2 1 1 0x400, .icmpi 9 7 1 0] : List Instr),
    Executable i t0 := runs (by decide +kernel)

theorem witness_PredicateLogic : ∀ i ∈ ([.pand 1 2 3 0, .por 7 0 7 0, .pxor 1 2 3 0, .pnot 1 2 0, .pset 1 5 0, .p2v 5 0,
    .v2p 5 0] : List Instr), Executable i t0 := runs (by decide +kernel)

theorem witness_FloatArithmetic : ∀ i ∈ ([.fadd 3 1 2 0, .fsub 3 1 2 0, .fmul 3 1 2 0, .ffma 3 1 2 0, .ffms 3 1 2 0,
    .fdiv 3 1 2 0, .fmin 3 1 2 0, .fmax 3 1 2 0, .fscale 3 1 2 0, .fcmp 0 1 1 2 0, .fcmp 7 7 1 2 0] : List Instr),
    Executable i t0 := runs (by decide +kernel)

theorem witness_PackedAndDot : ∀ i ∈ ([.hadd2 3 1 2 0, .hmul2 3 1 2 0, .hfma2 3 1 2 0, .badd2 3 1 2 0, .bmul2 3 1 2 0,
    .bfma2 3 1 2 0, .fdot4 3 1 2 0, .fdot4E5 3 1 2 0] : List Instr), Executable i t0 := runs (by decide +kernel)

theorem witness_FloatUnary : (∀ i ∈ ([.fabs 3 1 0, .fneg 3 1 0, .frcp 3 1 0, .fsqrt 3 1 0, .frsq 3 1 0, .fexp2 3 1 0,
    .flog2 3 1 0, .fsin 3 1 0, .fcos 3 1 0, .ftanh 3 1 0, .fsigm 3 1 0, .fclass 3 1 0, .frndRn 3 1 0, .frndRz 3 1 0,
    .frndRd 3 1 0, .frndRu 3 1 0] : List Instr), Executable i t0) ∧ (1 : Nat) ≠ 0 := ⟨runs (by decide +kernel), by decide⟩

theorem witness_Conversion : (∀ i ∈ ([.fcvt 3 1 2 0] : List Instr), Executable i (reg 2 0x88 t0) ∧ Executable i (reg 2 0x77 t0)) ∧
    (∀ l, l < 32 → convWordBad ((reg 2 0x88 t0).v 2 l) = none) ∧ convWordBad ((reg 2 0x77 t0).v 2 0) = some 2 :=
  ⟨fun i hi => ⟨runs (xs := [.fcvt 3 1 2 0]) (by decide +kernel) i hi, runs (xs := [.fcvt 3 1 2 0]) (by decide +kernel) i hi⟩,
    by decide +kernel, by decide +kernel⟩

theorem witness_ShufflesAndVotes : ∀ i ∈ ([.shflIdx 3 1 2 0, .shflUp 3 1 2 0, .shflDn 3 1 2 0, .shflXor 3 1 2 0,
    .voteAny 1 2 0, .voteAll 1 2 0, .voteBallot 3 1 0, .voteCount 3 1 0, .matchL 3 1 0] : List Instr), Executable i t0 :=
  runs (by decide +kernel)

theorem witness_ReductionsAndScans : (∀ i ∈ ([.redwAddS32 3 1 0, .redwMinS 3 1 0, .redwMinN 3 1 0, .redwMaxS 3 1 0,
    .redwMaxN 3 1 0, .redwAnd 3 1 0, .redwOr 3 1 0, .redwXor 3 1 0, .redwAddF32 3 1 0, .redwMinF 3 1 0, .redwMaxF 3 1 0,
    .scanwInclS32 3 1 0, .scanwExclS32 3 1 0, .scanwInclF32 3 1 0, .scanwExclF32 3 1 0] : List Instr), Executable i t0) ∧
    (lanesIn (activeOf (.redwMinS 3 1 0) t0)).map (t0.v 1) ≠ [] := ⟨runs (by decide +kernel), by decide +kernel⟩

-- Witnesses: control flow and exceptions

/-- Bytes at a virtual address of the page at 0x10000. -/
def poke (a : Nat) (bs : List Byte) (s : State) : State := { s with mem := Memory.write s.mem (a - 0xB000) bs }

theorem witness_BranchesJoinWindow :
    (∀ i ∈ ([.bra 0 0x1FFFFF, .brx 1 0, .join 0x100000, .winb 0, .winb 1] : List Instr),
      Executable i (reg 1 0xFFFFFFFC t0) ∧ Executable i (reg 1 2 t0)) ∧
    (∀ l, l < 32 → ((reg 1 0xFFFFFFFC t0).v 1 l).toNat % 4 = 0) ∧ ((reg 1 2 t0).v 1 0).toNat % 4 ≠ 0 ∧
    (activeOf (.brx 1 0) t0).getLsbD 0 = true ∧ (t0.warp.allot - 128) / 16 = 0 :=
  ⟨fun i hi => ⟨runs (s := reg 1 0xFFFFFFFC t0) (by decide +kernel) i hi, runs (s := reg 1 2 t0) (by decide +kernel) i hi⟩,
    by decide +kernel⟩

/-- A second warp of the group that has not ended. -/
def twoWarps (s : State) : State := { s with warps := { s.warp with uid := 9, id := 1 } :: s.warps }

theorem witness_ExitEndsLanes :
    (Executable (.exit 0) (lane0 t0) ∧ (lane0 t0).frame.live &&& ~~~activeOf (.exit 0) (lane0 t0) ≠ 0) ∧
    (Executable (.exit 0) t0 ∧ t0.frame.live &&& ~~~activeOf (.exit 0) t0 = 0 ∧ t0.warp.group = t0.group.uid ∧
      ∀ w ∈ t0.warps, w.group = t0.group.uid → w.run = .ended) ∧
    (Executable (.exit 0) (twoWarps t0) ∧
      ∃ w ∈ (twoWarps t0).warps, w.group = (twoWarps t0).group.uid ∧ w.run ≠ .ended) :=
  ⟨⟨canRun_sound (by decide +kernel), by decide +kernel⟩, ⟨canRun_sound (by decide +kernel), by decide +kernel⟩,
    canRun_sound (by decide +kernel), by decide +kernel⟩

/-- Warps whose code lies above the stacks, from offset 0x900 on. -/
def above (s : State) : State := s.mapWarps fun w => { w with frame := { w.frame with pcs := List.replicate 32 0x900 } }

/-- IADD v3, v1, v2 stands after the word at the PC. -/
def tXt : State := above (poke 0x10904 (leBytes 4 0x020C0820) t0)

theorem witness_XtInstances : Executable (.xt 0 1 0) tXt ∧ fetchWord tXt (tXt.pc + 4) = .ok 0x020C0820 ∧
    ∃ j us, xtFollow (xtOffsets 0 1 0) 0x020C0820 tXt = .ok (j, us) ∧ us ≠ [] ∧
      (∀ u ∈ us, u.dPair = false ∧ (∃ f, u.fn = .int f) ∧ ∀ l, u.fault tXt l = none) ∧
      ∀ k ∈ xtOffsets 0 1 0, ∀ n ∈ srcRegs j, activeOf j tXt &&& (tXt.frame.reg (tXt.arch (n + k))).poison = 0 := by
  refine ⟨canRun_sound (by decide +kernel), okIs (by decide +kernel), .iadd 3 1 2 0, [0, 1].map (aluIadd 3 1 2).offset, rfl, by simp,
    ?_, by decide +kernel⟩
  intro u hu
  simp only [List.map_cons, List.map_nil, List.mem_cons, List.not_mem_nil, or_false] at hu
  rcases hu with rfl | rfl <;> exact ⟨rfl, ⟨_, rfl⟩, fun _ => rfl⟩

theorem canEnter_t0 : CanEnter t0 := ⟨by decide +kernel, by decide +kernel, by decide +kernel⟩

theorem witness_TrapAndBreakpoint : t0.frame.tx.active = false ∧ t0.warp.level ≠ .handler ∧ t0.handlerValid = true ∧
    Executable (.trap 0x7FF) t0 ∧ Executable (.bpt 0) t0 ∧ Unburdened t0 :=
  ⟨by decide +kernel, by decide +kernel, by decide +kernel, canRun_sound (by decide +kernel), canRun_sound (by decide +kernel),
    ⟨by decide +kernel, by decide +kernel⟩⟩

theorem witness_WordFaults_levels :
    (encode (.phstart 5 6 8) ≠ [] ∧ t0.warp.level.rank < (levelNeeded (.phstart 5 6 8)).1 ∧ CanEnter t0) ∧
    (encode (.iadd 0 0 0 8) ≠ [] ∧ (levelNeeded (.iadd 0 0 0 8)).1 ≤ t0.warp.level.rank ∧ guardOf (.iadd 0 0 0 8) = 8) ∧
    (encode (.icmp 10 1 0 0 0) ≠ [] ∧ guardOf (.icmp 10 1 0 0 0) ≠ 8 ∧ wellFormed (.icmp 10 1 0 0 0) = false) ∧
    (encode (.ld64 5 3 10 0) ≠ [] ∧ wellFormed (.ld64 5 3 10 0) = true ∧ guardOf (.ld64 5 3 10 0) ≠ 8 ∧
      pairsOk (.ld64 5 3 10 0) = false) :=
  ⟨⟨by decide, by decide +kernel, canEnter_t0⟩, by decide +kernel, by decide, by decide⟩

/-- An attempt runs in the issuing warp. -/
def inTx (s : State) : State := tx (fun t => { t with active := true, target := 0x40, txb := 0 }) s

theorem witness_WordFaults_nested :
    ((level .handler t0).frame.tx.active = false ∧ (level .handler t0).warp.level = .handler) ∧
    ((t0.updPart 0 fun p => { p with hbase := 0 }).frame.tx.active = false ∧
      (t0.updPart 0 fun p => { p with hbase := 0 }).handlerValid = false) ∧
    ((inTx t0).frame.tx.active = true ∧ (inTx t0).frame.tx.pending = false ∧ (inTx t0).warp.level ≠ .handler ∧
      (inTx t0).handlerValid = true) ∧
    ((tx (fun t => { t with pending := true }) (inTx t0)).frame.tx.active = true ∧
      (tx (fun t => { t with pending := true }) (inTx t0)).frame.tx.pending = true) := by decide +kernel

-- Witnesses: accesses to memory

/-- Offsets 16 bytes apart from 0x10800 in v1, and a policy word in v2. -/
def tMem (pol : Word) : State := reg 2 pol (regs 1 (fun l => BitVec.ofNat 32 (0x10800 + 16 * l)) t0)

theorem checkedAll {r : PolicyRule} {acc : Acc} {act : Word} {off pol : Nat → Word} {s : State} {ws : List Nat}
    (p : List LaneAcc → Bool)
    (h : (ws.all fun w => okB (checked r acc act w off pol s) fun v => isDirect acc v s && p v) = true) :
    ∀ w ∈ ws, ∃ as, checked r acc act w off pol s = .ok as ∧ Direct acc as s ∧ p as = true := by
  intro w hw
  obtain ⟨v, e, hv⟩ := okWith _ (List.all_eq_true.mp h w hw)
  rw [Bool.and_eq_true] at hv
  exact ⟨v, e, isDirect_sound hv.1, hv.2⟩

theorem witness_Loads : (∀ i ∈ ([.ldN8 4 1 2 0, .ldS8 4 1 2 0, .ldN16 4 1 2 0, .ldS16 4 1 2 0, .ld32 4 1 2 0, .ld64 4 1 2 0,
      .ld128 4 1 2 0, .ldc 4 1 3 0, .cntrd 4 1 0] : List Instr), Executable i (tMem 0)) ∧
    (∀ w ∈ [1, 2, 4, 8, 16], ∃ as, checked loadRule accRead (activeOf (.ld32 4 1 2 0) (tMem 0)) w ((tMem 0).v 1) ((tMem 0).v 2)
      (tMem 0) = .ok as ∧ Direct accRead as (tMem 0) ∧ (fun as => as.length == 32) as = true) ∧
    (∃ as, fixedAccess accRead (activeOf (.ldc 4 1 3 0) (tMem 0)) 4 4 0xFF000243
      (fun l => (tMem 0).v 1 l + 4 * (tMem 0).v 3 l) (tMem 0) = .ok as ∧ isDirect accRead as (tMem 0) = true) ∧
    (∃ as, fixedAccess accRead (activeOf (.cntrd 4 1 0) (tMem 0)) 8 8 0xC8 ((tMem 0).v 1) (tMem 0) = .ok as ∧
      isDirect accRead as (tMem 0) = true) := by
  exact ⟨runs (by decide +kernel), checkedAll _ (by decide +kernel), okWith _ (by decide +kernel),
    okWith _ (by decide +kernel)⟩

/-- No access is to a page that migrates. -/
def isSettled (as : List LaneAcc) : Bool := as.all fun a => a.pieces.all fun p => onSome p.leaf fun lf => !lf.migrating

theorem isSettled_sound {as : List LaneAcc} (h : isSettled as = true) : Settled as := by
  intro a ha p hp lf e
  simpa using onSome_sound (List.all_eq_true.mp (List.all_eq_true.mp h a ha) p hp) lf e

theorem witness_Stores_memory : (∀ i ∈ ([.st8 4 1 2 0, .st16 4 1 2 0, .st32 4 1 2 0, .st64 4 1 2 0, .st128 4 1 2 0] : List Instr),
      Executable i (tMem 0)) ∧
    ∀ w ∈ [1, 2, 4, 8, 16], ∃ as, checked storeRule accWrite (activeOf (.st32 4 1 2 0) (tMem 0)) w ((tMem 0).v 1)
      ((tMem 0).v 2) (tMem 0) = .ok as ∧ Direct accWrite as (tMem 0) ∧
      (fun as : List LaneAcc => (as.all fun x => x.seg != 2) && isSettled as) as = true := by
  exact ⟨runs (by decide +kernel), checkedAll _ (by decide +kernel)⟩

/-- Offsets 0 in v1 and the register segment in v2: v0 is the register accessed. -/
def tReg : State := reg 2 2 t0

theorem witness_Stores_registers : (∀ i ∈ ([.st8 4 1 2 0, .st16 4 1 2 0, .st32 4 1 2 0, .st64 4 1 2 0, .st128 4 1 2 0] : List Instr),
      Executable i tReg) ∧
    ∀ w ∈ [1, 2, 4, 8, 16], ∃ as, checked storeRule accWrite (activeOf (.st32 4 1 2 0) tReg) w (tReg.v 1) (tReg.v 2) tReg =
      .ok as ∧ Direct accWrite as tReg ∧ (fun as : List LaneAcc => as.all fun x => x.seg == 2) as = true := by
  exact ⟨runs (by decide +kernel), checkedAll _ (by decide +kernel)⟩

/-- Link-stack depth 56, the deepest from which a record still fits in 64 bytes. -/
def tCall : State := t0.updFrame fun f => { f with sds := List.replicate 32 56 }

theorem witness_CallsAndReturn : (∀ i ∈ ([.call 0 4, .callx 1 0] : List Instr), Executable i tCall) ∧ Executable (.ret 0) t0 ∧
    (∃ as, fixedAccess accWrite (activeOf (.callx 1 0) tCall) 8 0 4 (fun l => tCall.frame.sds.getD l 0) tCall = .ok as ∧
      (isDirect accWrite as tCall && isSettled as && decide (as.length = 32)) = true) ∧
    (∀ l, l < 32 → (tCall.frame.sds.getD l 0).toNat + 8 ≤ tCall.frame.stklim.toNat ∧ (tCall.v 1 l).toNat % 4 = 0 ∧
      (tCall.pcOf l + 4 + 4 * (4 : BitVec 21).signExtend 32).toNat % 4 = 0) ∧
    (∃ as, fixedAccess accRead (activeOf (.ret 0) t0) 8 0 4 (fun l => t0.frame.sds.getD l 0 - 8) t0 = .ok as ∧
      (isDirect accRead as t0 && as.all fun x => (wordAt (x.bytes t0) 0).toNat % 4 == 0) = true) ∧
    ∀ l, l < 32 → t0.frame.sds.getD l 0 ≠ 0 ∧ (t0.frame.sds.getD l 0).toNat ≤ t0.frame.stklim.toNat :=
  ⟨runs (by decide +kernel), canRun_sound (by decide +kernel), okWith _ (by decide +kernel), by decide +kernel,
    okWith _ (by decide +kernel), by decide +kernel⟩

/-- The policy rule of PFT. -/
def pftRule : PolicyRule := { segs := [0, 1, 2, 3, 4], orders := [0, 2, 4], atop := fun n => n == 0 }

theorem witness_PrefetchAndFlush_prefetch : (∀ i ∈ ([.pftL1 1 2 0, .pftLlc 1 2 0] : List Instr),
      Executable i (tMem 0) ∧ Executable i (tMem 7)) ∧
    (∀ l, l < 32 → policyFault pftRule ((tMem 0).v 2 l) l = none) ∧
    (∀ l, l < 32 → ∀ p, pieceAt (tMem 0) accRead (segVa (tMem 0) l 0 ((tMem 0).v 1 l).toNat) 1 = .ok p →
      ∃ e, tlbFind (tMem 0).core (tMem 0).job.uid p.va = some e ∧ tlbServes accRead e.leaf = true) ∧
    (policyFault pftRule ((tMem 7).v 2 0) 0).isSome = true := by
  refine ⟨fun i hi => ⟨runs (s := tMem 0) (by decide +kernel) i hi, runs (s := tMem 7) (by decide +kernel) i hi⟩,
    by decide +kernel, ?_, by decide +kernel⟩
  intro l hl p hp
  have : ∀ l, l < 32 → (match pieceAt (tMem 0) accRead (segVa (tMem 0) l 0 ((tMem 0).v 1 l).toNat) 1 with
      | .ok p => (match tlbFind (tMem 0).core (tMem 0).job.uid p.va with | some e => tlbServes accRead e.leaf | none => false)
      | .error _ => true) = true := by decide +kernel
  have := this l hl
  rw [hp] at this
  simp only at this
  split at this
  · exact ⟨_, by assumption, this⟩
  · cases this

theorem witness_PrefetchAndFlush_flush : (∀ i ∈ ([.cflushWb 1 0, .cflushInv 1 0, .cflushWbinv 1 0] : List Instr),
      Executable i (tMem 0)) ∧
    ∃ as, fixedAccess accRead (activeOf (.cflushWb 1 0) (tMem 0)) 1 0 0 ((tMem 0).v 1) (tMem 0) = .ok as ∧
      isDirect accRead as (tMem 0) = true := ⟨runs (by decide +kernel), okWith _ (by decide +kernel)⟩

/-- Plain writes in flight, of this warp and of another. -/
def tPend (s : State) : State :=
  let e : PWrite := { warp := s.warp.uid, group := s.group.uid, part := 0, lane := 0, loc := .mem 0x5900, via := Via.device, epoch := none, bytes := [7]
                      op := none, buffered := false, strong := false, uo := false, stack := false, shown := 0, step := 0, since := 0 }
  { s with core := { s.core with pend := [e, { e with warp := 9, group := 9, loc := .mem 0x5A00, epoch := some 0 }] } }

/-- A write in flight meets one line, under its own key. -/
def isKeyed (s : State) (e : PWrite) : Bool :=
  match e.loc with
  | .mem x => (List.range (max 4 e.bytes.length)).all fun k => onSome e.epoch fun n => (amGet s.epochs (lineOf (x + k))).getD 0 == n
  | _ => true

theorem isKeyed_sound {s : State} {e : PWrite} (h : isKeyed s e = true) : e.keyed s := by
  intro x n hx he k hk
  rw [isKeyed, hx] at h
  simpa using onSome_sound (List.all_eq_true.mp h k (List.mem_range.mpr hk)) n he

/-- The core's writes in flight are landable. -/
def isLandable (s : State) : Bool := s.core.pend.all fun e => e.isLocal s && isKeyed s e

theorem isLandable_sound {s : State} (h : isLandable s = true) : s.landable := by
  intro e he
  have := List.all_eq_true.mp h e he
  rw [Bool.and_eq_true] at this
  exact ⟨this.1, isKeyed_sound this.2⟩

theorem witness_Fences : (tPend t0).landable ∧ (∀ c ∈ (tPend t0).cores, ∀ e ∈ c.pend, e.observed (tPend t0) = false) ∧
    (∀ i ∈ ([.fencew 0, .fencew 1, .fence 3 0 0, .fence 3 5 3, .fence 3 4 1] : List Instr), Executable i (tPend t0)) ∧
    activeOf (.fencew 0) (tPend t0) ≠ 0 ∧ activeOf (.fencew 1) (tPend t0) = 0 ∧ activeOf (.fence 3 0 0) (tPend t0) ≠ 0 :=
  ⟨isLandable_sound (by decide +kernel), by decide +kernel, runs (by decide +kernel), by decide +kernel⟩

/-- Every access is one aligned word. -/
def isOneWord (as : List LaneAcc) : Bool := as.all fun a =>
  match a.pieces with
  | [p] => p.n == 4 && p.loc.addr % 4 == 0
  | _ => false

theorem isOneWord_sound {as : List LaneAcc} (h : isOneWord as = true) : OneWord as := by
  intro a ha
  have := List.all_eq_true.mp h a ha
  split at this
  · rename_i p e
    rw [Bool.and_eq_true, beq_iff_eq, beq_iff_eq] at this
    exact ⟨p, e, this.1, this.2⟩
  · cases this

theorem witness_Atomics : (∀ i ∈ ([.atom 4 1 2 0, .atomc 4 1 2 0, .red 4 1 2 0, .agginc 4 1 2 0] : List Instr),
      Executable i (tMem 0) ∧ Executable i (tMem 0x800)) ∧ activeOf (.agginc 4 1 2 0) (tMem 0) ≠ 0 ∧
    (∃ as, atomChecked (atomRule [0, 1, 2, 3] atopOk) 4 (activeOf (.atom 4 1 2 0) (tMem 0x800)) ((tMem 0x800).v 1) ((tMem 0x800).v 2)
      (tMem 0x800) = .ok as ∧ (isOneWord as && isSettled as && isDirect accWrite as (tMem 0x800)) = true) ∧
    (∃ as, atomChecked (atomRule [0, 1, 2, 3] fun n => n == 0) 4 (activeOf (.atomc 4 1 2 0) (tMem 0)) ((tMem 0).v 1)
      ((tMem 0).v 2) (tMem 0) = .ok as ∧
      (isOneWord as && isSettled as && isDirect accWrite as (tMem 0) && isDirect accRead as (tMem 0)) = true) ∧
    (∃ as, atomChecked (atomRule [0, 2] atopOk) 4 (activeOf (.red 4 1 2 0) (tMem 0x800)) ((tMem 0x800).v 1) ((tMem 0x800).v 2)
      (tMem 0x800) = .ok as ∧ (isOneWord as && isSettled as && isDirect accWrite as (tMem 0x800)) = true) ∧
    ∃ as, atomChecked (atomRule [0, 1, 2, 3] fun n => n == 0) 4 (lowMask (activeOf (.agginc 4 1 2 0) (tMem 0)))
      ((tMem 0).v 1) ((tMem 0).v 2) (tMem 0) = .ok as ∧
      (isOneWord as && isSettled as && isDirect accWrite as (tMem 0) && decide (as.length = 1)) = true :=
  ⟨fun i hi => ⟨runs (s := tMem 0) (by decide +kernel) i hi, runs (s := tMem 0x800) (by decide +kernel) i hi⟩,
    by decide +kernel, okWith _ (by decide +kernel), okWith _ (by decide +kernel),
    okWith _ (by decide +kernel), okWith _ (by decide +kernel)⟩

/-- An alternative to fall back on. -/
def alt0 : Alt := { target := 0x80, writes := [], homes := [], wset := [], clears := [], scope := 0 }

/-- A buffered byte of scratchpad. -/
def txByte0 (s : State) : Loc × Byte := (.scratch s.group.uid 5, 7)

theorem witness_Transactions :
    (Executable (.txb 4) t0 ∧ t0.frame.tx.active = false ∧ t0.converged = true ∧ t0.together = true ∧
      t0.frame.live &&& ~~~t0.lanes = 0 ∧ (∀ e ∈ t0.core.pend, e.homeward t0 = false ∧ (e.observed t0 && e.isLocal t0) = false)) ∧
    (let s := lane0 (t0.updFrame fun f => { f with pcs := 0 :: List.replicate 31 4 })
     Executable (.txb 4) s ∧ s.frame.tx.active = false ∧ s.converged = false) ∧
    (Executable (.txb 4) (inTx t0) ∧ (inTx t0).frame.tx.active = true) ∧
    (let s := tx (fun t => { t with alts := List.replicate 3 alt0 }) (inTx t0)
     Executable (.orelse 4) s ∧ s.frame.tx.active = true ∧ s.frame.tx.alts.length < 4 ∧ Executable (.retry 0) s ∧
       s.frame.tx.pending = false ∧ s.frame.tx.alts ≠ []) ∧
    (let s := tx (fun t => { t with writes := [txByte0 t0, (.mem 0x5805, 9)], homes := [(lineOf 0x5805, Via.device, some 0)] }) (inTx t0)
     Executable .txe s ∧ s.frame.tx.active = true ∧ s.frame.tx.pending = false ∧ s.core.pend = [] ∧
       (∀ c ∈ s.cores, ∀ e ∈ c.pend, e.observed s = false) ∧ s.frame.tx.clears = [] ∧
       (∀ w ∈ s.frame.tx.writes, w.1 = .scratch s.group.uid 5 ∨ w.1 = .mem 0x5805) ∧ amGet s.frame.tx.homes (lineOf 0x5805) = some (Via.device, some 0) ∧
       (amGet s.epochs (lineOf 0x5805)).getD 0 = 0) ∧
    (Executable (.retry 0) (inTx t0) ∧ (inTx t0).frame.tx.pending = false ∧ (inTx t0).frame.tx.alts = []) ∧
    (Executable (.txa 1 0) (inTx t0) ∧ lowest (inTx t0).frame.live = some 0) ∧ Executable (.txq 3 0) t0 :=
  ⟨⟨canRun_sound (by decide +kernel), by decide +kernel⟩, ⟨canRun_sound (by decide +kernel), by decide +kernel⟩,
    ⟨canRun_sound (by decide +kernel), by decide +kernel⟩,
    ⟨canRun_sound (by decide +kernel), by decide +kernel, by decide +kernel, canRun_sound (by decide +kernel), by decide +kernel⟩,
    ⟨canRun_sound (by decide +kernel), by decide +kernel⟩, ⟨canRun_sound (by decide +kernel), by decide +kernel⟩,
    ⟨canRun_sound (by decide +kernel), by decide +kernel⟩, canRun_sound (by decide +kernel)⟩

-- Witnesses: objects, queues, tags and copies

/-- Bytes in the group's scratchpad. -/
def scr (o : Nat) (bs : List Byte) (s : State) : State :=
  { s with group := { s.group with scratch := Memory.write s.group.scratch o bs } }

/-- A phaser with two members that signal and one that waits. -/
def ph0 : Phaser := { phase := 5, sig := 2, wait := 1, arr := 0, scope := false, psig := 0, pwait := 0, ok := true }

/-- A phaser at scratchpad offset 32 and one at 0x10820 of the global segment; v1 names the first with a mode, v2 the
second. -/
def tPh (mode : Nat) : State :=
  reg 1 (BitVec.ofNat 32 (32 + mode)) (reg 2 (BitVec.ofNat 32 (0x10830 + mode)) (scr 32 ph0.bytes (poke 0x10820 ph0.bytes t0)))

/-- The hypotheses of Phasers for an update. -/
def phB (a : Reg) (mode : Nat) (counts : Bool) (f : PhFn) : Bool :=
  okB (phObject ((tPh mode).v a.toNat 0) counts accRw 0 (tPh mode)) fun x =>
    onSome x.1.leaf (fun lf => !lf.migrating) && okB (f (((tPh mode).v a.toNat 0).toNat % 4) x.2.1) (fun _ => true) &&
      x.2.2 == tPh mode && isDirect accWrite [x.1.alone] (tPh mode)

theorem witness_Phasers : (tPh 1).frame.tx.active = false ∧
    (∀ i ∈ ([.phreg 3 1 0, .phdrop 3 1 0, .phreg 3 2 0] : List Instr), Executable i (tPh 1) ∧ lowest (activeOf i (tPh 1)) = some 0) ∧
    (∀ i ∈ ([.pharr 3 1 0, .phrd 3 2 0] : List Instr), Executable i (tPh 0) ∧ lowest (activeOf i (tPh 0)) = some 0) ∧
    phB 1 1 true phReg = true ∧ phB 1 3 true phDrop = true ∧ phB 1 0 false phArr = true ∧ phB 2 2 true phReg = true ∧
    phB 2 1 true phDrop = true ∧ phB 2 0 false phArr = true ∧
    okB (phObject ((tPh 0).v 2 0) false accRead 0 (tPh 0)) (fun x => isDirect accRead [x.1.alone] (tPh 0)) = true :=
  ⟨by decide +kernel,
    fun i hi => ⟨runs (xs := [.phreg 3 1 0, .phdrop 3 1 0, .phreg 3 2 0]) (by decide +kernel) i hi,
      (show ∀ i ∈ ([.phreg 3 1 0, .phdrop 3 1 0, .phreg 3 2 0] : List Instr), lowest (activeOf i (tPh 1)) = some 0 by
        decide +kernel) i hi⟩,
    fun i hi => ⟨runs (xs := [.pharr 3 1 0, .phrd 3 2 0]) (by decide +kernel) i hi,
      (show ∀ i ∈ ([.pharr 3 1 0, .phrd 3 2 0] : List Instr), lowest (activeOf i (tPh 0)) = some 0 by decide +kernel) i hi⟩,
    by decide +kernel⟩

/-- Two pieces of memory that share no byte, decided. -/
def apart (x y : Piece) : Bool :=
  match x.loc, y.loc with
  | .mem a, .mem b => decide (a + x.n ≤ b) || decide (b + y.n ≤ a)
  | _, _ => false

theorem apart_sound {x y : Piece} (h : apart x y = true) : ∀ z, x.loc.holds x.n z → ¬ y.loc.holds y.n z := by
  intro z hx hy
  obtain ⟨k, hk, e⟩ := hx
  obtain ⟨j, hj, f⟩ := hy
  unfold apart at h
  split at h
  · rename_i a b ha hb
    rw [ha] at e
    rw [hb] at f
    rw [e] at f
    injection f with f
    simp only [Bool.or_eq_true, decide_eq_true_eq] at h
    omega
  · cases h

/-- A pipeline queue at 0x10800 with two slots at 0x10880, and n items in it. -/
def tQueue (n : Nat) : State :=
  let s := poke 0x10800 (leBytes 8 3 ++ leBytes 8 (3 + n) ++ leBytes 8 0x10880 ++ leBytes 4 2 ++ leBytes 4 0) t0
  { s with
    graphs := [{ Graph.none with uid := 50, pipeline := true, qtab := 0x10800, qcount := 1, done := false }]
    launches := s.launches.map fun l => { l with graph := 50, node := some 0 } }

theorem witness_PipelineQueues : Executable (.qput 1 1 0 0) (tQueue 0) ∧ Executable (.qtake 3 1 0 0) (tQueue 2) ∧
    activeOf (.qput 1 1 0 0) (tQueue 0) ≠ 0 ∧ activeOf (.qtake 3 1 0 0) (tQueue 2) ≠ 0 ∧
    okB (queueHead 0 (tQueue 0)) (fun hp => hp.n == 64 && (
      let h := qheadOf (hp.loc.bytes (tQueue 0) 64)
      okB (itemSlots h h.tail (min 32 (h.cap - (h.tail - h.head) % 2 ^ 64)) accRw (tQueue 0)) fun ps =>
        ps.length == 2 && isSettled ((hp :: ps).map Piece.alone) && decide ((hp :: ps).Pairwise fun x y => apart x y = true) &&
          isDirect accWrite ((hp :: ps).map Piece.alone) (tQueue 0) && isDirect accRead [hp.alone] (tQueue 0))) = true ∧
    okB (queueHead 0 (tQueue 2)) (fun hp => hp.n == 64 && (
      let h := qheadOf (hp.loc.bytes (tQueue 2) 64)
      okB (itemSlots h h.head (min 32 ((h.tail - h.head) % 2 ^ 64)) accRead (tQueue 2)) fun ps =>
        ps.length == 2 && isSettled ((hp :: ps).map Piece.alone) && decide ((hp :: ps).Pairwise fun x y => apart x y = true) &&
          isDirect accRead ((hp :: ps).map Piece.alone) (tQueue 2) && isDirect accWrite [hp.alone] (tQueue 2))) = true :=
  ⟨canRun_sound (by decide +kernel), canRun_sound (by decide +kernel), by decide +kernel⟩

theorem witness_Tags : t0.frame.tx.active = false ∧ t0.core.id = t0.group.core ∧
    ∀ i ∈ ([.tagany 1 2 0, .tagall 7 2 0, .tagff 3 2 0, .tagclr 2 0, .xstat 3 1 0] : List Instr), Executable i t0 :=
  ⟨by decide +kernel, by decide +kernel, runs (by decide +kernel)⟩

/-- A copy record of 4 bytes from scratchpad offset 1024 to 1152 under a tag. -/
def rec0 (tag : Nat) : List Byte :=
  [0, BitVec.ofNat 8 tag, 0x0C, 0] ++ leBytes 4 0 ++ leBytes 8 1024 ++ leBytes 8 1152 ++ leBytes 4 1 ++ leBytes 4 4 ++
    List.replicate 32 0

/-- The record at scratchpad offset 64, named by lane 0 in v1. -/
def tKick (tag : Nat) : State := lane0 (reg 1 64 (scr 64 (rec0 tag) t0))

theorem witness_Copies_kick : Executable (.xkick 3 1 0) (tKick 3) ∧ Executable (.xkick 3 1 0) (tKick 4) ∧
    activeOf (.xkick 3 1 0) (tKick 3) ≠ 0 ∧ (tKick 3).core.pend = [] ∧
    (tKick 3).core.copies.length + (lanesIn (activeOf (.xkick 3 1 0) (tKick 3))).length ≤ 96 ∧
    okB (kickLanes (fun l => ((tKick 3).v 1 l).toNat) (lanesIn (activeOf (.xkick 3 1 0) (tKick 3))) (tKick 3))
      (fun r => !r.2.frame.tx.active) = true ∧
    lanesIn (activeOf (.xkick 3 1 0) (tKick 3)) = [0] ∧ ((tKick 3).v 1 0).toNat % 64 = 0 ∧
    ((tKick 3).v 1 0).toNat + 64 ≤ (tKick 3).group.scratchLen ∧
    (tKick 3).scratch (tKick 3).group.uid 64 64 = rec0 3 ∧ (copyRecOf (rec0 3)).early (tKick 3) (tKick 3).group [] = none ∧
    (copyRecOf (rec0 4)).early (tKick 4) (tKick 4).group [] = some 3 ∧ (copyRecOf (rec0 3)).hsrc = false ∧
    (copyRecOf (rec0 3)).hdst = false ∧ (copyRecOf (rec0 3)).kind = 0 :=
  ⟨canRun_sound (by decide +kernel), canRun_sound (by decide +kernel), by decide +kernel⟩

/-- A copy in flight of the group, under tag 1, that lacks nothing but its bytes. -/
def copy0 (s : State) : Copy :=
  { uid := 70, group := s.group.uid, warp := s.warp.id, record := rec0 1, offset := 64, landed := 0, unit := 0, tiles := [],
    block := [], late := none, followed := false, held := false, accepted := false, following := false, migSince := none, cflags := 0
    row := none }

/-- The copy is the core's, and its tag has it outstanding. -/
def tCopy (f : Copy → Copy) (s : State) : State :=
  { s with
    core := { s.core with copies := [f (copy0 s)] }
    group := { s.group with tags := s.group.tags.set 1 { out := 1, done := false, err := false, code := 0, cflags := 0 } } }

theorem witness_Copies_cancel : Executable (.xcancel 3 1 0) (reg 1 63 t0) ∧ (reg 1 63 t0).tag 63 = none ∧
    lowest (activeOf (.xcancel 3 1 0) t0) = some 0 ∧
    Executable (.xcancel 3 1 0) (reg 1 (4096 - 64 + 1) (tCopy id t0)) ∧
    someB ((tCopy id t0).tag 1) (fun x => decide (4096 - 64 + 64 * x.out ≤ (tCopy id t0).group.scratchLen)) = true ∧
    (tCopy id t0).group.restarts.isEmpty = true ∧ (tCopy id t0).rewrites.isEmpty = true ∧
    ((tCopy id t0).core.copies.filter fun c => c.group == t0.group.uid && c.rec'.tag == 1 && c.rewritable).length = 1 :=
  ⟨canRun_sound (by decide +kernel), by decide +kernel, by decide +kernel, canRun_sound (by decide +kernel), by decide +kernel⟩

/-- Tag 1 named by the pair at v2, with an error when e is set, and a byte of scratchpad to publish under it. -/
def tPub (e : Bool) : State :=
  let b : ShadowByte := { group := t0.group.uid, tag := 1, copy := 70, loc := .scratch t0.group.uid 8, byte := 5, bad := false
                          job := t0.group.job, va := 0, epoch := none }
  reg 2 2 { t0 with core := { t0.core with shadows := [b] }, group := { t0.group with tags := t0.group.tags.set 1 { out := 0, done := true, err := e, code := 0, cflags := 0 } } }

theorem witness_Copies_publish : (∀ e ∈ [true, false], Executable (.publish 3 2 0) (tPub e) ∧ (tPub e).core.pend = [] ∧
      (tPub e).core.shadows.map (·.loc) = [.scratch (tPub e).group.uid 8] ∧ ((tPub e).pair 2 0).getLsbD 1 = true ∧ ((tPub e).tag 1).map (·.err) = some e ∧
      ((tPub e).tag 1).map (·.out) = some 0) ∧
    lowest (activeOf (.publish 3 2 0) (tPub true)) = some 0 ∧ Executable (.publish 3 2 0) (reg 2 2 (tCopy id t0)) ∧
    ((tCopy id t0).tag 1).map (·.out) = some 1 := by
  refine ⟨?_, by decide +kernel, canRun_sound (by decide +kernel), by decide +kernel⟩
  intro e _
  cases e <;> exact ⟨canRun_sound (by decide +kernel), by decide +kernel⟩

-- Witnesses: the matrix engine's instructions

/-- The engine is the group's. -/
def owned (s : State) : State := { s with core := { s.core with engine := { s.core.engine with owner := some s.group.uid } } }

/-- An operation block at scratchpad offset 64 whose participant mask is m; v1 holds its offset. -/
def tBlock (o m : Nat) : State := reg 1 (BitVec.ofNat 32 o) (scr 64 (leBytes 4 0 ++ leBytes 4 m) (owned t0))

theorem witness_MatrixPresentation :
    (∀ i ∈ ([.mlds 1 2, .mswp 1 2, .mstr 1 2, .mdrn 1 2, .mzero 1 2] : List Instr),
      Executable i (tBlock 64 0) ∧ Executable i (tBlock (4096 - 63) 0) ∧ Executable i (tBlock 64 2) ∧
        Executable i ((tBlock 64 0).updFrame fun f => { f with pcs := f.pcs.set 31 4 })) ∧
    (tBlock 64 0).core.engine.owner = some (tBlock 64 0).group.uid ∧ (tBlock 64 0).converged = true ∧
    lowest (activeOf (.mlds 1 2) (tBlock 64 0)) = some 0 ∧ 64 + 64 ≤ (tBlock 64 0).group.scratchLen ∧
    fieldB ((tBlock 64 0).scratch (tBlock 64 0).group.uid 64 64) 4 4 < 2 ^ (tBlock 64 0).group.warps ∧
    ((tBlock 64 0).updFrame fun f => { f with pcs := f.pcs.set 31 4 }).converged = false ∧ (4096 - 63) % 64 ≠ 0 ∧
    2 ^ (tBlock 64 2).group.warps ≤ fieldB ((tBlock 64 2).scratch (tBlock 64 2).group.uid 64 64) 4 4 := by
  refine ⟨fun i hi => ⟨runs (s := tBlock 64 0) (by decide +kernel) i hi, runs (s := tBlock (4096 - 63) 0) (by decide +kernel) i hi,
    runs (s := tBlock 64 2) (by decide +kernel) i hi, runs (s := (tBlock 64 0).updFrame _) (by decide +kernel) i hi⟩, by decide +kernel⟩

theorem witness_MatrixRows : (∀ i ∈ ([.mrd 4 1 0, .mwr 4 1 0] : List Instr), Executable i (reg 1 255 (owned t0)) ∧
      Executable i (reg 1 256 (owned t0))) ∧ activeOf (.mrd 4 1 0) (owned t0) ≠ 0 ∧
    (owned t0).core.id = (owned t0).group.core ∧ (owned t0).core.engine.owner = some (owned t0).group.uid ∧
    (∀ l, l < 32 → ((reg 1 255 (owned t0)).v 1 l).toNat < 256 ∧
      (owned t0).core.engine.busyOn (((reg 1 255 (owned t0)).v 1 l).toNat / 128) = false) ∧
    256 ≤ ((reg 1 256 (owned t0)).v 1 0).toNat ∧ (activeOf (.mrd 4 1 0) (owned t0)).getLsbD 0 = true :=
  ⟨fun i hi => ⟨runs (s := reg 1 255 (owned t0)) (by decide +kernel) i hi,
    runs (s := reg 1 256 (owned t0)) (by decide +kernel) i hi⟩, by decide +kernel⟩

-- Witnesses: tensors

/-- A shape record of rank 2: kind, storage, rows, and rings and index where it is a slab tensor. -/
def record (kind storage rows : Nat) : List Byte :=
  let slab (n : Nat) : Nat := if storage = 1 then n else 0
  leBytes 4 (kind + 16 + storage * 64) ++ leBytes 4 0 ++ leBytes 8 0x10800 ++ leBytes 4 32 ++ leBytes 4 rows ++ leBytes 8 0 ++
    leBytes 4 (if storage = 0 then 32 else 0) ++ leBytes 12 0 ++ leBytes 8 (slab 0x10C40) ++ leBytes 8 (slab 0x10C80) ++
    leBytes 8 (slab 0x10D00) ++ leBytes 8 0 ++ leBytes 8 0 ++ List.replicate 40 0

/-- Handle 0 is a record the core holds; the quad at v4 names its first tile, or in each lane an element of its first
row; v1 is an operand word. -/
def tTen (kind storage rows : Nat) (w : Word) (col : Nat → Word) : State :=
  let s := t0.updJob t0.group.job fun j => { j with recCount := 1 }
  reg 1 w (regs 5 col { s with core := { s.core with records := [{ job := s.group.job, handle := 0, bytes := record kind storage rows }] } })

/-- FP32 elements of row 0, each lane its column. -/
def tElem : State := tTen 8 0 8 5 fun l => BitVec.ofNat 32 l

/-- The hypotheses of TensorElements on targets and accesses. -/
def elemB (acc : Acc) (pre : Shape → Option Nat) (s : State) : Bool :=
  okB (resolveLanes Quad.element (s.quad 4) pre lanes32 s) fun r => isReached s r.2 &&
    (r.1.all fun y => y.2.shape.storage == 0 && y.2.shape.kind != 7 && y.2.job.uid == s.group.job && kindWidth y.2.shape.kind != 4) &&
    okB (elemAccs (fun _ => acc) r.1 (s.v 1) r.2) fun as => isDirect acc as r.2 && isSettled as

theorem witness_TensorElements : Executable (.tld 8 4 1 0) tElem ∧ Executable (.tst 8 4 1 0) tElem ∧
    (∀ l, l < 32 → policyFault tldRule (tElem.v 1 l) l = none ∧ policyFault tstRule (tElem.v 1 l) l = none) ∧
    lanesIn (activeOf (.tld 8 4 1 0) tElem) = lanes32 ∧ elemB accRead (fun _ => none) tElem = true ∧
    elemB accWrite (fun r => if r.kind = 7 then some 2 else none) tElem = true :=
  ⟨canRun_sound (by decide +kernel), canRun_sound (by decide +kernel), by decide +kernel⟩

/-- The first tile of a slab tensor of kind 2, without a slab. -/
def tTile (w : Word) : State := tTen 2 1 32 w fun _ => 0

/-- The lanes of a list, one after another, all answer, and their values and the last state have a property. -/
def answersB {α : Type} (f : Nat → State → Except Stop (α × State)) (ls : List Nat) (s : State) (p : List α → State → Bool) : Bool :=
  okB (ls.foldlM (fun x l => (f l x.2).map fun y => (x.1 ++ [y.1], y.2)) (([] : List α), s)) fun r => p r.1 r.2

theorem witness_TileQueries : (tTile 0).core.pend = [] ∧ (tTile 0).cores.all (fun c => c.pend.isEmpty) = true ∧
    Executable (.tqry 8 4 0) (tTile 0) ∧
    Executable (.zqry 8 4 0) (lane0 (tTile 0)) ∧ Executable (.zver 8 4 0) (lane0 (tTile 0)) ∧
    lanesIn (activeOf (.zqry 8 4 0) (lane0 (tTile 0))) = [0] ∧
    answersB (fun l v => useRecord v.who ((tTile 0).quad 4 l) v.job ((tTile 0).quad 4 l).handle v) lanes32 (tTile 0)
      (fun xs u => isReached (tTile 0) u && xs.all fun r => r.holds ((tTile 0).quad 4 0).tile && r.storage != 2) = true ∧
    okB (slabTarget ((lane0 (tTile 0)).quad 4 0) (lane0 (tTile 0))) (fun r =>
      okB (devNat r.2.who r.1.job accSlab r.1.entryAt 8 r.2) (fun x => isReached (lane0 (tTile 0)) x.2) &&
      okB (slabRead r.2.who r.1 r.2) fun x => isReached (lane0 (tTile 0)) x.2.2) = true :=
  ⟨by decide +kernel, by decide +kernel, canRun_sound (by decide +kernel), canRun_sound (by decide +kernel), canRun_sound (by decide +kernel),
    by decide +kernel⟩

theorem witness_TileLoads : Executable (.zld 32 4 1 0) (tTile 8) ∧ Executable (.zld 32 4 1 0) (tTile 1) ∧
    lowest (activeOf (.zld 32 4 1 0) (tTile 8)) = some 0 ∧ (tTile 8).core.pend = [] ∧ deliveryBad 8 = none ∧ deliveryBad 1 = none ∧
    okB (resolveAt (tTile 8).who (tTile 8).job ((tTile 8).quad 4 0) ((tTile 8).quad 4 0).tile (fun _ => none) (tTile 8))
      (fun r => decide (r.1.shape.kind ≤ 7 ∧ r.1.shape.kind ≠ 7 ∧ r.1.shape.storage ≠ 0) &&
        okB (decodeAt r.2.who r.2.group.tables ((tTile 8).quad 4 0) r.1 r.2) fun x => isReached (tTile 8) x.2.2) = true :=
  ⟨canRun_sound (by decide +kernel), canRun_sound (by decide +kernel), by decide +kernel⟩

/-- A dense tile of one row: every other position is overhang. -/
def tDense : State := tTen 2 0 1 8 fun _ => 0

theorem witness_TileLoads_dense : Executable (.zld 32 4 1 0) tDense ∧
    okB (resolveAt tDense.who tDense.job (tDense.quad 4 0) (tDense.quad 4 0).tile (fun _ => none) tDense)
      (fun r => r.1.shape.storage == 0 && okB (denseView r.2.who r.1 [] (List.range 1024) r.2) fun x => isReached tDense x.2) =
      true := ⟨canRun_sound (by decide +kernel), by decide +kernel⟩

/-- A 4-bit tile without a slab, one free run of 6 sectors, room to reclaim, and a table that gives symbol 0 one bit; v1
is an encode word: FP32 values, slot 0, one seam, row 0. -/
def tZst : State :=
  let s := poke 0x10C80 (leBytes 8 0 ++ leBytes 8 1 ++ leBytes 8 0x10CC0 ++ leBytes 8 1) (poke 0x10CC0 (leBytes 8 (entOf 0 6))
    (poke 0x10D00 (leBytes 16 0 ++ leBytes 8 0x10D40 ++ leBytes 8 4) (tTen 6 1 32 0x800 fun _ => 0)))
  { s with group := { s.group with tables := s.group.tables.set 0 (some (1 :: List.replicate 15 0)) } }

set_option maxRecDepth 20000 in
theorem witness_TileStores : Executable (.zst 8 4 1 0) tZst ∧ lowest (activeOf (.zst 8 4 1 0) tZst) = some 0 ∧
    tZst.core.pend = [] ∧ (∀ c ∈ tZst.cores, ∀ e ∈ c.pend, e.observed tZst = false) ∧ encodeBad (tZst.v 1 0).toNat = none ∧
    okB (resolveAt tZst.who tZst.job (tZst.quad 4 0) (tZst.quad 4 0).tile (fun _ => none) tZst)
      (fun r => isReached tZst r.2 && r.1.shape.storage == 1 && r.1.shape.kind != 7 &&
        okB (encodeAt r.2.who r.2.group.tables (tZst.quad 4 0) r.1 (zstMake r.1 (tZst.v 1 0).toNat
          (activeOf (.zst 8 4 1 0) tZst) (tZst.v 8) fun c => tZst.frame.rs.getD c 0) r.2) fun x => !x.2.frame.tx.active) = true ∧
    Tile.empty.syms.length = 1024 ∧ Tile.empty.scales.length = 32 :=
  ⟨canRun_sound (by decide +kernel), by decide +kernel⟩

/-- A code table of 16 symbols at 0x10800, complete or not; its load word in v2, its offset in v1. -/
def tTab (len : Byte) : State := reg 1 0x10800 (poke 0x10800 (List.replicate 8 len) t0)

/-- The hypotheses of CodeTables on a load of n bytes. -/
def tabB (s : State) (book : Bool) (n : Nat) (p : List Byte → Bool) : Bool :=
  loadWordOk 0 book && (segFault s 0 0 0x10800 n false).isNone && okB (piecesOf s accRead 0 0 0x10800 n) fun ps =>
    isDirect accRead (ps.map Piece.alone) s && p (ps.flatMap fun x => x.loc.bytes s x.n)

theorem witness_CodeTables : (∀ i ∈ ([.ctloadCt 0 1 2 0, .ctloadCt 7 1 2 0, .ctloadCb 7 1 2 0, .ctinv 3 2 0] : List Instr),
      Executable i (tTab 0x44) ∧ Executable i (tTab 0x11) ∧ lowest (activeOf i (tTab 0x44)) = some 0) ∧
    tabB (tTab 0x44) false 8 (fun bs => tableOk (tableOf bs)) = true ∧
    tabB (tTab 0x11) false 8 (fun bs => !tableOk (tableOf bs)) = true ∧ tabB (tTab 0x44) true 32 (fun _ => true) = true ∧
    ((tTab 0x44).v 2 0).toNat < 65536 :=
  ⟨fun i hi => ⟨runs (s := tTab 0x44) (by decide +kernel) i hi, runs (s := tTab 0x11) (by decide +kernel) i hi,
    (show ∀ i ∈ ([.ctloadCt 0 1 2 0, .ctloadCt 7 1 2 0, .ctloadCb 7 1 2 0, .ctinv 3 2 0] : List Instr),
      lowest (activeOf i (tTab 0x44)) = some 0 by decide +kernel) i hi⟩, by decide +kernel⟩

/-- The job has one record and one sharding entry, of zeros, at 0x10800. -/
def tFence : State := t0.updJob t0.group.job fun j => { j with recCount := 1, shCount := 1, shBase := 0x10800 }

theorem witness_RecordFences : tFence.core.pend = [] ∧ (∀ c ∈ tFence.cores, c.pend = []) ∧ Executable (.recfence 1 0) tFence ∧
    Executable (.shfence 1 0) (lane0 tFence) ∧ lanesIn (activeOf (.shfence 1 0) (lane0 tFence)) = [0] ∧ (∀ l, l < 32 → (tFence.v 1 l).toNat < tFence.job.recCount ∧ (tFence.v 1 l).toNat < 2 ^ 20) ∧
    tFence.jobs.all (fun j => j.chip == tFence.node.chip) = true ∧
    okB (shfenceEntry 0 (lane0 tFence)) (fun r => isReached (lane0 tFence) r.2) = true ∧
    captured tFence ((counterparts tFence).map (·.uid)) 0 = false ∧ (∀ j ∈ tFence.jobs, 0 ∉ j.closed) ∧
    (counterparts tFence).map (·.uid) = [tFence.job.uid] ∧
    (counterparts (lane0 tFence)).all (fun j => okB (devPieces (lane0 tFence).who (lane0 tFence) j accWrite (j.shBase + 128 * 0) 128)
      fun ps => ps.all fun p => someB (tlbFind (lane0 tFence).core j.uid p.va) fun e => tlbServes accWrite e.leaf) = true :=
  ⟨by decide +kernel, by decide +kernel, canRun_sound (by decide +kernel), canRun_sound (by decide +kernel), by decide +kernel⟩

-- Witnesses: levels of work

/-- A launch record of one group of one warp at tier 1, or with a reserved bit. -/
def launchRec (bad : Bool) : List Byte :=
  leBytes 8 0x10000 ++ leBytes 4 1 ++ leBytes 4 (0x4000 + (if bad then 2 ^ 24 else 0)) ++ List.replicate 40 0 ++
    leBytes 8 0x10F00 ++ List.replicate 64 0

/-- The issuer's launch under a graph and a phase, with counter 0x10F00; a launch record at 0x10880 named by v1; word x
in v3. -/
def tLev (bad : Bool) (x : Word) : State :=
  let s := reg 1 0x10880 (reg 3 x (poke 0x10880 (launchRec bad) t0))
  { s with
    launches := s.launches.map fun l => { l with graph := 50, counter := 0x10F00 }
    graphs := [{ Graph.none with uid := 50, phase := 51, job := s.group.job, counter := 0x10F10, outstanding := 1, done := false }]
    phases := [{ Phase.none with uid := 51, job := s.group.job, counter := 0x10F20, outstanding := 1, done := false },
      { Phase.none with uid := 52, job := s.group.job, counter := 0x10F30 }] }

/-- The hypotheses of LaunchesAndPhases on the record read. -/
def launchB (s : State) (p : List Byte → Bool) : Bool :=
  okB (fixedAccess accRead (BitVec.twoPow 32 0) 128 0 0 (fun _ => s.v 1 0) s) fun as =>
    match as with
    | [x] => isDirect accRead [x] s && p (x.bytes s)
    | _ => false

theorem witness_LaunchesAndPhases_launch : (∀ b ∈ [true, false], Executable (.launch 4 1 2 0) (tLev b 0) ∧
      lowest (activeOf (.launch 4 1 2 0) (tLev b 0)) = some 0 ∧ ((tLev b 0).v 1 0).toNat % 128 = 0 ∧
      policyFault launchRule ((tLev b 0).v 2 0) 0 = none ∧ launchCancelled (tLev b 0) = false) ∧
    launchB (tLev true 0) (fun bs => launchBad (tLev true 0) (tLev true 0).job bs false == some 4) = true ∧
    launchB (tLev false 0) (fun bs => (launchBad (tLev false 0) (tLev false 0).job bs false).isNone) = true ∧
    (tLev false 0).graphs.any (fun y => y.uid == (tLev false 0).launch.graph) = true ∧ readyNodes (tLev false 0) (tLev false 0).job.part = [] ∧
    ((tLev false 0).updGraph 50 fun g => { g with cancel := 1 }).launch.graph = 50 ∧
    launchCancelled ((tLev false 0).updGraph 50 fun g => { g with cancel := 1 }) = true ∧
    ((reg 1 0x10890 (tLev false 0)).v 1 0).toNat % 128 ≠ 0 := by
  refine ⟨?_, by decide +kernel⟩
  intro b _
  cases b <;> exact ⟨canRun_sound (by decide +kernel), by decide +kernel⟩

/-- A graph record of one node at 0x10900, a phase record of the job's at 0x10960 that v1 names, at system level. -/
def tPhase (j : Job → Job) : State :=
  let s := poke 0x10900 (leBytes 8 1 ++ leBytes 8 0 ++ leBytes 8 0x10F10 ++ leBytes 8 0 ++ leBytes 8 0x10880 ++ leBytes 8 0)
    (poke 0x10960 (leBytes 8 0x10900 ++ leBytes 8 0x10F20 ++ List.replicate 16 0) (poke 0x10880 (launchRec false) t0))
  level .system (reg 1 0x10960 (s.updJob s.group.job j))

/-- The 32 bytes of the phase record. -/
def phase0 : List Byte := leBytes 8 0x10900 ++ leBytes 8 0x10F20 ++ List.replicate 16 0

/-- A job of contract that the device does not admit. -/
def greedy (j : Job) : Job := { j with contract := true, period := 1, budget := 2 ^ 40 }

theorem witness_LaunchesAndPhases_phase : Executable (.phstart 4 1 0) (tPhase id) ∧
    lowest (activeOf (.phstart 4 1 0) (tPhase id)) = some 0 ∧ ((tPhase id).v 1 0).toNat % 32 = 0 ∧
    ((reg 1 0x10970 (tPhase id)).v 1 0).toNat % 32 ≠ 0 ∧
    okB (fixedAccess accRead (BitVec.twoPow 32 0) 32 0 0xC0 (fun _ => (tPhase id).v 1 0) (tPhase id)) (fun as =>
      match as with
      | [x] => isDirect accRead [x] (tPhase id) && x.bytes (tPhase id) == phase0 &&
          !(startPhase (tPhase id).job.part 0x10960 (some phase0) (loadLane x (tPhase id)).2).2.frame.tx.active
      | _ => false) = true ∧
    someB (readPhase 0 phase0 (tPhase fun j => { j with inFlight := 2 })) (fun r => decide (2 ≤ r.1.inFlight)) = true ∧
    someB (readPhase 0 phase0 (tPhase greedy)) (fun r => r.1.contract && !r.1.admitted && decide (r.1.inFlight < 2) &&
      !admits r.2.2 r.1) = true ∧
    someB (readPhase 0 phase0 ((tPhase id).updPart 0 fun p => { p with hold := true })) (fun r => !r.1.contract &&
      decide (r.1.inFlight < 2) && r.1.held.isNone && (r.2.2.partOf 0).hold) = true :=
  ⟨canRun_sound (by decide +kernel), by decide +kernel⟩

theorem witness_Cancels : (∀ x ∈ [0x10F00, 0x10F01, 0x10F02, 0x10F30, 0x10F38], Executable (.cancel 4 3 0) (tLev false x)) ∧
    lowest (activeOf (.cancel 4 3 0) (tLev false 0)) = some 0 ∧
    (0x10F02 : Nat) / 2 % 4 ≠ 0 ∧ liveLevel (tLev false 0) (tLev false 0).job 0x10F30 = none ∧
    pastLevel (tLev false 0) (tLev false 0).job 0x10F30 = true ∧ liveLevel (tLev false 0) (tLev false 0).job 0x10F38 = none ∧
    pastLevel (tLev false 0) (tLev false 0).job 0x10F38 = false ∧
    (liveLevel (tLev false 0x10F01) (tLev false 0x10F01).job 0x10F00).map (·.cancel (tLev false 0x10F01)) = some 0 ∧
    (tLev false 0x10F01).job ∈ (tLev false 0x10F01).jobs ∧
    (cancelAt (tLev false 0x10F01).job 0x10F00 1 (tLev false 0x10F01)).2.frame.tx.active = false ∧
    (let s := (tLev false 0x10F00).updLaunch (tLev false 0x10F00).group.launch fun l => { l with cancel := 1 }
     (liveLevel s s.job 0x10F00).map (·.cancel s) = some 1) := by
  refine ⟨?_, by decide +kernel⟩
  have h : (([0x10F00, 0x10F01, 0x10F02, 0x10F30, 0x10F38] : List Word).all fun x =>
      canRun (.cancel 4 3 0) (tLev false x)) = true := by decide +kernel
  exact fun x hx => canRun_sound (List.all_eq_true.mp h x hx)

-- Witnesses: special registers, group state, translations

/-- A segment of 128 bytes from 0x10000 in the quad at v4. -/
def tSeg (base lim : Word) : State := level .system (reg 4 base (reg 6 lim t0))

theorem witness_SpecialAndSegmentRegisters :
    (∀ i ∈ ([.srd 3 0x00, .srd 3 0x0B, .srd 3 0x20, .srd 3 0x22, .srd 3 0x62, .swr 3 0x10, .swr 3 0x12, .swr 3 0x13,
      .swr 3 0x60] : List Instr), Executable i (level .system t0)) ∧
    (∀ i ∈ ([.segld 4 0, .segld 4 3] : List Instr), Executable i (tSeg 0x10000 0x20000) ∧ activeOf i (tSeg 0x10000 0x20000) ≠ 0 ∧
      Executable i (tSeg 0x10040 0x20000) ∧ Executable i (tSeg 0x20000 0x10000)) ∧
    ((tSeg 0x10000 0x20000).pair 4 0).toNat % 128 = 0 ∧
    ((tSeg 0x10000 0x20000).pair 6 0).toNat - ((tSeg 0x10000 0x20000).pair 4 0).toNat ≤ 65536 ∧
    ((tSeg 0x10040 0x20000).pair 4 0).toNat % 128 ≠ 0 :=
  ⟨runs (by decide +kernel), fun i hi => ⟨runs (s := tSeg 0x10000 0x20000) (by decide +kernel) i hi,
    (show ∀ i ∈ ([.segld 4 0, .segld 4 3] : List Instr), activeOf i (tSeg 0x10000 0x20000) ≠ 0 by decide +kernel) i hi,
    runs (s := tSeg 0x10040 0x20000) (by decide +kernel) i hi, runs (s := tSeg 0x20000 0x10000) (by decide +kernel) i hi⟩,
    by decide +kernel⟩

/-- The warp in the handler, with a user frame at PC 0x20, and a second warp of its group halted or running. -/
def tHandler (run : RunState) (x : Word) : State :=
  let s := lane0 (reg 1 x t0)
  let s : State := { s with warps := { s.warp with uid := 9, id := 1, run := run } :: s.warps }
  level .handler { s with warp := { s.warp with
    saved := some { s.warp.frame with pcs := List.replicate 32 0x20 }
    fault := { s.warp.fault with ctl := 0x80000000, lanes := 3, rpc := 0x40 } } }

theorem witness_GroupState_items :
    (∀ x ∈ [0, 0x50000, 0x41000], Executable (.grprd 3 1 0) (tHandler .halted x) ∧
      selOk (tHandler .halted x) ((tHandler .halted x).v 1 0) = true) ∧
    Executable (.grprd 3 1 0) (tHandler .halted 0x70000) ∧
    selOk (tHandler .halted 0x70000) ((tHandler .halted 0x70000).v 1 0) = false ∧
    (∀ x ∈ [0xFE0, 0x10000, 0x80000], Executable (.grpwr 3 1 0) (tHandler .halted x) ∧
      lanesIn (activeOf (.grpwr 3 1 0) (tHandler .halted x)) = [0] ∧
      writeItemFault (tHandler .halted x) ((tHandler .halted x).v 1 0) ((tHandler .halted x).v 3 0) = none) ∧
    (tHandler .halted 0).frame.tx.active = false ∧ (tHandler .halted 0).warp.saved.isSome = true ∧
    ((tHandler .halted 0).allWarps.map (·.uid)).Nodup ∧
    ∀ w ∈ (tHandler .halted 0).allWarps, (selFrame (tHandler .halted 0) w).pcs.length = 32 ∧
      (selFrame (tHandler .halted 0) w).sds.length = 32 ∧ (selFrame (tHandler .halted 0) w).preds.length = 7 ∧
      (selFrame (tHandler .halted 0) w).flags.length = 32 ∧ (selFrame (tHandler .halted 0) w).rs.length = 32 := by
  have h : (([0, 0x50000, 0x41000] : List Word).all fun x => decide (canRun (.grprd 3 1 0) (tHandler .halted x) = true ∧
      selOk (tHandler .halted x) ((tHandler .halted x).v 1 0) = true)) = true := by decide +kernel
  have k : (([0xFE0, 0x10000, 0x80000] : List Word).all fun x => decide (canRun (.grpwr 3 1 0) (tHandler .halted x) = true ∧
      lanesIn (activeOf (.grpwr 3 1 0) (tHandler .halted x)) = [0] ∧
      writeItemFault (tHandler .halted x) ((tHandler .halted x).v 1 0) ((tHandler .halted x).v 3 0) = none)) = true := by
    decide +kernel
  replace h := fun x hx => of_decide_eq_true (List.all_eq_true.mp h x hx)
  replace k := fun x hx => of_decide_eq_true (List.all_eq_true.mp k x hx)
  exact ⟨fun x hx => ⟨canRun_sound (h x hx).1, (h x hx).2⟩, canRun_sound (by decide +kernel), by decide +kernel,
    fun x hx => ⟨canRun_sound (k x hx).1, (k x hx).2⟩, by decide +kernel⟩

theorem witness_GroupState_warps :
    (∀ r ∈ [RunState.halted, .running, .ended, .wedged], Executable (.grpres 3 1 0) (tHandler r 0x101) ∧
      Executable (.grpres 3 1 0) (tHandler r 0x001) ∧ ((tHandler r 0x101).warpNo 1).map (·.run) = some r ∧
      ((tHandler r 0x101).warpNo 1).map (·.level) = some .user ∧ ((tHandler r 0x101).warpNo 1).map (·.uid) = some 9) ∧
    lowest (activeOf (.grpres 3 1 0) (tHandler .halted 0)) = some 0 ∧ (tHandler .halted 0).warp.uid ≠ 9 ∧
    Focused (tHandler .running 1) ∧ ((tHandler .running 1).allWarps.map (·.uid)).Nodup ∧ (tHandler .running 1).core.pend = [] ∧
    Executable (.tret 0) (tHandler .halted 0) ∧ activeOf (.tret 0) (tHandler .halted 0) ≠ 0 ∧
    ((tHandler .halted 0).warp.saved.map fun f => (f.tx.active, f.live)) = some (false, BitVec.allOnes 32) := by
  have h : ∀ r ∈ [RunState.halted, .running, .ended, .wedged], canRun (.grpres 3 1 0) (tHandler r 0x101) = true ∧
      canRun (.grpres 3 1 0) (tHandler r 0x001) = true ∧ ((tHandler r 0x101).warpNo 1).map (·.run) = some r ∧
      ((tHandler r 0x101).warpNo 1).map (·.level) = some .user ∧ ((tHandler r 0x101).warpNo 1).map (·.uid) = some 9 := by
    decide +kernel
  exact ⟨fun r hr => ⟨canRun_sound (h r hr).1, canRun_sound (h r hr).2.1, (h r hr).2.2⟩, by decide +kernel, by decide +kernel,
    ⟨by decide +kernel, by decide +kernel⟩, by decide +kernel, by decide +kernel, canRun_sound (by decide +kernel), by decide +kernel⟩

theorem witness_Translations : (∀ i ∈ ([.tlbinv 2 0, .tlbinv2 2 0, .xlate 4 2 0] : List Instr),
      Executable i (level .system (reg 2 0x10000 t0)) ∧ Executable i (level .handler (reg 3 0xFFFF t0)) ∧
      Executable i (level .system (reg 3 0x80000 t0))) ∧
    lowest (activeOf (.tlbinv 2 0) t0) = some 0 ∧ t0.core.pend = [] ∧ (∀ c ∈ t0.cores, c.pend = []) ∧
    invWordOk ((reg 2 0x10000 t0).pair 2 0) false = true ∧ invWordOk ((reg 2 0x10001 t0).pair 2 0) true = true ∧
    ((reg 2 0x10000 t0).pair 2 0).toNat / 16 % 16 = t0.job.vm ∧ ((reg 2 0x10000 t0).pair 2 0).toNat < 2 ^ 50 ∧
    okB (walk t0 t0.job 0x10000 (xlateAcc 0)) (fun _ => true) = true ∧
    ((reg 3 0xFFFF t0).pair 2 0).toNat < 2 ^ 50 ∧ okB (walk t0 t0.job 0xFFFF00000000 (xlateAcc 0)) (fun _ => true) = false ∧
    2 ^ 50 ≤ ((reg 3 0x80000 t0).pair 2 0).toNat :=
  ⟨fun i hi => ⟨runs (s := level .system (reg 2 0x10000 t0)) (by decide +kernel) i hi,
    runs (s := level .handler (reg 3 0xFFFF t0)) (by decide +kernel) i hi,
    runs (s := level .system (reg 3 0x80000 t0)) (by decide +kernel) i hi⟩, by decide +kernel⟩

-- Witnesses: events of warps, groups and levels

/-- A computation fails. -/
def errB {ε α : Type} (x : Except ε α) : Bool := !(okB x fun _ => true)

/-- A warp that a join, a watch, a backoff, a MIGRATING page and a load hold, at cycle 70 000, with an engine fault
logged. -/
def tHeld : State :=
  let s : State := { t0 with core := { t0.core with cycle := 70000 } }
  let s := s.updFrame fun f => { f with join := some 0x80, joinAt := 0, tx := { f.tx with backoff := some 5 } }
  { s with
    warp := { s.warp with
      asleep := true, frame := { s.frame with parked := [(0, { Hold.none with migrating := some (3, false) })] }
      staging := [{ dest := 7, all := [7], key := none, flags := [], lines := [], reuse := false }] }
    group := { s.group with elog := [{ warp := s.warp.id, record := s.warp.fault }] } }

theorem witness_WarpEvents_held : Focused tHeld ∧ CanEnter tHeld ∧ tHeld.frame.join = some 0x80 ∧
    tHeld.frame.joinAt + 4096 ≤ tHeld.core.cycle ∧ tHeld.warp.asleep = true ∧ tHeld.frame.tx.backoff = some 5 ∧
    tHeld.frame.parked.map (·.2.migrating) = [some (3, false)] ∧ (tHeld.warp.staging.find? fun e => e.dest == 7).isSome = true ∧
    tHeld.warp.run = .running ∧ tHeld.group.status = .resident ∧ lowest tHeld.frame.live = some 0 ∧
    (tHeld.group.elog.find? fun e => e.warp == tHeld.warp.id).isSome = true ∧ tHeld.group.onCore = true ∧
    tHeld.reductions.filter Reduction.full = [] ∧ tHeld.warp.present.any (·.accepted) = false ∧ tHeld.core.pend = [] ∧
    tHeld.rewrites = [] ∧ tHeld.lateLogs = [] ∧ tHeld.lateWrites = [] ∧ tHeld.warp.atomic = false ∧
    (tx (fun x => { x with backoff := none }) tHeld).frame.tx.backoff = none ∧ (nameFor (tHeld.frame.reg 7) (sweep tHeld).core).isSome = true :=
  ⟨⟨by decide +kernel, by decide +kernel⟩, ⟨by decide +kernel, by decide +kernel, by decide +kernel⟩, by decide +kernel⟩

set_option maxRecDepth 20000 in
theorem witness_WarpEvents_others :
    (let s := tx (fun x => { x with pending := true }) (inTx t0)
     s.frame.tx.active = true ∧ s.frame.tx.pending = true ∧ s.warp.group = s.group.uid ∧ s.group.core = s.core.id) ∧
    (RegVal.zero { words := lanesOf fun _ => 0, poison := 0 } = true ∧
      (nameFor { words := lanesOf fun _ => 0, poison := 0 } t0.core).isSome = true) ∧
    (RegVal.zero { words := lanesOf fun _ => 5, poison := 0 } = false ∧
      (nameFor { words := lanesOf fun _ => 5, poison := 0 } t0.core).isSome = true) ∧
    errB (fetchWord (t0.updFrame fun f => { f with pcs := List.replicate 32 0x800000 }) 0x800000) = true ∧
    (wordLevel 0x4A0C0823).1 ≤ t0.warp.level.rank := by decide +kernel

theorem witness_WarpEvents_words : decode 1 = .error .opcode ∧ decode 0x3A0410B0 = .error .function ∧
    decode 0x4A0C0823 = .error .reserved := by
  refine ⟨?_, ?_, ?_⟩ <;> rfl

/-- The issuer's group and a second one of its team on the core, each with its warp, stalled since cycle 0. -/
def tMates (f g : Group → Group) (w : Warp → Warp) : State :=
  let s := t0.updLaunch t0.group.launch fun l => { l with outstanding := 2 }
  { s with
    core := { s.core with cycle := 70000 }
    warp := w { s.warp with stalled := some 0 }
    group := f s.group
    groups := g { s.group with uid := 80, rank := 1, order := 9 } :: s.groups
    warps := w { s.warp with uid := 81, group := 80, stalled := some 0 } :: s.warps }

/-- The premises of GroupEvents on a state. -/
def groupsOk (s : State) : Bool :=
  decide (s.group.core = s.core.id ∧ (s.allGroups.map (·.uid)).Nodup ∧ s.group.uid ≠ 0)

theorem witness_GroupEvents_team :
    (let s := tMates (fun x => { x with teamSize := 2, progress := 15 }) (fun x => { x with teamSize := 2, progress := 100 }) id
     groupsOk s = true ∧
     (let ms := s.allGroups.filter fun x => x.status != .completed && x.launch == s.group.launch && x.team == s.group.team &&
        (x.uid == s.group.uid || decide (1 < s.group.teamSize)) && x.onCore
      2 ≤ ms.length ∧ (ms.map (·.rank)).Nodup ∧ ∃ x ∈ ms, (∀ y ∈ ms, x.progress < y.progress ∨ (x.progress = y.progress ∧ x.rank ≤ y.rank)) ∧
        ∃ z ∈ ms, 16 * x.progress < 15 * z.progress)) ∧
    (let s := tMates id id id
     groupsOk s = true ∧
     ∃ x ∈ s.groupsOn s.core.id, x.uid = 80 ∧ ∀ y ∈ s.groupsOn s.core.id, y.uid = 80 ∨ y.order < x.order) := by decide +kernel

/-- Two groups on a core whose only pool entries, of one bucket, are withdrawn, the value of v1 of each warp under no
name. -/
def tPress : State :=
  let s := tMates id id fun w => { w with frame := { w.frame with
    names := [], regs := [(1, { words := lanesOf fun _ => 5, poison := 0 })] } }
  { s with core := { s.core with
      poolSize := 0
      pool := (List.range 8).map fun n => { name := n, words := lanesOf fun _ => 0, gen := 0, poison := 1, live := false } } }

set_option maxRecDepth 20000 in
theorem witness_GroupEvents_pressure : groupsOk tPress = true ∧
    (∃ x ∈ tPress.groupsOn tPress.core.id, ∀ y ∈ tPress.groupsOn tPress.core.id, y = x ∨ y.order < x.order) ∧
    (∃ y ∈ tPress.groupsOn tPress.core.id, ∃ w ∈ tPress.warpsOf y.uid, w.frame.live ≠ 0) ∧
    ∀ y ∈ tPress.groupsOn tPress.core.id, y.preempt = false ∧ ∀ w ∈ tPress.warpsOf y.uid, w.frame.live ≠ 0 ∧
      w.stalled = some 0 ∧ 0 + 65536 ≤ tPress.core.cycle ∧ (settleNames (tPress.focus w.uid)).2 = false := by decide +kernel

theorem witness_GroupEvents_leave :
    (∀ b ∈ [true, false], let s := tMates (fun x => { x with preempt := true, abort := b }) id id
     groupsOk s = true ∧ s.group.onCore = true ∧ s.group.preempt = true ∧ s.group.abort = b ∧
     (s.partOf s.job.part).preemptAt = none ∧ (s.launches.any fun l => l.uid == s.group.launch) = true ∧
     s.launch.done = false ∧ 1 < s.launch.outstanding ∧ (∀ w ∈ s.warpsOf s.group.uid, w.atomic = false) ∧
     s.writing s.group.uid = [] ∧ s.rewrites = [] ∧ s.core.copies = [] ∧ s.graphs = [] ∧ (s.allWarps.map (·.uid)).Nodup) ∧
    (let s := tMates id id fun w => { w with run := .ended }
     groupsOk s = true ∧ s.group.onCore = true ∧ s.group.abort = false ∧ (∀ w ∈ s.warpsOf s.group.uid, w.run = .ended) ∧
     s.group.elog = [] ∧ s.group.restarts = [] ∧ s.writing s.group.uid = [] ∧ s.core.copies = [] ∧ s.cores = [] ∧
     s.core.shadows = [] ∧ s.core.engine.owner = none ∧ (s.partOf s.job.part).preemptAt = none ∧
     s.encoders = [] ∧ s.launch.done = false ∧ 1 < s.launch.outstanding) := by
  decide +kernel

/-- A launch of one group that waits in the lowest tier's queue; two nodes of graph 50 are ready, the first of them,
its record at a, before the other. -/
def tQueued (a : Nat) : State :=
  let s := poke 0x10880 (launchRec false) t0
  let s := s.updPart 0 fun p => { p with queues := [[], [.fresh 60], []] }
  { s with
    launches := { s.launch with uid := 60, next := 0, graph := 50, counter := 0x10F10 } :: s.launches
    graphs := [{ Graph.none with uid := 50, job := s.group.job, done := false, outstanding := 1
                                 nodes := [{ lrec := a, pred := 0, state := .ready, readyAt := 3 },
                                   { lrec := a, pred := 0, state := .ready, readyAt := 4 }] }] }

theorem witness_Placement_queue :
    ((t0.updPart 0 fun p => { p with hold := true }).partOf 0).hold = true ∧ waitingRestarts t0 0 = [] ∧
    (let s := tQueued 0x10880
     let x := s.launchOf 60
     (s.parts.any fun p => p.num == 0) = true ∧ (s.partOf 0).hold = false ∧
     (s.partOf 0).queues = (List.replicate 3 []).set 1 [.fresh 60] ∧ x.done = false ∧ 1 ≤ x.team ∧ x.next + 1 = x.groups ∧
     waitingRestarts s 0 = [] ∧ (s.launches.any fun l => l.uid == 60) = true ∧ (chooseFresh (s.partCores 0) x s).isSome = true ∧
     firstNode s (s.jobOf (s.graphOf 50).job).part = some (50, 0) ∧ ((s.graphOf 50).nodes[1]?).isSome = true ∧
     someB (localRead (s.jobOf (s.graphOf 50).job) 0x10880 128 s) (fun r =>
       (launchBad r.2 (s.jobOf (s.graphOf 50).job) r.1 true).isNone) = true) ∧
    firstNode (tQueued 0x10890) 0 = some (50, 0) ∧
    ((tQueued 0x10890).graphOf 50).nodes.map (fun n => decide (n.lrec % 128 ≠ 0)) = [true, true] := by decide +kernel

/-- A pipeline of two stages: the issuer's launch with two groups on the core, each in a warp that runs as r says, and
a launch with a group to start; the queue between them at 0x10800 is full. -/
def tPipe (n : Nat) : State :=
  let s := poke 0x10800 (leBytes 8 3 ++ leBytes 8 5 ++ leBytes 8 0x10880 ++ leBytes 4 2 ++ leBytes 4 0x100)
    ((tMates id id id).updPart 0 fun p => { p with cycle := n })
  { s with
    launches := { s.launch with uid := 60, next := 0, graph := 50, node := some 1 } ::
      s.launches.map fun l => { l with graph := 50, node := some 0 }
    graphs := [{ Graph.none with uid := 50, job := s.group.job, done := false, pipeline := true, qtab := 0x10800, qcount := 1
                                 nodes := List.replicate 2 { lrec := 0x10880, pred := 0, state := .started 60, readyAt := 0 } }] }

theorem witness_Placement_pipeline :
    let s := tPipe 65536
    let g := s.graphOf 50
    let w := s.updGraph 50 fun x => { x with samples := x.samples + 1 }
    let qs := (sampleQueues g w).1
    let w := (sampleQueues g w).2
    let d := w.groupOf 80
    let v := requestPreempt d.uid (w.updGraph 50 fun x => { x with move := some (d.uid, 1) })
    (s.graphs.any fun g => g.uid == 50) = true ∧ g.pipeline = true ∧ g.done = false ∧ g.cancel = 0 ∧
    g.samples < (partCycle s (s.jobOf g.job).part - g.startCycle) / 65536 ∧
    ¬ g.samples < (partCycle (tPipe 65535) (s.jobOf g.job).part - g.startCycle) / 65536 ∧
    (s.jobOf g.job).overrun = false ∧ (receiverQueue w g qs).map (·.consumer) = some 1 ∧
    ((receiverQueue w g qs).bind (donorStage w g qs)) = some 0 ∧ (stageLaunch w g 1).map (·.uid) = some 60 ∧
    d ∈ stageGroups w g 0 ∧ (∀ x ∈ stageGroups w g 0, x = d ∨ x.order < d.order) ∧ (w.allGroups.map (·.uid)).Nodup ∧
    d.teamSize ≤ 1 ∧ (w.launchOf 60).team ≤ 1 ∧ capturable w 80 = true ∧ d.launch ≠ 60 ∧
    moving w g = false ∧ (w.partOf (w.jobOf g.job).part).hold = false ∧ (∀ x ∈ s.graphs, x.uid = 50) ∧
    (∀ x ∈ s.allGroups, x.launch ≠ 60) ∧
    canTake (saveGroup 80 v) (needOf (w.launchOf 60) 1 false) d.core = true ∧
    (let z := tPipe 65536
     let z : State := { z with warps := z.warps.map fun x => { x with frame := { x.frame with
       parked := [(0, { Hold.none with atPeer := [1], atom := true })] } } }
     (teamOf z (z.groupOf 80)).map (·.uid) = [80] ∧ capturable z 80 = false) := by decide +kernel

/-- The job holds a start of the graph record at a. -/
def tStart (a : Nat) (j : Job → Job) : State :=
  let s := poke 0x10900 (leBytes 8 1 ++ leBytes 8 0 ++ leBytes 8 0x10F10 ++ leBytes 8 0 ++ leBytes 8 0x10880 ++ leBytes 8 0) t0
  s.updJob s.group.job fun x => j { x with held := some (a, 0x10F20) }

theorem witness_PeriodsAndHeldStarts_held : ∀ a ∈ [0x10900, 0x10910],
    let s := tStart a id
    let j := s.job
    j ∈ s.jobs ∧ s.jobOf j.uid = j ∧ j.held = some (a, 0x10F20) ∧ (s.partOf j.part).hold = false ∧ j.inFlight < 2 ∧
    j.perStart = none ∧ j.cancel = 0 ∧
    (a = 0x10910 → (readGraph j a s).isNone = true) ∧
    (a = 0x10900 → someB (readGraph j a s) (fun r => !r.1.pipeline && r.1.qcount == 0 && r.2.fresh == s.fresh &&
      r.2.jobs == s.jobs && r.1.nodes.map (·.1) == [0x10880]) = true) ∧
    ((s.updPart j.part fun p => { p with hold := true }).partOf j.part).hold = true := by decide +kernel

theorem witness_PeriodsAndHeldStarts_periods :
    let s := (tStart 0x10900 fun j => { j with contract := true, admitted := true, perStart := some 10, budget := 3, charge := 4
                                               deadline := 5, perPhase := 51 }).updPart 0 fun p => { p with tick := 100 }
    let s : State := { s with phases := [{ Phase.none with uid := 51, job := s.group.job, done := false }] }
    let j := s.job
    j ∈ s.jobs ∧ s.jobOf j.uid = j ∧ j.perStart = some 10 ∧ j.contract = true ∧ j.admitted = true ∧ j.overrun = false ∧
    j.budget < j.charge ∧ j.deadlineSeen = false ∧ (s.phaseOf j.perPhase).done = false ∧
    10 + j.deadline ≤ (s.partOf j.part).tick := by decide +kernel
-- Witnesses: events of copies, writes, walks and the matrix engine

/-- Whether copy 70 is the group's on the core, as CopyEvents asks. -/
def copyIs (s : State) (p : Copy → Bool) : Bool :=
  s.group.core == s.core.id && someB (s.core.copies.find? fun x => x.uid == 70) fun c => c.group == s.group.uid && p c

/-- An operation block: control word, address, M, N, K, stride and format word. -/
def mxBlock (ctl addr m n k stride fmt : Nat) : List Byte :=
  leBytes 4 ctl ++ leBytes 4 1 ++ leBytes 8 addr ++ List.replicate 16 0 ++ leBytes 2 m ++ leBytes 2 n ++ leBytes 2 k ++ leBytes 2 0 ++
    leBytes 4 stride ++ leBytes 4 fmt ++ List.replicate 16 0

/-- The engine is the group's, with a 2 by 2 plane of BF16 ones active; a block at scratchpad offset 128, which record
3 of tCopy names as its follow-on. -/
def tEng (bs : List Byte) (s : State) : State :=
  let s := scr 128 bs (owned s)
  let one : Machine.Num := .fin false 1 0
  let p : Plane := { k := 2, n := 2, kind := 1, rows := [[one, one], [one, one]] }
  { s with core := { s.core with engine := { s.core.engine with active := p } } }

/-- A copy record with FOLW and BAR, its barrier at 256 and its command at 128. -/
def recFolw : List Byte :=
  [0, 1, 0x1E, 0] ++ leBytes 4 256 ++ leBytes 8 1024 ++ leBytes 8 1152 ++ leBytes 4 1 ++ leBytes 4 4 ++ List.replicate 24 0 ++
    leBytes 4 128 ++ leBytes 4 0

/-- A slab of kind 6, of two sectors, at scratchpad offset 1024, to be copied to the slab tile of tZst. -/
def tSlabCopy : State :=
  let s := scr 1024 (leBytes 4 0x6A5 ++ leBytes 4 0 ++ leBytes 4 2 ++ List.replicate 52 0) tZst
  tCopy (fun c => { c with
    record := [0, 1, 0x44, 0] ++ leBytes 4 0 ++ leBytes 8 1024 ++ leBytes 8 0 ++ leBytes 4 1 ++ leBytes 4 64 ++ List.replicate 32 0
    tiles := match resolveAt s.who s.job (s.quad 4 0) (s.quad 4 0).tile (fun _ => none) s with
      | .ok r => [(none, some r.1.ref)]
      | .error _ => [] }) s

theorem witness_CopyEvents_ends :
    copyIs (tCopy (fun c => { c with unit := 1 }) t0) (fun c => c.late.isNone && !c.held && !c.accepted && c.rec'.does == 0 &&
      decide (c.units ≤ c.unit) && !c.rec'.folw && !c.rec'.hasBar) = true ∧
    copyIs (tCopy (fun c => { c with unit := 1, followed := true, record := recFolw }) t0) (fun c => c.late.isNone && !c.held &&
      !c.accepted && c.rec'.does == 0 && decide (c.units ≤ c.unit) && c.followed && c.rec'.hasBar) = true ∧
    copyIs (tCopy (fun c => { c with late := some (23, 7, 0, 0) }) t0) (fun c => c.late == some (23, 7, 0, 0)) = true ∧
    statusOf (exc 23 7 0 0) ≠ 0 ∧ statusOf (exc 23 7 0 0) ≠ 11 ∧ ((tCopy id t0).tag 1).map (·.out) = some 1 := by decide +kernel

/-- A dense MSTR intake of the accepted warp, complete. -/
def intake0 (fn : Nat) (bs : List Byte) : Intake :=
  { fn := fn, block := bs, offset := 128, fmt := 0x811, tiles := [], waiting := false, copy := none, refs := []
    tables := t0.group.tables, books := t0.group.books }

theorem witness_CopyEvents_runs :
    (let s := tCopy (fun c => { c with unit := 1, record := recFolw }) (tEng (mxBlock 0 1024 2 2 2 4 0x811) t0)
     copyIs s (fun c => c.lands && c.rec'.folw && !c.followed && !c.following && decide (c.units ≤ c.unit) &&
       s.core.engine.owner == some s.group.uid && s.core.engine.intake.isNone && c.rec'.follow == 128 &&
       (let x := cmdOf (s.scratch s.group.uid 128 64)
        (blockCheck s 2 x x.fmt [s.group] (0, 0) 0 false).isNone) &&
       okB (resolveRefs (intakeTiles { intake0 2 (s.scratch s.group.uid 128 64) with copy := some 70 } s.group) s) fun _ => true)) = true ∧
    (let s := tCopy (fun c => { c with held := true }) t0
     copyIs s (fun c => c.held && decide (shadowHeld s.core + c.lines ≤ 8192) && firstHeld s.core == some c)) = true := by decide +kernel

set_option maxRecDepth 20000 in
theorem witness_CopyEvents_slab :
    copyIs tSlabCopy (fun c => c.lands && !c.tiles.isEmpty && decide (c.unit < c.units) &&
      someB (c.tiles.getD c.unit (none, none)).2 (fun b => b.shape.storage == 1) && okB (landTile c tSlabCopy) fun _ => true) =
      true := by decide +kernel

theorem witness_CopyEvents_contribution :
    let k : Contribution := { src := 0, jobno := 0, part := 0, number := 7, dst := 0, mask := 3, payload := 0, dkind := 8, rnd := 0
                              sat := false, rowBytes := 4, dstride := 4, bytes := [0, 0, 0, 0], bad := false }
    k.mask.getLsbD k.src = true ∧ t0.reductions = [] ∧ lostContributor t0 { first := k, parts := [k], since := none } = none ∧ (1 < 16 ∧ 1 ≠ k.src ∧ k.mask.getLsbD 1 = true) := by decide +kernel

/-- A plain write of one byte on its way home, or held in the buffer for a line of chip 1. -/
def w0 (buffered : Bool) : PWrite :=
  { warp := 4, group := 0, part := 0, lane := 0, loc := .mem (if buffered then 2 ^ 48 + 0x5800 else 0x5800), via := Via.device
    epoch := if buffered then none else some 0, bytes := [7], op := none, buffered := buffered, strong := false, uo := false, stack := false
    shown := 0, step := 6, since := 0 }

/-- A walk of the page at 0x10000, begun under generation g. -/
def walk0 (g : Nat) : Walk := { job := t0.group.job, va := 0x10000, write := false, gen1 := g, gen2 := 0 }

theorem witness_WritesAndWalks :
    (let s : State := { t0 with core := { t0.core with pend := [w0 false, { w0 false with step := 7 }] } }
     s.core.pend[0]? = some (w0 false) ∧ (w0 false).buffered = false ∧ isKeyed s (w0 false) = true ∧
     (s.core.pend.filter fun x => decide (x = w0 false)) = [w0 false] ∧ (w0 false).isLocal s = true ∧
     ((s.core.pend.drop 1).all fun x => x.step != (w0 false).step) = true) ∧
    (let s : State := { t0 with core := { t0.core with pend := [w0 true], cycle := 70000 } }
     ∀ e ∈ s.core.pend, e.buffered = true ∧ e.loc.line = (w0 true).loc.line ∧ e.since + s.core.wcbage ≤ s.core.cycle ∧
       isKeyed s e = true ∧ (s.partOf e.part).failed.getLsbD e.chip = false ∧ s.silentPeer e.chip = false) ∧
    (t0.jobOf? (walk0 0).job).isSome = true ∧ (walk0 0).gen1 = t0.job.gen1 ∧
    (walk0 0).gen2 = (t0.partOf t0.job.part).vmgens.getD t0.job.vm 0 ∧ (walk0 1).gen1 ≠ t0.job.gen1 ∧
    okB (walk t0 t0.job 0x10000 accRead) (fun _ => true) = true ∧ errB (walk t0 t0.job 0x800000 accRead) = true := by decide +kernel

/-- The warp presented for function fn with the block at 128. -/
def tMx (fn : Nat) (bs : List Byte) : State :=
  let s := tEng bs t0
  let p : Present := { fn := fn, block := 128, lanes := BitVec.allOnes 32, fmts := List.replicate 32 0x811, since := 0, word := 0, accepted := false }
  { s with core := { s.core with cycle := 2 ^ 20 }, warp := { s.warp with run := .presented, present := some p } }

/-- A collective of the one warp, its intake free and its block at 128. -/
def mxOk (s : State) (p : List Byte → Bool) : Bool :=
  s.group.core == s.core.id && s.group.onCore && s.core.engine.owner == some s.group.uid && s.core.engine.intake.isNone &&
    someB (collective s s.group) fun r => r.1.length == 1 && r.2.1.length == 1 && p r.2.2 &&
      !(cmdOf r.2.2).team && (presentedOf s s.group).length == 1

/-- The checks of a collective pass. -/
def mxPass (fn : Nat) (s : State) : Bool :=
  mxOk s fun bs => participantsAgree s [s.warp] bs && (cmdOf bs).zerosOk fn &&
    okB (resolveRefs (intakeTiles (intake0 fn bs) s.group) s) (fun _ => true) && okB (formatVote [s.warp]) (fun f =>
    (blockCheck s fn (cmdOf bs) f [s.group] (s.frame.segs.getD 0 (0, 0)) ((lowest s.warp.presented.lanes).getD 0) true).isNone)

theorem witness_MatrixEvents_accept :
    mxPass 0 (tMx 0 (mxBlock 0 1024 2 2 2 4 0)) = true ∧ mxPass 1 (tMx 1 (mxBlock 0 0 0 0 0 0 0)) = true ∧
    mxPass 2 (tMx 2 (mxBlock 0 1024 2 2 2 4 0)) = true ∧ mxPass 3 (tMx 3 (mxBlock 0x1100 1024 2 2 0 8 0)) = true ∧
    mxPass 4 (tMx 4 (mxBlock 0 0 0 0 0 0 0)) = true ∧ (tMx 3 []).core.engine.work.isEmpty = true ∧ (tMx 3 []).core.pend = [] ∧
    (∀ k ∈ (tMx 3 []).cores, k.pend = []) ∧ (cmdOf (mxBlock 0x1100 1024 2 2 0 8 0)).tagEn = false := by decide +kernel

theorem witness_MatrixEvents_faults :
    (let s := tMx 1 (leBytes 4 0 ++ List.replicate 60 0)
     mxOk s (fun bs => !participantsAgree s [s.warp] bs) = true ∧ s.frame.tx.active = false ∧ s.warp.level ≠ .handler ∧
     s.handlerValid = true ∧ s.warp.presented.since + 2 ^ 20 ≤ s.core.cycle) := by decide +kernel

/-- The engine's state changed, with the warp's presentation accepted. -/
def tWork (bs : List Byte) (f : Engine → Engine) : State :=
  let s := tMx 2 bs
  { s with
    core := { s.core with engine := f s.core.engine }
    warp := { s.warp with present := s.warp.present.map fun p => { p with accepted := true } } }

theorem witness_MatrixEvents_intake : ∀ fn ∈ [0, 2],
    let k := intake0 fn (mxBlock 0 1024 2 2 2 4 0)
    let s := tWork k.block fun e => { e with intake := some k }
    s.core.engine.intake.isSome = true ∧ k.copy = none ∧ (cmdOf k.block).team = false ∧
    k.tiles.length = (intakeTiles k s.group).length ∧ (intakeWarps s k s.group).map (·.uid) = [s.warp.uid] ∧
    s.core.engine.work.isEmpty = true := by decide +kernel

/-- The state of tTile with an MSTR intake by tile of 4-bit elements. -/
def tSeam : State :=
  let k : Intake := { intake0 2 (mxBlock 8 0 32 32 32 0 0) with fmt := 0x822 }
  let k := { k with refs := match resolveRefs (intakeTiles k (tTile 8).group) (tTile 8) with | .ok r => r.1 | .error _ => [] }
  { (tTile 8) with core := { (tTile 8).core with engine := { (tTile 8).core.engine with owner := some t0.group.uid, intake := some k } } }

theorem witness_MatrixEvents_seam : tSeam.core.engine.owner = some tSeam.group.uid ∧
    someB tSeam.core.engine.intake (fun k => !k.waiting && someB ((intakeTiles k tSeam.group)[k.tiles.length]?) fun q =>
      someB k.refs[k.tiles.length]? fun r => okB (intakeTile k q r tSeam) fun _ => true) = true := by decide +kernel

theorem witness_MatrixEvents_work :
    (let s := tWork [] fun e => { e with work := [.stream 0 [[.fin false 1 0, .fin false 1 0]] e.active 0] }
     s.core.engine.owner = some s.group.uid ∧ s.core.engine.active.n ≤ 128 ∧ ¬ 32 * (0 + 1) < s.core.engine.active.k) ∧
    (∀ o ∈ [0, 2], let b := mxBlock 0x21100 1024 2 2 0 8 0
     let c := cmdOf b
     let x := spanOf 3 c 0x811 t0.group c.k
     c.dseg = true ∧ (o = 0 → o < x.rows ∧ x.cols ≠ 0 ∧ 8 ≤ kindWidth x.kind) ∧
     (o = 2 → x.rows ≤ o ∧ c.maxEn = false ∧ c.flagEn = false ∧ c.tagEn = true ∧ (t0.tag c.tag).isSome = true)) := by decide +kernel
-- Witnesses: the fabric, the host, registers, boot, encoders and steps

/-- Chip 0 of a node of two, with one link of port 0 to chip 1 up, nothing known of the peer but that it answers. -/
def tFab : State :=
  { t0 with
    node := { size := 2, chip := 0, ports := some (1, 0) :: List.replicate 15 none }
    links := [{ port := 0, idx := 1, up := true, txSeq := 5, rxSeq := 7, retry := [], replays := 0 }]
    peers := [{ chip := 1, silent := false, seen := [], detour := none, reach := [], parts := [] }] }

/-- A flit of one message in order. -/
def flit0 : Flit :=
  { ch := 0, nak := false, seq := 8, ack := 5, fcch := 15, freed := 0, intact := true, msgs := [(9, { src := 1, part := 0, body := .load 0 4 true })] }

/-- Whether a peer's access to n bytes at a finds them here. -/
def homeOf (a n : Nat) : Bool :=
  someB (tFab.parts.find? fun p => p.num == 0) fun p => inStorage p.dies p.carve a && inStorage p.dies p.carve (a + n - 1)

theorem witness_FabricEvents : tFab.inbox = [] ∧ (tFab.parts.all fun p => p.num != 9) = true ∧ homeOf 0x5800 4 = true ∧
    homeOf (2 ^ 41) 4 = false ∧ (tFab.linkOf 0 1).map (·.up) = some true ∧ tFab.portPeer 0 = some (1, 0) ∧
    (tFab.linkOf 0 1).map (·.rxSeq + 1) = some flit0.seq ∧ 4 < flit0.fcch.toNat ∧ (tFab.partOf 0).failed.getLsbD 1 = false ∧
    (tFab.peerOf 1).isSome = true ∧
    (let s := tFab.updPart 0 fun p => { p with fabpol := 1 }
     (s.portPart 0).fabpol.getLsbD 0 = true) ∧
    (tFab.linkOf 0 1).map (·.retry.length) = some 0 ∧ (liveLinks tFab 1).length = 1 ∧
    (tFab.partOf (tFab.portPart 0).num).fabpol.getLsbD 2 = false ∧ 1 < 4 ∧ (1, 0) ≠ (2, 0) ∧
    (let s : State := { tFab with links := [] }
     1 < 16 ∧ 1 ≠ s.node.chip ∧ ((s.core :: s.cores).map (·.id)).Nodup ∧ (liveLinks s 1).length = 0 ∧ (detourNow s 1).isNone = true ∧
     (s.parts.any fun p => !p.failed.getLsbD 1) = true) ∧
    tFab.boot = .running ∧ (tFab.partOf 0).opened = false ∧
    ((tFab.updPart 0 fun p => { p with opened := true }).partOf 0).opened = true := by decide +kernel

theorem witness_FabricEvents_forward :
    let s : State := { tFab with
      node := { size := 8, chip := 0, ports := some (1, 0) :: some (2, 0) :: List.replicate 14 none }
      links := tFab.links ++ [{ port := 1, idx := 0, up := true, txSeq := 0, rxSeq := 0, retry := [], replays := 0 }] }
    let f : Flit := { flit0 with ch := 4, fwd := some 2 }
    s.portPeer 0 = some (1, 0) ∧ (s.linkOf 0 1).map (·.rxSeq + 1) = some f.seq ∧ (s.linkOf 0 1).map (·.up) = some true ∧
    f.intact = true ∧ f.nak = false ∧ 4 < f.fcch.toNat ∧ 2 ≠ s.node.chip ∧ 2 ≠ 1 ∧ s.queued = [] ∧
    (nextLink (acknowledge 0 1 f.ack s) (outPort s 2)).isSome = true ∧
    hasCredit s (((s.portPeer (outPort s 2)).map (·.1)).getD 16) 4 = true := by
  decide +kernel

/-- A host command's view: partition 0 opened, its ring of one command at 0x6000, a job context at 0x5000 where b is
the job's number, and slot 0 for the window. -/
def tHost (b : Nat) : State :=
  let ctx := leBytes 8 0x1000 ++ List.replicate 56 0 ++ leBytes 4 0 ++ leBytes 4 b ++ leBytes 8 0x10F00 ++ List.replicate 48 0
  let s : State := { t0 with
    mem := Memory.write (Memory.write (Memory.write t0.mem 0x6000 (leBytes 8 0 ++ leBytes 8 0 ++ leBytes 8 0x6040 ++ leBytes 4 4 ++
      leBytes 4 0)) 0x6040 (leBytes 4 9)) 0x5000 ctx
    hostLines := [3] }
  s.updPart 0 fun p => { p with opened := true, ringbase := 0x6000 }

theorem witness_HostSide_jobs :
    (physRead (tHost 5) 0 (2 ^ 41) 128).isNone = true ∧
    someB (physRead (tHost 5) 0 0x5000 128) (fun bs => contextOk bs && fieldB bs 0x28 4 == 0 && (jobIn (tHost 5) 0 (fieldB bs 0x44 4)).isNone &&
      (let j := jobOfContext (tHost 5) 0 bs
       counterOk (if ((tHost 5).jobs.any fun x => x.chip == j.chip && x.part == 0 && x.vm == j.vm) = true then tHost 5
         else (tHost 5).updPart 0 fun p => { p with vmlive := p.vmlive.set j.vm (p.vmroots.getD j.vm 0) }) j (fieldB bs 0x48 8))) = true ∧
    (∀ b ∈ [true, false], someB (jobIn (tLev false 0) 0 0) (fun j =>
      let s := if b then tLev false 0 else (tLev false 0).updFrame fun f => { f with parked := [(0, { Hold.none with atPeer := [1], atom := true })] }
      j.removing.isNone && jobClear (abortJob 0 j.uid (s.updJob j.uid fun x => { x with removing := some false })) j.uid == b) = true) ∧
    someB (physRead (tHost 0) 0 0x5000 128) (fun bs => contextOk bs && (tHost 0).jobs.any fun j =>
      j.chip == (tHost 0).node.chip && j.part == 0 && j.jobno == fieldB bs 0x44 4) = true ∧
    someB (physRead (tHost 256) 0 0x5000 128) (fun bs => !contextOk bs) = true ∧
    (jobIn (tHost 5) 0 7).isNone = true ∧ (jobIn (tHost 5) 0 0).isSome = true ∧
    someB (jobIn (tLev false 0) 0 0) (fun j => ((liveLevel (tLev false 0) j 0x10F38).isNone && !(pastLevel (tLev false 0) j 0x10F38)) &&
      ((liveLevel (tLev false 0) j 0x10F00).map (·.cancel (tLev false 0))) == some 0 && (tLev false 0).jobs.contains j) = true := by
  decide +kernel

theorem witness_HostSide_starts : (33 : Nat) % 32 ≠ 0 ∧ (0x5000 : Nat) % 32 = 0 ∧ (tHost 5).boot = .running ∧
    ((tHost 5).partOf 0).opened = true ∧ ((tHost 5).partOf 0).doorbell.toNat ≤ 1 ∧ ringHeld (tHost 5) 0 = false ∧
    someB (physRead (tHost 5) 0 0x6000 64) (fun hd => fieldB hd 0 8 == 0 && fieldB hd 24 4 == 4 && fieldB hd 16 8 == 0x6040) = true ∧
    someB (physRead (tHost 5) 0 0x6040 64) (fun bs => fieldB bs 0 4 == 9) = true ∧
    ((tHost 5).updPart 0 fun p => { p with opened := false }).boot = .running ∧
    (((tHost 5).updPart 0 fun p => { p with opened := false }).partOf 0).opened = false := by decide +kernel

theorem witness_HostSide_memory : (hbmPart (tHost 5) 0x5800).isSome = true ∧ (hbmPart (tHost 5) 0x5803).isSome = true ∧
    State.reset.boot ≠ .running ∧
    someB ((tHost 5).keyOf ((tHost 5).partOf 0).winkey) (fun k => k.bypass && k.owner == ((tHost 5).partOf 0).num) = true ∧
    (∀ i, i < 4 → isHbm (0x5800 + i) = true ∧ ((tHost 5).partOf 0).dies.contains ((0x5800 + i) / 2 ^ 37) = true ∧
      (amGet (tHost 5).hbm (lineOf (memKey (tHost 5).node.chip 0x5800 + i))).isNone = true ∧
      (amGet (tHost 5).epochs (lineOf (memKey (tHost 5).node.chip 0x5800 + i))).getD 0 = 0) ∧
    lineOf (memKey 0 0x5800 + 4 - 1) = lineOf (memKey 0 0x5800) ∧
    (let s := (tHost 5).updPart 0 fun p => { p with opened := false }
     (s.keyOf (s.partOf 0).winkey).isSome = true ∧ (s.partOf 0).opened = false) ∧ 3 ∈ (tHost 5).hostLines := by decide +kernel

/-- Two partitions of four dies each, or all eight dies in one. -/
def split (two : Bool) : List Nat := if two then [0, 0, 0, 0, 4, 4, 4, 4] else List.replicate 8 0

theorem witness_Registers : opened (tHost 5) 0 = true ∧ opened State.reset 0 = false ∧ (t0.partOf 0).vmroots.length = 16 ∧ (t0.parts.any fun p => p.num == 0) = true ∧
    (t0.jobs.any fun j => j.chip == t0.node.chip && j.part == 0) = true ∧ State.reset.jobs = [] ∧
    (State.reset.parts.any fun p => p.num == 0) = true ∧ (t0.allGroups.map (·.uid)).Nodup ∧
    (t0.allGroups.any fun g => g.onCore && (t0.jobOf g.job).part == 0) = true ∧
    (State.reset.allGroups.all fun g => !(g.onCore && (State.reset.jobOf g.job).part == 0)) = true ∧
    (State.reset.partOf 0).queues = [[], [], []] ∧ (8 : Nat) < 9 ∧ (State.reset.partOf 0).dies.length ≤ 8 ∧
    0 < (State.reset.partOf 0).dies.length ∧ (State.reset.partOf 0).dies.getD 0 0 < 8 ∧ inHold t0 = false ∧
    inHold State.reset = true ∧ partcfgOk (split true) = true ∧ partcfgOk (split false) = true ∧ partcfgOk [0, 0, 0, 0, 0, 0, 0, 1] = false ∧
    nodecfgOk { size := 2, chip := 0, ports := [] } = false ∧
    nodecfgOk { size := 16, chip := 3, ports := (List.range 16).map fun k => if k = 3 then none else some (k, 0) } = true := by
  decide +kernel

/-- A firmware image of zeros that lays out as R395 asks. -/
def img0 (body : List Byte) : FwImage :=
  { magic := 0x4C505846, svn := 1, bodyLen := 256, rsaSig := List.replicate 384 0, slhSig := List.replicate 16224 0
    modulus := List.replicate 384 0, exponent := 3, slhKey := List.replicate 48 0, zeros := List.replicate 92 0, body := body }

theorem imageStatus_of {i : FwImage} {n : Nat} (a : headerOk i = true)
    (b : sha384 (i.modulus ++ leBytes 4 i.exponent.toNat) = Config.fusedDigests.1) (c : sha384 i.slhKey = Config.fusedDigests.2) :
    imageStatus n i = if pssVerify (beNat i.modulus) i.exponent.toNat (messageOf i) i.rsaSig = false then 3
      else if slhVerify i.slhKey (messageOf i) i.slhSig = false then 4 else if i.svn.toNat < n then 5 else 0 := by
  simp [imageStatus, a, b, c]

/-- The bytes of "abc" padded for SHA-256 as the standard shows them (log entry 91). -/
theorem test_sha_pad : narrow.pad [0x61, 0x62, 0x63] = [0x61, 0x62, 0x63, 0x80] ++ List.replicate 59 0 ++ [0x18] := by
  decide +kernel

theorem witness_BootAndPlatform_image : headerOk (img0 (List.replicate 256 0)) = true ∧ headerOk (img0 []) = false ∧
    (img0 []).svn = 1 ∧ t0.boot ≠ .tripped := by decide +kernel

/-- The first fields of an image's bytes (R395). -/
theorem test_image_head : let i := imageOf [0x46, 0x58, 0x50, 0x4C, 7, 0, 0, 0, 0, 1, 0, 0, 0, 0, 0, 0, 0xAB]
    i.magic = 0x4C505846 ∧ i.svn = 7 ∧ i.bodyLen = 256 ∧ i.rsaSig.head? = some 0xAB := by decide +kernel

theorem witness_BootAndPlatform_clocks :
    (let s : State := { State.reset with boot := .checked }
     s.agenda.isEmpty = true ∧ s.boot = .checked) ∧
    (let s (n : Nat) : State := { t0 with sensors := [(7, { current := n, power := 900, tenths := 400 })] }
     (amGet (s 16001).sensors 7).isSome = true ∧ 16000 < ((s 16001).sensors.map (·.2.current)).sum ∧
     ((s 16000).sensors.map (·.2.current)).sum ≤ 16000 ∧ ((s 16000).sensors.map (·.2.power)).sum ≤ (s 16000).pwrcap) ∧
    (∃ p, p = (t0.updPart 0 fun p => { p with coolSince := some 3, tick := 10003 }).partOf 0 ∧ p.coolSince = some 3 ∧ 3 + 10000 ≤ p.tick) ∧
    ((t0.updPart 0 fun p => { p with coolSince := none }).partOf 0).coolSince = none := by
  exact ⟨by decide +kernel, by decide +kernel, ⟨_, rfl, by decide +kernel⟩, by decide +kernel⟩

theorem witness_BootAndPlatform : (t0.parts.all fun p => p.num != 9) = true ∧ (t0.parts.any fun p => p.num == 0) = true ∧
    t0.boot = .running ∧ State.reset.boot ≠ .running ∧ (t0.parts.find? fun q => q.dies.contains 7).isSome = true ∧
    (t0.partOf 0).sync.getLsbD 0 = false ∧ ((t0.updPart 0 fun p => { p with sync := 1 }).partOf 0).sync.getLsbD 0 = true ∧
    (t0.partOf 0).lastEdge = none ∧ (t0.partOf 0).clockStep < 8 ∧ dieNumber t0 7 = 0 ∧
    (0x5800 / 128) * 128 / 2 ^ 48 = t0.node.chip ∧ (hbmPart t0 0x5800).isSome = true ∧
    (t0.partOf 0).relpol.getLsbD 1 = false ∧
    ((t0.updPart 0 fun p => { p with relpol := 3 }).partOf 0).relpol.getLsbD 1 = true := by decide +kernel

/-- A VENC record: a frame of 128 by 2 samples at 0x10C00, its ring at 0x10800, its READY phaser at 0x10820, slot 2 of
encoder 1. -/
def vencRec (flags : Nat) : List Byte :=
  [5, 1, 0, 0] ++ leBytes 4 0 ++ leBytes 8 0x10C00 ++ leBytes 8 0x10800 ++ leBytes 4 2 ++ leBytes 4 128 ++ leBytes 4 128 ++
    leBytes 4 256 ++ leBytes 4 0x10820 ++ leBytes 4 0 ++ leBytes 4 0 ++ leBytes 4 (2 * 1024 + 64 + flags) ++ List.replicate 8 0

/-- Encoder 1 holds the record, and slot 2 has its stream. -/
def tVenc (flags cap : Nat) (reading : Bool) (ph : Word) (slots : List VencSlot) : State :=
  let s := poke 0x10800 (leBytes 16 0 ++ leBytes 8 0x10A00 ++ leBytes 4 cap ++ leBytes 4 0) (poke 0x10820 ph0.bytes t0)
  let s := tCopy (fun c => { c with record := vencRec flags }) s
  let v : VencRec := { core := s.core.id, copy := 70, group := s.group.uid, job := s.group.job, record := vencRec flags, phase0 := ph
                       reading := reading, observed := 0, dropped := false }
  { s with encoders := [{ id := 1, queue := [v], slots := slots }] }

/-- The configured slot of the record's stream. -/
def slot0 (flags : Nat) : VencSlot := { slot := 2, config := (copyRecOf (vencRec flags)).stream, forceKey := false }

/-- The hypotheses on the frame's start. -/
def vencB (s : State) (p : VencRec → Word → State → Bool) : Bool :=
  s.group.core == s.core.id && someB ((encoderOf s 1).queue.find? fun y => y.rec'.slot == 2) fun v =>
    v.group == s.group.uid && v.core == s.core.id && !v.reading && okB (readPhaser s.group v.rec'.s0 s) fun r => p v r.2.1.phase r.2.2

theorem witness_Encoders_start :
    copyIs (tVenc 0 0 false 5 []) (fun c => c.rec'.does == 5 && !c.accepted && !c.held && c.rec'.enc == 1 &&
      okB (readPhaser (tVenc 0 0 false 5 []).group c.rec'.s0 (tVenc 0 0 false 5 [])) fun _ => true) = true ∧
    (encoderOf (tVenc 0 0 false 5 []) 1).queue.length < 64 ∧
    vencB (tVenc 0 0 false 5 []) (fun v p _ => p == v.phase0) = true ∧
    vencB (tVenc 0 0 false 4 []) (fun v p _ => p != v.phase0 && !v.rec'.key) = true ∧
    vencB (tVenc 0 0 false 4 [slot0 0]) (fun v p u => p != v.phase0 && !v.rec'.key &&
      ((encoderOf (tVenc 0 0 false 4 [slot0 0]) 1).slotOf 2).map (·.config) == some v.rec'.stream &&
      okB (frameReadable (u.jobOf v.job) v.rec' u) fun w => okB (arriveTaken v w) fun _ => true) = true := by decide +kernel

/-- The hypotheses on the frame's end, for the bytes that a frame without a bitstream appends. -/
def doneB (s : State) (a : Bool) : Bool :=
  someB ((encoderOf s 1).queue.find? fun y => y.rec'.slot == 2 && y.reading) fun v =>
    v.group == s.group.uid && v.core == s.core.id && (s.jobOf? v.job).isSome && someB (s.jobOf? v.job) fun j =>
      okB (appendFrame v.who j v.rec' (frameBytes v.rec' (v.rec'.key || ((encoderOf s 1).slotOf 2).map (·.forceKey) == some true) 0 [])
        { s with free := s.free + 1 }) fun r => r.1 == a && !v.dropped && someB (r.2.copyOf? 70) fun c => c.group == r.2.group.uid && !c.rec'.hasBar

theorem witness_Encoders_done (_ : Config.bitstream 0 = []) : doneB (tVenc 0 1024 true 5 [slot0 0]) true = true ∧
    doneB (tVenc 0 0 true 5 [slot0 0]) false = true := by decide +kernel

/-- A second warp of the group on the same scheduler, in the slot after the issuer's. -/
def tBehind : State := { t0 with warps := { t0.warp with uid := 9, id := 1, slot := 4 } :: t0.warps }

theorem witness_StepRunsDecoded_behind (h : ∀ n u, Config.unitAccepts n u = true) : mayIssue tBehind 9 0 = false := by
  unfold mayIssue streamReady
  simp only [h, Bool.and_true]
  decide +kernel

/-- A unit that accepts an issue at every step lets the warp go first (log entry 11). -/
theorem witness_StepRunsDecoded_pick (h : ∀ n u, Config.unitAccepts n u = true) :
    let s : State := { t0 with parts := [] }
    s.boot ≠ .tripped ∧ s.agenda.isEmpty = true ∧ pickIssue 0 (timePasses 1 { s with clock := 1 }) = some (t0.warp.uid, 0) := by
  refine ⟨by decide +kernel, by decide +kernel, ?_⟩
  unfold pickIssue readySides streamReady
  simp only [h, Bool.and_true]
  decide +kernel

theorem witness_StepRunsDecoded_agenda :
    (let s : State := { t0 with agenda := [.event (.svnup), .issue t0.warp.uid 0] }
     s.boot ≠ .tripped ∧ isEvent .svnup = true) ∧
    (let s : State := { tHeld with parts := [] }
     ((dueEvents (timePasses 1 { s with clock := 1 }))[0]?).isSome = true) ∧
    ({ t0 with boot := .tripped } : State).boot = .tripped := by decide +kernel

/-- A load of v1 is on its way. -/
def tHeld2 : State :=
  { t0 with warp := { t0.warp with staging := [{ dest := 1, all := [1], key := none, flags := [], lines := [], reuse := false }] } }

/-- The hypotheses of StepRunsDecoded on the word a warp fetches. -/
def fetchB (s : State) (p : State → List Byte → Bool) : Bool :=
  let uid := s.warp.uid
  let c := selectStream uid 0 s
  let t := selectStream uid 0 (countPassed uid s)
  let a := t.fetchAddr t.pc
  canIssue c && mayIssue s uid 0 && !c.frame.tx.active && okB (translate t t.job a accExec) fun l =>
    p (useTranslation t.job a accExec t) ((List.range 4).map fun k => homeByte t l a (memKey l.aperture (l.phys a) + k))

/-- An LDC whose result the memo holds under name 0 stands at the PC. -/
def tHit : State :=
  let s := above (poke 0x10900 (leBytes 4 0xB8100800) t0)
  let t := selectStream s.warp.uid 0 s
  let u := startIssue (settleNames (takeWords 0 0xB8100800 (useTranslation t.job (t.fetchAddr t.pc) accExec t))).1
  { s with core := { s.core with memo := (probesOf (.ldc 4 1 0 0) u).filterMap fun p => p.key.map fun k =>
      { key := k, dests := [(0, 0)], flags := [], scratch := [], globalLoad := true } } }

set_option maxRecDepth 20000 in
theorem witness_StepRunsDecoded_issue :
    fetchB (above t0) (fun u bs => bs == leBytes 4 0 && (settleNames u).2 && registersReady .nop u && stagingRoom .nop u &&
      (hitLoad .nop (startIssue (settleNames u).1)).isNone) = true ∧
    fetchB (above (poke 0x10900 (leBytes 4 0x020C0820) tHeld2)) (fun u bs => bs == leBytes 4 0x020C0820 && !registersReady (.iadd 3 1 2 0) u) = true ∧
    fetchB (above tPress) (fun u bs => bs == leBytes 4 0 && registersReady .nop u && stagingRoom .nop u && !(settleNames u).2) = true ∧
    fetchB (above (poke 0x10900 (leBytes 4 1) t0)) (fun _ bs => bs == leBytes 4 1) = true ∧
    canIssue (selectStream t0.warp.uid 0 t0) = true ∧ canIssue (selectStream tHeld.warp.uid 0 tHeld) = false ∧
    (let s := tx (fun x => { x with pending := true }) (inTx t0)
     let c := selectStream s.warp.uid 0 s
     canIssue c = true ∧ mayIssue s s.warp.uid 0 = true ∧ c.frame.tx.active = true ∧ c.frame.tx.pending = true) ∧
    (let s := t0.updFrame fun f => { f with pcs := List.replicate 32 0x800000 }
     let t := selectStream s.warp.uid 0 s
     canIssue t = true ∧ errB (translate t t.job (t.fetchAddr t.pc) accExec) = true) := by decide +kernel

theorem witness_StepRunsDecoded_hit : fetchB tHit (fun u bs => bs == leBytes 4 0xB8100800 && registersReady (.ldc 4 1 0 0) u &&
    stagingRoom (.ldc 4 1 0 0) u && (settleNames u).2 && (hitLoad (.ldc 4 1 0 0) (startIssue (settleNames u).1)).isSome) = true ∧
    decode 0xB8100800 = .ok (.ldc 4 1 0 0) := ⟨by decide +kernel, rfl⟩

theorem witness_StepRunsDecoded_words : decodeBytes (leBytes 4 0) = some (.ok .nop, []) ∧
    wordOfBytes (leBytes 4 1) = some (1, []) ∧ decode 1 = .error .opcode := by refine ⟨?_, ?_, ?_⟩ <;> rfl

theorem witness_StepKeepsMemory : (State.reset.withFetchWord 32 0x400C1800).memoryOk ∧
    (match step (State.reset.withFetchWord 32 0x400C1800) with | .next t => t.pcOf 0 == 4 | _ => false) = true :=
  ⟨⟨by decide +kernel, by decide +kernel, by decide +kernel⟩, by decide +kernel⟩
theorem smoke_operands :
    (([.icmp 0 0 1 1 0, .icmp 10 1 1 1 0, .pand 0 1 1 0, .por 0 1 1 0, .pxor 0 1 1 0, .pnot 0 1 0, .pset 0 1 0, .icmpi 0 0 1 1,
      .icmpi 10 1 1 1, .fcmp 0 0 1 1 0, .fcmp 8 1 1 1 0, .voteAny 0 1 0, .voteAll 0 1 0, .fence 0 0 4, .fence 0 6 0, .tagany 0 1 0,
      .tagall 0 1 0, .qput 0 1 1 0, .qtake 1 0 1 0, .srd 1 0x7FF, .swr 1 0x7FF, .segld 4 1] : List Instr).all
      fun i => !wellFormed i) = true := by decide +kernel

theorem smoke_wellFormed :
    (([.icmp 9 1 1 1 0, .pand 1 0 0 0, .fcmp 7 7 1 1 15, .fence 0 5 3, .srd 1 0, .swr 1 0x10, .segld 4 3] : List Instr).all
      wellFormed) = true := by decide +kernel

-- One step of an instruction, with the result that the spec gives

/-- The state after an instruction has a property. -/
def after (i : Instr) (s : State) (p : State → Bool) : Bool :=
  match exec i s with
  | .next t => p t
  | _ => false

/-- Two words in v1 and v2. -/
def two (x y : Word) : State := reg 1 x (reg 2 y t0)

/-- The word of lane 0 of v3 after an instruction on two words. -/
def gives (i : Instr) (x y r : Word) : Bool := after i (two x y) fun t => t.v 3 0 == r && t.pcOf 0 == 4

-- R174 to R177: sums wrap, the high half of a signed product, a shift by 32, a rotation, a field with a sign
theorem test_integer : gives (.iadd 3 1 2 0) 0xFFFFFFFF 1 0 && gives (.isub 3 1 2 0) 0 1 0xFFFFFFFF &&
    gives (.imulhS 3 1 2 0) 0xFFFFFFFF 2 0xFFFFFFFF && gives (.imulhN 3 1 2 0) 0xFFFFFFFF 2 1 &&
    gives (.ishr 3 1 2 0) 0x80000000 32 0 && gives (.isar 3 1 2 0) 0x80000000 40 0xFFFFFFFF &&
    gives (.irot 3 1 2 0) 0x80000001 1 3 && gives (.bfxS 3 1 2 0) 0x000000F0 0x0404 0xFFFFFFFF &&
    gives (.iminN 3 1 2 0) 0xFFFFFFFF 1 1 && gives (.iminS 3 1 2 0) 0xFFFFFFFF 1 0xFFFFFFFF = true := by decide +kernel

-- R180 to R182: leading zeros of 0, a sign from byte 0, the two halves of a constant
theorem test_unary : gives (.clz 3 1 0) 0 0 32 && gives (.sext8 3 1 0) 0x80 0 0xFFFFFF80 && gives (.brev 3 1 0) 1 0 0x80000000 &&
    gives (.movl 3 0x3FFFF) 0 0 0xFFFFFFFF && gives (.iaddi 3 1 0x7FF) 5 0 4 = true := by decide +kernel

-- R184: 1.0 + 1.0, 1.0 / 0; R189's own example of HADD2, with inexact set
theorem test_float : gives (.fadd 3 1 2 0) 0x3F800000 0x3F800000 0x40000000 && gives (.fdiv 3 1 2 0) 0x3F800000 0 0x7F800000 &&
    after (.hadd2 3 1 2 0) (two 0x7BFF3C00 0x3C003C00) (fun t => t.v 3 0 == 0x7BFF4000 && t.frame.flags.getD 0 0 == fInexact) = true := by
  decide +kernel

-- R198, R200: lane k reads lane k + 1, lane 31 reads 0; the sum of 32 ones
theorem test_lanes : after (.shflDn 3 1 2 0) (regs 1 (BitVec.ofNat 32) (reg 2 1 t0)) (fun t => t.v 3 0 == 1 && t.v 3 31 == 0) &&
    after (.redwAddS32 3 1 0) (reg 1 1 t0) (fun t => t.v 3 7 == 32) = true := by decide +kernel

-- R8, R213: bytes stand in memory lowest first, and come back with a sign
theorem test_memory : after (.st32 4 1 2 0) (reg 4 0x80818283 (reg 1 0x10800 (lane0 t0))) (fun t =>
      Memory.read t.mem 0x5800 4 == [0x83, 0x82, 0x81, 0x80]) &&
    after (.ldS8 3 1 2 0) (poke 0x10800 [0x80] (reg 1 0x10800 t0)) (fun t => t.v 3 5 == 0xFFFFFF80) = true := by decide +kernel

-- R143: a call of four words on goes there and pushes the address after it, which a return takes
theorem test_call : after (.call 0 4) t0 (fun t => t.pcOf 0 == 20 && after (.ret 0) t fun u => u.pcOf 0 == 4) = true := by
  decide +kernel

-- R361 to R363: TRAP enters the handler at offset 0 with class 21, its code as detail, and the offset after it to resume at
theorem test_trap : after (.trap 5) t0 (fun t => t.warp.level == .handler && t.pcOf 0 == 0 && t.warp.fault.ctl == 0x80000515 && t.warp.fault.rpc == 4) = true := by
  decide +kernel

-- The slab of R95's example: word 0, the first seam word, the sectors and the first seam's length
theorem test_slab :
    (let table := (List.range 16).map fun k => if k ≤ 10 then k + 1 else if k ≤ 12 then 12 else 0
     let x : Tile := { syms := [2, 1] ++ List.replicate 1022 0, scales := List.replicate 32 0x7F }
     someB (encodeSlab [none, some table] 6 1 1 x) fun bs => bs.length == 224 && fieldB bs 0 4 == 0x16A5 && fieldB bs 8 4 == 7 &&
       fieldB bs 0x30 2 == 0x403 && fieldB bs 0x40 4 == 0xB) = true := by decide +kernel

-- R6, R52: the words of the chapters' examples
theorem test_words : decode 0x6A00B100 = .ok (.xt 1 3 8) ∧ decode 0x72400080 = .ok (.ffma 16 0 8 0) ∧
    decode 0xE6041030 = .ok (.ctloadCt 1 2 3 0) := by refine ⟨?_, ?_, ?_⟩ <;> rfl

end Sys2Proof.Tests
end

/-!
Integer arithmetic, shifts, logic and bit fields (R174 to R177): what each lane function computes, in the terms of
its statement; the completion and the frame come from the laws of the lane-by-lane instructions (Laws/Ops.lean).
-/
namespace Sys2Proof.Machine

-- High halves of products (R174)

/-- Bits [63:32] of an integer taken modulo 2^64 are its floor quotient by 2^32. -/
theorem extractLsb'_ofInt_high (n : Int) :
    (BitVec.ofInt 64 n).extractLsb' 32 32 = BitVec.ofInt 32 (n / 2 ^ 32) := by
  apply BitVec.eq_of_toNat_eq
  rw [BitVec.extractLsb'_toNat, Nat.shiftRight_eq_div_pow, BitVec.toNat_ofInt, BitVec.toNat_ofInt]
  omega

theorem mulHigh_signed (x y : Word) :
    BitVec.ofInt 32 (x.toInt * y.toInt / 2 ^ 32) = (x.signExtend 64 * y.signExtend 64).extractLsb' 32 32 := by
  have h : x.signExtend 64 * y.signExtend 64 = BitVec.ofInt 64 (x.toInt * y.toInt) := (BitVec.ofInt_mul ..).symm
  rw [h, extractLsb'_ofInt_high]

theorem mulHigh_unsigned (x y : Word) :
    BitVec.ofNat 32 (x.toNat * y.toNat / 2 ^ 32) = (x.setWidth 64 * y.setWidth 64).extractLsb' 32 32 := by
  have h : x.setWidth 64 * y.setWidth 64 = BitVec.ofInt 64 ((x.toNat * y.toNat : Nat) : Int) := by
    rw [BitVec.ofInt_natCast, BitVec.ofNat_mul, BitVec.ofNat_toNat, BitVec.ofNat_toNat]
  rw [h, extractLsb'_ofInt_high]
  exact (BitVec.ofInt_natCast 32 (x.toNat * y.toNat / 2 ^ 32)).symm

-- Minimum and maximum (R175)

theorem ite_slt_eq_min (x y : Word) : (if x.slt y then x else y) = BitVec.ofInt 32 (min x.toInt y.toInt) := by
  simp only [BitVec.slt_eq_decide, decide_eq_true_eq]
  split
  · rw [min_eq_left (by omega), BitVec.ofInt_toInt]
  · rw [min_eq_right (by omega), BitVec.ofInt_toInt]

theorem ite_slt_eq_max (x y : Word) : (if x.slt y then y else x) = BitVec.ofInt 32 (max x.toInt y.toInt) := by
  simp only [BitVec.slt_eq_decide, decide_eq_true_eq]
  split
  · rw [max_eq_right (by omega), BitVec.ofInt_toInt]
  · rw [max_eq_left (by omega), BitVec.ofInt_toInt]

theorem ite_ult_eq_min (x y : Word) : (if x.ult y then x else y) = BitVec.ofNat 32 (min x.toNat y.toNat) := by
  simp only [BitVec.ult_eq_decide, decide_eq_true_eq]
  split
  · rw [min_eq_left (by omega), BitVec.ofNat_toNat, BitVec.setWidth_eq]
  · rw [min_eq_right (by omega), BitVec.ofNat_toNat, BitVec.setWidth_eq]

theorem ite_ult_eq_max (x y : Word) : (if x.ult y then y else x) = BitVec.ofNat 32 (max x.toNat y.toNat) := by
  simp only [BitVec.ult_eq_decide, decide_eq_true_eq]
  split
  · rw [max_eq_right (by omega), BitVec.ofNat_toNat, BitVec.setWidth_eq]
  · rw [max_eq_left (by omega), BitVec.ofNat_toNat, BitVec.setWidth_eq]

-- Shifts by the whole word, and rotation (R176)

/-- A count of 32 or more shifts every bit out, so the bound of the lane function changes nothing. -/
theorem ite_shiftLeft_eq (x : Word) (n : Nat) : (if n < 32 then x <<< n else 0) = x <<< n := by
  split
  · rfl
  · exact (BitVec.shiftLeft_eq_zero (by omega)).symm

theorem ite_ushiftRight_eq (x : Word) (n : Nat) : (if n < 32 then x >>> n else 0) = x >>> n := by
  split
  · rfl
  · exact (BitVec.ushiftRight_eq_zero (by omega)).symm

/-- An arithmetic shift by 32 or more leaves 32 copies of the sign. -/
theorem ite_sshiftRight_eq (x : Word) (n : Nat) :
    (if n < 32 then x.sshiftRight n else if x.getLsbD 31 then BitVec.allOnes 32 else 0) = x.sshiftRight n := by
  split
  · rfl
  · ext k hk
    rw [BitVec.getElem_sshiftRight, dif_neg (by omega), BitVec.msb_eq_getLsbD_last, Nat.add_one_sub_one]
    split
    · rename_i h31
      rw [BitVec.getElem_allOnes, h31]
    · rename_i h31
      simpa using h31

theorem rotateLeft_mod_eq (x : Word) (n : Nat) :
    x.rotateLeft (n % 32) = if n % 32 = 0 then x else (x <<< (n % 32)) ||| (x >>> (32 - n % 32)) := by
  rw [BitVec.rotateLeft_def, Nat.mod_mod]
  split
  · rename_i h
    rw [h, BitVec.ushiftRight_eq_zero (Nat.le_refl 32)]
    simp
  · rfl

-- Bit fields (R177)

theorem fieldWord_eq (y : Word) :
    fieldWord y = (y.toNat % 32, min (y.toNat / 256 % 64) (32 - y.toNat % 32)) := rfl

/-- The zero-extended field is a truncation to w bits, widened with zeros. -/
theorem zextN_eq_setWidth (x : Word) (w : Nat) : zextN x w = (x.setWidth w).setWidth 32 := by
  unfold zextN
  rw [← BitVec.toNat_setWidth, BitVec.ofNat_toNat]

/-- The sign-extended field is a truncation to w bits, widened with its top bit; a field of no bits is 0. -/
theorem sextN_eq_signExtend (x : Word) (w : Nat) : sextN x w = (x.setWidth w).signExtend 32 := by
  unfold sextN
  split
  · rename_i h
    subst h
    rw [BitVec.eq_nil (x.setWidth 0)]
    rfl
  · have top : (x.toNat % 2 ^ w).testBit (w - 1) = (x.setWidth w).msb := by
      rw [← BitVec.toNat_setWidth, BitVec.testBit_toNat, BitVec.msb_eq_getLsbD_last]
    simp only [top]
    unfold BitVec.signExtend
    rw [BitVec.toInt_eq_msb_cond, BitVec.toNat_setWidth]
    split
    · push_cast
      rfl
    · exact (BitVec.ofInt_natCast ..).symm

theorem getLsbD_zextN (x : Word) (w k : Nat) (hk : k < 32) :
    (zextN x w).getLsbD k = (decide (k < w) && x.getLsbD k) := by
  rw [zextN_eq_setWidth, BitVec.getLsbD_setWidth, BitVec.getLsbD_setWidth, decide_eq_true hk, Bool.true_and]

theorem getLsbD_sextN (x : Word) (w k : Nat) (hk : k < 32) :
    (sextN x w).getLsbD k = (decide (w ≠ 0) && x.getLsbD (min k (w - 1))) := by
  rw [sextN_eq_signExtend, BitVec.getLsbD_signExtend, decide_eq_true hk, Bool.true_and]
  split
  · rename_i h
    rw [BitVec.getLsbD_setWidth, decide_eq_true h, decide_eq_true (by omega : w ≠ 0), min_eq_left (by omega)]
  · rename_i h
    rw [BitVec.msb_eq_getLsbD_last, BitVec.getLsbD_setWidth, min_eq_right (by omega),
      show decide (w - 1 < w) = decide (w ≠ 0) from decide_eq_decide.mpr (by omega)]

/-- The mask of the w bits from bit p. -/
theorem getLsbD_fieldMask (p w k : Nat) (hk : k < 32) :
    (BitVec.ofNat 32 ((2 ^ w - 1) * 2 ^ p)).getLsbD k = decide (p ≤ k ∧ k < p + w) := by
  rw [BitVec.getLsbD_ofNat, Nat.testBit_mul_two_pow, Nat.testBit_two_pow_sub_one, decide_eq_true hk, Bool.true_and,
    ← Bool.decide_and, decide_eq_decide]
  omega

/-- Under a mask of the w bits from bit p, an insertion takes bit k from x moved up by p inside the field, and from z
outside it. -/
theorem getLsbD_insertField (x z : Word) (p w k : Nat) (hk : k < 32) :
    ((z &&& ~~~(BitVec.ofNat 32 ((2 ^ w - 1) * 2 ^ p))) |||
        ((x <<< p) &&& BitVec.ofNat 32 ((2 ^ w - 1) * 2 ^ p))).getLsbD k =
      if p ≤ k ∧ k < p + w then x.getLsbD (k - p) else z.getLsbD k := by
  simp only [BitVec.getLsbD_or, BitVec.getLsbD_and, BitVec.getLsbD_not, BitVec.getLsbD_shiftLeft,
    getLsbD_fieldMask p w k hk]
  split
  · rename_i h
    have hp : ¬k < p := by omega
    simp [h, hk, hp]
  · rename_i h
    simp [h, hk]

/-- Settles O1: the sums and low products are the lane functions as they stand; high halves, minima and maxima come into
the statement's terms by the lemmas above. -/
theorem integerArithmetic : Obligations.IntegerArithmetic := by
  unfold Obligations.IntegerArithmetic
  constructor
  · intro d a b g
    have iadd := setsWord_alu3 (i := .iadd d a b g) fun _ => rfl
    have isub := setsWord_alu3 (i := .isub d a b g) fun _ => rfl
    have imul := setsWord_alu3 (i := .imul d a b g) fun _ => rfl
    have imulhS := setsWord_alu3 (i := .imulhS d a b g) fun _ => rfl
    have imulhN := setsWord_alu3 (i := .imulhN d a b g) fun _ => rfl
    have imad := setsWord_alu4 (i := .imad d a b g) fun _ => rfl
    have iminS := setsWord_alu3 (i := .iminS d a b g) fun _ => rfl
    have iminN := setsWord_alu3 (i := .iminN d a b g) fun _ => rfl
    have imaxS := setsWord_alu3 (i := .imaxS d a b g) fun _ => rfl
    have imaxN := setsWord_alu3 (i := .imaxN d a b g) fun _ => rfl
    exact ⟨iadd, isub, imul, imulhS.congr fun _ _ => mulHigh_signed .., imulhN.congr fun _ _ => mulHigh_unsigned ..,
      imad, iminS.congr fun _ _ => ite_slt_eq_min .., iminN.congr fun _ _ => ite_ult_eq_min ..,
      imaxS.congr fun _ _ => ite_slt_eq_max .., imaxN.congr fun _ _ => ite_ult_eq_max ..⟩
  · intro d a b g
    have imadwS := setsPair_aluWide (i := .imadwS d a b g) fun _ => rfl
    have imadwN := setsPair_aluWide (i := .imadwN d a b g) fun _ => rfl
    have iadd64 := setsPair_alu64 (i := .iadd64 d a b g) fun _ => rfl
    have isub64 := setsPair_alu64 (i := .isub64 d a b g) fun _ => rfl
    exact ⟨imadwS, imadwN, iadd64, isub64⟩

/-- Settles O2: the logic forms are the lane functions as they stand, and a shift by a whole word and a rotation are those
of the library. -/
theorem shiftsAndLogic : Obligations.ShiftsAndLogic := by
  unfold Obligations.ShiftsAndLogic
  intro d a b g
  have ishl := setsWord_alu3 (i := .ishl d a b g) fun _ => rfl
  have ishr := setsWord_alu3 (i := .ishr d a b g) fun _ => rfl
  have isar := setsWord_alu3 (i := .isar d a b g) fun _ => rfl
  have irot := setsWord_alu3 (i := .irot d a b g) fun _ => rfl
  have and := setsWord_alu3 (i := .and d a b g) fun _ => rfl
  have or := setsWord_alu3 (i := .or d a b g) fun _ => rfl
  have xor := setsWord_alu3 (i := .xor d a b g) fun _ => rfl
  have andn := setsWord_alu3 (i := .andn d a b g) fun _ => rfl
  exact ⟨ishl.congr fun _ _ => ite_shiftLeft_eq .., ishr.congr fun _ _ => ite_ushiftRight_eq ..,
    isar.congr fun _ _ => ite_sshiftRight_eq .., irot.congr fun _ _ => rotateLeft_mod_eq .., and, or, xor, andn⟩

/-- Settles O3: BFX is a shift to bit 0 and an extension from w bits, BFI an insertion under the field's mask, each read
bit by bit. -/
theorem bitFields : Obligations.BitFields := by
  unfold Obligations.BitFields
  intro d a b g
  refine ⟨⟨_, setsWord_alu3 (i := .bfxN d a b g) fun _ => rfl, fun s l k hk => ?_⟩,
    ⟨_, setsWord_alu3 (i := .bfxS d a b g) fun _ => rfl, fun s l k hk => ?_⟩,
    ⟨_, setsWord_alu4 (i := .bfi d a b g) fun _ => rfl, fun s l k hk => ?_⟩⟩
  · simp only [fieldWord_eq, getLsbD_zextN _ _ _ hk, BitVec.getLsbD_ushiftRight]
  · simp only [fieldWord_eq, getLsbD_sextN _ _ _ hk, BitVec.getLsbD_ushiftRight]
  · simp only [fieldWord_eq, getLsbD_insertField _ _ _ _ _ hk]

end Sys2Proof.Machine

/-!
Shuffles, votes and MATCH (R197, R198, R200): the words and masks that the model computes over the active lanes, in
the terms of the statement; the completion and the frame come from the laws of `plain` (Laws/Ops.lean).
-/
namespace Sys2Proof.Machine

/-- An instruction that writes one register with words that may depend on which lanes are active. -/
theorem setsWord_plain_active {i : Instr} {d : Reg} {f : State → Nat → Word} {v : State → Word → Nat → Word}
    (hx : ∀ s, exec i s = plain i s fun act => s.setV d.toNat act (v s act))
    (hv : ∀ s l, v s (activeOf i s) l = f s l) : SetsWord i d f := by
  have byActive : SetsWord i d fun s => v s (activeOf i s) := setsWord_plain fun s => (hx s).trans rfl
  exact byActive.congr hv

-- Shuffles (R198)

/-- Lane number j as the lane a shuffle reads: a number from 0 to 31 that names a source lane. -/
def sourceLane (act : Word) (j : Int) : Option Nat :=
  if 0 ≤ j ∧ j < 32 ∧ act.getLsbD j.toNat then some j.toNat else none

theorem shflLane_idx (x act : Word) (l : Nat) : shflLane 0 x act l = sourceLane act x.toNat := rfl
theorem shflLane_up (x act : Word) (l : Nat) : shflLane 1 x act l = sourceLane act ((l : Int) - x.toNat) := rfl
theorem shflLane_dn (x act : Word) (l : Nat) : shflLane 2 x act l = sourceLane act ((l : Int) + x.toNat) := rfl
theorem shflLane_xor (x act : Word) (l : Nat) : shflLane 3 x act l = sourceLane act (Nat.xor l x.toNat : Nat) := rfl

/-- A read of another lane delivers its word when it is a source lane, else 0 (R197). -/
theorem elim_sourceLane (act : Word) (j : Int) (f : Nat → Word) :
    (sourceLane act j).elim 0 f = if 0 ≤ j ∧ j ≤ 31 ∧ act.getLsbD j.toNat = true then f j.toNat else 0 := by
  have bound : j < 32 ↔ j ≤ 31 := by omega
  simp only [sourceLane, bound]
  split
  · rfl
  · rfl

theorem shflExec_eq (i : Instr) (form : Nat) (d a b : Reg) (s : State) :
    shflExec i form d a b s = plain i s fun act =>
      s.setV d.toNat act fun l => (shflLane form (s.v b.toNat l) act l).elim 0 (s.v a.toNat) := by
  unfold shflExec
  congr 1
  funext act
  congr 1
  funext l
  cases shflLane form (s.v b.toNat l) act l with
  | none => rfl
  | some j => rfl

/-- A shuffle whose form makes lane l read lane j l x, where x is the lane's word of b. -/
theorem setsWord_shfl {i : Instr} {form : Nat} {d a b : Reg} {j : Nat → Word → Int}
    (hx : ∀ s, exec i s = shflExec i form d a b s)
    (hj : ∀ x act l, shflLane form x act l = sourceLane act (j l x)) :
    SetsWord i d fun s l =>
      if 0 ≤ j l (s.v b.toNat l) ∧ j l (s.v b.toNat l) ≤ 31 ∧
          (activeOf i s).getLsbD (j l (s.v b.toNat l)).toNat = true then
        s.v a.toNat (j l (s.v b.toNat l)).toNat
      else 0 :=
  setsWord_plain_active (fun s => (hx s).trans (shflExec_eq ..)) fun s l => by
    rw [hj, elim_sourceLane]

-- Votes (R200)

theorem and_ne_zero_iff (x act : Word) :
    x &&& act ≠ 0 ↔ ∃ j < 32, (act.getLsbD j && x.getLsbD j) = true := by
  constructor
  · intro h
    by_contra noBit
    refine h (BitVec.eq_of_getLsbD_eq fun j hj => ?_)
    have off : ¬(act.getLsbD j && x.getLsbD j) = true := fun on => noBit ⟨j, hj, on⟩
    simpa [Bool.and_comm] using off
  · rintro ⟨j, _, on⟩ h
    have bit := congrArg (·.getLsbD j) h
    rw [BitVec.getLsbD_and, Bool.and_comm, on] at bit
    exact Bool.noConfusion (bit.trans BitVec.getLsbD_zero)

theorem and_eq_right_iff (x act : Word) :
    x &&& act = act ↔ ∀ j < 32, (!act.getLsbD j || x.getLsbD j) = true := by
  constructor
  · intro h j _
    have bit := congrArg (·.getLsbD j) h
    simp only [BitVec.getLsbD_and] at bit
    cases ha : act.getLsbD j with
    | false => rfl
    | true => simpa [ha] using bit
  · intro h
    refine BitVec.eq_of_getLsbD_eq fun j hj => ?_
    have imp := h j hj
    rw [BitVec.getLsbD_and]
    cases ha : act.getLsbD j with
    | false => rw [Bool.and_false]
    | true => simpa [ha] using imp

/-- A predicate destination that the operand check rejects as 0 is not 0 in a well-formed instruction. -/
theorem dest_ne_zero_of_wellFormed {i : Instr} {p : Pred} (check : operandsOk i = decide (p ≠ 0))
    (h : wellFormed i = true) : p ≠ 0 := by
  have operands : operandsOk i = true := (Bool.and_eq_true_iff.mp h).2
  exact of_decide_eq_true (check.symm.trans operands)

/-- A vote's outcome, written as a mask, is the same in every lane. -/
theorem getLsbD_ite_allOnes (c : Prop) [Decidable c] {l : Nat} (hl : l < 32) :
    (if c then BitVec.allOnes 32 else (0 : Word)).getLsbD l = decide c := by
  split
  · rename_i h
    rw [BitVec.getLsbD_allOnes, decide_eq_true hl, decide_eq_true h]
  · rename_i h
    rw [decide_eq_false h]
    exact BitVec.getLsbD_zero

theorem getLsbD_voteAny (x act : Word) {l : Nat} (hl : l < 32) :
    (if x &&& act ≠ 0 then BitVec.allOnes 32 else (0 : Word)).getLsbD l =
      (List.range 32).any fun j => act.getLsbD j && x.getLsbD j := by
  rw [getLsbD_ite_allOnes _ hl, Bool.eq_iff_iff, decide_eq_true_iff, and_ne_zero_iff, List.any_eq_true]
  simp only [List.mem_range]

theorem getLsbD_voteAll (x act : Word) {l : Nat} (hl : l < 32) :
    (if x &&& act = act then BitVec.allOnes 32 else (0 : Word)).getLsbD l =
      (List.range 32).all fun j => !act.getLsbD j || x.getLsbD j := by
  rw [getLsbD_ite_allOnes _ hl, Bool.eq_iff_iff, decide_eq_true_iff, and_eq_right_iff, List.all_eq_true]
  simp only [List.mem_range]

theorem length_lanesIn_and (x act : Word) :
    (lanesIn (x &&& act)).length = (List.range 32).countP fun j => act.getLsbD j && x.getLsbD j := by
  unfold lanesIn lanes32
  rw [List.countP_eq_length_filter]
  simp only [BitVec.getLsbD_and, Bool.and_comm]

/-- Settles O13: each shuffle reads the source lane that its form names; each vote and MATCH is read off the mask that
the model builds over the active lanes. -/
theorem shufflesAndVotes : Obligations.ShufflesAndVotes := by
  unfold Obligations.ShufflesAndVotes
  constructor
  · intro d a b g
    have idx := setsWord_shfl (i := .shflIdx d a b g) (j := fun _ x => x.toNat) (fun _ => rfl) shflLane_idx
    have up := setsWord_shfl (i := .shflUp d a b g) (j := fun l x => (l : Int) - x.toNat) (fun _ => rfl) shflLane_up
    have dn := setsWord_shfl (i := .shflDn d a b g) (j := fun l x => (l : Int) + x.toNat) (fun _ => rfl) shflLane_dn
    have xor := setsWord_shfl (i := .shflXor d a b g) (j := fun l x => (Nat.xor l x.toNat : Nat)) (fun _ => rfl)
      shflLane_xor
    exact ⟨idx, up, dn, xor⟩
  · intro p q d a g
    have any := setsPred_plain (i := .voteAny p q g) (p := p)
      (v := fun s act => if s.pred q &&& act ≠ 0 then BitVec.allOnes 32 else 0)
      (dest_ne_zero_of_wellFormed rfl) (fun _ => rfl) fun _ _ hl _ => getLsbD_voteAny _ _ hl
    have all := setsPred_plain (i := .voteAll p q g) (p := p)
      (v := fun s act => if s.pred q &&& act = act then BitVec.allOnes 32 else 0)
      (dest_ne_zero_of_wellFormed rfl) (fun _ => rfl) fun _ _ hl _ => getLsbD_voteAll _ _ hl
    have ballot := setsWord_plain_active (i := .voteBallot d q g) (d := d)
      (v := fun s act _ => s.pred q &&& act) (fun _ => rfl) fun _ _ => rfl
    have count := setsWord_plain_active (i := .voteCount d q g) (d := d)
      (v := fun s act _ => BitVec.ofNat 32 (lanesIn (s.pred q &&& act)).length)
      (fun _ => rfl) fun _ _ => congrArg (BitVec.ofNat 32) (length_lanesIn_and ..)
    have matchL := setsWord_plain_active (i := .matchL d a g) (d := d)
      (v := fun s act l => act &&& maskOf fun j => s.v a.toNat j == s.v a.toNat l) (fun _ => rfl) fun _ _ => rfl
    refine ⟨any, all, ⟨_, ballot, fun s l j _ => ?_⟩, count, ⟨_, matchL, fun s l j hj => ?_⟩⟩
    · rw [BitVec.getLsbD_and, Bool.and_comm]
    · rw [BitVec.getLsbD_and, getLsbD_maskOf, decide_eq_true hj, Bool.true_and]
      rfl

end Sys2Proof.Machine
